-- ==== Sys2Proof/Word.lean ====
section
/-! DEFINITION. The word types of the KX460: bytes, sequence numbers, counters and times. -/

namespace Sys2Proof

/-- One byte (12, "Multi-byte fields are big-endian"). -/
abbrev Byte := BitVec 8

/-- A timebase value: a 32-bit count of microseconds (00_scope.md, Units and fixed capacities). -/
abbrev Time := BitVec 32

/-- A sequence number, 0..4095, which wraps (R1, R111). -/
abbrev SeqNo := BitVec 12

/-- A statistics counter, 32 bits (R177). -/
abbrev Counter := BitVec 32

/-- A 16-bit word: aux, message check, tag, generation, session number. -/
abbrev Half := BitVec 16

/-- A 32-bit word: image checks. -/
abbrev Word32 := BitVec 32

/-- One mark for each stream 0..4094 (R19, R32). Bit `k` is stream `k`'s mark. -/
abbrev StreamMarks := BitVec 4095

end Sys2Proof
end

