-- ==== Sys2Proof/Config.lean ====
section
/-! DEFINITION. The fixed capacities of the KX460 (00_scope.md, Units and fixed capacities), and the one free value: the
order of an IDENTIFY's reads. -/

namespace Sys2Proof

/-- The blocks whose groups an IDENTIFY response gathers, each read in one happening (R137). -/
inductive IdBlock where
  | laneA | laneB | table | pool | merge | reassembly | delivery | slicer | timebase
deriving DecidableEq, Repr

namespace Config

/-- Streams that have a merge record, an assembly state and counters: 0..4094 (R32, R58, R177). -/
def numStreams : Nat := 4095

/-- The management stream. -/
def mgmtStream : Nat := 0

/-- The probe stream. -/
def probeStream : Nat := 4094

/-- The stream number that marks an idle block (R3). -/
def idleMark : Nat := 4095

/-- Payload bytes a slice can carry (R1). -/
def maxFill : Nat := 56

/-- Bytes in a block on a lane (R187). -/
def blockBytes : Nat := 64

/-- Blocks in the buffer pool (R80). -/
def poolBlocks : Nat := 4096

/-- Entries in the held-slice table (R33). -/
def heldEntries : Nat := 512

/-- Contexts in the reassembly engine (R59). -/
def numContexts : Nat := 64

/-- Slice copies a lane FIFO holds (R12). -/
def laneFifoSize : Nat := 64

/-- Frames the transmit FIFO holds (R107). -/
def txFifoSize : Nat := 32

/-- Requests a share holds (R123, R124). -/
def shareSize : Nat := 4

/-- Response buffers of each source (R126). -/
def respBufs : Nat := 2

/-- Entries the abandon log holds (R182). -/
def logSize : Nat := 32

/-- Consecutive passing blocks that enter UP (R6). -/
def confirmsForUp : Nat := 6

/-- Consecutive failing blocks that end UP (R7). -/
def failuresEndUp : Nat := 4

/-- Microseconds in one unit of the assembly limit (R20). -/
def assemblyUnit : Nat := 100

/-- Microseconds in one unit of the load idle timeout (R24). -/
def idleUnit : Nat := 100000

/-- The probe deadline in microseconds (R170). -/
def probeTimeout : Nat := 20000

/-- The groups the IDENTIFY of a number reads one by one before it reads what is left and answers: R137 gives neither the
order of its reads nor which stand together (log 12). -/
opaque identifyPlan : Nat → List IdBlock

end Config

end Sys2Proof
end

