-- ==== Sys2Proof/Machine/SMap.lean ====
section
/-! DEFINITION. Per-stream tables as sparse lists of (stream, value) pairs in one canonical form: streams strictly
rising, and no entry equal to the default of its stream. The default is a function of the stream, because the
default contents of R21 differ between streams 0, 1..4093 and 4094. -/

namespace Sys2Proof.Machine

/-- A sparse table keyed by stream number. -/
abbrev SMap (α : Type) := List (Nat × α)

/-- The entry listed for a key, if any. -/
def SMap.find? {α : Type} : SMap α → Nat → Option α
  | [], _ => none
  | e :: m, k => if e.1 = k then some e.2 else SMap.find? m k

/-- The value at a key: the listed one, or the key's default. -/
def SMap.get {α : Type} (d : Nat → α) (m : SMap α) (k : Nat) : α := (SMap.find? m k).getD (d k)

/-- The table without the key. -/
def SMap.drop {α : Type} (m : SMap α) (k : Nat) : SMap α := m.filter (fun e => e.1 != k)

/-- The table with a pair put at its place in rising order of keys. -/
def SMap.put {α : Type} : SMap α → Nat → α → SMap α
  | [], k, v => [(k, v)]
  | e :: m, k, v => if k < e.1 then (k, v) :: e :: m else e :: SMap.put m k v

/-- The table with the key's value replaced. Writing the default removes the entry. -/
def SMap.set {α : Type} [DecidableEq α] (d : Nat → α) (m : SMap α) (k : Nat) (v : α) : SMap α :=
  if v = d k then SMap.drop m k else SMap.put (SMap.drop m k) k v

/-- The canonical form. -/
abbrev SMap.wf {α : Type} (d : Nat → α) (m : SMap α) : Prop :=
  (m.map (·.1)).Pairwise (· < ·) ∧ ∀ e ∈ m, e.2 ≠ d e.1

end Sys2Proof.Machine
end

