-- ==== Sys2Proof/Machine/Types.lean ====
section
/-! DEFINITION. The names and records of the KX460: positions, states, reasons, slices, table entries. -/

namespace Sys2Proof

/-- The two backbone links. -/
inductive LaneId where
  | a | b
deriving DecidableEq, Repr

/-- Where a slice came from: Lane A, Lane B or the loop path (R33, R47). -/
inductive Path where
  | a | b | loop
deriving DecidableEq, Repr

namespace Machine

/-- A slice's place in its message (R1). -/
inductive Position where
  | middle | first | last | only
deriving DecidableEq, Repr

/-- The alignment state of a lane's receive side (R4). -/
inductive Align where
  | disabled | down | hunt | confirm | up
deriving DecidableEq, Repr

/-- The two management routes (00_scope.md, Conventions, Software). -/
inductive Source where
  | backbone | localPort
deriving DecidableEq, Repr

/-- A stream's lane mask: A, B or both (R20). -/
inductive LaneMask where
  | onlyA | onlyB | both
deriving DecidableEq, Repr

/-- A source's permission level (R24). -/
inductive Policy where
  | full | readOnly
deriving DecidableEq, Repr

/-- The four delivery queues (R91). -/
inductive QueueId where
  | dq0 | dq1 | dq2 | dq3
deriving DecidableEq, Repr

/-- How a load session prepares the shadow bank (R149). -/
inductive OpenMode where
  | clean | copy
deriving DecidableEq, Repr

/-- The assembly states of R58. -/
inductive AsmState where
  | idle | assembling | discarding
deriving DecidableEq, Repr

/-- The slice-discard reasons of R177, in its order. -/
inductive DiscardReason where
  | streamDisabled | laneFiltered | duplicate | stale | noHoldEntry | noBuffer | orphan
deriving DecidableEq, Repr

/-- The abandon reasons of R177, in its order. -/
inductive AbandonReason where
  | gap | truncated | oversize | badDeclared | lengthMismatch | checkFailed | stall | noContext | queueFull
  | flushed | reconfigured | resync
deriving DecidableEq, Repr

/-- The event counters of R177, in its order. -/
inductive EventCounter where
  | resyncEvents | mgmtDropped | mgmtOversize | probeStray | txBadStream | txDisabled | txOversize | idleTimeouts
deriving DecidableEq, Repr

/-- The fifteen requests of chapter 8. -/
inductive ReqKind where
  | identify | readStream | readMergeState | flushStream | restart
  | loadOpen | loadRecords | loadCommit | loadAbort | loadStatus
  | probe | readCounters | clearCounters | readLog | clearLog
deriving DecidableEq, Repr

/-- The fifteen statuses of R134. -/
inductive Status where
  | ok | denied | badRequest | badStream | notEnabled | noSession | wrongSession | sessionOwned | sessionOpen
  | outOfOrder | alreadyLoaded | badRecord | countMismatch | checkMismatch | alreadyCommitted
deriving DecidableEq, Repr

/-- The seven parts a restart tells (R142). -/
inductive Part where
  | laneA | laneB | merge | reassembly | delivery | submission | slicer
deriving DecidableEq, Repr

/-- A deadline on the timebase: the moment it is counted from and the moment it is reached. -/
structure Deadline where
  since : Time
  due : Time
deriving DecidableEq, Repr

/-- The content of one pool block: the payload bytes of one slice (R80, log 4). -/
abbrev Block := List Byte

/-- A set of lanes and the loop path (R59, lanes used). -/
structure LaneSet where
  a : Bool
  b : Bool
  loop : Bool
deriving DecidableEq, Repr

/-- A slice as R11 hands it on. Its fill is the number of its payload bytes. -/
structure Slice where
  stream : Nat
  pos : Position
  seq : SeqNo
  aux : Half
  payload : Block
deriving DecidableEq, Repr

/-- A stream entry: the ten fields of R20. -/
structure Entry where
  rxEnable : Bool
  txEnable : Bool
  rxMask : LaneMask
  txMask : LaneMask
  window : Nat
  holdTime : Nat
  asmLimit : Nat
  maxLen : Nat
  checkEnable : Bool
  queue : QueueId
deriving DecidableEq, Repr

/-- A value for each delivery queue. -/
structure PerQueue (α : Type) where
  q0 : α
  q1 : α
  q2 : α
  q3 : α
deriving DecidableEq, Repr

/-- The global record: the nine fields of R24. -/
structure GlobalRec where
  ceiling : Nat
  staleThreshold : Nat
  rxEnableA : Bool
  txEnableA : Bool
  rxEnableB : Bool
  txEnableB : Bool
  idleTimeout : Nat
  backbonePolicy : Policy
  localPolicy : Policy
deriving DecidableEq, Repr

/-- One bank of the stream table (R17). -/
structure Bank where
  entries : SMap Entry
  capacities : PerQueue Nat
  glob : GlobalRec
deriving DecidableEq, Repr

/-- A load record as R152 and R191 read it: it writes one whole item. -/
inductive LoadRec where
  | stream (k : Nat) (e : Entry)
  | queue (q : QueueId) (capacity : Nat)
  | glob (g : GlobalRec)
deriving DecidableEq, Repr

end Machine
end Sys2Proof
end

