-- ==== Sys2Proof/Syntax.lean ====
section
/-! DEFINITION. The commands of the KX460: one constructor for each row of spec/opcode_table.json. Operands are what
comes from outside the part, or what selects among the part's own waiting work. -/

namespace Sys2Proof

/-- The commands. `bytes` are what a lane has received since the command before; a `data` byte is a byte that passes on
the local port's input, with its start and end marks (R188). -/
inductive Instr where
  /-- RESET_ASSERT (R192) -/
  | resetAssert
  /-- HARD_RESET (R192): release of the reset pin -/
  | hardReset
  /-- POWER_ON (R192) -/
  | powerOn
  /-- SIGNAL_LOSS (R8) -/
  | signalLoss (lane : LaneId)
  /-- SIGNAL_REGAIN (R8) -/
  | signalRegain (lane : LaneId)
  /-- HUNT_CANDIDATE (R5): bytes arrive, and the candidate at the search position is tested -/
  | huntCandidate (lane : LaneId) (bytes : List Byte)
  /-- CONFIRM_BLOCK (R6): bytes arrive, and the block at the trial spacing is tested -/
  | confirmBlock (lane : LaneId) (bytes : List Byte)
  /-- UP_BLOCK (R10, R7): bytes arrive, and the next block is tested -/
  | upBlock (lane : LaneId) (bytes : List Byte)
  /-- LINE_BLOCK_END (R13) -/
  | lineBlockEnd (lane : LaneId)
  /-- SLICE_TAKEN (R35): the merge unit takes the next slice handed on by a lane or the loop path -/
  | sliceTaken (path : Path)
  /-- HOLD_EXPIRY (R45) -/
  | holdExpiry (stream : Nat)
  /-- SWEEP_VISIT (R52) -/
  | sweepVisit
  /-- COMMIT_SWEEP_END (R158) -/
  | commitSweepEnd
  /-- REASSEMBLY_SLICE_TAKEN (R61): the engine takes a stream's next item, a passed slice -/
  | reassemblySliceTaken (stream : Nat)
  /-- ASSEMBLY_DEADLINE (R67) -/
  | assemblyDeadline (stream : Nat)
  /-- ABANDON_REQUEST_TAKEN (R69): the engine takes a stream's next item, an abandon request -/
  | abandonRequestTaken (stream : Nat)
  /-- TRANSFER_START (R95) -/
  | transferStart
  /-- TRANSFER_END (R96) -/
  | transferEnd
  /-- HOLD_ASSERT (R97) -/
  | holdAssert
  /-- HOLD_RELEASE (R97) -/
  | holdRelease
  /-- DATA_HEADER (R99): the byte that completes a DATA submission header -/
  | dataHeader (data : Byte) (endMark : Bool)
  /-- WAITING_RETRY (R100) -/
  | waitingRetry
  /-- MGMT_HEADER (R102): the byte that completes a MGMT submission header -/
  | mgmtHeader (data : Byte) (endMark : Bool)
  /-- DATA_FRAME_COMPLETE (R101): the end-marked byte that completes a DATA frame -/
  | dataFrameComplete (data : Byte)
  /-- MGMT_FRAME_COMPLETE (R102): the end-marked byte that completes a MGMT frame -/
  | mgmtFrameComplete (data : Byte)
  /-- LENGTH_FAULT (R103): a byte at which a frame's length is found wrong -/
  | lengthFault (data : Byte) (endMark : Bool)
  /-- ABSORBING_END (R103): the end-marked byte that ends absorbing -/
  | absorbingEnd (data : Byte)
  /-- SLICER_TAKE_MESSAGE (R109) -/
  | slicerTakeMessage
  /-- SLICE_CUT (R110) -/
  | sliceCut
  /-- EXECUTOR_TAKE (R127) -/
  | executorTake
  /-- IDENTIFY (R137) -/
  | identify
  /-- READ_STREAM (R138) -/
  | readStream
  /-- READ_MERGE_STATE (R139) -/
  | readMergeState
  /-- FLUSH_STREAM (R140) -/
  | flushStream
  /-- RESTART (R142) -/
  | restart
  /-- LANE_TX_RESTART (R16) -/
  | laneTxRestart (lane : LaneId)
  /-- MERGE_RESTART (R56) -/
  | mergeRestart
  /-- REASSEMBLY_RESTART (R79) -/
  | reassemblyRestart
  /-- DELIVERY_RESTART (R104) -/
  | deliveryRestart
  /-- SUBMISSION_RESTART (R105) -/
  | submissionRestart
  /-- SLICER_RESTART (R118) -/
  | slicerRestart
  /-- LOAD_OPEN (R148) -/
  | loadOpen
  /-- LOAD_OPEN_PREPARED (R149) -/
  | loadOpenPrepared
  /-- LOAD_RECORDS (R151) -/
  | loadRecords
  /-- LOAD_COMMIT (R156) -/
  | loadCommit
  /-- LOAD_ABORT (R160) -/
  | loadAbort
  /-- LOAD_STATUS (R163) -/
  | loadStatus
  /-- LOAD_IDLE_TIMEOUT (R162) -/
  | loadIdleTimeout
  /-- PROBE (R168) -/
  | probe
  /-- PROBE_TIMEOUT (R173) -/
  | probeTimeout
  /-- READ_COUNTERS (R179) -/
  | readCounters
  /-- CLEAR_COUNTERS (R180) -/
  | clearCounters
  /-- READ_LOG (R184) -/
  | readLog
  /-- CLEAR_LOG (R185) -/
  | clearLog
  /-- SUBMISSION_BYTE (R98): a byte passes on the local port's input -/
  | submissionByte (data : Byte) (startMark endMark : Bool)
deriving DecidableEq, Repr

end Sys2Proof
end

