-- ==== Sys2Proof/Machine/Defaults.lean ====
section
/-! DEFINITION. The default contents of a bank (R21). -/

namespace Sys2Proof.Machine

/-- The default stream entry of R21: streams 0 and 4094 are enabled and carry at most 1024 bytes. -/
def Entry.dflt (k : Nat) : Entry :=
  let special := k = Config.mgmtStream ∨ k = Config.probeStream
  { rxEnable := decide special
    txEnable := decide special
    rxMask := .both
    txMask := .both
    window := 8
    holdTime := 200
    asmLimit := 50
    maxLen := if special then 1024 else 4096
    checkEnable := true
    queue := .dq0 }

/-- The default global record (R21, R24). -/
def GlobalRec.dflt : GlobalRec :=
  { ceiling := 3584
    staleThreshold := 16
    rxEnableA := true
    txEnableA := true
    rxEnableB := true
    txEnableB := true
    idleTimeout := 20
    backbonePolicy := .full
    localPolicy := .full }

/-- A bank at the default contents (R21). -/
def Bank.dflt : Bank := { entries := [], capacities := ⟨64, 64, 64, 64⟩, glob := GlobalRec.dflt }

/-- The block a lane sends when it has no slice: the header 0xFF 0xF0 0 0 0 0 0 0x7B and 56 zero bytes
(R3, R187). -/
def idleBlock : List Byte := [0xFF, 0xF0, 0, 0, 0, 0, 0, 0x7B] ++ List.replicate Config.maxFill 0

end Sys2Proof.Machine
end

