-- ==== Sys2Proof/Machine/State.lean ====
section
/-! DEFINITION. Everything the KX460 holds, as plain data, and its values after a hard reset. -/

namespace Sys2Proof.Machine

/-- What a lane's transmit line is doing (R13): nothing while the reset pin is asserted, else sending a block.
`copy` says whether the block is a slice copy from the lane FIFO. -/
inductive Line where
  | silent
  | sending (block : List Byte) (copy : Bool)
deriving DecidableEq, Repr

/-- A lane interface. -/
structure Lane where
  /-- signal-detect's level (R8) -/
  signal : Bool
  /-- the bytes received and not yet gone past: the first is at the search position in HUNT, and begins the next block
  at the boundary in CONFIRM and UP (R5 to R9) -/
  rx : List Byte
  /-- alignment state (R4) -/
  align : Align
  /-- confirm count (R4) -/
  confirm : Nat
  /-- failure run (R4) -/
  failRun : Nat
  /-- good slices handed to the merge unit and not yet taken, oldest first (R11) -/
  handed : List Slice
  /-- the lane FIFO, head first (R12) -/
  fifo : List Slice
  /-- the transmit line (R13) -/
  line : Line
deriving DecidableEq, Repr

/-- A held-slice table entry in use (R33). -/
structure Held where
  slice : Slice
  arrival : Time
  path : Path
deriving DecidableEq, Repr

/-- A merge record (R32). `sync` is E when SYNCED; `timer` is the oldest-held arrival time and the hold deadline. The
pending-flush mark is in `MergeUnit.pendingFlush`. -/
structure MergeRec where
  sync : Option SeqNo
  held : List Held
  timer : Option Deadline
  staleRun : Nat
deriving DecidableEq, Repr

/-- An UNSYNCED record that holds nothing (R32, R55). -/
def MergeRec.fresh : MergeRec := { sync := none, held := [], timer := none, staleRun := 0 }

/-- The merge unit (R32). -/
structure MergeUnit where
  recs : SMap MergeRec
  pendingFlush : StreamMarks
deriving DecidableEq, Repr

/-- A bound context (R59). `timer` is its start time and assembly deadline. `lastSeq` is the sequence of the last
slice appended, which R71 reports. -/
structure Ctx where
  stream : Nat
  blocks : List Block
  declared : Nat
  gathered : Nat
  check : Half
  lanes : LaneSet
  timer : Deadline
  lastSeq : SeqNo
deriving DecidableEq, Repr

/-- What the merge unit sends the engine (R60): passed slices (R47) and abandon requests. -/
inductive Item where
  | slice (sl : Slice) (path : Path) (gap : Bool)
  | abandon (stream : Nat) (reason : AbandonReason)
deriving DecidableEq, Repr

/-- The stream an item is for. -/
def Item.stream : Item → Nat
  | .slice sl _ _ => sl.stream
  | .abandon k _ => k

/-- The reassembly engine (R58, R59, R60). A stream is ASSEMBLING when a context is bound to it. -/
structure Engine where
  discarding : StreamMarks
  ctxs : List Ctx
  items : List Item
deriving DecidableEq, Repr

/-- The buffer pool's three counts (R80). -/
structure Pool where
  free : Nat
  rx : Nat
  tx : Nat
deriving DecidableEq, Repr

/-- A message descriptor (R91). -/
structure Descriptor where
  stream : Nat
  length : Nat
  lanes : LaneSet
  blocks : List Block
deriving DecidableEq, Repr

/-- The transfer in progress (R95, R96): of a delivery queue's message, or of a response from MQ. -/
inductive Transfer where
  | data (q : QueueId) (d : Descriptor)
  | mgmt (response : List Byte)
deriving DecidableEq, Repr

/-- A byte on the port's output with its marks (R188). -/
structure OutByte where
  data : Byte
  startMark : Bool
  endMark : Bool
  error : Bool
deriving DecidableEq, Repr

/-- The delivery side of the local port. -/
structure Delivery where
  dqs : PerQueue (List Descriptor)
  mq : List (List Byte)
  transfer : Option Transfer
  hold : Bool
  /-- the bytes presented of the delivery in transfer, or else of the last one, in order (R96, R188) -/
  out : List OutByte
  /-- output valid: the last byte of `out` is on the output (R188) -/
  valid : Bool
deriving DecidableEq, Repr

/-- The submission side (R98). `got` is what has been taken of the header or the payload; `left` is what ABSORBING
still expects of the declared length. -/
inductive Submission where
  | idle
  | header (got : List Byte)
  | waitingData (stream : Nat) (length : Nat)
  | waitingMgmt (length : Nat)
  | loadingData (stream : Nat) (length : Nat) (got : List Byte)
  | loadingMgmt (length : Nat) (got : List Byte)
  | absorbing (left : Nat)
deriving DecidableEq, Repr

/-- A frame in the transmit FIFO (R107). -/
structure Frame where
  stream : Nat
  length : Nat
  blocks : List Block
deriving DecidableEq, Repr

/-- A backbone-bound output (R108). -/
inductive Output where
  | response (bytes : List Byte)
  | probe (bytes : List Byte)
deriving DecidableEq, Repr

/-- What kind of message the slicer is slicing (R108, R109). -/
inductive JobKind where
  | data | response | probe
deriving DecidableEq, Repr

/-- The message being sliced (R110): the pieces not yet cut, the slices cut so far, and the message check carried over
them (R112). -/
structure Job where
  kind : JobKind
  stream : Nat
  length : Nat
  pieces : List Block
  cut : Nat
  check : Half
deriving DecidableEq, Repr

/-- The slicer's state (R109). -/
inductive SlicerState where
  | idle
  | slicing (j : Job)
  | stalled (j : Job) (sl : Slice) (eligible : LaneSet)
deriving DecidableEq, Repr

/-- The slicer with the transmit FIFO, the outputs, the transmit sequences and the loop path. -/
structure Slicer where
  fifo : List Frame
  outputs : List Output
  state : SlicerState
  seqs : SMap SeqNo
  loop : List Slice
deriving DecidableEq, Repr

/-- The stream table (R17, R18, R19). `active` is the number of the active bank, false for bank 0. -/
structure Table where
  bank0 : Bank
  bank1 : Bank
  active : Bool
  generation : Half
  lastCommitted : Half
  touched : StreamMarks
  queuesTouched : Bool
  globalTouched : Bool
deriving DecidableEq, Repr

/-- A request in a share or executing (R123, R124). -/
structure Request where
  source : Source
  bytes : List Byte
  position : Nat
deriving DecidableEq, Repr

/-- The probe record (R167). It is AWAITING when `await` gives the slices sent and the deadline, else SENDING. -/
structure ProbeRec where
  length : Nat
  buffer : List Byte
  start : Time
  await : Option (Nat × Deadline)
deriving DecidableEq, Repr

/-- The groups of an IDENTIFY response that have been read so far (R137). -/
structure IdReads where
  laneA : Option Align
  laneB : Option Align
  /-- generation, active bank -/
  table : Option (Half × Bool)
  pool : Option Pool
  /-- held-slice entries in use -/
  merge : Option Nat
  /-- contexts bound -/
  reassembly : Option Nat
  /-- DQ0..DQ3 occupancy, MQ entries -/
  delivery : Option (PerQueue Nat × Nat)
  /-- transmit FIFO frames -/
  slicer : Option Nat
  timebase : Option Time
deriving DecidableEq, Repr

/-- A request that reads several blocks, between its reads: an IDENTIFY with what it has read and the groups it goes on to
read one by one (R137), or a READ_MERGE_STATE with the merge record and the pending-flush mark it has read (R139). -/
inductive Reading where
  | identify (x : IdReads) (plan : List IdBlock)
  | mergeState (record : MergeRec) (marked : Bool)
deriving DecidableEq, Repr

/-- The executor (R127, R129): IDLE, or EXECUTING a request. `ready`: the checks of R130 to R132 have passed and the
request is to be carried out; the others hold the executor while work at other blocks goes on. -/
inductive Executor where
  | idle
  | ready (r : Request) (kind : ReqKind)
  | reading (r : Request) (x : Reading)
  | preparing (r : Request) (mode : OpenMode) (count : Nat) (check : Word32)
  | sweeping (r : Request) (left : List Nat) (total : Nat)
  | probing (r : Request) (p : ProbeRec)
  | restarting (r : Request) (todo : List Part)
deriving DecidableEq, Repr

/-- A load session (R146): OPEN with its idle deadline, or COMMITTING when there is none. -/
structure Session where
  number : Half
  owner : Source
  mode : OpenMode
  declared : Nat
  declaredCheck : Word32
  next : Nat
  running : Word32
  idle : Option Deadline
deriving DecidableEq, Repr

/-- The management engine. `session` is none in NONE. -/
structure Mgmt where
  bbShare : List Request
  lpShare : List Request
  nextIntake : Nat
  bbBufs : Nat
  lpBufs : Nat
  executor : Executor
  session : Option Session
  sessionCounter : Half
  /-- how often the free value `Config.identifyPlan` has been read: the model's own field (log 12) -/
  choices : Nat
deriving DecidableEq, Repr

/-- A stream's counters (R177). -/
structure StreamCounters where
  passed : Counter
  duplicates : Counter
  delivered : Counter
  abandoned : Counter
deriving DecidableEq, Repr

/-- A stream's counters at 0. -/
def StreamCounters.zero : StreamCounters := ⟨0, 0, 0, 0⟩

/-- A lane's counters, in the order of R177. -/
structure LaneCounters where
  good : Counter
  badHeader : Counter
  malformed : Counter
  alignLoss : Counter
  won : Counter
  sent : Counter
  overrun : Counter
deriving DecidableEq, Repr

/-- A lane's counters at 0. -/
def LaneCounters.zero : LaneCounters := ⟨0, 0, 0, 0, 0, 0, 0⟩

/-- The 27 global counters, in the order of R177. -/
structure Globals where
  streamDisabled : Counter
  laneFiltered : Counter
  duplicate : Counter
  stale : Counter
  noHoldEntry : Counter
  noBuffer : Counter
  orphan : Counter
  gap : Counter
  truncated : Counter
  oversize : Counter
  badDeclared : Counter
  lengthMismatch : Counter
  checkFailed : Counter
  stall : Counter
  noContext : Counter
  queueFull : Counter
  flushed : Counter
  reconfigured : Counter
  resync : Counter
  resyncEvents : Counter
  mgmtDropped : Counter
  mgmtOversize : Counter
  probeStray : Counter
  txBadStream : Counter
  txDisabled : Counter
  txOversize : Counter
  idleTimeouts : Counter
deriving DecidableEq, Repr

/-- The global counters at 0. -/
def Globals.zero : Globals :=
  ⟨0, 0, 0, 0, 0, 0, 0, 0, 0, 0, 0, 0, 0, 0, 0, 0, 0, 0, 0, 0, 0, 0, 0, 0, 0, 0, 0⟩

/-- An abandon-log entry (R182). -/
structure LogEntry where
  time : Time
  stream : Nat
  reason : AbandonReason
  seq : SeqNo
  gathered : Nat
  laneA : Align
  laneB : Align
deriving DecidableEq, Repr

/-- The statistics unit: counters, the abandon log (oldest first) and the overwrite count (R177, R182). -/
structure Stats where
  streams : SMap StreamCounters
  laneA : LaneCounters
  laneB : LaneCounters
  glob : Globals
  log : List LogEntry
  overwrites : Half
deriving DecidableEq, Repr

/-- The whole part, and the commands that wait. -/
structure State where
  /-- the reset pin is asserted (R192) -/
  inReset : Bool
  /-- the timebase, in microseconds -/
  time : Time
  laneA : Lane
  laneB : Lane
  merge : MergeUnit
  engine : Engine
  pool : Pool
  delivery : Delivery
  sub : Submission
  slicer : Slicer
  table : Table
  mgmt : Mgmt
  stats : Stats
  /-- the commands that wait, first in first out: the model's own field -/
  pending : List Instr
deriving DecidableEq, Repr

/-- Why a command faults. The KX460 has no fault state: whatever goes wrong is counted, logged or answered with a
status, and the part goes on. No command raises a fault, so there is no constructor. -/
inductive Fault where
deriving DecidableEq, Repr

/-- Why a command is refused. -/
inductive Refusal where
  /-- Raised by `exec` alone, in an arm whose command has no meaning yet. Safe: a refused command proves nothing. -/
  | notModelled (mnemonic : String)
deriving DecidableEq, Repr

/-- A lane after a hard reset with no signal on it (R15, log 5). -/
def Lane.reset : Lane :=
  { signal := false
    rx := []
    align := .down
    confirm := 0
    failRun := 0
    handed := []
    fifo := []
    line := .sending idleBlock false }

/-- The part right after a hard reset, with no signal on either lane, hold inactive (log 5) and nothing waiting
(R15, R30, R55, R78, R89, R106, R122, R145, R165, R176, R186, R192). -/
def State.reset : State :=
  { inReset := false
    time := 0
    laneA := Lane.reset
    laneB := Lane.reset
    merge := { recs := [], pendingFlush := 0 }
    engine := { discarding := 0, ctxs := [], items := [] }
    pool := { free := Config.poolBlocks, rx := 0, tx := 0 }
    delivery := { dqs := ⟨[], [], [], []⟩, mq := [], transfer := none, hold := false, out := [], valid := false }
    sub := .idle
    slicer := { fifo := [], outputs := [], state := .idle, seqs := [], loop := [] }
    table :=
      { bank0 := Bank.dflt
        bank1 := Bank.dflt
        active := false
        generation := 0
        lastCommitted := 0
        touched := 0
        queuesTouched := false
        globalTouched := false }
    mgmt :=
      { bbShare := []
        lpShare := []
        nextIntake := 0
        bbBufs := 0
        lpBufs := 0
        executor := .idle
        session := none
        sessionCounter := 0
        choices := 0 }
    stats :=
      { streams := []
        laneA := LaneCounters.zero
        laneB := LaneCounters.zero
        glob := Globals.zero
        log := []
        overwrites := 0 }
    pending := [] }

end Sys2Proof.Machine
end

