-- ==== Sys2Proof/Machine/Operands.lean ====
section
/-! DEFINITION. Every byte layout of chapter 12: the two CRCs, slice headers and blocks, the local port's headers,
request and response headers, and load records with their checks. -/

namespace Sys2Proof.Machine

/-! ## Big-endian fields (chapter 12) -/

/-- A count in one byte. -/
def byteOf (n : Nat) : Byte := BitVec.ofNat 8 n

/-- A 16-bit word as two bytes, most significant first. -/
def be16 (w : Half) : List Byte := [w.extractLsb' 8 8, w.extractLsb' 0 8]

/-- A count as two bytes, most significant first. -/
def be16n (n : Nat) : List Byte := be16 (BitVec.ofNat 16 n)

/-- A 32-bit word as four bytes, most significant first. -/
def be32 (w : Word32) : List Byte :=
  [w.extractLsb' 24 8, w.extractLsb' 16 8, w.extractLsb' 8 8, w.extractLsb' 0 8]

/-- The byte at an offset; past the end, 0 (R130 takes missing bytes as 0). -/
def rd8 (bs : List Byte) (off : Nat) : Byte := bs.getD off 0

/-- The 16-bit word at an offset. -/
def rd16 (bs : List Byte) (off : Nat) : Half := rd8 bs off ++ rd8 bs (off + 1)

/-- The 32-bit word at an offset. -/
def rd32 (bs : List Byte) (off : Nat) : Word32 := rd16 bs off ++ rd16 bs (off + 2)

/-! ## The checks (R187) -/

/-- One bit of the header check's CRC: polynomial x^8 + x^2 + x + 1. -/
def crc8Bit (c : BitVec 8) : BitVec 8 := if c.msb then (c <<< 1) ^^^ 0x07#8 else c <<< 1

/-- One byte of the header check's CRC, most significant bit first. -/
def crc8Byte (c : BitVec 8) (b : Byte) : BitVec 8 := crc8Bit^[8] (c ^^^ b)

/-- The header check: initial value 0, no reflection, no final inversion (R187). -/
def crc8 (bs : List Byte) : BitVec 8 := bs.foldl crc8Byte 0

/-- One bit of the message check's CRC: polynomial x^16 + x^12 + x^5 + 1. -/
def crc16Bit (c : Half) : Half := if c.msb then (c <<< 1) ^^^ 0x1021#16 else c <<< 1

/-- One byte of the message check's CRC, most significant bit first. -/
def crc16Byte (c : Half) (b : Byte) : Half := crc16Bit^[8] (c ^^^ (b ++ 0#8))

/-- The message check carried over further bytes (R66, R112). -/
def crc16From (c : Half) (bs : List Byte) : Half := bs.foldl crc16Byte c

/-- The message check's initial value (R187). -/
def crc16Init : Half := 0xFFFF

/-- The message check of a whole message (R187). -/
def crc16 (bs : List Byte) : Half := crc16From crc16Init bs

/-! ## Blocks on the lanes (R1, R187) -/

/-- A position's two bits. -/
def Position.code : Position → BitVec 2
  | .middle => 0
  | .first => 1
  | .last => 2
  | .only => 3

/-- The position two bits name. -/
def Position.ofCode (c : BitVec 2) : Position :=
  if c = 0 then .middle else if c = 1 then .first else if c = 2 then .last else .only

/-- The header of a received block as one 64-bit big-endian word. -/
def headerWord (block : List Byte) : BitVec 64 := rd32 block 0 ++ rd32 block 4

/-- Bits 63..52. -/
def hdrStream (h : BitVec 64) : Nat := (h.extractLsb' 52 12).toNat

/-- Bits 51..50. -/
def hdrPos (h : BitVec 64) : Position := Position.ofCode (h.extractLsb' 50 2)

/-- Bits 49..38. -/
def hdrSeq (h : BitVec 64) : SeqNo := h.extractLsb' 38 12

/-- Bits 37..32. -/
def hdrFill (h : BitVec 64) : Nat := (h.extractLsb' 32 6).toNat

/-- Bits 31..16. -/
def hdrAux (h : BitVec 64) : Half := h.extractLsb' 16 16

/-- Bits 15..8. -/
def hdrZero (h : BitVec 64) : Byte := h.extractLsb' 8 8

/-- A received block passes when the check computed over its bytes 0..6 equals its byte 7 (R4, R187). -/
def blockPasses (block : List Byte) : Bool := crc8 (block.take 7) == rd8 block 7

/-- An idle block (R3): its stream field is 4095. -/
def blockIdle (block : List Byte) : Bool := hdrStream (headerWord block) == Config.idleMark

/-- A malformed slice (R10): zero field not 0, fill 0, fill above 56, or FIRST or MIDDLE with fill not 56. -/
def blockMalformed (block : List Byte) : Bool :=
  let h := headerWord block
  hdrZero h != 0 || hdrFill h == 0 || decide (Config.maxFill < hdrFill h)
    || ((hdrPos h == .first || hdrPos h == .middle) && hdrFill h != Config.maxFill)

/-- The slice a good block carries: its fields and the first `fill` bytes of its payload area (R1, R11). -/
def sliceOfBlock (block : List Byte) : Slice :=
  let h := headerWord block
  { stream := hdrStream h
    pos := hdrPos h
    seq := hdrSeq h
    aux := hdrAux h
    payload := (block.drop 8).take (hdrFill h) }

/-- The seven header bytes the check covers (R187). The zero field is 0. -/
def headerBytes (sl : Slice) : List Byte :=
  let w : BitVec 32 :=
    BitVec.ofNat 12 sl.stream ++ sl.pos.code ++ sl.seq ++ BitVec.ofNat 6 sl.payload.length
  be32 w ++ be16 sl.aux ++ [0]

/-- The 64 bytes of a slice as sent: header, header check, payload, and zeros past the fill (R1, R112, R187). -/
def blockOfSlice (sl : Slice) : List Byte :=
  headerBytes sl ++ [crc8 (headerBytes sl)] ++ sl.payload
    ++ List.replicate (Config.maxFill - sl.payload.length) 0

/-! ## Pieces of a message (R2, R110) -/

/-- The number of slices, and blocks, a message of n bytes takes: n divided by 56, rounded up (R2). -/
def sliceCount (n : Nat) : Nat := (n + (Config.maxFill - 1)) / Config.maxFill

/-- Cut at most `fuel` pieces of 56 bytes off a list; the last piece has what remains. -/
def cutPieces : Nat → List Byte → List Block
  | 0, _ => []
  | _ + 1, [] => []
  | fuel + 1, b :: bs => (b :: bs).take Config.maxFill :: cutPieces fuel ((b :: bs).drop Config.maxFill)

/-- The pieces of a message, 56 bytes each but the last (R110). -/
def piecesOf (bytes : List Byte) : List Block := cutPieces bytes.length bytes

/-! ## The local port (R188) -/

/-- The kind bit of a submission header: true for MGMT. -/
def subIsMgmt (hdr : List Byte) : Bool := (rd8 hdr 0).getLsbD 0

/-- The stream of a DATA submission header: the low 12 bits of bytes 2..3. -/
def subStream (hdr : List Byte) : Nat := ((rd16 hdr 2).extractLsb' 0 12).toNat

/-- The payload length a submission header declares: bytes 4..5. -/
def subLength (hdr : List Byte) : Nat := (rd16 hdr 4).toNat

/-- A queue's number. -/
def QueueId.num : QueueId → Nat
  | .dq0 => 0
  | .dq1 => 1
  | .dq2 => 2
  | .dq3 => 3

/-- The queue with a number. -/
def QueueId.ofNum? (n : Nat) : Option QueueId :=
  match n with
  | 0 => some .dq0
  | 1 => some .dq1
  | 2 => some .dq2
  | 3 => some .dq3
  | _ => none

/-- Lanes used as a byte: bit 0 Lane A, bit 1 Lane B, bit 2 loop (R188, R189). DESIGN CHOICE: the bits these rules do not
name are sent as 0 (log 29, unsafe). -/
def LaneSet.code (l : LaneSet) : Nat :=
  (if l.a then 1 else 0) + (if l.b then 2 else 0) + (if l.loop then 4 else 0)

/-- The bytes of a delivery: its 8-byte header, then the payload (R96, R188). DESIGN CHOICE: R188 gives bit 0 of the kind
byte only, and bits 7..1 are sent as 0 (log 29, unsafe). -/
def deliveryBytes : Transfer → List Byte
  | .data q d =>
    [0, byteOf q.num] ++ be16n d.stream ++ be16n d.length ++ [byteOf d.lanes.code, 0] ++ d.blocks.flatten
  | .mgmt r => [1, 0] ++ be16n 0 ++ be16n r.length ++ [0, 0] ++ r

/-- A delivery as the port presents it: its bytes in order, the start mark on the first and the end mark on the last,
no error mark (R188). -/
def deliveryOut (t : Transfer) : List OutByte :=
  let bytes := deliveryBytes t
  bytes.mapIdx fun i b =>
    { data := b, startMark := i == 0, endMark := i + 1 == bytes.length, error := false }

/-- The byte that ends a cut delivery: of value 0, with the end and error marks (R104, R188). -/
def cutByte : OutByte := { data := 0, startMark := false, endMark := true, error := true }

/-! ## Management messages (R189) -/

/-- A request's code value. -/
def ReqKind.code : ReqKind → Half
  | .identify => 0x0101
  | .readStream => 0x0102
  | .readMergeState => 0x0103
  | .flushStream => 0x0104
  | .restart => 0x0105
  | .loadOpen => 0x0201
  | .loadRecords => 0x0202
  | .loadCommit => 0x0203
  | .loadAbort => 0x0204
  | .loadStatus => 0x0205
  | .probe => 0x0301
  | .readCounters => 0x0401
  | .clearCounters => 0x0402
  | .readLog => 0x0403
  | .clearLog => 0x0404

/-- The fifteen requests, in the order of their codes. -/
def ReqKind.all : List ReqKind :=
  [.identify, .readStream, .readMergeState, .flushStream, .restart, .loadOpen, .loadRecords, .loadCommit,
    .loadAbort, .loadStatus, .probe, .readCounters, .clearCounters, .readLog, .clearLog]

/-- The request a code names, if any (R130, check 3). -/
def ReqKind.ofCode? (c : Half) : Option ReqKind := ReqKind.all.find? (fun k => k.code == c)

/-- A request's code field; missing bytes are taken as 0 (R130). -/
def reqCode (bytes : List Byte) : Half := rd16 bytes 0

/-- A request's tag field. -/
def reqTag (bytes : List Byte) : Half := rd16 bytes 2

/-- A request's length field. -/
def reqLength (bytes : List Byte) : Nat := (rd16 bytes 4).toNat

/-- A request's parameter bytes. -/
def reqParams (bytes : List Byte) : List Byte := bytes.drop 8

/-- The parameter length a request's layout fixes (R190). LOAD_RECORDS has none of its own: it follows from its
record count (R132). -/
def ReqKind.paramLength? : ReqKind → Option Nat
  | .identify => some 0
  | .readStream => some 4
  | .readMergeState => some 2
  | .flushStream => some 2
  | .restart => some 0
  | .loadOpen => some 8
  | .loadRecords => none
  | .loadCommit => some 2
  | .loadAbort => some 2
  | .loadStatus => some 0
  | .probe => some 4
  | .readCounters => some 6
  | .clearCounters => some 6
  | .readLog => some 2
  | .clearLog => some 0

/-- The requests a READ_ONLY source may issue (R131). -/
def ReqKind.readOnlyMay : ReqKind → Bool
  | .identify | .readStream | .readMergeState | .readCounters | .readLog | .loadStatus => true
  | .flushStream | .restart | .loadOpen | .loadRecords | .loadCommit | .loadAbort | .probe | .clearCounters
  | .clearLog => false

/-- A status's value (R189). -/
def Status.code : Status → Half
  | .ok => 0
  | .denied => 1
  | .badRequest => 2
  | .badStream => 3
  | .notEnabled => 4
  | .noSession => 5
  | .wrongSession => 6
  | .sessionOwned => 7
  | .sessionOpen => 8
  | .outOfOrder => 9
  | .alreadyLoaded => 10
  | .badRecord => 11
  | .countMismatch => 12
  | .checkMismatch => 13
  | .alreadyCommitted => 14

/-- A response: 12 header bytes, then the data (R133, R189). -/
def responseBytes (code tag : Half) (status : Status) (generation : Half) (data : List Byte) : List Byte :=
  be16 code ++ be16 tag ++ be16 status.code ++ be16 generation ++ be16n data.length ++ [0, 0] ++ data

/-! ## Data encodings (R189) -/

/-- on/off: 0 off, 1 on. -/
def onOff (b : Bool) : Byte := if b then 1 else 0

/-- lane mask: 1 A, 2 B, 3 both. -/
def LaneMask.code : LaneMask → Byte
  | .onlyA => 1
  | .onlyB => 2
  | .both => 3

/-- policy: 0 FULL, 1 READ_ONLY. -/
def Policy.code : Policy → Byte
  | .full => 0
  | .readOnly => 1

/-- lane alignment state. -/
def Align.code : Align → Byte
  | .disabled => 0
  | .down => 1
  | .hunt => 2
  | .confirm => 3
  | .up => 4

/-- assembly state. -/
def AsmState.code : AsmState → Byte
  | .idle => 0
  | .assembling => 1
  | .discarding => 2

/-- owner: 1 backbone, 2 local. -/
def Source.code : Source → Byte
  | .backbone => 1
  | .localPort => 2

/-- mode: 1 CLEAN, 2 COPY. -/
def OpenMode.code : OpenMode → Byte
  | .clean => 1
  | .copy => 2

/-- abandon reason: 1..12. -/
def AbandonReason.code : AbandonReason → Byte
  | .gap => 1
  | .truncated => 2
  | .oversize => 3
  | .badDeclared => 4
  | .lengthMismatch => 5
  | .checkFailed => 6
  | .stall => 7
  | .noContext => 8
  | .queueFull => 9
  | .flushed => 10
  | .reconfigured => 11
  | .resync => 12

/-! ## Load records (R152, R153, R191) -/

/-- The lane mask a byte holds. -/
def LaneMask.ofByte (b : Byte) : LaneMask := if b = 1 then .onlyA else if b = 2 then .onlyB else .both

/-- The policy a byte holds. -/
def Policy.ofByte (b : Byte) : Policy := if b = 0 then .full else .readOnly

/-- A STREAM record's stream: the low 12 bits of bytes 2..3. -/
def recStream (r : List Byte) : Nat := ((rd16 r 2).extractLsb' 0 12).toNat

/-- The stream entry a STREAM record carries. -/
def recEntry (r : List Byte) : Entry :=
  { rxEnable := rd8 r 1 == 1
    txEnable := rd8 r 4 == 1
    rxMask := LaneMask.ofByte (rd8 r 5)
    txMask := LaneMask.ofByte (rd8 r 6)
    window := (rd8 r 7).toNat
    holdTime := (rd16 r 8).toNat
    asmLimit := (rd8 r 10).toNat
    maxLen := (rd16 r 12).toNat
    checkEnable := rd8 r 11 == 1
    queue := (QueueId.ofNum? (rd8 r 14).toNat).getD .dq0 }

/-- The global record a GLOBAL record carries. -/
def recGlobal (r : List Byte) : GlobalRec :=
  { ceiling := (rd16 r 2).toNat
    staleThreshold := (rd8 r 4).toNat
    rxEnableA := rd8 r 5 == 1
    txEnableA := rd8 r 6 == 1
    rxEnableB := rd8 r 7 == 1
    txEnableB := rd8 r 8 == 1
    idleTimeout := (rd8 r 9).toNat
    backbonePolicy := Policy.ofByte (rd8 r 10)
    localPolicy := Policy.ofByte (rd8 r 11) }

/-- Not on or off. -/
def badFlag (b : Byte) : Bool := b != 0 && b != 1

/-- Not a lane mask. -/
def badMask (b : Byte) : Bool := b != 1 && b != 2 && b != 3

/-- Outside a range that includes both ends. -/
def outside (n lo hi : Nat) : Bool := decide (n < lo) || decide (hi < n)

/-- The checks on a STREAM record, in the order of R153's table: a failing condition and the offset reported. -/
def streamRecChecks (r : List Byte) : List (Bool × Nat) :=
  let k := recStream r
  let e := recEntry r
  [ (k == Config.idleMark, 2),
    (badFlag (rd8 r 1), 1), (badFlag (rd8 r 4), 4), (badFlag (rd8 r 11), 11),
    (badMask (rd8 r 5), 5), (badMask (rd8 r 6), 6),
    (outside e.window 1 32, 7),
    (outside e.holdTime 1 1023, 8),
    (outside e.asmLimit 1 255, 10),
    (outside e.maxLen 1 4096, 12),
    (decide (3 < (rd8 r 14).toNat), 14),
    (k == Config.mgmtStream && rd8 r 1 == 0, 1),
    (k == Config.mgmtStream && outside e.maxLen 640 1024, 12),
    (k == Config.probeStream && outside e.maxLen 1 1024, 12) ]

/-- The checks on a QUEUE record. -/
def queueRecChecks (r : List Byte) : List (Bool × Nat) :=
  [ (decide (3 < (rd8 r 1).toNat), 1), (outside (rd16 r 2).toNat 1 256, 2) ]

/-- The checks on a GLOBAL record. -/
def globalRecChecks (r : List Byte) : List (Bool × Nat) :=
  [ (outside (rd16 r 2).toNat 512 4032, 2),
    (outside (rd8 r 4).toNat 4 64, 4),
    (badFlag (rd8 r 5), 5), (badFlag (rd8 r 6), 6), (badFlag (rd8 r 7), 7), (badFlag (rd8 r 8), 8),
    (outside (rd8 r 9).toNat 1 100, 9),
    (badFlag (rd8 r 10), 10), (badFlag (rd8 r 11), 11),
    (rd8 r 10 == 1 && rd8 r 11 == 1, 10) ]

/-- The offset of the first failing check. -/
def firstFailing (checks : List (Bool × Nat)) : Option Nat := (checks.find? (·.1)).map (·.2)

/-- A record judged by its own contents (R153): what it writes, or the offset of its first failing field. -/
def judgeRecord (r : List Byte) : Except Nat LoadRec :=
  if rd8 r 0 = 1 then
    match firstFailing (streamRecChecks r) with
    | some off => .error off
    | none => .ok (.stream (recStream r) (recEntry r))
  else if rd8 r 0 = 2 then
    match firstFailing (queueRecChecks r) with
    | some off => .error off
    | none => .ok (.queue ((QueueId.ofNum? (rd8 r 1).toNat).getD .dq0) (rd16 r 2).toNat)
  else if rd8 r 0 = 3 then
    match firstFailing (globalRecChecks r) with
    | some off => .error off
    | none => .ok (.glob (recGlobal r))
  else .error 0

/-- The records of a batch, or the position and the offset of the first failing one (R153). -/
def judgeBatch : Nat → List (List Byte) → Except (Nat × Nat) (List LoadRec)
  | _, [] => .ok []
  | i, r :: rs =>
    match judgeRecord r with
    | .error off => .error (i, off)
    | .ok x =>
      match judgeBatch (i + 1) rs with
      | .error e => .error e
      | .ok xs => .ok (x :: xs)

/-- The first `count` records of 16 bytes of a list of bytes. -/
def splitRecords : Nat → List Byte → List (List Byte)
  | 0, _ => []
  | count + 1, bs => bs.take 16 :: splitRecords count (bs.drop 16)

/-- The image check of a record: the sum of its four big-endian words (R155). -/
def recordCheck (r : List Byte) : Word32 := rd32 r 0 + rd32 r 4 + rd32 r 8 + rd32 r 12

/-- The image check of a batch added to a running check (R155). -/
def addChecks (running : Word32) (rs : List (List Byte)) : Word32 := rs.foldl (fun c r => c + recordCheck r) running

/-- An entry as a STREAM record image (R190, R191): bytes not read are 0. -/
def streamImage (k : Nat) (e : Entry) : List Byte :=
  [1, onOff e.rxEnable] ++ be16n k ++ [onOff e.txEnable, e.rxMask.code, e.txMask.code, byteOf e.window]
    ++ be16n e.holdTime ++ [byteOf e.asmLimit, onOff e.checkEnable] ++ be16n e.maxLen ++ [byteOf e.queue.num, 0]

/-- The global record as a GLOBAL record image (R190, R191): bytes not read are 0. -/
def globalImage (g : GlobalRec) : List Byte :=
  [3, 0] ++ be16n g.ceiling
    ++ [byteOf g.staleThreshold, onOff g.rxEnableA, onOff g.txEnableA, onOff g.rxEnableB, onOff g.txEnableB,
        byteOf g.idleTimeout, g.backbonePolicy.code, g.localPolicy.code, 0, 0, 0, 0]

end Sys2Proof.Machine
end

