-- ==== Sys2Proof/Machine/Flags.lean ====
section
/-! DEFINITION. Marks, counters and the abandon log: per-stream marks (R19, R51), lane sets, saturating counters (R178),
and what one report does at the statistics unit (R178, R183). -/

namespace Sys2Proof.Machine

/-! ## Marks -/

/-- A stream's mark. -/
def markOf (m : StreamMarks) (k : Nat) : Bool := m.getLsbD k

/-- Set a stream's mark. -/
def setMark (m : StreamMarks) (k : Nat) : StreamMarks := m ||| BitVec.twoPow 4095 k

/-- Clear a stream's mark. -/
def clearMark (m : StreamMarks) (k : Nat) : StreamMarks := m &&& ~~~(BitVec.twoPow 4095 k)

/-- The marked streams, in ascending order (R52). -/
def markedStreams (m : StreamMarks) : List Nat := (List.range Config.numStreams).filter (markOf m)

/-! ## Lane sets -/

/-- The set of one lane or the loop path. -/
def LaneSet.single : Path → LaneSet
  | .a => ⟨true, false, false⟩
  | .b => ⟨false, true, false⟩
  | .loop => ⟨false, false, true⟩

/-- Every lane of either set. -/
def LaneSet.union (x y : LaneSet) : LaneSet := ⟨x.a || y.a, x.b || y.b, x.loop || y.loop⟩

/-- Whether a lane mask names a lane. -/
def LaneMask.names (m : LaneMask) : LaneId → Bool
  | .a => m != .onlyB
  | .b => m != .onlyA

/-! ## Counters (R177, R178) -/

/-- A counter's rise by 1: at its largest value it stays there (R178). -/
def satInc (c : Counter) : Counter := if c = BitVec.allOnes 32 then c else c + 1

/-- The overwrite count's rise by 1: at 65535 it stays there (R183). -/
def satInc16 (c : Half) : Half := if c = BitVec.allOnes 16 then c else c + 1

/-- Raise the counter of a slice-discard reason. -/
def Globals.addDiscard (g : Globals) : DiscardReason → Globals
  | .streamDisabled => { g with streamDisabled := satInc g.streamDisabled }
  | .laneFiltered => { g with laneFiltered := satInc g.laneFiltered }
  | .duplicate => { g with duplicate := satInc g.duplicate }
  | .stale => { g with stale := satInc g.stale }
  | .noHoldEntry => { g with noHoldEntry := satInc g.noHoldEntry }
  | .noBuffer => { g with noBuffer := satInc g.noBuffer }
  | .orphan => { g with orphan := satInc g.orphan }

/-- Raise the counter of an abandon reason. -/
def Globals.addAbandon (g : Globals) : AbandonReason → Globals
  | .gap => { g with gap := satInc g.gap }
  | .truncated => { g with truncated := satInc g.truncated }
  | .oversize => { g with oversize := satInc g.oversize }
  | .badDeclared => { g with badDeclared := satInc g.badDeclared }
  | .lengthMismatch => { g with lengthMismatch := satInc g.lengthMismatch }
  | .checkFailed => { g with checkFailed := satInc g.checkFailed }
  | .stall => { g with stall := satInc g.stall }
  | .noContext => { g with noContext := satInc g.noContext }
  | .queueFull => { g with queueFull := satInc g.queueFull }
  | .flushed => { g with flushed := satInc g.flushed }
  | .reconfigured => { g with reconfigured := satInc g.reconfigured }
  | .resync => { g with resync := satInc g.resync }

/-- Raise an event counter. -/
def Globals.addEvent (g : Globals) : EventCounter → Globals
  | .resyncEvents => { g with resyncEvents := satInc g.resyncEvents }
  | .mgmtDropped => { g with mgmtDropped := satInc g.mgmtDropped }
  | .mgmtOversize => { g with mgmtOversize := satInc g.mgmtOversize }
  | .probeStray => { g with probeStray := satInc g.probeStray }
  | .txBadStream => { g with txBadStream := satInc g.txBadStream }
  | .txDisabled => { g with txDisabled := satInc g.txDisabled }
  | .txOversize => { g with txOversize := satInc g.txOversize }
  | .idleTimeouts => { g with idleTimeouts := satInc g.idleTimeouts }

/-- The 27 global counters in the order of R177. -/
def Globals.list (g : Globals) : List Counter :=
  [g.streamDisabled, g.laneFiltered, g.duplicate, g.stale, g.noHoldEntry, g.noBuffer, g.orphan,
    g.gap, g.truncated, g.oversize, g.badDeclared, g.lengthMismatch, g.checkFailed, g.stall, g.noContext,
    g.queueFull, g.flushed, g.reconfigured, g.resync,
    g.resyncEvents, g.mgmtDropped, g.mgmtOversize, g.probeStray, g.txBadStream, g.txDisabled, g.txOversize,
    g.idleTimeouts]

/-- A lane's seven counters in the order of R177. -/
def LaneCounters.list (c : LaneCounters) : List Counter :=
  [c.good, c.badHeader, c.malformed, c.alignLoss, c.won, c.sent, c.overrun]

/-- A stream's four counters in the order of R177. -/
def StreamCounters.list (c : StreamCounters) : List Counter := [c.passed, c.duplicates, c.delivered, c.abandoned]

/-- A stream's counters. -/
def Stats.stream (st : Stats) (k : Nat) : StreamCounters := SMap.get (fun _ => StreamCounters.zero) st.streams k

/-- Replace a stream's counters. -/
def Stats.setStream (st : Stats) (k : Nat) (c : StreamCounters) : Stats :=
  { st with streams := SMap.set (fun _ => StreamCounters.zero) st.streams k c }

/-- A lane's counters. -/
def Stats.lane (st : Stats) : LaneId → LaneCounters
  | .a => st.laneA
  | .b => st.laneB

/-- Replace a lane's counters. -/
def Stats.setLane (st : Stats) (l : LaneId) (c : LaneCounters) : Stats :=
  match l with
  | .a => { st with laneA := c }
  | .b => { st with laneB := c }

/-! ## Reports (R178): each is applied whole -/

/-- A lane's report of one happening of its own. -/
def Stats.onLane (st : Stats) (l : LaneId) (f : LaneCounters → LaneCounters) : Stats := st.setLane l (f (st.lane l))

/-- A good slice (R10). -/
def LaneCounters.addGood (c : LaneCounters) : LaneCounters := { c with good := satInc c.good }

/-- A failing block in UP (R7). -/
def LaneCounters.addBadHeader (c : LaneCounters) : LaneCounters := { c with badHeader := satInc c.badHeader }

/-- A malformed slice (R10). -/
def LaneCounters.addMalformed (c : LaneCounters) : LaneCounters := { c with malformed := satInc c.malformed }

/-- An alignment loss (R7, R8). -/
def LaneCounters.addAlignLoss (c : LaneCounters) : LaneCounters := { c with alignLoss := satInc c.alignLoss }

/-- A slice won (R48). -/
def LaneCounters.addWon (c : LaneCounters) : LaneCounters := { c with won := satInc c.won }

/-- A copy sent (R13). -/
def LaneCounters.addSent (c : LaneCounters) : LaneCounters := { c with sent := satInc c.sent }

/-- A copy lost to a full FIFO (R114). -/
def LaneCounters.addOverrun (c : LaneCounters) : LaneCounters := { c with overrun := satInc c.overrun }

/-- A slice passed: the stream's slices passed and, for a lane, its slices won (R48, R178). -/
def Stats.passedSlice (st : Stats) (k : Nat) (p : Path) : Stats :=
  let st1 := st.setStream k { st.stream k with passed := satInc (st.stream k).passed }
  match p with
  | .a => st1.onLane .a LaneCounters.addWon
  | .b => st1.onLane .b LaneCounters.addWon
  | .loop => st1

/-- A slice discarded: its reason and, for DUPLICATE and STALE, the stream's duplicates (R49, R178). -/
def Stats.discardedSlice (st : Stats) (k : Nat) (r : DiscardReason) : Stats :=
  let st1 := { st with glob := st.glob.addDiscard r }
  match r with
  | .duplicate | .stale =>
    st1.setStream k { st1.stream k with duplicates := satInc (st1.stream k).duplicates }
  | .streamDisabled | .laneFiltered | .noHoldEntry | .noBuffer | .orphan => st1

/-- A message delivered (R74, R75, R76). -/
def Stats.deliveredMessage (st : Stats) (k : Nat) : Stats :=
  st.setStream k { st.stream k with delivered := satInc (st.stream k).delivered }

/-- An event counter's rise. -/
def Stats.event (st : Stats) (e : EventCounter) : Stats := { st with glob := st.glob.addEvent e }

/-- Write one log entry: a full log loses its oldest entry and the overwrite count rises (R183). -/
def Stats.writeLog (st : Stats) (e : LogEntry) : Stats :=
  if st.log.length < Config.logSize then { st with log := st.log ++ [e] }
  else { st with log := st.log.drop 1 ++ [e], overwrites := satInc16 st.overwrites }

/-- An abandon: the stream's messages abandoned, the reason, and one log entry (R70, R178, R183). -/
def Stats.abandonedMessage (st : Stats) (e : LogEntry) : Stats :=
  let st1 := st.setStream e.stream { st.stream e.stream with abandoned := satInc (st.stream e.stream).abandoned }
  Stats.writeLog { st1 with glob := st1.glob.addAbandon e.reason } e

end Sys2Proof.Machine
end

