-- ==== Sys2Proof/Machine/Ops.lean ====
section
/-! DEFINITION. The operations several commands share: lookups, deadlines, pool claims and returns, passing and
discarding slices, stream flushes, abandons, responses, and the slicer's offers. The part takes no exception; what
goes wrong is counted, logged or answered. -/

namespace Sys2Proof.Machine

/-- A command of the running part: while the reset pin is asserted the part takes nothing (R192). -/
def live (s : State) (f : State → State) : Host.Outcome State Fault Refusal := .next (if s.inReset then s else f s)

/-! ## Deadlines on the timebase -/

/-- A deadline `n` microseconds after a moment. -/
def Deadline.after (since : Time) (n : Nat) : Deadline := { since := since, due := since + BitVec.ofNat 32 n }

/-- A deadline is reached when the timebase has advanced from its moment by at least its span: a test on differences
modulo 2^32, which holds across the wrap (R44, R67, R161, R170). -/
def Deadline.reached (d : Deadline) (now : Time) : Bool := decide ((d.due - d.since).toNat ≤ (now - d.since).toNat)

/-! ## Lookups (R17, R25) -/

/-- A bank by its number. -/
def State.bank (s : State) (n : Bool) : Bank := if n then s.table.bank1 else s.table.bank0

/-- The active bank. -/
def State.activeBank (s : State) : Bank := s.bank s.table.active

/-- The shadow bank: always the other one (R17). -/
def State.shadowBank (s : State) : Bank := s.bank (!s.table.active)

/-- A stream's entry in a bank. -/
def Bank.entry (b : Bank) (k : Nat) : Entry := SMap.get Entry.dflt b.entries k

/-- A stream's entry in the active bank. -/
def State.entry (s : State) (k : Nat) : Entry := s.activeBank.entry k

/-- The global record of the active bank. -/
def State.glob (s : State) : GlobalRec := s.activeBank.glob

/-- The table with its shadow bank replaced. -/
def Table.setShadow (t : Table) (b : Bank) : Table := if t.active then { t with bank0 := b } else { t with bank1 := b }

/-! ## Per-queue and per-lane access -/

/-- The value of a queue. -/
def PerQueue.get {α : Type} (p : PerQueue α) : QueueId → α
  | .dq0 => p.q0
  | .dq1 => p.q1
  | .dq2 => p.q2
  | .dq3 => p.q3

/-- Replace the value of a queue. -/
def PerQueue.set {α : Type} (p : PerQueue α) (q : QueueId) (x : α) : PerQueue α :=
  match q with
  | .dq0 => { p with q0 := x }
  | .dq1 => { p with q1 := x }
  | .dq2 => { p with q2 := x }
  | .dq3 => { p with q3 := x }

/-- A lane. -/
def State.lane (s : State) : LaneId → Lane
  | .a => s.laneA
  | .b => s.laneB

/-- Replace a lane. -/
def State.setLane (s : State) (l : LaneId) (x : Lane) : State :=
  match l with
  | .a => { s with laneA := x }
  | .b => { s with laneB := x }

/-- Apply a report at the statistics unit. -/
def State.report (s : State) (f : Stats → Stats) : State := { s with stats := f s.stats }

/-! ## The buffer pool (R80 to R82) -/

/-- A receive claim of one block (R81): granted only below the ceiling and with a block free. -/
def State.claimRx (s : State) : Option State :=
  if s.pool.rx < s.glob.ceiling ∧ 0 < s.pool.free then
    some { s with pool := { s.pool with free := s.pool.free - 1, rx := s.pool.rx + 1 } }
  else none

/-- A transmit claim of n blocks (R82): granted whole or refused whole. -/
def State.claimTx (s : State) (n : Nat) : Option State :=
  if s.pool.tx + n ≤ Config.poolBlocks - s.glob.ceiling ∧ n ≤ s.pool.free then
    some { s with pool := { s.pool with free := s.pool.free - n, tx := s.pool.tx + n } }
  else none

/-- Return n receive-held blocks (R80). -/
def State.returnRx (s : State) (n : Nat) : State :=
  { s with pool := { s.pool with free := s.pool.free + n, rx := s.pool.rx - n } }

/-- Return n transmit-held blocks (R80). -/
def State.returnTx (s : State) (n : Nat) : State :=
  { s with pool := { s.pool with free := s.pool.free + n, tx := s.pool.tx - n } }

/-! ## Merge records and the items they send -/

/-- A stream's merge record (R32). -/
def State.mrec (s : State) (k : Nat) : MergeRec := SMap.get (fun _ => MergeRec.fresh) s.merge.recs k

/-- Replace a stream's merge record. -/
def State.setMrec (s : State) (k : Nat) (r : MergeRec) : State :=
  { s with merge := { s.merge with recs := SMap.set (fun _ => MergeRec.fresh) s.merge.recs k r } }

/-- Held-slice table entries in use (R33). -/
def State.heldInUse (s : State) : Nat := (s.merge.recs.map (fun e => e.2.held.length)).sum

/-- Send an item to the reassembly engine, behind those sent before (R47, R60). -/
def State.send (s : State) (it : Item) : State :=
  { s with engine := { s.engine with items := s.engine.items ++ [it] } }

/-- Pass a slice, with or without the gap flag: it is sent and counted (R47, R48). -/
def State.passSlice (s : State) (sl : Slice) (p : Path) (gap : Bool) : State :=
  (s.send (.slice sl p gap)).report (fun st => st.passedSlice sl.stream p)

/-- Discard a slice at the merge unit under its reason (R49). It holds no block. -/
def State.discardSlice (s : State) (k : Nat) (r : DiscardReason) : State := s.report (fun st => st.discardedSlice k r)

/-- The stream flush (R50): held slices discarded and their blocks returned, the record UNSYNCED with no timer and a
stale run of 0, the pending-flush mark cleared, and the engine told to abandon the stream's message. -/
def State.flush (s : State) (k : Nat) (reason : AbandonReason) : State :=
  let s1 := (s.returnRx (s.mrec k).held.length).setMrec k MergeRec.fresh
  State.send { s1 with merge := { s1.merge with pendingFlush := clearMark s1.merge.pendingFlush k } } (.abandon k reason)

/-! ## Responses (R133, R135) -/

/-- Build the response of a request, hand it to the route the request came from, and enter IDLE. -/
def State.respond (s : State) (r : Request) (status : Status) (data : List Byte) : State :=
  let bytes := responseBytes (reqCode r.bytes) (reqTag r.bytes) status s.table.generation data
  let s1 : State := { s with mgmt := { s.mgmt with executor := .idle } }
  match r.source with
  | .backbone => { s1 with slicer := { s1.slicer with outputs := s1.slicer.outputs ++ [.response bytes] } }
  | .localPort => { s1 with delivery := { s1.delivery with mq := s1.delivery.mq ++ [bytes] } }

/-- Free a response buffer of a source (R126). -/
def State.freeBuffer (s : State) : Source → State
  | .backbone => { s with mgmt := { s.mgmt with bbBufs := s.mgmt.bbBufs - 1 } }
  | .localPort => { s with mgmt := { s.mgmt with lpBufs := s.mgmt.lpBufs - 1 } }

/-! ## The restart operation (R142) -/

/-- The seven parts a RESTART tells. -/
def allParts : List Part := [.laneA, .laneB, .merge, .reassembly, .delivery, .submission, .slicer]

/-- The part has been told to restart and has not yet reported its restart done. -/
def State.told (s : State) (p : Part) : Bool :=
  match s.mgmt.executor with
  | .restarting _ todo => todo.contains p
  | .idle | .ready _ _ | .reading _ _ | .preparing _ _ _ _ | .sweeping _ _ _ | .probing _ _ => false

/-- A part reports its restart done. At the last report the executor produces the response: OK, no data. -/
def State.partDone (s : State) (p : Part) : State :=
  match s.mgmt.executor with
  | .restarting r todo =>
    if (todo.erase p).isEmpty then s.respond r .ok []
    else { s with mgmt := { s.mgmt with executor := .restarting r (todo.erase p) } }
  | .idle | .ready _ _ | .reading _ _ | .preparing _ _ _ _ | .sweeping _ _ _ | .probing _ _ => s

/-- A part's restart: taken when the part has been told, and then reported done. -/
def restartPart (s : State) (p : Part) (f : State → State) : Host.Outcome State Fault Refusal :=
  live s (fun s => if s.told p then (f s).partDone p else s)

/-! ## The probe's endings (R171 to R175) -/

/-- The probe is AWAITING (R167). -/
def State.probeAwaiting (s : State) : Bool :=
  match s.mgmt.executor with
  | .probing _ p => p.await.isSome
  | .idle | .ready _ _ | .reading _ _ | .preparing _ _ _ _ | .sweeping _ _ _ | .restarting _ _ => false

/-- The data of a PROBE response (R175, R190). -/
def probeData (p : ProbeRec) (slices : Nat) (now : Time) (result reason : Byte) (received off : Nat)
    (lanes : LaneSet) : List Byte :=
  [result, reason] ++ be16n p.length ++ be16n received ++ be16n off ++ [byteOf slices, byteOf lanes.code]
    ++ be32 (now - p.start)

/-- No lanes used (R175, FAIL). -/
def LaneSet.empty : LaneSet := ⟨false, false, false⟩

/-- End an AWAITING probe with a result: its response is produced and the probe is NONE. -/
def State.endProbe (s : State) (result reason : Byte) (received off : Nat) (lanes : LaneSet) : State :=
  match s.mgmt.executor with
  | .probing r p =>
    match p.await with
    | some (slices, _) => s.respond r .ok (probeData p slices s.time result reason received off lanes)
    | none => s
  | .idle | .ready _ _ | .reading _ _ | .preparing _ _ _ _ | .sweeping _ _ _ | .restarting _ _ => s

/-- An abandon of a stream 4094 message informs an AWAITING probe: FAIL with the reason (R70, R172). -/
def State.informProbe (s : State) (k : Nat) (reason : AbandonReason) : State :=
  if k = Config.probeStream then s.endProbe 3 reason.code 0 0 LaneSet.empty else s

/-! ## Contexts, assembly states and abandons -/

/-- The context bound to a stream. -/
def State.ctxOf (s : State) (k : Nat) : Option Ctx := s.engine.ctxs.find? (fun c => c.stream == k)

/-- Free the context bound to a stream. Its blocks go with the message. -/
def State.freeCtx (s : State) (k : Nat) : State :=
  { s with engine := { s.engine with ctxs := s.engine.ctxs.eraseP (fun c => c.stream == k) } }

/-- Bind a context. -/
def State.bindCtx (s : State) (c : Ctx) : State :=
  { s with engine := { s.engine with ctxs := s.engine.ctxs ++ [c] } }

/-- Enter DISCARDING. -/
def State.toDiscarding (s : State) (k : Nat) : State :=
  { s with engine := { s.engine with discarding := setMark s.engine.discarding k } }

/-- Leave DISCARDING: with no context bound, the stream is IDLE. -/
def State.notDiscarding (s : State) (k : Nat) : State :=
  { s with engine := { s.engine with discarding := clearMark s.engine.discarding k } }

/-- A stream's assembly state (R58). -/
def State.asmState (s : State) (k : Nat) : AsmState :=
  if (s.ctxOf k).isSome then .assembling else if markOf s.engine.discarding k then .discarding else .idle

/-- Abandon a message of a stream that holds n blocks (R70): they are returned, the abandon is counted and logged with
the time and both lanes' states (R183), and an awaiting probe is informed. A bound context is freed by the caller. -/
def State.abandonMessage (s : State) (k : Nat) (reason : AbandonReason) (seq : SeqNo) (gathered n : Nat) : State :=
  let s1 := s.returnRx n
  let entry : LogEntry :=
    { time := s.time, stream := k, reason := reason, seq := seq, gathered := gathered
      laneA := s.laneA.align, laneB := s.laneB.align }
  (s1.report (fun st => st.abandonedMessage entry)).informProbe k reason

/-! ## The slicer's offers (R113 to R115) -/

/-- The lanes a slice of a stream may go to: in the stream's transmit lane mask, with the lane's transmit enable on
(R113). -/
def State.eligibleLanes (s : State) (k : Nat) : LaneSet :=
  { a := (s.entry k).txMask.names .a && s.glob.txEnableA
    b := (s.entry k).txMask.names .b && s.glob.txEnableB
    loop := false }

/-- A lane FIFO with room for a copy (R12). -/
def Lane.room (l : Lane) : Bool := l.fifo.length < Config.laneFifoSize

/-- A copy accepted at a lane FIFO's tail (R12). -/
def Lane.accept (l : Lane) (sl : Slice) : Lane := { l with fifo := l.fifo ++ [sl] }

/-- The slicer's report of the probe message sent: the probe is AWAITING with its slice count and a deadline 20 ms
ahead (R170). -/
def State.probeSent (s : State) (slices : Nat) : State :=
  match s.mgmt.executor with
  | .probing r p =>
    { s with
      mgmt :=
        { s.mgmt with
          executor := .probing r { p with await := some (slices, Deadline.after s.time Config.probeTimeout) } } }
  | .idle | .ready _ _ | .reading _ _ | .preparing _ _ _ _ | .sweeping _ _ _ | .restarting _ _ => s

/-- The end of a message's slicing (R115): a response's buffer is freed, a probe message is reported sent. -/
def State.messageSliced (s : State) (j : Job) : State :=
  match j.kind with
  | .data => s
  | .response => s.freeBuffer .backbone
  | .probe => s.probeSent j.cut

/-- Replace the slicer's state. -/
def State.setSlicer (s : State) (x : SlicerState) : State := { s with slicer := { s.slicer with state := x } }

/-- A slice is done (R115): a DATA slice's block is returned, and the slicer goes on with the message or ends it. -/
def State.sliceDone (s : State) (j : Job) : State :=
  let s1 := if j.kind = .data then s.returnTx 1 else s
  if j.pieces.isEmpty then (s1.messageSliced j).setSlicer .idle else s1.setSlicer (.slicing j)

/-- Offer a slice to every eligible lane FIFO in one happening (R114): each with room accepts; a refusal is a
TX_OVERRUN where the other eligible lane accepts, and a stall where none does; with no eligible lane the slice is
done. -/
def State.offerSlice (s : State) (j : Job) (sl : Slice) (el : LaneSet) : State :=
  let takeA := el.a && s.laneA.room
  let takeB := el.b && s.laneB.room
  if (el.a || el.b) && !(takeA || takeB) then s.setSlicer (.stalled j sl el)
  else
    let s1 := if takeA then s.setLane .a (s.laneA.accept sl) else s
    let s2 := if takeB then s1.setLane .b (s1.laneB.accept sl) else s1
    let s3 := if el.a && !takeA then s2.report (fun st => st.onLane .a LaneCounters.addOverrun) else s2
    let s4 := if el.b && !takeB then s3.report (fun st => st.onLane .b LaneCounters.addOverrun) else s3
    s4.sliceDone j

/-! ## Delivery -/

/-- A queue's occupancy: its waiting descriptors, and 1 while a transfer taken from it is in progress (R91). -/
def State.occupancy (s : State) (q : QueueId) : Nat :=
  (s.delivery.dqs.get q).length
    + match s.delivery.transfer with
      | some (.data q' _) => if q' = q then 1 else 0
      | some (.mgmt _) => 0
      | none => 0

/-- The output arbiter's choice (R95): the head of the first non-empty of MQ, DQ0, DQ1, DQ2, DQ3, and what is left. -/
def Delivery.choose (d : Delivery) : Option (Transfer × Delivery) :=
  match d.mq with
  | r :: rest => some (.mgmt r, { d with mq := rest })
  | [] =>
    match d.dqs.q0 with
    | x :: rest => some (.data .dq0 x, { d with dqs := { d.dqs with q0 := rest } })
    | [] =>
      match d.dqs.q1 with
      | x :: rest => some (.data .dq1 x, { d with dqs := { d.dqs with q1 := rest } })
      | [] =>
        match d.dqs.q2 with
        | x :: rest => some (.data .dq2 x, { d with dqs := { d.dqs with q2 := rest } })
        | [] =>
          match d.dqs.q3 with
          | x :: rest => some (.data .dq3 x, { d with dqs := { d.dqs with q3 := rest } })
          | [] => none

/-- The arbiter's conditions (R95): no transfer in progress, hold inactive, an entry waiting. Then the entry's transfer
starts and the first byte of its delivery is presented (R96, R188). -/
def State.startTransfer (s : State) : State :=
  if s.delivery.transfer.isNone && !s.delivery.hold then
    match s.delivery.choose with
    | some (t, d) =>
      { s with delivery := { d with transfer := some t, out := (deliveryOut t).take 1, valid := true } }
    | none => s
  else s

/-- The bytes of a delivery that are still to be presented, given those presented. -/
def Delivery.toCome (d : Delivery) (t : Transfer) : List OutByte := (deliveryOut t).drop d.out.length

/-- A microsecond at the port (log 18): the next byte of the delivery in transfer is presented, but for the last, which
the station takes at the end of the transfer (R96). With no byte to present, output valid is inactive. -/
def Delivery.present (d : Delivery) : Delivery :=
  match d.transfer with
  | none => { d with valid := false }
  | some t =>
    match d.toCome t with
    | b :: _ :: _ => { d with out := d.out ++ [b], valid := true }
    | [_] => { d with valid := false }
    | [] => { d with valid := false }

/-- The port's output: the byte presented with valid, or none while valid is inactive (R188), as it is while the reset
pin is asserted (R192). -/
def State.output (s : State) : Option OutByte :=
  if !s.inReset && s.delivery.valid then s.delivery.out.getLast? else none

/-- Ready is active in IDLE, HEADER, LOADING and ABSORBING, inactive in WAITING and while the pin is asserted
(R98, R106, R192). -/
def State.ready (s : State) : Bool :=
  !s.inReset
    && match s.sub with
      | .waitingData _ _ | .waitingMgmt _ => false
      | .idle | .header _ | .loadingData _ _ _ | .loadingMgmt _ _ | .absorbing _ => true

/-- A microsecond passes with no command waiting (log 1): the timebase counts and the port goes on with its delivery, but
not while the reset pin is asserted (R192). -/
def State.tick (s : State) : State :=
  if s.inReset then s else { s with time := s.time + 1, delivery := s.delivery.present }

end Sys2Proof.Machine
end

