-- ==== Sys2Proof/Machine/Requests.lean ====
section
/-! DEFINITION. The executor, and the requests that read the part or act on its data path (chapter 8). -/

namespace Sys2Proof.Machine

/-! ## Taking a request (R127) -/

/-- The source whose oldest request the executor takes: of the requests whose source has a free response buffer, the
one with the earliest intake position (R127). Within a share, requests leave in intake order (R125). -/
def Mgmt.chooseSource (m : Mgmt) : Option Source :=
  match m.bbShare, m.lpShare with
  | [], [] => none
  | _ :: _, [] => if m.bbBufs < Config.respBufs then some .backbone else none
  | [], _ :: _ => if m.lpBufs < Config.respBufs then some .localPort else none
  | b :: _, l :: _ =>
    if m.bbBufs < Config.respBufs then
      if m.lpBufs < Config.respBufs then
        if b.position ≤ l.position then some .backbone else some .localPort
      else some .backbone
    else if m.lpBufs < Config.respBufs then some .localPort
    else none

/-- The policy of a source in the active bank (R131). -/
def State.policyOf (s : State) : Source → Policy
  | .backbone => s.glob.backbonePolicy
  | .localPort => s.glob.localPolicy

/-- The checks of R130 to R132, in order: what refuses the request, or the kind it passes as. A request too short for a
header, a wrong length field and an unknown code are BAD_REQUEST; then the policy; then the parameter length. -/
def State.judgeRequest (s : State) (r : Request) : Except Status ReqKind :=
  if r.bytes.length < 8 then .error .badRequest
  else if reqLength r.bytes ≠ r.bytes.length - 8 then .error .badRequest
  else
    match ReqKind.ofCode? (reqCode r.bytes) with
    | none => .error .badRequest
    | some kind =>
      if s.policyOf r.source = .readOnly ∧ kind.readOnlyMay = false then .error .denied
      else
        match kind.paramLength? with
        | none => .ok kind
        | some n => if reqLength r.bytes = n then .ok kind else .error .badRequest

/-- The executor starts a request: refused by a check it is answered at once, else it is ready to be carried out. -/
def State.startRequest (s : State) (r : Request) : State :=
  match s.judgeRequest r with
  | .error status => s.respond r status []
  | .ok kind => { s with mgmt := { s.mgmt with executor := .ready r kind } }

/-- A MGMT header waiting at the port reserves the place a local take frees, and enters LOADING (R102, R128). -/
def State.wakeMgmtHeader (s : State) : State :=
  match s.sub with
  | .waitingMgmt length => { s with sub := .loadingMgmt length [] }
  | .idle | .header _ | .waitingData _ _ | .loadingData _ _ _ | .loadingMgmt _ _ | .absorbing _ => s

/-- EXECUTOR_TAKE (R127): the request leaves its share, a response buffer of its source becomes IN USE, and the request
is judged (R130 to R132). -/
def execExecutorTake (s : State) : Host.Outcome State Fault Refusal :=
  live s fun s =>
    match s.mgmt.executor with
    | .idle =>
      match s.mgmt.chooseSource, s.mgmt.bbShare, s.mgmt.lpShare with
      | some .backbone, r :: rest, _ =>
        State.startRequest { s with mgmt := { s.mgmt with bbShare := rest, bbBufs := s.mgmt.bbBufs + 1 } } r
      | some .localPort, _, r :: rest =>
        State.startRequest
          (State.wakeMgmtHeader { s with mgmt := { s.mgmt with lpShare := rest, lpBufs := s.mgmt.lpBufs + 1 } }) r
      | some .backbone, [], _ => s
      | some .localPort, _, [] => s
      | none, _, _ => s
    | .ready _ _ | .reading _ _ | .preparing _ _ _ _ | .sweeping _ _ _ | .probing _ _ | .restarting _ _ => s

/-- A request command acts on the executing request of its kind that has passed the checks. -/
def onReady (s : State) (kind : ReqKind) (f : State → Request → State) : Host.Outcome State Fault Refusal :=
  live s fun s =>
    match s.mgmt.executor with
    | .ready r k => if k = kind then f s r else s
    | .idle | .reading _ _ | .preparing _ _ _ _ | .sweeping _ _ _ | .probing _ _ | .restarting _ _ => s

/-! ## Reading the part (R137 to R139) -/

/-- A request that reads several blocks is begun when it is ready, and goes on where it stands between its reads. -/
def onReading (s : State) (kind : ReqKind) (start : State → Request → State)
    (goOn : State → Request → Reading → State) : Host.Outcome State Fault Refusal :=
  live s fun s =>
    match s.mgmt.executor with
    | .ready r k => if k = kind then start s r else s
    | .reading r x => goOn s r x
    | .idle | .preparing _ _ _ _ | .sweeping _ _ _ | .probing _ _ | .restarting _ _ => s

/-- Nothing read yet. -/
def IdReads.none : IdReads :=
  { laneA := .none, laneB := .none, table := .none, pool := .none, merge := .none, reassembly := .none
    delivery := .none, slicer := .none, timebase := .none }

/-- Lane A's group as read, or read now. -/
def IdReads.laneAAt (x : IdReads) (s : State) : Align := x.laneA.getD s.laneA.align

/-- Lane B's group as read, or read now. -/
def IdReads.laneBAt (x : IdReads) (s : State) : Align := x.laneB.getD s.laneB.align

/-- The stream table's group as read, or read now. -/
def IdReads.tableAt (x : IdReads) (s : State) : Half × Bool := x.table.getD (s.table.generation, s.table.active)

/-- The buffer pool's group as read, or read now. -/
def IdReads.poolAt (x : IdReads) (s : State) : Pool := x.pool.getD s.pool

/-- The merge unit's group as read, or read now. -/
def IdReads.mergeAt (x : IdReads) (s : State) : Nat := x.merge.getD s.heldInUse

/-- The reassembly engine's group as read, or read now. -/
def IdReads.reassemblyAt (x : IdReads) (s : State) : Nat := x.reassembly.getD s.engine.ctxs.length

/-- The delivery side's group as read, or read now. -/
def IdReads.deliveryAt (x : IdReads) (s : State) : PerQueue Nat × Nat :=
  x.delivery.getD (⟨s.occupancy .dq0, s.occupancy .dq1, s.occupancy .dq2, s.occupancy .dq3⟩, s.delivery.mq.length)

/-- The slicer's group as read, or read now. -/
def IdReads.slicerAt (x : IdReads) (s : State) : Nat := x.slicer.getD s.slicer.fifo.length

/-- The timebase as read, or read now. -/
def IdReads.timebaseAt (x : IdReads) (s : State) : Time := x.timebase.getD s.time

/-- One block's group is read, in one happening at the block (R137); a group read before stands. -/
def IdReads.read (x : IdReads) (s : State) : IdBlock → IdReads
  | .laneA => { x with laneA := some (x.laneAAt s) }
  | .laneB => { x with laneB := some (x.laneBAt s) }
  | .table => { x with table := some (x.tableAt s) }
  | .pool => { x with pool := some (x.poolAt s) }
  | .merge => { x with merge := some (x.mergeAt s) }
  | .reassembly => { x with reassembly := some (x.reassemblyAt s) }
  | .delivery => { x with delivery := some (x.deliveryAt s) }
  | .slicer => { x with slicer := some (x.slicerAt s) }
  | .timebase => { x with timebase := some (x.timebaseAt s) }

/-- The data of an IDENTIFY response: the fixed values, the groups read, and the others read now (R137, R190). -/
def State.identifyData (s : State) (x : IdReads) : List Byte :=
  let q := (x.deliveryAt s).1
  be16 0x0460 ++ [1, onOff (x.tableAt s).2, (x.laneAAt s).code, (x.laneBAt s).code] ++ be16 (x.tableAt s).1
    ++ be16n Config.poolBlocks ++ be16n Config.heldEntries
    ++ [byteOf Config.numContexts, byteOf Config.txFifoSize, byteOf Config.laneFifoSize, byteOf Config.shareSize,
        byteOf Config.respBufs, 0]
    ++ be16n 256 ++ be16n (x.poolAt s).free ++ be16n (x.poolAt s).rx ++ be16n (x.poolAt s).tx ++ be16n (x.mergeAt s)
    ++ [byteOf (x.reassemblyAt s), byteOf (x.deliveryAt s).2]
    ++ be16n q.q0 ++ be16n q.q1 ++ be16n q.q2 ++ be16n q.q3
    ++ [byteOf (x.slicerAt s), 0] ++ be32 (x.timebaseAt s)

/-- Hold the executor between the reads of a request. -/
def State.holdReading (s : State) (r : Request) (x : Reading) : State :=
  { s with mgmt := { s.mgmt with executor := .reading r x } }

/-- An IDENTIFY begins: nothing is read yet, and which groups are read one by one is a free value (log 12). -/
def State.identifyBegin (s : State) (r : Request) : State :=
  State.holdReading { s with mgmt := { s.mgmt with choices := s.mgmt.choices + 1 } } r
    (.identify IdReads.none (Config.identifyPlan s.mgmt.choices))

/-- An IDENTIFY that has read `x` goes on: the next group of its plan is read and the executor held, or what is left is
read and the response produced. -/
def State.identifyStep (s : State) (r : Request) (x : IdReads) : List IdBlock → State
  | b :: plan => s.holdReading r (.identify (x.read s b) plan)
  | [] => s.respond r .ok (s.identifyData x)

/-- IDENTIFY (R137): the request begins, and each further command goes on with it, with whatever passes between. -/
def execIdentify (s : State) : Host.Outcome State Fault Refusal :=
  onReading s .identify State.identifyBegin fun s r x =>
    match x with
    | .identify x plan => s.identifyStep r x plan
    | .mergeState _ _ => s

/-- The marks byte of READ_STREAM: bit 0 stream touched, bit 1 queues touched, bit 2 global touched (R190). DESIGN CHOICE:
R190 gives no value for bits 7..3, which are sent as 0 (log 29, unsafe). -/
def Table.marksByte (t : Table) (k : Nat) : Byte :=
  byteOf ((if markOf t.touched k then 1 else 0) + (if t.queuesTouched then 2 else 0) + (if t.globalTouched then 4 else 0))

/-- The data of a READ_STREAM response for a bank and a stream (R138, R190). -/
def State.readStreamData (s : State) (n : Bool) (k : Nat) : List Byte :=
  let b := s.bank n
  [onOff n, s.table.marksByte k] ++ streamImage k (b.entry k)
    ++ be16n b.capacities.q0 ++ be16n b.capacities.q1 ++ be16n b.capacities.q2 ++ be16n b.capacities.q3
    ++ globalImage b.glob

/-- READ_STREAM (R138): the selector is checked before the stream. -/
def execReadStream (s : State) : Host.Outcome State Fault Refusal :=
  onReady s .readStream fun s r =>
    let p := reqParams r.bytes
    let selector := rd8 p 0
    let k := (rd16 p 2).toNat
    if selector ≠ 0 ∧ selector ≠ 1 then s.respond r .badRequest []
    else if Config.numStreams ≤ k then s.respond r .badStream []
    else s.respond r .ok (s.readStreamData (if selector = 0 then s.table.active else !s.table.active) k)

/-- E as reported: 0 when UNSYNCED (R139, R140). -/
def MergeRec.reportedE (r : MergeRec) : Nat :=
  match r.sync with
  | some e => e.toNat
  | none => 0

/-- The data of a READ_MERGE_STATE response: a merge record with its pending-flush mark as read, and the stream's
assembly state read now (R139, R190). -/
def State.mergeStateData (s : State) (k : Nat) (record : MergeRec) (marked : Bool) : List Byte :=
  let g := match s.ctxOf k with
    | some c => (c.gathered, c.declared)
    | none => (0, 0)
  [onOff record.sync.isSome, onOff marked] ++ be16n record.reportedE
    ++ [byteOf record.staleRun, byteOf record.held.length, (s.asmState k).code, 0]
    ++ be16n g.1 ++ be16n g.2 ++ record.held.flatMap (fun h => be16n h.slice.seq.toNat)

/-- The stream a READ_MERGE_STATE names. -/
def mergeStateStream (r : Request) : Nat := (rd16 (reqParams r.bytes) 0).toNat

/-- READ_MERGE_STATE (R139): the first command reads the merge record at the merge unit and the next the assembly state
at the engine, with whatever passes between. -/
def execReadMergeState (s : State) : Host.Outcome State Fault Refusal :=
  onReading s .readMergeState
    (fun s r =>
      let k := mergeStateStream r
      if Config.numStreams ≤ k then s.respond r .badStream []
      else s.holdReading r (.mergeState (s.mrec k) (markOf s.merge.pendingFlush k)))
    fun s r x =>
      match x with
      | .mergeState record marked => s.respond r .ok (s.mergeStateData (mergeStateStream r) record marked)
      | .identify _ _ => s

/-! ## Acting on the data path (R140 to R144) -/

/-- The data of a FLUSH_STREAM response: the record before the flush (R140, R190). -/
def MergeRec.flushData (r : MergeRec) : List Byte :=
  [onOff r.sync.isSome, byteOf r.held.length] ++ be16n r.reportedE

/-- FLUSH_STREAM (R140): a stream flush with reason FLUSHED. -/
def execFlushStream (s : State) : Host.Outcome State Fault Refusal :=
  onReady s .flushStream fun s r =>
    let k := (rd16 (reqParams r.bytes) 0).toNat
    if Config.numStreams ≤ k then s.respond r .badStream []
    else (s.flush k .flushed).respond r .ok (s.mrec k).flushData

/-- RESTART (R142): each of the seven parts is told to restart; the executor is held until all have reported done. -/
def execRestart (s : State) : Host.Outcome State Fault Refusal :=
  onReady s .restart fun s r => { s with mgmt := { s.mgmt with executor := .restarting r allParts } }

end Sys2Proof.Machine
end

