-- ==== Sys2Proof/Machine/Counters.lean ====
section
/-! DEFINITION. Reading and clearing the counters and the abandon log (R179 to R185). -/

namespace Sys2Proof.Machine

/-- What a counter request names (R179). -/
inductive CounterScope where
  | streams (first count : Nat)
  | lanesGlobal
deriving DecidableEq, Repr

/-- The checks of R179 on a counter request's parameters, in order. -/
def judgeScope (p : List Byte) : Except Status CounterScope :=
  let scope := rd8 p 0
  let first := (rd16 p 2).toNat
  let count := (rd16 p 4).toNat
  if scope = 2 then .ok .lanesGlobal
  else if scope ≠ 1 then .error .badRequest
  else if Config.numStreams ≤ first then .error .badStream
  else if outside count 1 32 then .error .badRequest
  else if Config.numStreams ≤ first + count - 1 then .error .badStream
  else .ok (.streams first count)

/-- The streams of a range, in ascending order. -/
def rangeStreams (first count : Nat) : List Nat := (List.range count).map (fun i => first + i)

/-- The counters in scope as response data (R179, R190). -/
def Stats.scopeData (st : Stats) : CounterScope → List Byte
  | .streams first count =>
    be16n first ++ be16n count
      ++ (rangeStreams first count).flatMap (fun k => (st.stream k).list.flatMap be32)
  | .lanesGlobal => (st.laneA.list ++ st.laneB.list ++ st.glob.list).flatMap be32

/-- Every counter in scope set to 0 (R180); the log and its overwrite count stay. -/
def Stats.clearScope (st : Stats) : CounterScope → Stats
  | .streams first count => (rangeStreams first count).foldl (fun st k => st.setStream k StreamCounters.zero) st
  | .lanesGlobal => { st with laneA := LaneCounters.zero, laneB := LaneCounters.zero, glob := Globals.zero }

/-- READ_COUNTERS (R179). -/
def execReadCounters (s : State) : Host.Outcome State Fault Refusal :=
  onReady s .readCounters fun s r =>
    match judgeScope (reqParams r.bytes) with
    | .error status => s.respond r status []
    | .ok scope => s.respond r .ok (s.stats.scopeData scope)

/-- CLEAR_COUNTERS (R180): the values immediately before the clear are returned. -/
def execClearCounters (s : State) : Host.Outcome State Fault Refusal :=
  onReady s .clearCounters fun s r =>
    match judgeScope (reqParams r.bytes) with
    | .error status => s.respond r status []
    | .ok scope => (s.report (fun st => st.clearScope scope)).respond r .ok (s.stats.scopeData scope)

/-- A log entry as 12 bytes (R190). -/
def LogEntry.bytes (e : LogEntry) : List Byte :=
  be32 e.time ++ be16n e.stream ++ be16n e.seq.toNat ++ be16n e.gathered
    ++ [e.reason.code, (e.laneA.code <<< 4) ||| e.laneB.code]

/-- The entries a READ_LOG returns: up to 8 from the start position on, oldest first (R184). -/
def Stats.logPage (st : Stats) (start : Nat) : List LogEntry := (st.log.drop start).take 8

/-- The data of a READ_LOG response (R184, R190). -/
def Stats.logData (st : Stats) (start : Nat) : List Byte :=
  [byteOf st.log.length, byteOf (st.logPage start).length] ++ be16 st.overwrites
    ++ (st.logPage start).flatMap LogEntry.bytes

/-- READ_LOG (R184). -/
def execReadLog (s : State) : Host.Outcome State Fault Refusal :=
  onReady s .readLog fun s r =>
    let start := (rd16 (reqParams r.bytes) 0).toNat
    if 31 < start then s.respond r .badRequest [] else s.respond r .ok (s.stats.logData start)

/-- CLEAR_LOG (R185): the counts immediately before the clear are returned. -/
def execClearLog (s : State) : Host.Outcome State Fault Refusal :=
  onReady s .clearLog fun s r =>
    (s.report (fun st => { st with log := [], overwrites := 0 })).respond r .ok
      ([byteOf s.stats.log.length, 0] ++ be16 s.stats.overwrites)

end Sys2Proof.Machine
end

