-- ==== Sys2Proof/Machine/DeliverySide.lean ====
section
/-! DEFINITION. The delivery side of the local port: transfers, hold, its restart (R91 to R97, R104). -/

namespace Sys2Proof.Machine

/-- TRANSFER_START (R95). -/
def execTransferStart (s : State) : Host.Outcome State Fault Refusal := live s fun s => s.startTransfer

/-- TRANSFER_END (R96): the bytes still to come are presented, the last with the end mark (R188); a data message's blocks
are returned together and its queue's occupancy falls; a local response's buffer is freed. -/
def execTransferEnd (s : State) : Host.Outcome State Fault Refusal :=
  live s fun s =>
    match s.delivery.transfer with
    | none => s
    | some t =>
      let s1 : State :=
        { s with
          delivery :=
            { s.delivery with transfer := none, out := s.delivery.out ++ s.delivery.toCome t, valid := true } }
      match t with
      | .data _ d => s1.returnRx d.blocks.length
      | .mgmt _ => s1.freeBuffer .localPort

/-- HOLD_ASSERT (R97): a transfer in progress runs to its end, and no new one starts. The level changes whatever the
reset pin does (R106). -/
def execHoldAssert (s : State) : Host.Outcome State Fault Refusal :=
  .next { s with delivery := { s.delivery with hold := true } }

/-- HOLD_RELEASE (R97): a transfer starts at once if the arbiter's conditions hold. -/
def execHoldRelease (s : State) : Host.Outcome State Fault Refusal :=
  let s1 : State := { s with delivery := { s.delivery with hold := false } }
  .next (if s.inReset then s1 else s1.startTransfer)

/-- The blocks of a queue's descriptors. -/
def descBlocks (ds : List Descriptor) : Nat := (ds.map (fun d => d.blocks.length)).sum

/-- The blocks of every delivery queue. -/
def queueBlocks (p : PerQueue (List Descriptor)) : Nat :=
  descBlocks p.q0 + descBlocks p.q1 + descBlocks p.q2 + descBlocks p.q3

/-- A data transfer is cut: no further byte of it is presented, one extra byte with the end and error marks ends the
delivery, and the message's blocks are returned (R104, R188). A transfer from MQ runs on. -/
def State.cutTransfer (s : State) : State :=
  match s.delivery.transfer with
  | some (.data _ d) =>
    State.returnRx
      { s with
        delivery := { s.delivery with transfer := none, out := s.delivery.out ++ [cutByte], valid := true } }
      d.blocks.length
  | some (.mgmt _) => s
  | none => s

/-- DELIVERY_RESTART (R104): DQ0..DQ3 emptied and their blocks returned, a data transfer cut, MQ kept; nothing is
counted or logged. -/
def execDeliveryRestart (s : State) : Host.Outcome State Fault Refusal :=
  restartPart s .delivery fun s =>
    let s1 := s.returnRx (queueBlocks s.delivery.dqs)
    State.cutTransfer { s1 with delivery := { s1.delivery with dqs := ⟨[], [], [], []⟩ } }

end Sys2Proof.Machine
end

