-- ==== Sys2Proof/Machine/LaneReceive.lean ====
section
/-! DEFINITION. The receive side of the lanes: signal-detect, hunting, confirming, screening (R4 to R10). -/

namespace Sys2Proof.Machine

/-- Enter a state with no boundary in use: both counts are 0 (R7, R8, R9). What is received beyond the position stays. -/
def Lane.enter (l : Lane) (x : Align) : Lane := { l with align := x, confirm := 0, failRun := 0 }

/-- Enter a state with nothing received: what was partly received is dropped untested, and a search starts at the first
byte that arrives (R8, R9). DESIGN CHOICE: whole blocks received that no command has tested yet are dropped at a signal
loss too, of which R8 says nothing (log 3, unsafe); at a swap R9 says that they are not examined. -/
def Lane.enterAfresh (l : Lane) (x : Align) : Lane := { l.enter x with rx := [] }

/-- Bytes arrive behind those received before. -/
def Lane.receive (l : Lane) (bytes : List Byte) : Lane := { l with rx := l.rx ++ bytes }

/-- The block at the position of the receive side: the 64 bytes from there. -/
def Lane.block (l : Lane) : List Byte := l.rx.take Config.blockBytes

/-- The block at the position is only partly received: it is not tested. -/
def Lane.partlyReceived (l : Lane) : Bool := decide (l.rx.length < Config.blockBytes)

/-- The position moves on over n bytes. -/
def Lane.advance (l : Lane) (n : Nat) : Lane := { l with rx := l.rx.drop n }

/-- Signal loss at a lane's receive side (R8): HUNT, CONFIRM and UP enter DOWN. -/
def Lane.onSignalLoss (l : Lane) : Lane :=
  match l.align with
  | .disabled | .down => l
  | .hunt | .confirm | .up => l.enterAfresh .down

/-- Signal regain (R8): DOWN enters HUNT. -/
def Lane.onSignalRegain (l : Lane) : Lane :=
  match l.align with
  | .down => l.enterAfresh .hunt
  | .disabled | .hunt | .confirm | .up => l

/-- SIGNAL_LOSS (R8). Leaving UP counts an alignment loss. While the reset pin is asserted only the level changes: it
is read at release (R15, R192). -/
def execSignalLoss (l : LaneId) (s : State) : Host.Outcome State Fault Refusal :=
  let x : Lane := { s.lane l with signal := false }
  let s1 := s.setLane l (if s.inReset then x else x.onSignalLoss)
  .next
    (if !s.inReset && (s.lane l).align == .up then s1.report (fun st => st.onLane l LaneCounters.addAlignLoss) else s1)

/-- SIGNAL_REGAIN (R8). -/
def execSignalRegain (l : LaneId) (s : State) : Host.Outcome State Fault Refusal :=
  let x : Lane := { s.lane l with signal := true }
  .next (s.setLane l (if s.inReset then x else x.onSignalRegain))

/-- The candidate at the search position (R5): one that passes fixes the trial boundary; one that fails is dropped, and
the next byte position is the next to be tried. -/
def Lane.huntTest (l : Lane) : Lane :=
  if l.partlyReceived then l
  else if blockPasses l.block then { l.advance Config.blockBytes with align := .confirm, confirm := 1 }
  else l.advance 1

/-- HUNT_CANDIDATE (R5): nothing is counted or handed on. -/
def execHuntCandidate (l : LaneId) (bytes : List Byte) (s : State) : Host.Outcome State Fault Refusal :=
  live s fun s => if (s.lane l).align = .hunt then s.setLane l ((s.lane l).receive bytes).huntTest else s

/-- The block at the trial spacing (R6). The next block, or the resumed search, begins at the first byte after it. -/
def Lane.confirmTest (l : Lane) : Lane :=
  if l.partlyReceived then l
  else
    let x := l.advance Config.blockBytes
    if blockPasses l.block then
      if l.confirm + 1 < Config.confirmsForUp then { x with confirm := l.confirm + 1 }
      else { x with align := .up, confirm := Config.confirmsForUp, failRun := 0 }
    else { x with align := .hunt, confirm := 0 }

/-- CONFIRM_BLOCK (R6): nothing is counted or handed on. -/
def execConfirmBlock (l : LaneId) (bytes : List Byte) (s : State) : Host.Outcome State Fault Refusal :=
  live s fun s => if (s.lane l).align = .confirm then s.setLane l ((s.lane l).receive bytes).confirmTest else s

/-- A failing block in UP (R7): BAD_HEADER, and at the fourth in a row the boundary is given up. -/
def State.upFailure (s : State) (l : LaneId) : State :=
  let s1 := s.report (fun st => st.onLane l LaneCounters.addBadHeader)
  if (s.lane l).failRun + 1 < Config.failuresEndUp then
    s1.setLane l { s.lane l with failRun := (s.lane l).failRun + 1 }
  else (s1.setLane l ((s.lane l).enter .hunt)).report (fun st => st.onLane l LaneCounters.addAlignLoss)

/-- A passing block in UP (R10): the failure run is 0; an idle block is dropped, a malformed slice discarded, a good
slice handed to the merge unit (R11). -/
def State.upScreen (s : State) (l : LaneId) (block : List Byte) : State :=
  let x : Lane := { s.lane l with failRun := 0 }
  if blockIdle block then s.setLane l x
  else if blockMalformed block then (s.setLane l x).report (fun st => st.onLane l LaneCounters.addMalformed)
  else
    (s.setLane l { x with handed := x.handed ++ [sliceOfBlock block] }).report
      (fun st => st.onLane l LaneCounters.addGood)

/-- UP_BLOCK (R7, R10): the next block is tested once it is whole. The block after it, or the resumed search, begins at
the first byte after it. -/
def execUpBlock (l : LaneId) (bytes : List Byte) (s : State) : Host.Outcome State Fault Refusal :=
  live s fun s =>
    if (s.lane l).align = .up then
      let x := (s.lane l).receive bytes
      if x.partlyReceived then s.setLane l x
      else
        let s1 := s.setLane l (x.advance Config.blockBytes)
        if blockPasses x.block then s1.upScreen l x.block else s1.upFailure l
    else s

end Sys2Proof.Machine
end

