-- ==== Sys2Proof/Machine/LaneTransmit.lean ====
section
/-! DEFINITION. The transmit side of the lanes (R12, R13, R16). -/

namespace Sys2Proof.Machine

/-- The copy whose last byte has been sent is counted (R13). -/
def State.countSent (s : State) (l : LaneId) : State :=
  match (s.lane l).line with
  | .sending _ true => s.report (fun st => st.onLane l LaneCounters.addSent)
  | .sending _ false | .silent => s

/-- Whether a lane is one of a set. -/
def LaneSet.has (x : LaneSet) : LaneId → Bool
  | .a => x.a
  | .b => x.b

/-- A STALLED slicer offers its slice again when an eligible lane's FIFO has lost a copy to its line (R114). -/
def State.reoffer (s : State) (l : LaneId) : State :=
  match s.slicer.state with
  | .stalled j sl el => if el.has l then s.offerSlice j sl el else s
  | .idle | .slicing _ => s

/-- LINE_BLOCK_END (R13): the copy just sent is counted; the line sends the head copy of its FIFO, or an idle block
when the FIFO is empty. A silent line, while the reset pin is asserted, sends nothing (R192). -/
def execLineBlockEnd (l : LaneId) (s : State) : Host.Outcome State Fault Refusal :=
  live s fun s =>
    let s1 := s.countSent l
    match (s.lane l).fifo with
    | [] => s1.setLane l { s.lane l with line := .sending idleBlock false }
    | sl :: rest => (s1.setLane l { s.lane l with fifo := rest, line := .sending (blockOfSlice sl) true }).reoffer l

/-- The part of the restart operation that a lane's transmit side is. -/
def partOfLane : LaneId → Part
  | .a => .laneA
  | .b => .laneB

/-- LANE_TX_RESTART (R16): the FIFO is emptied; a copy whose sending has begun is sent to its end; the receive side and
the counters keep their values. -/
def execLaneTxRestart (l : LaneId) (s : State) : Host.Outcome State Fault Refusal :=
  restartPart s (partOfLane l) fun s => s.setLane l { s.lane l with fifo := [] }

end Sys2Proof.Machine
end

