-- ==== Sys2Proof/Machine/Load.lean ====
section
/-! DEFINITION. Load sessions: opening, loading records, committing, aborting, reading, timing out (chapter 9). -/

namespace Sys2Proof.Machine

/-- Replace the load session. -/
def State.setSession (s : State) (x : Option Session) : State := { s with mgmt := { s.mgmt with session := x } }

/-- The session is OPEN: it has an idle deadline (R146). -/
def Session.isOpen (x : Session) : Bool := x.idle.isSome

/-- An idle deadline set now, with the timeout of the active bank (R161). -/
def State.newIdle (s : State) : Deadline := Deadline.after s.time (s.glob.idleTimeout * Config.idleUnit)

/-- A number's successor: from 65535 to 1 (R18, R147). -/
def nextNumber (n : Half) : Half := if n = BitVec.allOnes 16 then 1 else n + 1

/-- The session checks (R150), in order: what refuses the request, or the open session. -/
def State.sessionChecks (s : State) (src : Source) (number : Half) : Except Status Session :=
  match s.mgmt.session with
  | none => .error .noSession
  | some x =>
    if x.isOpen = false then .error .noSession
    else if x.number ≠ number then .error .wrongSession
    else if x.owner ≠ src then .error .sessionOwned
    else .ok x

/-! ## Opening (R148, R149) -/

/-- The mode a byte names. -/
def OpenMode.ofByte? (b : Byte) : Option OpenMode := if b = 1 then some .clean else if b = 2 then some .copy else none

/-- The open session that refuses a LOAD_OPEN (R148, check 3). -/
def State.openSession (s : State) : Option Session :=
  match s.mgmt.session with
  | some x => if x.isOpen then some x else none
  | none => none

/-- LOAD_OPEN (R148): the mode, the count and the session state are checked, and the preparation of the shadow bank
starts. -/
def execLoadOpen (s : State) : Host.Outcome State Fault Refusal :=
  onReady s .loadOpen fun s r =>
    let p := reqParams r.bytes
    match OpenMode.ofByte? (rd8 p 0) with
    | none => s.respond r .badRequest []
    | some mode =>
      let count := (rd16 p 2).toNat
      if outside count 1 8192 then s.respond r .badRequest []
      else
        match s.openSession with
        | some x => s.respond r .sessionOpen ([x.owner.code, 0] ++ be16 x.number)
        | none => { s with mgmt := { s.mgmt with executor := .preparing r mode count (rd32 p 4) } }

/-- The table after the shadow bank's preparation (R149, R19). -/
def State.prepared (s : State) (mode : OpenMode) : Table :=
  match mode with
  | .clean =>
    { s.table.setShadow Bank.dflt with
      touched := BitVec.allOnes 4095, queuesTouched := true, globalTouched := true }
  | .copy =>
    { s.table.setShadow s.activeBank with touched := 0, queuesTouched := false, globalTouched := false }

/-- LOAD_OPEN_PREPARED (R149): the preparation is complete, the session is created OPEN with a new number, and OK is
answered. -/
def execLoadOpenPrepared (s : State) : Host.Outcome State Fault Refusal :=
  live s fun s =>
    match s.mgmt.executor with
    | .preparing r mode count check =>
      let number := nextNumber s.mgmt.sessionCounter
      let x : Session :=
        { number := number, owner := r.source, mode := mode, declared := count, declaredCheck := check
          next := 0, running := 0, idle := some s.newIdle }
      let s1 : State :=
        { s with table := s.prepared mode, mgmt := { s.mgmt with session := some x, sessionCounter := number } }
      s1.respond r .ok (be16 number)
    | .idle | .ready _ _ | .reading _ _ | .sweeping _ _ _ | .probing _ _ | .restarting _ _ => s

/-! ## Loading (R151 to R155) -/

/-- Write one record into the shadow bank and set its touched mark (R152, R154). -/
def Table.writeRec (t : Table) (shadow : Bank) : LoadRec → Table
  | .stream k e =>
    { t.setShadow { shadow with entries := SMap.set Entry.dflt shadow.entries k e } with touched := setMark t.touched k }
  | .queue q capacity =>
    { t.setShadow { shadow with capacities := shadow.capacities.set q capacity } with queuesTouched := true }
  | .glob g => { t.setShadow { shadow with glob := g } with globalTouched := true }

/-- The table's shadow bank (R17). -/
def Table.shadow (t : Table) : Bank := if t.active then t.bank0 else t.bank1

/-- Write a batch in order: a later record of the same item decides its contents (R152). -/
def Table.writeRecs (t : Table) (rs : List LoadRec) : Table := rs.foldl (fun t x => t.writeRec t.shadow x) t

/-- LOAD_RECORDS (R151, R153, R154). -/
def execLoadRecords (s : State) : Host.Outcome State Fault Refusal :=
  onReady s .loadRecords fun s r =>
    let p := reqParams r.bytes
    let first := (rd16 p 2).toNat
    let count := (rd16 p 4).toNat
    if p.length < 8 ∨ outside count 1 32 then s.respond r .badRequest []
    else if reqLength r.bytes ≠ 8 + 16 * count then s.respond r .badRequest []
    else
      match s.sessionChecks r.source (rd16 p 0) with
      | .error status => s.respond r status []
      | .ok x =>
        if x.declared < first + count then s.respond r .badRequest []
        else if first + count ≤ x.next then
          (s.setSession (some { x with idle := some s.newIdle })).respond r .alreadyLoaded (be16n x.next)
        else if first ≠ x.next then s.respond r .outOfOrder (be16n x.next)
        else
          let raw := splitRecords count (p.drop 8)
          match judgeBatch 0 raw with
          | .error e => s.respond r .badRecord [byteOf e.1, byteOf e.2]
          | .ok recs =>
            let x1 : Session :=
              { x with next := x.next + count, running := addChecks x.running raw, idle := some s.newIdle }
            let s1 : State := { s with table := s.table.writeRecs recs }
            (s1.setSession (some x1)).respond r .ok (be16n x1.next)

/-! ## Committing (R156 to R158) -/

/-- A lane at the commit swap, with its receive enable before and after (R9). What is received and not yet tested at a
change is not examined, and a search starts at the first byte received after the swap. -/
def Lane.atSwap (l : Lane) (before after : Bool) : Lane :=
  if before && !after then l.enterAfresh .disabled
  else if !before && after then l.enterAfresh (if l.signal then .hunt else .down)
  else l

/-- The commit swap (R157): the pointer moves, the generation advances, the session's number is recorded, the touched
streams get pending-flush marks, the session is COMMITTING, and each lane compares its enables (R9). -/
def State.commitSwap (s : State) (x : Session) : State :=
  let g0 := s.glob
  let g1 := s.shadowBank.glob
  { s with
    table :=
      { s.table with
        active := !s.table.active
        generation := nextNumber s.table.generation
        lastCommitted := x.number }
    merge := { s.merge with pendingFlush := s.merge.pendingFlush ||| s.table.touched }
    laneA := s.laneA.atSwap g0.rxEnableA g1.rxEnableA
    laneB := s.laneB.atSwap g0.rxEnableB g1.rxEnableB
    mgmt := { s.mgmt with session := some { x with idle := none } } }

/-- The end of the commit sweep (R158): every touched mark is cleared, the session is NONE, and the response is produced,
with the bank now active and how many streams the sweep list had. -/
def State.endSweep (s : State) (r : Request) (total : Nat) : State :=
  let s1 : State := { s with table := { s.table with touched := 0, queuesTouched := false, globalTouched := false } }
  (s1.setSession none).respond r .ok ([onOff s.table.active, 0] ++ be16n total)

/-- The commit sweep starts: over a list of streams it holds the executor, and over an empty one it ends at once (R158). -/
def State.startSweep (s : State) (r : Request) (list : List Nat) : State :=
  if list = [] then s.endSweep r 0
  else { s with mgmt := { s.mgmt with executor := .sweeping r list list.length } }

/-- LOAD_COMMIT (R156): after a swap the sweep over the touched streams starts (R158). -/
def execLoadCommit (s : State) : Host.Outcome State Fault Refusal :=
  onReady s .loadCommit fun s r =>
    let number := rd16 (reqParams r.bytes) 0
    if s.mgmt.session = none ∧ number ≠ 0 ∧ number = s.table.lastCommitted then s.respond r .alreadyCommitted []
    else
      match s.sessionChecks r.source number with
      | .error status => s.respond r status []
      | .ok x =>
        if x.next ≠ x.declared then s.respond r .countMismatch (be16n x.next ++ be16n x.declared)
        else if x.running ≠ x.declaredCheck then (s.setSession none).respond r .checkMismatch (be32 x.running)
        else (s.commitSwap x).startSweep r (markedStreams s.table.touched)

/-- COMMIT_SWEEP_END (R158), after the last visit. -/
def execCommitSweepEnd (s : State) : Host.Outcome State Fault Refusal :=
  live s fun s =>
    match s.mgmt.executor with
    | .sweeping r [] total => s.endSweep r total
    | .sweeping _ (_ :: _) _ | .idle | .ready _ _ | .reading _ _ | .preparing _ _ _ _ | .probing _ _
    | .restarting _ _ => s

/-! ## Ending and reading a session (R160 to R163) -/

/-- LOAD_ABORT (R160). -/
def execLoadAbort (s : State) : Host.Outcome State Fault Refusal :=
  onReady s .loadAbort fun s r =>
    match s.sessionChecks r.source (rd16 (reqParams r.bytes) 0) with
    | .error status => s.respond r status []
    | .ok x => (s.setSession none).respond r .ok (be16n x.next)

/-- The data of a LOAD_STATUS response (R163, R190). -/
def State.loadStatusData (s : State) : List Byte :=
  let tail := be16 s.table.generation
  match s.mgmt.session with
  | some x =>
    [if x.isOpen then 1 else 2, x.owner.code, x.mode.code, 0] ++ be16 x.number ++ be16n x.next ++ be16n x.declared
      ++ be16 s.table.lastCommitted ++ be32 x.declaredCheck ++ tail
  | none =>
    [0, 0, 0, 0] ++ be16 s.mgmt.sessionCounter ++ be16n 0 ++ be16n 0 ++ be16 s.table.lastCommitted ++ be32 0 ++ tail

/-- LOAD_STATUS (R163). -/
def execLoadStatus (s : State) : Host.Outcome State Fault Refusal :=
  onReady s .loadStatus fun s r => s.respond r .ok s.loadStatusData

/-- LOAD_IDLE_TIMEOUT (R162): an OPEN session whose idle deadline is reached becomes NONE and is counted. -/
def execLoadIdleTimeout (s : State) : Host.Outcome State Fault Refusal :=
  live s fun s =>
    match s.mgmt.session with
    | some x =>
      match x.idle with
      | some d => if d.reached s.time then (s.setSession none).report (fun st => st.event .idleTimeouts) else s
      | none => s
    | none => s

end Sys2Proof.Machine
end

