-- ==== Sys2Proof/Machine/Merge.lean ====
section
/-! DEFINITION. The merge unit: taking slices, hold timers, the commit sweep's visits, its restart (chapter 3). -/

namespace Sys2Proof.Machine

/-! ## The held set and the hold timer -/

/-- A held slice put at its place in ascending order of distance from E (R32, R39). -/
def insertHeld (e : SeqNo) (h : Held) : List Held → List Held
  | [] => [h]
  | x :: xs => if (h.slice.seq - e).toNat < (x.slice.seq - e).toNat then h :: x :: xs else x :: insertHeld e h xs

/-- The run of held slices at E, E+1, ...: the slices released, the E after them, and the slices left (R38, R45). -/
def releaseRun : SeqNo → List Held → List Held × SeqNo × List Held
  | e, [] => ([], e, [])
  | e, h :: hs =>
    if h.slice.seq = e then
      let r := releaseRun (e + 1) hs
      (h :: r.1, r.2.1, r.2.2)
    else ([], e, h :: hs)

/-- The earliest arrival time among held slices: the one furthest behind the present timebase value, modulo 2^32
(R38, R44). -/
def earliestArrival (now : Time) : List Held → Time
  | [] => now
  | h :: hs => if (now - earliestArrival now hs).toNat ≤ (now - h.arrival).toNat then h.arrival else earliestArrival now hs

/-- The hold timer for the slices that remain held: none when none do, else counted anew from the earliest arrival with
the stream's hold time looked up now (R44). -/
def State.rearm (s : State) (k : Nat) (held : List Held) : Option Deadline :=
  if held.isEmpty then none else some (Deadline.after (earliestArrival s.time held) (s.entry k).holdTime)

/-- Pass held slices without the gap flag, in order. -/
def State.passRun (s : State) (hs : List Held) : State :=
  hs.foldl (fun s h => s.passSlice h.slice h.path false) s

/-- Pass slices in order, each with the gap flag exactly when its sequence is not the one next after the slice passed
before it (R40); `next` is that sequence. -/
def State.passJump (s : State) (next : SeqNo) : List Held → State
  | [] => s
  | h :: hs => (s.passSlice h.slice h.path (h.slice.seq != next)).passJump (h.slice.seq + 1) hs

/-- The stream's hold deadline is reached and its held set is non-empty (R45). -/
def State.holdDue (s : State) (k : Nat) : Bool :=
  !(s.mrec k).held.isEmpty
    && match (s.mrec k).timer with
      | some d => d.reached s.time
      | none => false

/-- One hold expiry (R45): the lowest held slice is passed with the gap flag and the run behind it without. DESIGN CHOICE:
R46 says that a slice arriving in the window, other than at E, gives the same release in either order; for one below the
lowest held slice R39 and R45 give two releases, and they are followed (log 30, unsafe). -/
def State.expireOnce (s : State) (k : Nat) : State :=
  match (s.mrec k).held with
  | [] => s
  | h :: hs =>
    let r := releaseRun (h.slice.seq + 1) hs
    ((s.passSlice h.slice h.path true).passRun r.1).setMrec k
      { sync := some r.2.1, held := r.2.2, timer := s.rearm k r.2.2, staleRun := 0 }

/-- Hold expiries at once, one after another, until the held set is empty or the deadline lies ahead (R45). -/
def State.expireLoop (k : Nat) : Nat → State → State
  | 0, s => s
  | fuel + 1, s => if s.holdDue k then State.expireLoop k fuel (s.expireOnce k) else s

/-- Every hold expiry that is due: each releases a held slice at least, so as many as are held are enough. -/
def State.expireDue (s : State) (k : Nat) : State := State.expireLoop k (s.mrec k).held.length s

/-! ## Taking a slice (R35 to R43) -/

/-- A slice reaching an UNSYNCED record (R37). -/
def State.synchronise (s : State) (sl : Slice) (p : Path) : State :=
  match s.claimRx with
  | none => s.discardSlice sl.stream .noBuffer
  | some s1 =>
    (s1.passSlice sl p true).setMrec sl.stream { sync := some (sl.seq + 1), held := [], timer := none, staleRun := 0 }

/-- A slice at E (R38). A deadline set anew that is already reached is reached at once (R44). -/
def State.passAtE (s : State) (sl : Slice) (p : Path) : State :=
  match s.claimRx with
  | none => s.discardSlice sl.stream .noBuffer
  | some s1 =>
    let r := releaseRun (sl.seq + 1) (s.mrec sl.stream).held
    State.expireDue
      (((s1.passSlice sl p false).passRun r.1).setMrec sl.stream
        { sync := some r.2.1, held := r.2.2, timer := s.rearm sl.stream r.2.2, staleRun := 0 })
      sl.stream

/-- A slice 1..W−1 ahead of E (R39): a second copy of a held slice, refused an entry, refused a block, or held. -/
def State.holdSlice (s : State) (e : SeqNo) (sl : Slice) (p : Path) : State :=
  let rec0 := s.mrec sl.stream
  if rec0.held.any (fun h => h.slice.seq == sl.seq) then s.discardSlice sl.stream .duplicate
  else if Config.heldEntries ≤ s.heldInUse then s.discardSlice sl.stream .noHoldEntry
  else
    match s.claimRx with
    | none => s.discardSlice sl.stream .noBuffer
    | some s1 =>
      s1.setMrec sl.stream
        { sync := some e
          held := insertHeld e { slice := sl, arrival := s.time, path := p } rec0.held
          timer := if rec0.held.isEmpty then some (Deadline.after s.time (s.entry sl.stream).holdTime) else rec0.timer
          staleRun := 0 }

/-- A slice W..2046 ahead of E (R40): every held slice and then the slice are passed. -/
def State.windowJump (s : State) (e : SeqNo) (sl : Slice) (p : Path) : State :=
  match s.claimRx with
  | none => s.discardSlice sl.stream .noBuffer
  | some s1 =>
    (s1.passJump e ((s.mrec sl.stream).held ++ [{ slice := sl, arrival := s.time, path := p }])).setMrec sl.stream
      { sync := some (sl.seq + 1), held := [], timer := none, staleRun := 0 }

/-- A resynchronisation on a triggering slice (R42): the held slices are discarded, the engine is told to abandon the
stream's message as RESYNC, and the slice is passed with the gap flag if a block is granted. -/
def State.resynchronise (s : State) (sl : Slice) (p : Path) : State :=
  let k := sl.stream
  let s1 := ((s.returnRx (s.mrec k).held.length).setMrec k MergeRec.fresh).send (.abandon k .resync)
  let s2 := s1.report (fun st => st.event .resyncEvents)
  match s2.claimRx with
  | none => s2.discardSlice k .noBuffer
  | some s3 =>
    (s3.passSlice sl p true).setMrec k { sync := some (sl.seq + 1), held := [], timer := none, staleRun := 0 }

/-- A stale slice (R41): discarded below the stale threshold, else the trigger of a resynchronisation. -/
def State.staleSlice (s : State) (sl : Slice) (p : Path) : State :=
  let k := sl.stream
  let run := (s.mrec k).staleRun + 1
  if run < s.glob.staleThreshold then (s.setMrec k { s.mrec k with staleRun := run }).discardSlice k .stale
  else s.resynchronise sl p

/-- The sync state and the distance from E place the slice in a zone (R36). -/
def State.judgeSlice (s : State) (sl : Slice) (p : Path) : State :=
  match (s.mrec sl.stream).sync with
  | none => s.synchronise sl p
  | some e =>
    let d := (sl.seq - e).toNat
    if d = 0 then s.passAtE sl p
    else if d < (s.entry sl.stream).window then s.holdSlice e sl p
    else if d ≤ 2046 then s.windowJump e sl p
    else if d ≤ 4031 then s.staleSlice sl p
    else s.discardSlice sl.stream .duplicate

/-- Whether a slice's stream accepts it from where it came (R35): the loop path alone for stream 4094, else the lanes
of the receive lane mask. -/
def pathPermitted (k : Nat) (mask : LaneMask) : Path → Bool
  | .a => k != Config.probeStream && mask.names .a
  | .b => k != Config.probeStream && mask.names .b
  | .loop => k == Config.probeStream

/-- The screening of R35, and then the judgement by distance. -/
def State.screenSlice (s : State) (sl : Slice) (p : Path) : State :=
  let e := s.entry sl.stream
  if !e.rxEnable then s.discardSlice sl.stream .streamDisabled
  else if !pathPermitted sl.stream e.rxMask p then s.discardSlice sl.stream .laneFiltered
  else s.judgeSlice sl p

/-- The merge unit takes a slice: a stream with its pending-flush mark set is flushed first (R35, R51). -/
def State.takeSlice (s : State) (sl : Slice) (p : Path) : State :=
  if markOf s.merge.pendingFlush sl.stream then (s.flush sl.stream .reconfigured).screenSlice sl p
  else s.screenSlice sl p

/-- The next slice waiting on a path, and the state without it there (R11, R116). -/
def State.nextSlice (s : State) : Path → Option (Slice × State)
  | .a =>
    match s.laneA.handed with
    | [] => none
    | sl :: rest => some (sl, { s with laneA := { s.laneA with handed := rest } })
  | .b =>
    match s.laneB.handed with
    | [] => none
    | sl :: rest => some (sl, { s with laneB := { s.laneB with handed := rest } })
  | .loop =>
    match s.slicer.loop with
    | [] => none
    | sl :: rest => some (sl, { s with slicer := { s.slicer with loop := rest } })

/-- SLICE_TAKEN (R35). -/
def execSliceTaken (p : Path) (s : State) : Host.Outcome State Fault Refusal :=
  live s fun s =>
    match s.nextSlice p with
    | none => s
    | some (sl, s1) => s1.takeSlice sl p

/-- HOLD_EXPIRY (R45): a marked stream is flushed and releases nothing. -/
def execHoldExpiry (k : Nat) (s : State) : Host.Outcome State Fault Refusal :=
  live s fun s =>
    if s.holdDue k then
      if markOf s.merge.pendingFlush k then s.flush k .reconfigured else s.expireDue k
    else s

/-- SWEEP_VISIT (R52): the next listed stream is flushed if its pending-flush mark is still set. -/
def execSweepVisit (s : State) : Host.Outcome State Fault Refusal :=
  live s fun s =>
    match s.mgmt.executor with
    | .sweeping r (k :: left) total =>
      let s1 : State := { s with mgmt := { s.mgmt with executor := .sweeping r left total } }
      if markOf s.merge.pendingFlush k then s1.flush k .reconfigured else s1
    | .sweeping _ [] _ | .idle | .ready _ _ | .reading _ _ | .preparing _ _ _ _ | .probing _ _ | .restarting _ _ => s

/-- MERGE_RESTART (R56): every held slice discarded, every record UNSYNCED with no timer and a stale run of 0, every
pending-flush mark cleared; no abandon request is sent and nothing is counted. -/
def execMergeRestart (s : State) : Host.Outcome State Fault Refusal :=
  restartPart s .merge fun s =>
    let s1 := s.returnRx s.heldInUse
    { s1 with merge := { recs := [], pendingFlush := 0 } }

end Sys2Proof.Machine
end

