-- ==== Sys2Proof/Machine/Reassembly.lean ====
section
/-! DEFINITION. The reassembly engine: taking passed slices, deadlines, abandon requests, routing, its restart
(chapter 4). -/

namespace Sys2Proof.Machine

/-! ## Routing completed messages (R73 to R76) -/

/-- A stream 1..4093 message is offered to its delivery queue (R74, R92): accepted below capacity, else abandoned as
QUEUE_FULL. -/
def State.offerToQueue (s : State) (d : Descriptor) (seq : SeqNo) : State :=
  let q := (s.entry d.stream).queue
  if s.occupancy q < s.activeBank.capacities.get q then
    State.report
      { s with delivery := { s.delivery with dqs := s.delivery.dqs.set q (s.delivery.dqs.get q ++ [d]) } }
      (fun st => st.deliveredMessage d.stream)
  else s.abandonMessage d.stream .queueFull seq d.length d.blocks.length

/-- A stream 0 message is offered to the backbone share (R75, R123, R125): its bytes are copied and its blocks
returned, or it is dropped as MGMT_DROPPED. -/
def State.offerToShare (s : State) (d : Descriptor) : State :=
  let s1 := s.returnRx d.blocks.length
  if s.mgmt.bbShare.length < Config.shareSize then
    let r : Request := { source := .backbone, bytes := d.blocks.flatten, position := s.mgmt.nextIntake }
    State.report
      { s1 with mgmt := { s1.mgmt with bbShare := s1.mgmt.bbShare ++ [r], nextIntake := s1.mgmt.nextIntake + 1 } }
      (fun st => st.deliveredMessage Config.mgmtStream)
  else s1.report (fun st => st.event .mgmtDropped)

/-- The lowest offset at which two byte strings differ, or the shorter length when one continues the other; none when
they are equal (R171). -/
def firstDiff : Nat → List Byte → List Byte → Option Nat
  | _, [], [] => none
  | i, x :: xs, y :: ys => if x = y then firstDiff (i + 1) xs ys else some i
  | i, [], _ :: _ => some i
  | i, _ :: _, [] => some i

/-- The probe buffer, while a probe runs. -/
def State.probeBuffer (s : State) : List Byte :=
  match s.mgmt.executor with
  | .probing _ p => p.buffer
  | .idle | .ready _ _ | .reading _ _ | .preparing _ _ _ _ | .sweeping _ _ _ | .restarting _ _ => []

/-- A stream 4094 message goes to the probe comparator (R76, R171): compared while the probe is AWAITING, else a
stray. -/
def State.offerToProbe (s : State) (d : Descriptor) : State :=
  let s1 := s.returnRx d.blocks.length
  if s.probeAwaiting then
    let s2 := s1.report (fun st => st.deliveredMessage Config.probeStream)
    match firstDiff 0 d.blocks.flatten s.probeBuffer with
    | none => s2.endProbe 1 0 d.length 0 d.lanes
    | some off => s2.endProbe 2 0 d.length off d.lanes
  else s1.report (fun st => st.event .probeStray)

/-- A completed message is routed by its stream number (R73). -/
def State.routeMessage (s : State) (d : Descriptor) (seq : SeqNo) : State :=
  if d.stream = Config.mgmtStream then s.offerToShare d
  else if d.stream = Config.probeStream then s.offerToProbe d
  else s.offerToQueue d seq

/-! ## Taking a passed slice (R61 to R65) -/

/-- Abandon the message a stream is assembling, with a reason, at a slice that does not belong to it: the stream enters
IDLE (R61, R62 step 1, R65 step 1, R69). -/
def State.abandonOpen (s : State) (c : Ctx) (reason : AbandonReason) (seq : SeqNo) : State :=
  (((s.freeCtx c.stream).notDiscarding c.stream).abandonMessage c.stream reason seq c.gathered c.blocks.length)

/-- Abandon the message a stream is assembling together with the slice at which it is abandoned. -/
def State.abandonWith (s : State) (c : Ctx) (reason : AbandonReason) (seq : SeqNo) (gathered : Nat) : State :=
  ((s.freeCtx c.stream).abandonMessage c.stream reason seq gathered (c.blocks.length + 1))

/-- Discard a slice as ORPHAN (R72). -/
def State.orphanSlice (s : State) (k : Nat) : State := (s.returnRx 1).report (fun st => st.discardedSlice k .orphan)

/-- A new message is cut short before it (R62 step 1, R65 step 1): TRUNCATED. -/
def State.truncateOpen (s : State) (sl : Slice) : State :=
  match s.ctxOf sl.stream with
  | some c => s.abandonOpen c .truncated sl.seq
  | none => s

/-- A FIRST slice's new message is abandoned with its block, and the stream is DISCARDING (R62 steps 2 and 3). -/
def State.rejectFirst (s : State) (sl : Slice) (reason : AbandonReason) : State :=
  (s.toDiscarding sl.stream).abandonMessage sl.stream reason sl.seq Config.maxFill 1

/-- A FIRST slice (R62). -/
def State.takeFirst (s0 : State) (sl : Slice) (p : Path) : State :=
  let s := s0.truncateOpen sl
  let e := s.entry sl.stream
  let declared := sl.aux.toNat
  if declared < Config.maxFill + 1 then s.rejectFirst sl .badDeclared
  else if e.maxLen < declared then s.rejectFirst sl .oversize
  else if Config.numContexts ≤ s.engine.ctxs.length then s.rejectFirst sl .noContext
  else
    (s.notDiscarding sl.stream).bindCtx
      { stream := sl.stream
        blocks := [sl.payload]
        declared := declared
        gathered := Config.maxFill
        check := crc16 sl.payload
        lanes := LaneSet.single p
        timer := Deadline.after s.time (e.asmLimit * Config.assemblyUnit)
        lastSeq := sl.seq }

/-- A MIDDLE slice appended to a context (R63). -/
def Ctx.append (c : Ctx) (sl : Slice) (p : Path) : Ctx :=
  { c with
    blocks := c.blocks ++ [sl.payload]
    gathered := c.gathered + Config.maxFill
    check := crc16From c.check sl.payload
    lanes := c.lanes.union (LaneSet.single p)
    lastSeq := sl.seq }

/-- A MIDDLE slice (R63). -/
def State.takeMiddle (s : State) (sl : Slice) (p : Path) : State :=
  match s.ctxOf sl.stream with
  | none => (s.orphanSlice sl.stream).toDiscarding sl.stream
  | some c =>
    if c.declared ≤ c.gathered + Config.maxFill then
      (s.toDiscarding sl.stream).abandonWith c .lengthMismatch sl.seq (c.gathered + Config.maxFill)
    else (s.freeCtx sl.stream).bindCtx (c.append sl p)

/-- A LAST slice (R64). -/
def State.takeLast (s : State) (sl : Slice) (p : Path) : State :=
  match s.ctxOf sl.stream with
  | none => (s.orphanSlice sl.stream).notDiscarding sl.stream
  | some c =>
    let s1 := s.notDiscarding sl.stream
    if c.gathered + sl.payload.length ≠ c.declared then
      s1.abandonWith c .lengthMismatch sl.seq (c.gathered + sl.payload.length)
    else if (s.entry sl.stream).checkEnable ∧ crc16From c.check sl.payload ≠ sl.aux then
      s1.abandonWith c .checkFailed sl.seq c.declared
    else
      (s1.freeCtx sl.stream).routeMessage
        { stream := sl.stream
          length := c.declared
          lanes := c.lanes.union (LaneSet.single p)
          blocks := c.blocks ++ [sl.payload] }
        sl.seq

/-- An ONLY slice (R65). -/
def State.takeOnly (s0 : State) (sl : Slice) (p : Path) : State :=
  let s := (s0.truncateOpen sl).notDiscarding sl.stream
  let e := s.entry sl.stream
  let fill := sl.payload.length
  if e.maxLen < fill then s.abandonMessage sl.stream .oversize sl.seq fill 1
  else if e.checkEnable ∧ crc16 sl.payload ≠ sl.aux then s.abandonMessage sl.stream .checkFailed sl.seq fill 1
  else
    s.routeMessage { stream := sl.stream, length := fill, lanes := LaneSet.single p, blocks := [sl.payload] } sl.seq

/-- The gap flag's step (R61): a message under assembly is abandoned as GAP. -/
def State.applyGap (s : State) (sl : Slice) (gap : Bool) : State :=
  if gap then
    match s.ctxOf sl.stream with
    | some c => s.abandonOpen c .gap sl.seq
    | none => s
  else s

/-- A passed slice (R61, then R62 to R65 by position). -/
def State.engineSlice (s : State) (sl : Slice) (p : Path) (gap : Bool) : State :=
  let s1 := s.applyGap sl gap
  match sl.pos with
  | .first => s1.takeFirst sl p
  | .middle => s1.takeMiddle sl p
  | .last => s1.takeLast sl p
  | .only => s1.takeOnly sl p

/-- An abandon request (R69): ASSEMBLING is abandoned with the reason, DISCARDING becomes IDLE with no abandon, IDLE
stays. -/
def State.engineAbandon (s : State) (k : Nat) (reason : AbandonReason) : State :=
  match s.ctxOf k with
  | some c => s.abandonOpen c reason c.lastSeq
  | none => s.notDiscarding k

/-- The engine deals with an item whole (R60). -/
def State.engineItem (s : State) : Item → State
  | .slice sl p gap => s.engineSlice sl p gap
  | .abandon k reason => s.engineAbandon k reason

/-- A stream's next item, in the order the merge unit sent them (R60). -/
def State.nextItem (s : State) (k : Nat) : Option Item := s.engine.items.find? (fun it => it.stream == k)

/-- The stream's next item is taken out. -/
def State.dropItem (s : State) (k : Nat) : State :=
  { s with engine := { s.engine with items := s.engine.items.eraseP (fun it => it.stream == k) } }

/-- The engine takes every item a stream has waiting, in order; `fuel` bounds how many. -/
def State.drainItems (k : Nat) : Nat → State → State
  | 0, s => s
  | fuel + 1, s =>
    match s.nextItem k with
    | some it => State.drainItems k fuel ((s.dropItem k).engineItem it)
    | none => s

/-- REASSEMBLY_SLICE_TAKEN (R61). -/
def execReassemblySliceTaken (k : Nat) (s : State) : Host.Outcome State Fault Refusal :=
  live s fun s =>
    match s.nextItem k with
    | some (.slice sl p gap) => (s.dropItem k).engineSlice sl p gap
    | some (.abandon _ _) => s
    | none => s

/-- ABANDON_REQUEST_TAKEN (R69). -/
def execAbandonRequestTaken (k : Nat) (s : State) : Host.Outcome State Fault Refusal :=
  live s fun s =>
    match s.nextItem k with
    | some (.abandon k' reason) => (s.dropItem k).engineAbandon k' reason
    | some (.slice _ _ _) => s
    | none => s

/-- ASSEMBLY_DEADLINE (R67): the context's message is abandoned as STALL and its stream is DISCARDING. -/
def execAssemblyDeadline (k : Nat) (s : State) : Host.Outcome State Fault Refusal :=
  live s fun s =>
    match s.ctxOf k with
    | some c =>
      if c.timer.reached s.time then
        ((s.freeCtx k).toDiscarding k).abandonMessage k .stall c.lastSeq c.gathered c.blocks.length
      else s
    | none => s

/-- The blocks of the passed slices the engine has not taken. -/
def itemBlocks (items : List Item) : Nat :=
  (items.map (fun it => match it with | .slice _ _ _ => 1 | .abandon _ _ => 0)).sum

/-- The blocks in the contexts' block lists. -/
def ctxBlocks (ctxs : List Ctx) : Nat := (ctxs.map (fun c => c.blocks.length)).sum

/-- REASSEMBLY_RESTART (R79): every context freed, every item dropped, their blocks returned, every stream IDLE;
nothing is counted or logged. -/
def execReassemblyRestart (s : State) : Host.Outcome State Fault Refusal :=
  restartPart s .reassembly fun s =>
    let s1 := s.returnRx (ctxBlocks s.engine.ctxs + itemBlocks s.engine.items)
    { s1 with engine := { discarding := 0, ctxs := [], items := [] } }

end Sys2Proof.Machine
end

