-- ==== Sys2Proof/Machine/Probes.lean ====
section
/-! DEFINITION. Probes: starting one, and its deadline (chapter 10). Its other endings are in Ops and Reassembly. -/

namespace Sys2Proof.Machine

/-- The probe message: byte k is (seed + k) mod 256 (R169). -/
def probeMessage (length : Nat) (seed : Byte) : List Byte := (List.range length).map (fun k => seed + byteOf k)

/-- The start of a probe (R169): stream 4094 is flushed as FLUSHED and the engine takes what it has waiting for the
stream, the abandon request last, while the probe is still NONE (log 9); then the message is built and added to the
outputs, and the probe is SENDING. -/
def State.startProbe (s : State) (r : Request) (length : Nat) (seed : Byte) : State :=
  let s1 := s.flush Config.probeStream .flushed
  let s2 := State.drainItems Config.probeStream s1.engine.items.length s1
  let msg := probeMessage length seed
  { s2 with
    slicer := { s2.slicer with outputs := s2.slicer.outputs ++ [.probe msg] }
    mgmt :=
      { s2.mgmt with
        executor := .probing r { length := length, buffer := msg, start := s2.time, await := none } } }

/-- PROBE (R168): the length, then stream 4094's enables, then its maximum length. -/
def execProbe (s : State) : Host.Outcome State Fault Refusal :=
  onReady s .probe fun s r =>
    let p := reqParams r.bytes
    let length := (rd16 p 0).toNat
    let e := s.entry Config.probeStream
    if outside length 1 1024 then s.respond r .badRequest []
    else if e.rxEnable = false ∨ e.txEnable = false then s.respond r .notEnabled []
    else if e.maxLen < length then s.respond r .badRequest []
    else s.startProbe r length (rd8 p 2)

/-- PROBE_TIMEOUT (R173): the deadline is reached while AWAITING: FAIL with reason TIMEOUT, which is 13. -/
def execProbeTimeout (s : State) : Host.Outcome State Fault Refusal :=
  live s fun s =>
    match s.mgmt.executor with
    | .probing _ p =>
      match p.await with
      | some (_, d) => if d.reached s.time then s.endProbe 3 13 0 0 LaneSet.empty else s
      | none => s
    | .idle | .ready _ _ | .reading _ _ | .preparing _ _ _ _ | .sweeping _ _ _ | .restarting _ _ => s

end Sys2Proof.Machine
end

