-- ==== Sys2Proof/Machine/ResetPin.lean ====
section
/-! DEFINITION. The reset pin and power-on (R192). -/

namespace Sys2Proof.Machine

/-- A lane as the reset pin is asserted (R192): its line is silent, and what it was receiving, has handed on or has to
send is dropped. -/
def Lane.stopped (l : Lane) : Lane := { l with rx := [], handed := [], fifo := [], line := .silent }

/-- The part as the reset pin is asserted (R192): the work under way in every block is dropped, and with it what the work
holds. What no work holds stands until release: the alignment states, the stream table, the statistics, the timebase,
the transmit sequences, the intake position and the session counter (log 6). -/
def State.stopped (s : State) : State :=
  { s with
    inReset := true
    laneA := s.laneA.stopped
    laneB := s.laneB.stopped
    merge := State.reset.merge
    engine := State.reset.engine
    pool := State.reset.pool
    delivery := { State.reset.delivery with hold := s.delivery.hold, out := s.delivery.out }
    sub := .idle
    slicer := { State.reset.slicer with seqs := s.slicer.seqs }
    mgmt :=
      { State.reset.mgmt with
        nextIntake := s.mgmt.nextIntake, sessionCounter := s.mgmt.sessionCounter, choices := s.mgmt.choices } }

/-- RESET_ASSERT (R192): a delivery in transfer stops where it stands, with no end or error mark, output valid is
inactive, and nothing is taken until release. -/
def execResetAssert (s : State) : Host.Outcome State Fault Refusal := .next s.stopped

/-- A lane at the release of the reset pin (R15, R192): its signal-detect is read. -/
def Lane.atRelease (signal : Bool) : Lane :=
  { Lane.reset with signal := signal, align := if signal then .hunt else .down }

/-- The part at the release of the reset pin: every block at its hard-reset values, the input pins as they are. -/
def State.atRelease (s : State) : State :=
  { State.reset with
    laneA := Lane.atRelease s.laneA.signal
    laneB := Lane.atRelease s.laneB.signal
    delivery := { State.reset.delivery with hold := s.delivery.hold }
    mgmt := { State.reset.mgmt with choices := s.mgmt.choices }
    pending := s.pending }

/-- HARD_RESET (R192): release of the reset pin performs the hard reset. -/
def execHardReset (s : State) : Host.Outcome State Fault Refusal := .next s.atRelease

/-- POWER_ON (R192): the pin asserted until the supply and the clock are stable, then a release. -/
def execPowerOn (s : State) : Host.Outcome State Fault Refusal := .next s.atRelease

end Sys2Proof.Machine
end

