-- ==== Sys2Proof/Machine/SlicerSide.lean ====
section
/-! DEFINITION. The slicer: choosing a message, cutting slices, its restart (chapter 7). -/

namespace Sys2Proof.Machine

/-- A message as the slicer takes it: nothing cut, the message check at its initial value (R112). -/
def newJob (kind : JobKind) (k length : Nat) (pieces : List Block) : Job :=
  { kind := kind, stream := k, length := length, pieces := pieces, cut := 0, check := crc16Init }

/-- A backbone-bound output as a message to slice (R108, R110). -/
def jobOfOutput : Output → Job
  | .response bytes => newJob .response Config.mgmtStream bytes.length (piecesOf bytes)
  | .probe bytes => newJob .probe Config.probeStream bytes.length (piecesOf bytes)

/-- A frame as a message to slice: piece j is the frame's block j (R110). -/
def jobOfFrame (f : Frame) : Job := newJob .data f.stream f.length f.blocks

/-- SLICER_TAKE_MESSAGE (R109): the oldest output, and only when there is none the frame at the head of the transmit
FIFO. -/
def execSlicerTakeMessage (s : State) : Host.Outcome State Fault Refusal :=
  live s fun s =>
    match s.slicer.state with
    | .idle =>
      match s.slicer.outputs with
      | o :: rest => { s with slicer := { s.slicer with outputs := rest, state := .slicing (jobOfOutput o) } }
      | [] =>
        match s.slicer.fifo with
        | f :: rest => { s with slicer := { s.slicer with fifo := rest, state := .slicing (jobOfFrame f) } }
        | [] => s
    | .slicing _ => s
    | .stalled _ _ _ => s

/-- The position of the next piece: cut so far, and whether more follow (R110). -/
def piecePos (cut : Nat) (more : Bool) : Position :=
  if cut = 0 then if more then .first else .only
  else if more then .middle else .last

/-- The aux of the next piece (R110): the length on FIRST, 0 on MIDDLE, the message check on LAST and ONLY. -/
def pieceAux (pos : Position) (length : Nat) (check : Half) : Half :=
  match pos with
  | .first => BitVec.ofNat 16 length
  | .middle => 0
  | .last => check
  | .only => check

/-- A stream's transmit sequence (R111). -/
def State.txSeq (s : State) (k : Nat) : SeqNo := SMap.get (fun _ => 0) s.slicer.seqs k

/-- Advance a stream's transmit sequence by 1, from 4095 to 0 (R111). -/
def State.advanceSeq (s : State) (k : Nat) : State :=
  { s with slicer := { s.slicer with seqs := SMap.set (fun _ => 0) s.slicer.seqs k (s.txSeq k + 1) } }

/-- The slice cut from a message's next piece (R110 to R112). -/
def State.cutSlice (s : State) (j : Job) (piece : Block) (more : Bool) : Slice :=
  let pos := piecePos j.cut more
  { stream := j.stream
    pos := pos
    seq := s.txSeq j.stream
    aux := pieceAux pos j.length (crc16From j.check piece)
    payload := piece }

/-- SLICE_CUT (R110): the next slice is cut and numbered, then handed to the loop path for stream 4094 (R116), else
offered to its eligible lanes (R113, R114). A slice that waits in STALLED is offered again (log 13). -/
def execSliceCut (s : State) : Host.Outcome State Fault Refusal :=
  live s fun s =>
    match s.slicer.state with
    | .slicing j =>
      match j.pieces with
      | [] => s
      | piece :: rest =>
        let sl := s.cutSlice j piece (!rest.isEmpty)
        let j1 : Job := { j with pieces := rest, cut := j.cut + 1, check := crc16From j.check piece }
        let s1 := s.advanceSeq j.stream
        if j.stream = Config.probeStream then
          State.sliceDone { s1 with slicer := { s1.slicer with loop := s1.slicer.loop ++ [sl] } } j1
        else s1.offerSlice j1 sl (s.eligibleLanes j.stream)
    | .stalled j sl el => s.offerSlice j sl el
    | .idle => s

/-- The blocks of the frames in the transmit FIFO. -/
def frameBlocks (fs : List Frame) : Nat := (fs.map (fun f => f.blocks.length)).sum

/-- The blocks of the message being sliced that have not been returned: one for each slice not yet done (R115). -/
def slicerBlocks : SlicerState → Nat
  | .idle => 0
  | .slicing j => if j.kind = .data then j.pieces.length else 0
  | .stalled j _ _ => if j.kind = .data then j.pieces.length + 1 else 0

/-- The message being sliced is a backbone response. -/
def slicingResponse : SlicerState → Bool
  | .idle => false
  | .slicing j => j.kind == .response
  | .stalled j _ _ => j.kind == .response

/-- SLICER_RESTART (R118): the transmit FIFO emptied, the message being sliced dropped with its blocks returned or its
response buffer freed, every transmit sequence 0, the waiting outputs and the loop path kept. -/
def execSlicerRestart (s : State) : Host.Outcome State Fault Refusal :=
  restartPart s .slicer fun s =>
    let s1 := s.returnTx (frameBlocks s.slicer.fifo + slicerBlocks s.slicer.state)
    let s2 := if slicingResponse s.slicer.state then s1.freeBuffer .backbone else s1
    { s2 with slicer := { s2.slicer with fifo := [], state := .idle, seqs := [] } }

end Sys2Proof.Machine
end

