-- ==== Sys2Proof/Machine/SubmissionSide.lean ====
section
/-! DEFINITION. The submission side of the local port: headers, flow control, payloads, length faults, absorbing, its
restart (R98 to R103, R105). -/

namespace Sys2Proof.Machine

/-- Replace the submission side's state. -/
def State.setSub (s : State) (x : Submission) : State := { s with sub := x }

/-- Absorb the declared length, unless the frame has ended with its header (R103). -/
def absorbFrom (length : Nat) (endMark : Bool) : Submission := if endMark then .idle else .absorbing length

/-- The counter a refused or faulty frame is counted under (R103). -/
def faultCounter (isMgmt : Bool) : EventCounter := if isMgmt then .mgmtOversize else .txOversize

/-- WAITING for a DATA frame (R100): a free transmit FIFO entry is tested first, then the transmit claim is made; both
granted, the entry and the blocks are reserved and LOADING is entered. -/
def State.tryLoadData (s : State) (k length : Nat) : State :=
  if s.slicer.fifo.length < Config.txFifoSize then
    match s.claimTx (sliceCount length) with
    | some s1 => s1.setSub (.loadingData k length [])
    | none => s.setSub (.waitingData k length)
  else s.setSub (.waitingData k length)

/-- The reason a DATA header is rejected for, if any; the first failing check decides (R99). -/
def State.dataReject (s : State) (k length : Nat) : Option EventCounter :=
  if k = Config.mgmtStream ∨ k = Config.probeStream ∨ k = Config.idleMark then some .txBadStream
  else if (s.entry k).txEnable = false then some .txDisabled
  else if length = 0 ∨ (s.entry k).maxLen < length then some .txOversize
  else none

/-- A DATA header is judged (R99), and when valid waits for room or finds it at once (R100). -/
def State.judgeDataHeader (s : State) (hdr : List Byte) (endMark : Bool) : State :=
  let k := subStream hdr
  let length := subLength hdr
  match s.dataReject k length with
  | some reason => (s.report (fun st => st.event reason)).setSub (absorbFrom length endMark)
  | none => s.tryLoadData k length

/-- The local share has a free place (R102): the requests in it, and a place reserved for a frame loading, number fewer
than 4. -/
def State.localPlace (s : State) : Bool :=
  s.mgmt.lpShare.length
      + (match s.sub with
        | .loadingMgmt _ _ => 1
        | .idle | .header _ | .waitingData _ _ | .waitingMgmt _ | .loadingData _ _ _ | .absorbing _ => 0)
    < Config.shareSize

/-- A MGMT header is judged on its length (R102). -/
def State.judgeMgmtHeader (s : State) (hdr : List Byte) (endMark : Bool) : State :=
  let length := subLength hdr
  if length < 1 ∨ 1024 < length then
    (s.report (fun st => st.event .mgmtOversize)).setSub (absorbFrom length endMark)
  else if s.localPlace then s.setSub (.loadingMgmt length [])
  else s.setSub (.waitingMgmt length)

/-- A whole header (R98): an end mark on its last byte with a length above 0 is a length fault (R103), else it is
judged. -/
def State.headerDone (s : State) (hdr : List Byte) (endMark : Bool) : State :=
  if endMark ∧ 0 < subLength hdr then
    (s.report (fun st => st.event (faultCounter (subIsMgmt hdr)))).setSub .idle
  else if subIsMgmt hdr then s.judgeMgmtHeader hdr endMark
  else s.judgeDataHeader hdr endMark

/-- A DATA frame completes (R101): it enters the transmit FIFO at its tail with its blocks. -/
def State.dataComplete (s : State) (k length : Nat) (payload : List Byte) : State :=
  let f : Frame := { stream := k, length := length, blocks := piecesOf payload }
  State.setSub { s with slicer := { s.slicer with fifo := s.slicer.fifo ++ [f] } } .idle

/-- A MGMT frame completes (R102, R124, R125): the request enters the local share with the next intake position. -/
def State.mgmtComplete (s : State) (payload : List Byte) : State :=
  let r : Request := { source := .localPort, bytes := payload, position := s.mgmt.nextIntake }
  State.setSub
    { s with mgmt := { s.mgmt with lpShare := s.mgmt.lpShare ++ [r], nextIntake := s.mgmt.nextIntake + 1 } } .idle

/-- A length fault in LOADING (R103): the frame is discarded, its reservations released, and it is counted. -/
def State.loadFault (s : State) (reserved : Nat) (isMgmt : Bool) (after : Submission) : State :=
  ((s.returnTx reserved).report (fun st => st.event (faultCounter isMgmt))).setSub after

/-- A byte passes on the port's input while ready is active (R98 to R103). In WAITING the station holds the byte. -/
def State.takeByte (s : State) (data : Byte) (startMark endMark : Bool) : State :=
  match s.sub with
  | .idle => if startMark then s.setSub (if endMark then .idle else .header [data]) else s
  | .header got =>
    if got.length + 1 < 8 then s.setSub (if endMark then .idle else .header (got ++ [data]))
    else s.headerDone (got ++ [data]) endMark
  | .waitingData _ _ => s
  | .waitingMgmt _ => s
  | .loadingData k length got =>
    if got.length + 1 < length then
      if endMark then s.loadFault (sliceCount length) false .idle else s.setSub (.loadingData k length (got ++ [data]))
    else if endMark then s.dataComplete k length (got ++ [data])
    else s.loadFault (sliceCount length) false (.absorbing 0)
  | .loadingMgmt length got =>
    if got.length + 1 < length then
      if endMark then s.loadFault 0 true .idle else s.setSub (.loadingMgmt length (got ++ [data]))
    else if endMark then s.mgmtComplete (got ++ [data])
    else s.loadFault 0 true (.absorbing 0)
  | .absorbing left => s.setSub (if endMark then .idle else .absorbing (left - 1))

/-- What a passing byte brings about, by the table's rows. -/
inductive ByteEvent where
  | plain | dataHeader | mgmtHeader | dataComplete | mgmtComplete | fault | absorbingEnd
deriving DecidableEq, Repr

/-- Which row a byte is, in a state of the submission side (log 10). -/
def byteEvent (x : Submission) (data : Byte) (endMark : Bool) : ByteEvent :=
  match x with
  | .header got =>
    let hdr := got ++ [data]
    if hdr.length < 8 then .plain
    else if endMark ∧ 0 < subLength hdr then .fault
    else if subIsMgmt hdr then .mgmtHeader
    else .dataHeader
  | .loadingData _ length got =>
    if got.length + 1 < length then if endMark then .fault else .plain
    else if endMark then .dataComplete
    else .fault
  | .loadingMgmt length got =>
    if got.length + 1 < length then if endMark then .fault else .plain
    else if endMark then .mgmtComplete
    else .fault
  | .absorbing _ => if endMark then .absorbingEnd else .plain
  | .idle | .waitingData _ _ | .waitingMgmt _ => .plain

/-- A byte taken as the row named: when it is that row's byte. A start mark after the first byte has no effect (R98). -/
def byteAs (e : ByteEvent) (data : Byte) (endMark : Bool) (s : State) : Host.Outcome State Fault Refusal :=
  live s fun s => if byteEvent s.sub data endMark = e then s.takeByte data false endMark else s

/-- SUBMISSION_BYTE (R98): any byte that passes. -/
def execSubmissionByte (data : Byte) (startMark endMark : Bool) (s : State) : Host.Outcome State Fault Refusal :=
  live s fun s => s.takeByte data startMark endMark

/-- DATA_HEADER (R99): the byte that completes a DATA header. -/
def execDataHeader (data : Byte) (endMark : Bool) (s : State) : Host.Outcome State Fault Refusal :=
  byteAs .dataHeader data endMark s

/-- MGMT_HEADER (R102): the byte that completes a MGMT header. -/
def execMgmtHeader (data : Byte) (endMark : Bool) (s : State) : Host.Outcome State Fault Refusal :=
  byteAs .mgmtHeader data endMark s

/-- DATA_FRAME_COMPLETE (R101): the end-marked byte that completes the declared length. -/
def execDataFrameComplete (data : Byte) (s : State) : Host.Outcome State Fault Refusal :=
  byteAs .dataComplete data true s

/-- MGMT_FRAME_COMPLETE (R102): the end-marked byte that completes the declared length. -/
def execMgmtFrameComplete (data : Byte) (s : State) : Host.Outcome State Fault Refusal :=
  byteAs .mgmtComplete data true s

/-- LENGTH_FAULT (R103): a byte at which the end mark is misplaced or missing. -/
def execLengthFault (data : Byte) (endMark : Bool) (s : State) : Host.Outcome State Fault Refusal :=
  byteAs .fault data endMark s

/-- ABSORBING_END (R103): the end-marked byte that ends absorbing. -/
def execAbsorbingEnd (data : Byte) (s : State) : Host.Outcome State Fault Refusal :=
  byteAs .absorbingEnd data true s

/-- WAITING_RETRY (R100): a DATA header in WAITING repeats the FIFO test and the claim. -/
def execWaitingRetry (s : State) : Host.Outcome State Fault Refusal :=
  live s fun s =>
    match s.sub with
    | .waitingData k length => s.tryLoadData k length
    | .idle | .header _ | .waitingMgmt _ | .loadingData _ _ _ | .loadingMgmt _ _ | .absorbing _ => s

/-- SUBMISSION_RESTART (R105): the frame in progress is dropped with its reservations and the rest of it is absorbed up
to its end mark; nothing is counted, and the restart is reported done at once. -/
def execSubmissionRestart (s : State) : Host.Outcome State Fault Refusal :=
  restartPart s .submission fun s =>
    match s.sub with
    | .idle => s
    | .header _ | .waitingData _ _ | .waitingMgmt _ | .loadingMgmt _ _ => s.setSub (.absorbing 0)
    | .loadingData _ length _ => (s.returnTx (sliceCount length)).setSub (.absorbing 0)
    | .absorbing left => s.setSub (.absorbing left)

end Sys2Proof.Machine
end

