-- ==== Sys2Proof/Machine/Dispatch.lean ====
section
/-! DEFINITION. What each command does: one arm per row of spec/opcode_table.json. -/

namespace Sys2Proof.Machine

def exec (i : Instr) (s : State) : Host.Outcome State Fault Refusal :=
  match i with
  | .resetAssert => Sys2Proof.Machine.execResetAssert s
  | .hardReset => Sys2Proof.Machine.execHardReset s
  | .powerOn => Sys2Proof.Machine.execPowerOn s
  | .signalLoss lane => Sys2Proof.Machine.execSignalLoss lane s
  | .signalRegain lane => Sys2Proof.Machine.execSignalRegain lane s
  | .huntCandidate lane bytes => Sys2Proof.Machine.execHuntCandidate lane bytes s
  | .confirmBlock lane bytes => Sys2Proof.Machine.execConfirmBlock lane bytes s
  | .upBlock lane bytes => Sys2Proof.Machine.execUpBlock lane bytes s
  | .lineBlockEnd lane => Sys2Proof.Machine.execLineBlockEnd lane s
  | .sliceTaken path => Sys2Proof.Machine.execSliceTaken path s
  | .holdExpiry stream => Sys2Proof.Machine.execHoldExpiry stream s
  | .sweepVisit => Sys2Proof.Machine.execSweepVisit s
  | .commitSweepEnd => Sys2Proof.Machine.execCommitSweepEnd s
  | .reassemblySliceTaken stream => Sys2Proof.Machine.execReassemblySliceTaken stream s
  | .assemblyDeadline stream => Sys2Proof.Machine.execAssemblyDeadline stream s
  | .abandonRequestTaken stream => Sys2Proof.Machine.execAbandonRequestTaken stream s
  | .transferStart => Sys2Proof.Machine.execTransferStart s
  | .transferEnd => Sys2Proof.Machine.execTransferEnd s
  | .holdAssert => Sys2Proof.Machine.execHoldAssert s
  | .holdRelease => Sys2Proof.Machine.execHoldRelease s
  | .dataHeader data endMark => Sys2Proof.Machine.execDataHeader data endMark s
  | .waitingRetry => Sys2Proof.Machine.execWaitingRetry s
  | .mgmtHeader data endMark => Sys2Proof.Machine.execMgmtHeader data endMark s
  | .dataFrameComplete data => Sys2Proof.Machine.execDataFrameComplete data s
  | .mgmtFrameComplete data => Sys2Proof.Machine.execMgmtFrameComplete data s
  | .lengthFault data endMark => Sys2Proof.Machine.execLengthFault data endMark s
  | .absorbingEnd data => Sys2Proof.Machine.execAbsorbingEnd data s
  | .slicerTakeMessage => Sys2Proof.Machine.execSlicerTakeMessage s
  | .sliceCut => Sys2Proof.Machine.execSliceCut s
  | .executorTake => Sys2Proof.Machine.execExecutorTake s
  | .identify => Sys2Proof.Machine.execIdentify s
  | .readStream => Sys2Proof.Machine.execReadStream s
  | .readMergeState => Sys2Proof.Machine.execReadMergeState s
  | .flushStream => Sys2Proof.Machine.execFlushStream s
  | .restart => Sys2Proof.Machine.execRestart s
  | .laneTxRestart lane => Sys2Proof.Machine.execLaneTxRestart lane s
  | .mergeRestart => Sys2Proof.Machine.execMergeRestart s
  | .reassemblyRestart => Sys2Proof.Machine.execReassemblyRestart s
  | .deliveryRestart => Sys2Proof.Machine.execDeliveryRestart s
  | .submissionRestart => Sys2Proof.Machine.execSubmissionRestart s
  | .slicerRestart => Sys2Proof.Machine.execSlicerRestart s
  | .loadOpen => Sys2Proof.Machine.execLoadOpen s
  | .loadOpenPrepared => Sys2Proof.Machine.execLoadOpenPrepared s
  | .loadRecords => Sys2Proof.Machine.execLoadRecords s
  | .loadCommit => Sys2Proof.Machine.execLoadCommit s
  | .loadAbort => Sys2Proof.Machine.execLoadAbort s
  | .loadStatus => Sys2Proof.Machine.execLoadStatus s
  | .loadIdleTimeout => Sys2Proof.Machine.execLoadIdleTimeout s
  | .probe => Sys2Proof.Machine.execProbe s
  | .probeTimeout => Sys2Proof.Machine.execProbeTimeout s
  | .readCounters => Sys2Proof.Machine.execReadCounters s
  | .clearCounters => Sys2Proof.Machine.execClearCounters s
  | .readLog => Sys2Proof.Machine.execReadLog s
  | .clearLog => Sys2Proof.Machine.execClearLog s
  | .submissionByte data startMark endMark => Sys2Proof.Machine.execSubmissionByte data startMark endMark s

end Sys2Proof.Machine
end

