-- ==== Sys2Proof/Safety.lean ====
section
/-! DEFINITION. What counts as a sound state of the part, in the terms the statements use: who holds which pool blocks,
which response buffers are in use, which capacities are kept, and where held slices lie. -/

namespace Sys2Proof.Machine

/-! ## Pool blocks (R80, R84, R86) -/

/-- The blocks of the delivery in transfer (R84). -/
def transferBlocks : Option Transfer → Nat
  | some (.data _ d) => d.blocks.length
  | some (.mgmt _) => 0
  | none => 0

/-- The receive-side holders' blocks (R84): held-slice entries, passed slices, contexts, delivery queues and the delivery
in transfer. -/
def State.rxHolders (s : State) : Nat :=
  s.heldInUse + itemBlocks s.engine.items + ctxBlocks s.engine.ctxs + queueBlocks s.delivery.dqs
    + transferBlocks s.delivery.transfer

/-- The reserved blocks of the submission in progress (R86). -/
def reservedBlocks : Submission → Nat
  | .loadingData _ length _ => sliceCount length
  | .idle | .header _ | .waitingData _ _ | .waitingMgmt _ | .loadingMgmt _ _ | .absorbing _ => 0

/-- The transmit-side holders' blocks (R86): the submission in progress, the transmit FIFO and the message being
sliced. -/
def State.txHolders (s : State) : Nat :=
  reservedBlocks s.sub + frameBlocks s.slicer.fifo + slicerBlocks s.slicer.state

/-- A payload in LOADING is not yet complete (R101, R102), and a frame that waits is not empty (R99, R102). -/
def Submission.incomplete : Submission → Prop
  | .waitingData _ length => 0 < length
  | .loadingData _ length got => got.length < length
  | .loadingMgmt length got => got.length < length
  | .waitingMgmt length => 0 < length
  | .idle | .header _ | .absorbing _ => True

/-- The merge records are in canonical form, and an UNSYNCED record holds nothing (R32). -/
def State.recsSound (s : State) : Prop :=
  SMap.wf (fun _ => MergeRec.fresh) s.merge.recs ∧ ∀ k, (s.mrec k).sync = none → (s.mrec k).held = []

/-- Every block is free, receive-held or transmit-held, and the held ones are exactly those of the holders of R84 and
R86. -/
def State.blocksAccounted (s : State) : Prop :=
  s.pool.free + s.pool.rx + s.pool.tx = Config.poolBlocks ∧ s.pool.rx = s.rxHolders ∧ s.pool.tx = s.txHolders
    ∧ s.recsSound ∧ s.sub.incomplete

/-! ## Response buffers (R94, R108, R126) -/

/-- 1 while a request of the source is executing, else 0. -/
def executingFor (src : Source) : Executor → Nat
  | .idle => 0
  | .ready r _ => if r.source = src then 1 else 0
  | .reading r _ => if r.source = src then 1 else 0
  | .preparing r _ _ _ => if r.source = src then 1 else 0
  | .sweeping r _ _ => if r.source = src then 1 else 0
  | .probing r _ => if r.source = src then 1 else 0
  | .restarting r _ => if r.source = src then 1 else 0

/-- Backbone responses waiting in the outputs. -/
def waitingResponses (outs : List Output) : Nat :=
  (outs.map (fun o => match o with | .response _ => 1 | .probe _ => 0)).sum

/-- 1 while a local response is in transfer, else 0. -/
def transferringResponse : Option Transfer → Nat
  | some (.mgmt _) => 1
  | some (.data _ _) => 0
  | none => 0

/-- Each source's share holds that source's requests only (R123, R124). -/
def State.sharesSorted (s : State) : Prop :=
  (∀ r ∈ s.mgmt.bbShare, r.source = .backbone) ∧ ∀ r ∈ s.mgmt.lpShare, r.source = .localPort

/-- Every response buffer in use is that of a request executing, or of a response waiting or leaving, a source has at
most two in use (R126), and the requests that wait lie in their source's share. -/
def State.buffersAccounted (s : State) : Prop :=
  s.mgmt.bbBufs
      = executingFor .backbone s.mgmt.executor + waitingResponses s.slicer.outputs
        + (if slicingResponse s.slicer.state then 1 else 0)
    ∧ s.mgmt.lpBufs
      = executingFor .localPort s.mgmt.executor + s.delivery.mq.length + transferringResponse s.delivery.transfer
    ∧ s.mgmt.bbBufs ≤ Config.respBufs ∧ s.mgmt.lpBufs ≤ Config.respBufs ∧ s.sharesSorted

/-! ## Fixed capacities (00_scope.md, Units and fixed capacities) -/

/-- A share place or a transmit FIFO entry reserved for the frame loading (R100, R102). -/
def reservedPlace : Submission → Nat
  | .loadingMgmt _ _ => 1
  | .idle | .header _ | .waitingData _ _ | .waitingMgmt _ | .loadingData _ _ _ | .absorbing _ => 0

/-- The transmit FIFO entry reserved for the frame loading (R100). -/
def reservedEntry : Submission → Nat
  | .loadingData _ _ _ => 1
  | .idle | .header _ | .waitingData _ _ | .waitingMgmt _ | .loadingMgmt _ _ | .absorbing _ => 0

/-- Probe messages waiting in the outputs. -/
def waitingProbes (outs : List Output) : Nat :=
  (outs.map (fun o => match o with | .response _ => 0 | .probe _ => 1)).sum

/-- 1 while the message being sliced is a probe message, else 0. -/
def slicingProbe : SlicerState → Nat
  | .idle => 0
  | .slicing j => if j.kind = .probe then 1 else 0
  | .stalled j _ _ => if j.kind = .probe then 1 else 0

/-- 1 while a probe is SENDING (R167), else 0. -/
def probeSending : Executor → Nat
  | .probing _ p => if p.await.isSome then 0 else 1
  | .idle | .ready _ _ | .reading _ _ | .preparing _ _ _ _ | .sweeping _ _ _ | .restarting _ _ => 0

/-- Every table and queue of fixed size, and every count of fixed range, is within it: held-slice table (R33), contexts
(R59), lane FIFOs (R12), transmit FIFO (R107), request shares (R123, R124), abandon log (R182), confirm count and failure
run (R4), the occupancy of DQ0 to DQ3 (R91), MQ with a transfer from it (R94), the backbone responses that wait or are
being sliced, the probe message that waits or is being sliced, which is that of a SENDING probe (R108), and stale runs
(R32). -/
def State.withinCapacities (s : State) : Prop :=
  SMap.wf (fun _ => MergeRec.fresh) s.merge.recs
    ∧ s.heldInUse ≤ Config.heldEntries
    ∧ s.engine.ctxs.length ≤ Config.numContexts
    ∧ s.laneA.fifo.length ≤ Config.laneFifoSize
    ∧ s.laneB.fifo.length ≤ Config.laneFifoSize
    ∧ s.slicer.fifo.length + reservedEntry s.sub ≤ Config.txFifoSize
    ∧ s.mgmt.bbShare.length ≤ Config.shareSize
    ∧ s.mgmt.lpShare.length + reservedPlace s.sub ≤ Config.shareSize
    ∧ s.stats.log.length ≤ Config.logSize
    ∧ s.laneA.confirm ≤ Config.confirmsForUp ∧ s.laneB.confirm ≤ Config.confirmsForUp
    ∧ s.laneA.failRun < Config.failuresEndUp ∧ s.laneB.failRun < Config.failuresEndUp
    ∧ (∀ q, s.occupancy q ≤ 256)
    ∧ s.delivery.mq.length + transferringResponse s.delivery.transfer ≤ Config.respBufs
    ∧ waitingResponses s.slicer.outputs + (if slicingResponse s.slicer.state then 1 else 0) ≤ Config.respBufs
    ∧ waitingProbes s.slicer.outputs + slicingProbe s.slicer.state = probeSending s.mgmt.executor
    ∧ probeSending s.mgmt.executor ≤ 1
    ∧ ∀ k, (s.mrec k).staleRun ≤ 64

/-! ## The port's output (R96, R188) -/

/-- While a transfer is in progress, the bytes presented are the first ones of its delivery, at least one and not yet
the last. -/
def State.portOnCourse (s : State) : Prop :=
  ∀ t, s.delivery.transfer = some t →
    ∃ j, 1 ≤ j ∧ j < (deliveryOut t).length ∧ s.delivery.out = (deliveryOut t).take j

/-! ## Contexts (R59) -/

/-- Every bound context belongs to exactly one stream: no two are bound to the same. -/
def State.oneContextEach (s : State) : Prop := (s.engine.ctxs.map (fun c => c.stream)).Nodup

/-! ## Held slices (R34) -/

/-- A held slice's distance ahead of E. -/
def distanceFrom (e : SeqNo) (h : Held) : Nat := (h.slice.seq - e).toNat

/-- A record's held set lies in the window, in ascending order of distance from E with no two slices of one sequence
(R32, R34). -/
def heldInWindow (r : MergeRec) (window : Nat) : Prop :=
  match r.sync with
  | none => r.held = []
  | some e =>
    (∀ h ∈ r.held, 1 ≤ distanceFrom e h ∧ distanceFrom e h ≤ window - 1)
      ∧ (r.held.map (distanceFrom e)).Pairwise (· < ·)

/-- A record's held set in ascending order of distance from E, at distances of at least 1, whatever the window: what a
marked stream keeps (R51). -/
def heldInOrder (r : MergeRec) : Prop :=
  match r.sync with
  | none => r.held = []
  | some e => (∀ h ∈ r.held, 1 ≤ distanceFrom e h) ∧ (r.held.map (distanceFrom e)).Pairwise (· < ·)

/-- While a session is OPEN, the banks differ only in the entries of touched streams (R29). -/
def State.shadowTracksMarks (s : State) : Prop :=
  ∀ x, s.mgmt.session = some x → x.isOpen = true →
    ∀ k < Config.numStreams, markOf s.table.touched k = false → s.table.bank0.entry k = s.table.bank1.entry k

/-- The window bound of R34 for every stream without a pending-flush mark, the order of the held set for every stream,
and what a commit needs to keep it. -/
def State.windowsKept (s : State) : Prop :=
  s.shadowTracksMarks
    ∧ ∀ k < Config.numStreams, heldInOrder (s.mrec k)
        ∧ (markOf s.merge.pendingFlush k = false → heldInWindow (s.mrec k) (s.entry k).window)

/-! ## Stream table contents (R20, R22, R23, R24) -/

/-- Every field of a stream entry lies in its range (R20), with the constraints on streams 0 and 4094 (R22). -/
def Entry.inRange (k : Nat) (e : Entry) : Prop :=
  1 ≤ e.window ∧ e.window ≤ 32 ∧ 1 ≤ e.holdTime ∧ e.holdTime ≤ 1023 ∧ 1 ≤ e.asmLimit ∧ e.asmLimit ≤ 255
    ∧ 1 ≤ e.maxLen ∧ e.maxLen ≤ 4096
    ∧ (k = Config.mgmtStream → e.rxEnable = true ∧ 640 ≤ e.maxLen ∧ e.maxLen ≤ 1024)
    ∧ (k = Config.probeStream → e.maxLen ≤ 1024)

/-- Every field of the global record lies in its range (R24), and at least one source has FULL policy (R22). -/
def GlobalRec.inRange (g : GlobalRec) : Prop :=
  512 ≤ g.ceiling ∧ g.ceiling ≤ 4032 ∧ 4 ≤ g.staleThreshold ∧ g.staleThreshold ≤ 64
    ∧ 1 ≤ g.idleTimeout ∧ g.idleTimeout ≤ 100 ∧ (g.backbonePolicy = .full ∨ g.localPolicy = .full)

/-- Every item of a bank lies in its range (R20, R22 to R24). -/
def Bank.inRange (b : Bank) : Prop :=
  (∀ k < Config.numStreams, (b.entry k).inRange k)
    ∧ (∀ q, 1 ≤ b.capacities.get q ∧ b.capacities.get q ≤ 256)
    ∧ b.glob.inRange

/-- Both banks lie in range. -/
def State.banksInRange (s : State) : Prop := s.table.bank0.inRange ∧ s.table.bank1.inRange

/-! ## Slices -/

/-- The well-formed shape of a slice (R1, R10): a stream 0..4094, a fill of 1..56, and 56 on FIRST and MIDDLE. -/
def Slice.wellFormed (sl : Slice) : Prop :=
  sl.stream < Config.numStreams ∧ 1 ≤ sl.payload.length ∧ sl.payload.length ≤ Config.maxFill
    ∧ (sl.pos = .first ∨ sl.pos = .middle → sl.payload.length = Config.maxFill)

/-- A slice waits on a path, taking it leaves `s1`, and it passes the screening of R35 without a flush. -/
def State.accepts (s : State) (p : Path) (sl : Slice) (s1 : State) : Prop :=
  s.inReset = false ∧ s.nextSlice p = some (sl, s1) ∧ markOf s1.merge.pendingFlush sl.stream = false
    ∧ (s1.entry sl.stream).rxEnable = true ∧ pathPermitted sl.stream (s1.entry sl.stream).rxMask p = true

/-- The conditions on which a receive claim is granted (R81). -/
def State.mayClaimRx (s : State) : Prop := s.pool.rx < s.glob.ceiling ∧ 0 < s.pool.free

/-- A granted receive claim's counts (R80, R81). -/
def State.withRxBlock (s : State) : State :=
  { s with pool := { s.pool with free := s.pool.free - 1, rx := s.pool.rx + 1 } }

/-- The request a source has executing has passed the checks and is of a kind. -/
def State.executes (s : State) (r : Request) (kind : ReqKind) : Prop :=
  s.inReset = false ∧ s.mgmt.executor = .ready r kind

/-- The OPEN session that a request of a source names and owns (R150). -/
def State.hasOpenSession (s : State) (src : Source) (number : Half) (x : Session) : Prop :=
  s.mgmt.session = some x ∧ x.idle ≠ none ∧ x.number = number ∧ x.owner = src

/-- A part has been told to restart and has not yet reported it done (R142). -/
def State.awaitsRestart (s : State) (p : Part) : Prop :=
  s.inReset = false ∧ ∃ r todo, s.mgmt.executor = .restarting r todo ∧ todo.contains p = true

end Sys2Proof.Machine
end

