-- ==== Sys2Proof/Certificates/Slice0/Obligations.lean ====
section
/-! DEFINITION. The statements for the provers. Each docstring says which rules of spec/ a statement formalises, or that
it states the model's own choice. -/

section

open Sys2Proof Sys2Proof.Machine

/-! ## The queue of commands, and the reset pin -/

/-- A step takes the command at the front of the queue and runs it on the state with the queue's rest. The one queue of
commands is the model's own choice, log 21: the spec says nothing of a queue. -/
def Obligations.StepRunsTheFrontCommand : Prop :=
  ∀ (c : Instr) (rest : List Instr) (s : State),
    s.pending = c :: rest → step s = exec c { s with pending := rest }

/-- Every command answers a next state, leaves the commands that wait as they are, and, but for the releases of the reset
pin, leaves the timebase. With nothing waiting a step is one microsecond of the timebase, in which the port presents the
next byte of the delivery in transfer, but for its last: the model's choice, logs 1, 18 and 21. -/
def Obligations.EveryCommandCompletes : Prop :=
  (∀ (c : Instr) (s : State), ∃ t, exec c s = .next t ∧ t.pending = s.pending
      ∧ (c ≠ .hardReset → c ≠ .powerOn → t.time = s.time))
    ∧ ∀ s : State, s.pending = [] → s.inReset = false →
      let port := fun (out : List OutByte) (valid : Bool) =>
        step s = .next { s with time := s.time + 1, delivery := { s.delivery with out := out, valid := valid } }
      let n := s.delivery.out.length
      (s.delivery.transfer = none → port s.delivery.out false)
        ∧ ∀ t, s.delivery.transfer = some t →
          (∀ b, n + 1 < (deliveryOut t).length → (deliveryOut t)[n]? = some b → port (s.delivery.out ++ [b]) true)
            ∧ ((deliveryOut t).length ≤ n + 1 → port s.delivery.out false)

/-- R192 while the pin is asserted, as logs 1, 2, 5 and 6 read it: asserting it silences the lines and the output and drops
the work under way in every block, a delivery where it stands; then nothing is taken, the timebase does not count, and of
the input pins only the levels are kept. -/
def Obligations.ResetPinStopsThePart : Prop :=
  (∀ s : State, exec .resetAssert s
      = .next
        { s with
          inReset := true
          laneA := { s.laneA with rx := [], handed := [], fifo := [], line := .silent }
          laneB := { s.laneB with rx := [], handed := [], fifo := [], line := .silent }
          merge := { recs := [], pendingFlush := 0 }
          engine := { discarding := 0, ctxs := [], items := [] }
          pool := { free := 4096, rx := 0, tx := 0 }
          delivery :=
            { dqs := ⟨[], [], [], []⟩, mq := [], transfer := none, hold := s.delivery.hold, out := s.delivery.out
              valid := false }
          sub := .idle
          slicer := { fifo := [], outputs := [], state := .idle, seqs := s.slicer.seqs, loop := [] }
          mgmt :=
            { bbShare := [], lpShare := [], nextIntake := s.mgmt.nextIntake, bbBufs := 0, lpBufs := 0, executor := .idle
              session := none, sessionCounter := s.mgmt.sessionCounter, choices := s.mgmt.choices } })
    ∧ ∀ s : State, s.inReset = true →
        (∀ c : Instr, c ≠ .resetAssert → c ≠ .hardReset → c ≠ .powerOn → c ≠ .holdAssert → c ≠ .holdRelease →
          (∀ l, c ≠ .signalLoss l) → (∀ l, c ≠ .signalRegain l) → exec c s = .next s)
        ∧ (∀ l, exec (.signalLoss l) s = .next (s.setLane l { s.lane l with signal := false }))
        ∧ (∀ l, exec (.signalRegain l) s = .next (s.setLane l { s.lane l with signal := true }))
        ∧ exec .holdAssert s = .next { s with delivery := { s.delivery with hold := true } }
        ∧ exec .holdRelease s = .next { s with delivery := { s.delivery with hold := false } }
        ∧ (s.pending = [] → step s = .next s)
        ∧ s.ready = false ∧ s.output = none

/-- What a release of the reset pin leaves in every block (R15, R30, R55, R78, R89, R106, R122, R145, R165, R176, R186,
R192), whatever the state before it. The input pins keep their levels (log 5), the pin need not have been asserted (log 7),
and each line is sending an idle block (log 22). -/
def Obligations.ReleaseLeavesHardResetValues : Prop :=
  ∀ s : State, ∃ t : State,
    exec .hardReset s = .next t ∧ exec .powerOn s = .next t
      ∧ t.inReset = false ∧ t.time = 0 ∧ t.pending = s.pending
      ∧ t.laneA
        = { signal := s.laneA.signal, rx := [], align := if s.laneA.signal = true then .hunt else .down, confirm := 0
            failRun := 0, handed := [], fifo := [], line := .sending idleBlock false }
      ∧ t.laneB
        = { signal := s.laneB.signal, rx := [], align := if s.laneB.signal = true then .hunt else .down, confirm := 0
            failRun := 0, handed := [], fifo := [], line := .sending idleBlock false }
      ∧ (∀ k, t.mrec k = { sync := none, held := [], timer := none, staleRun := 0 })
      ∧ t.merge.pendingFlush = 0 ∧ t.heldInUse = 0
      ∧ (∀ k, t.asmState k = .idle) ∧ t.engine.ctxs = [] ∧ t.engine.items = []
      ∧ t.pool = { free := 4096, rx := 0, tx := 0 }
      ∧ (∀ q, t.delivery.dqs.get q = [] ∧ t.occupancy q = 0 ∧ t.activeBank.capacities.get q = 64)
      ∧ t.delivery.mq = [] ∧ t.delivery.transfer = none ∧ t.delivery.hold = s.delivery.hold
      ∧ t.delivery.out = [] ∧ t.output = none
      ∧ t.sub = .idle ∧ t.ready = true
      ∧ t.slicer.fifo = [] ∧ t.slicer.outputs = [] ∧ t.slicer.state = .idle ∧ t.slicer.loop = [] ∧ (∀ k, t.txSeq k = 0)
      ∧ t.table.bank0 = Bank.dflt ∧ t.table.bank1 = Bank.dflt ∧ t.table.active = false ∧ t.table.generation = 0
      ∧ t.table.lastCommitted = 0 ∧ t.table.touched = 0 ∧ t.table.queuesTouched = false ∧ t.table.globalTouched = false
      ∧ t.mgmt.bbShare = [] ∧ t.mgmt.lpShare = [] ∧ t.mgmt.nextIntake = 0 ∧ t.mgmt.bbBufs = 0 ∧ t.mgmt.lpBufs = 0
      ∧ t.mgmt.executor = .idle ∧ t.mgmt.session = none ∧ t.mgmt.sessionCounter = 0
      ∧ (∀ k, t.stats.stream k = ⟨0, 0, 0, 0⟩) ∧ t.stats.laneA = ⟨0, 0, 0, 0, 0, 0, 0⟩
      ∧ t.stats.laneB = ⟨0, 0, 0, 0, 0, 0, 0⟩ ∧ (∀ c ∈ t.stats.glob.list, c = 0)
      ∧ t.stats.log = [] ∧ t.stats.overwrites = 0

/-! ## Lanes, receive (chapter 1) -/

/-- R8: what signal loss and signal regain do in each alignment state. What was received and not yet tested is dropped (of a
block partly received R8 says so, of whole blocks that wait it is the model's choice, log 3), and the search after a regain
starts at the first byte that arrives. The cells R8 leaves open (a loss in DOWN, a regain in HUNT, CONFIRM or UP) are
happenings that cannot take place there: that they change the level alone is the model's choice, log 2. -/
def Obligations.SignalDetectMovesAlignment : Prop :=
  ∀ (l : LaneId) (s : State), s.inReset = false →
    let entered := fun (level : Bool) (x : Align) =>
      s.setLane l { s.lane l with signal := level, rx := [], align := x, confirm := 0, failRun := 0 }
    ((s.lane l).align = .disabled ∨ (s.lane l).align = .down →
        exec (.signalLoss l) s = .next (s.setLane l { s.lane l with signal := false }))
      ∧ ((s.lane l).align = .hunt ∨ (s.lane l).align = .confirm →
        exec (.signalLoss l) s = .next (entered false .down))
      ∧ ((s.lane l).align = .up →
        exec (.signalLoss l) s
          = .next
            { entered false .down with
              stats := s.stats.setLane l { s.stats.lane l with alignLoss := satInc (s.stats.lane l).alignLoss } })
      ∧ ((s.lane l).align = .down → exec (.signalRegain l) s = .next (entered true .hunt))
      ∧ ((s.lane l).align ≠ .down →
        exec (.signalRegain l) s = .next (s.setLane l { s.lane l with signal := true }))

/-- R5 and R6: a hunting lane tests the 64 bytes at its search position, moves on by one byte after a failing candidate and
takes the first passing one as its trial boundary; a confirming lane tests each block 64 bytes after the one before, counts
the passing ones up to 6, and searches on from the first byte after a failing one. Nothing is counted and nothing handed on.
One command makes one test, on the bytes received before and those it brings, and a command of another alignment state
changes nothing: the model's choice, logs 2 and 3. -/
def Obligations.HuntAndConfirmFindABoundary : Prop :=
  ∀ (l : LaneId) (bytes : List Byte) (s : State), s.inReset = false →
    let rx := (s.lane l).rx ++ bytes
    let b := rx.take 64
    ((s.lane l).align = .hunt →
        (rx.length < 64 → exec (.huntCandidate l bytes) s = .next (s.setLane l { s.lane l with rx := rx }))
          ∧ (64 ≤ rx.length → crc8 (b.take 7) = rd8 b 7 →
            exec (.huntCandidate l bytes) s
              = .next (s.setLane l { s.lane l with rx := rx.drop 64, align := .confirm, confirm := 1 }))
          ∧ (64 ≤ rx.length → crc8 (b.take 7) ≠ rd8 b 7 →
            exec (.huntCandidate l bytes) s = .next (s.setLane l { s.lane l with rx := rx.drop 1 })))
      ∧ ((s.lane l).align = .confirm →
        (rx.length < 64 → exec (.confirmBlock l bytes) s = .next (s.setLane l { s.lane l with rx := rx }))
          ∧ (64 ≤ rx.length → crc8 (b.take 7) = rd8 b 7 → (s.lane l).confirm < 5 →
            exec (.confirmBlock l bytes) s
              = .next (s.setLane l { s.lane l with rx := rx.drop 64, confirm := (s.lane l).confirm + 1 }))
          ∧ (64 ≤ rx.length → crc8 (b.take 7) = rd8 b 7 → 5 ≤ (s.lane l).confirm →
            exec (.confirmBlock l bytes) s
              = .next (s.setLane l { s.lane l with rx := rx.drop 64, align := .up, confirm := 6, failRun := 0 }))
          ∧ (64 ≤ rx.length → crc8 (b.take 7) ≠ rd8 b 7 →
            exec (.confirmBlock l bytes) s
              = .next (s.setLane l { s.lane l with rx := rx.drop 64, align := .hunt, confirm := 0 })))
      ∧ ((s.lane l).align ≠ .hunt → exec (.huntCandidate l bytes) s = .next s)
      ∧ ((s.lane l).align ≠ .confirm → exec (.confirmBlock l bytes) s = .next s)

/-- R7: a failing block in UP is counted as BAD_HEADER; the fourth in a row ends UP as an alignment loss, and the search
resumes at the first byte after it. A block partly received is not tested. That a command's bytes join those received
before, that it makes one test, and that outside UP it changes nothing and its bytes do not count as received, is the
model's choice, logs 2 and 3. -/
def Obligations.FailingBlocksEndUp : Prop :=
  ∀ (l : LaneId) (bytes : List Byte) (s : State), s.inReset = false →
    let rx := (s.lane l).rx ++ bytes
    let b := rx.take 64
    ((s.lane l).align ≠ .up → exec (.upBlock l bytes) s = .next s)
      ∧ ((s.lane l).align = .up →
        (rx.length < 64 → exec (.upBlock l bytes) s = .next (s.setLane l { s.lane l with rx := rx }))
          ∧ (64 ≤ rx.length → crc8 (b.take 7) ≠ rd8 b 7 → (s.lane l).failRun < 3 →
            exec (.upBlock l bytes) s
              = .next
                { s.setLane l { s.lane l with rx := rx.drop 64, failRun := (s.lane l).failRun + 1 } with
                  stats := s.stats.setLane l { s.stats.lane l with badHeader := satInc (s.stats.lane l).badHeader } })
          ∧ (64 ≤ rx.length → crc8 (b.take 7) ≠ rd8 b 7 → 3 ≤ (s.lane l).failRun →
            exec (.upBlock l bytes) s
              = .next
                { s.setLane l { s.lane l with rx := rx.drop 64, align := .hunt, confirm := 0, failRun := 0 } with
                  stats :=
                    s.stats.setLane l
                      { s.stats.lane l with
                        badHeader := satInc (s.stats.lane l).badHeader
                        alignLoss := satInc (s.stats.lane l).alignLoss } }))

/-- R10 and R11: a passing block in UP is an idle block, a malformed slice or a good slice; a good slice is handed to the
merge unit behind those handed before it. The next block begins at the first byte after it. That a command's bytes join
those received before and that it makes one test is the model's choice, log 3. -/
def Obligations.PassingBlockIsScreened : Prop :=
  ∀ (l : LaneId) (bytes : List Byte) (s : State), s.inReset = false → (s.lane l).align = .up →
    let rx := (s.lane l).rx ++ bytes
    let b := rx.take 64
    64 ≤ rx.length → crc8 (b.take 7) = rd8 b 7 →
    let h := headerWord b
    let malformed :=
      hdrZero h ≠ 0 ∨ hdrFill h = 0 ∨ 56 < hdrFill h
        ∨ ((hdrPos h = .first ∨ hdrPos h = .middle) ∧ hdrFill h ≠ 56)
    (hdrStream h = 4095 →
        exec (.upBlock l bytes) s = .next (s.setLane l { s.lane l with rx := rx.drop 64, failRun := 0 }))
      ∧ (hdrStream h ≠ 4095 → malformed →
        exec (.upBlock l bytes) s
          = .next
            { s.setLane l { s.lane l with rx := rx.drop 64, failRun := 0 } with
              stats := s.stats.setLane l { s.stats.lane l with malformed := satInc (s.stats.lane l).malformed } })
      ∧ (hdrStream h ≠ 4095 → ¬ malformed →
        exec (.upBlock l bytes) s
          = .next
            { s.setLane l
                { s.lane l with
                  rx := rx.drop 64
                  failRun := 0
                  handed :=
                    (s.lane l).handed
                      ++ [{ stream := hdrStream h, pos := hdrPos h, seq := hdrSeq h, aux := hdrAux h
                            payload := (b.drop 8).take (hdrFill h) }] } with
              stats := s.stats.setLane l { s.stats.lane l with good := satInc (s.stats.lane l).good } })

/-- R1, R10, R112 and R187 together: the 64 bytes sent for a well-formed slice pass the header check, are neither an idle
block nor malformed, and are read back as the same slice. -/
def Obligations.SentSliceIsReadBackWhole : Prop :=
  ∀ sl : Slice, sl.wellFormed →
    (blockOfSlice sl).length = 64 ∧ blockPasses (blockOfSlice sl) = true ∧ blockIdle (blockOfSlice sl) = false
      ∧ blockMalformed (blockOfSlice sl) = false ∧ sliceOfBlock (blockOfSlice sl) = sl

/-! ## Lanes, transmit (chapters 1 and 7) -/

/-- R12 and R13: at the end of a block the copy just sent is counted, and the line sends the head copy of its FIFO, or an
idle block. R114: a stalled slicer with this lane among its eligible lanes then offers its slice again. -/
def Obligations.LineSendsTheHeadCopy : Prop :=
  ∀ (l : LaneId) (s : State), s.inReset = false →
    let counted : Stats :=
      match (s.lane l).line with
      | .sending _ true => s.stats.setLane l { s.stats.lane l with sent := satInc (s.stats.lane l).sent }
      | .sending _ false => s.stats
      | .silent => s.stats
    ((s.lane l).fifo = [] →
        exec (.lineBlockEnd l) s
          = .next { s.setLane l { s.lane l with line := .sending idleBlock false } with stats := counted })
      ∧ ∀ sl rest, (s.lane l).fifo = sl :: rest →
        let t : State :=
          { s.setLane l { s.lane l with fifo := rest, line := .sending (blockOfSlice sl) true } with stats := counted }
        ((∀ j x el, s.slicer.state = .stalled j x el → el.has l = false) →
            exec (.lineBlockEnd l) s = .next t)
          ∧ ∀ j x el, s.slicer.state = .stalled j x el → el.has l = true →
            exec (.lineBlockEnd l) s = .next (t.offerSlice j x el)

/-- R114 and R115: each eligible lane FIFO with room takes a copy; a refusal is a TX_OVERRUN when the other lane accepts, and
a stall when none does; a done slice returns its DATA block, and the last one ends the message. -/
def Obligations.OfferFollowsTheTable : Prop :=
  ∀ (s : State) (j : Job) (sl : Slice) (el : LaneSet),
    let placeA : Lane := { s.laneA with fifo := s.laneA.fifo ++ [sl] }
    let placeB : Lane := { s.laneB with fifo := s.laneB.fifo ++ [sl] }
    let roomA := s.laneA.fifo.length < 64
    let roomB := s.laneB.fifo.length < 64
    (el.a = false → el.b = false → s.offerSlice j sl el = s.sliceDone j)
      ∧ (el.a = true → roomA → el.b = false → s.offerSlice j sl el = State.sliceDone { s with laneA := placeA } j)
      ∧ (el.a = false → el.b = true → roomB → s.offerSlice j sl el = State.sliceDone { s with laneB := placeB } j)
      ∧ (el.a = true → roomA → el.b = true → roomB →
        s.offerSlice j sl el = State.sliceDone { s with laneA := placeA, laneB := placeB } j)
      ∧ (el.a = true → roomA → el.b = true → ¬ roomB →
        s.offerSlice j sl el
          = State.sliceDone
            { s with
              laneA := placeA
              stats := { s.stats with laneB := { s.stats.laneB with overrun := satInc s.stats.laneB.overrun } } } j)
      ∧ (el.a = true → ¬ roomA → el.b = true → roomB →
        s.offerSlice j sl el
          = State.sliceDone
            { s with
              laneB := placeB
              stats := { s.stats with laneA := { s.stats.laneA with overrun := satInc s.stats.laneA.overrun } } } j)
      ∧ (el.a = true ∨ el.b = true → (el.a = true → ¬ roomA) → (el.b = true → ¬ roomB) →
        s.offerSlice j sl el = { s with slicer := { s.slicer with state := .stalled j sl el } })
      ∧ (j.kind = .data → j.pieces ≠ [] →
        s.sliceDone j
          = { s with
              pool := { s.pool with free := s.pool.free + 1, tx := s.pool.tx - 1 }
              slicer := { s.slicer with state := .slicing j } })
      ∧ (j.kind = .data → j.pieces = [] →
        s.sliceDone j
          = { s with
              pool := { s.pool with free := s.pool.free + 1, tx := s.pool.tx - 1 }
              slicer := { s.slicer with state := .idle } })
      ∧ (j.kind ≠ .data → j.pieces ≠ [] → s.sliceDone j = { s with slicer := { s.slicer with state := .slicing j } })
      ∧ (j.kind = .response → j.pieces = [] →
        s.sliceDone j
          = { s with
              mgmt := { s.mgmt with bbBufs := s.mgmt.bbBufs - 1 }
              slicer := { s.slicer with state := .idle } })
      ∧ (j.kind = .probe → j.pieces = [] → ∀ r p, s.mgmt.executor = .probing r p →
        s.sliceDone j
          = { s with
              mgmt :=
                { s.mgmt with
                  executor := .probing r { p with await := some (j.cut, ⟨s.time, s.time + 20000⟩) } }
              slicer := { s.slicer with state := .idle } })

/-- R16 and R118: the restarts of the lanes' transmit sides and of the slicer. Each is then reported done (R142), in the
same step (log 26). -/
def Obligations.TransmitSidesRestart : Prop :=
  (∀ (l : LaneId) (s : State), s.awaitsRestart (match l with | .a => .laneA | .b => .laneB) →
      exec (.laneTxRestart l) s
        = .next (State.partDone (s.setLane l { s.lane l with fifo := [] }) (match l with | .a => .laneA | .b => .laneB)))
    ∧ ∀ s : State, s.awaitsRestart .slicer →
      let data := (s.slicer.fifo.map (fun f => f.blocks.length)).sum
      (s.slicer.state = .idle →
          exec .slicerRestart s
            = .next
              (State.partDone
                { s with
                  pool := { s.pool with free := s.pool.free + data, tx := s.pool.tx - data }
                  slicer := { s.slicer with fifo := [], state := .idle, seqs := [] } }
                .slicer))
        ∧ ∀ j, (s.slicer.state = .slicing j ∨ ∃ sl el, s.slicer.state = .stalled j sl el) →
          let waiting := if s.slicer.state = .slicing j then 0 else 1
          let n := data + (if j.kind = .data then j.pieces.length + waiting else 0)
          exec .slicerRestart s
            = .next
              (State.partDone
                { s with
                  pool := { s.pool with free := s.pool.free + n, tx := s.pool.tx - n }
                  mgmt := { s.mgmt with bbBufs := s.mgmt.bbBufs - (if j.kind = .response then 1 else 0) }
                  slicer := { s.slicer with fifo := [], state := .idle, seqs := [] } }
                .slicer)

/-! ## The merge unit (chapter 3) -/

/-- R47 to R49 and R178: a passed slice is sent to the engine behind those before it and counted for its stream and lane; a
discarded one is counted under its reason, and DUPLICATE and STALE also for the stream; a counter rises by 1 and stays at
its largest value. -/
def Obligations.PassesAndDiscardsAreCounted : Prop :=
  (∀ c : Counter, (satInc c).toNat = min (c.toNat + 1) 4294967295)
    ∧ (∀ (s : State) (sl : Slice) (p : Path) (gap : Bool),
      let t := s.passSlice sl p gap
      t = { s with engine := { s.engine with items := s.engine.items ++ [.slice sl p gap] }, stats := t.stats }
        ∧ (∀ k, t.stats.stream k
            = if k = sl.stream then
                { s.stats.stream k with passed := satInc (s.stats.stream k).passed }
              else s.stats.stream k)
        ∧ t.stats.laneA = (if p = .a then { s.stats.laneA with won := satInc s.stats.laneA.won } else s.stats.laneA)
        ∧ t.stats.laneB = (if p = .b then { s.stats.laneB with won := satInc s.stats.laneB.won } else s.stats.laneB)
        ∧ t.stats.glob = s.stats.glob ∧ t.stats.log = s.stats.log ∧ t.stats.overwrites = s.stats.overwrites)
    ∧ ∀ (s : State) (k : Nat) (r : DiscardReason),
      let t := s.discardSlice k r
      t = { s with stats := t.stats }
        ∧ (∀ j, t.stats.stream j
            = if j = k ∧ (r = .duplicate ∨ r = .stale) then
                { s.stats.stream j with duplicates := satInc (s.stats.stream j).duplicates }
              else s.stats.stream j)
        ∧ t.stats.glob
          = (match r with
            | .streamDisabled => { s.stats.glob with streamDisabled := satInc s.stats.glob.streamDisabled }
            | .laneFiltered => { s.stats.glob with laneFiltered := satInc s.stats.glob.laneFiltered }
            | .duplicate => { s.stats.glob with duplicate := satInc s.stats.glob.duplicate }
            | .stale => { s.stats.glob with stale := satInc s.stats.glob.stale }
            | .noHoldEntry => { s.stats.glob with noHoldEntry := satInc s.stats.glob.noHoldEntry }
            | .noBuffer => { s.stats.glob with noBuffer := satInc s.stats.glob.noBuffer }
            | .orphan => { s.stats.glob with orphan := satInc s.stats.glob.orphan })
        ∧ t.stats.laneA = s.stats.laneA ∧ t.stats.laneB = s.stats.laneB ∧ t.stats.log = s.stats.log
        ∧ t.stats.overwrites = s.stats.overwrites

/-- R35: a slice of a marked stream flushes the stream first; it is then screened by receive enable and lane mask, stream
4094 by the loop path alone, and judged by distance. -/
def Obligations.SliceIsScreened : Prop :=
  ∀ (p : Path) (s s1 : State) (sl : Slice), s.inReset = false → s.nextSlice p = some (sl, s1) →
    let s2 := if markOf s1.merge.pendingFlush sl.stream then s1.flush sl.stream .reconfigured else s1
    let e := s1.entry sl.stream
    let permitted :=
      if sl.stream = 4094 then p = .loop
      else (p = .a ∧ e.rxMask ≠ .onlyB) ∨ (p = .b ∧ e.rxMask ≠ .onlyA)
    (e.rxEnable = false → exec (.sliceTaken p) s = .next (s2.discardSlice sl.stream .streamDisabled))
      ∧ (e.rxEnable = true → ¬ permitted → exec (.sliceTaken p) s = .next (s2.discardSlice sl.stream .laneFiltered))
      ∧ (e.rxEnable = true → permitted → exec (.sliceTaken p) s = .next (s2.judgeSlice sl p))

/-- R37: a slice reaching an UNSYNCED record synchronises it and is passed with the gap flag, or is discarded as NO_BUFFER
when no block is granted. -/
def Obligations.UnsyncedStreamSynchronises : Prop :=
  ∀ (p : Path) (s s1 : State) (sl : Slice), s.accepts p sl s1 → (s1.mrec sl.stream).sync = none →
    (s1.mayClaimRx →
        exec (.sliceTaken p) s
          = .next
            ((s1.withRxBlock.passSlice sl p true).setMrec sl.stream
              { sync := some (sl.seq + 1), held := [], timer := none, staleRun := 0 }))
      ∧ (¬ s1.mayClaimRx → exec (.sliceTaken p) s = .next (s1.discardSlice sl.stream .noBuffer))

/-- R38: the slice a stream waits for is passed without the gap flag, with the held slices that follow it without a break;
what remains held gets its deadline anew, and a deadline already reached expires at once, within the same command (log 8).
The run released is the longest that counts up from E. R44: a deadline set anew counts the stream's hold time from the
earliest arrival among what remains held, which is the one with the largest age modulo 2^32 (log 25). -/
def Obligations.ExpectedSliceIsPassed : Prop :=
  (∀ (p : Path) (s s1 : State) (sl : Slice), s.accepts p sl s1 → (s1.mrec sl.stream).sync = some sl.seq →
      (s1.mayClaimRx → ∀ run e left, releaseRun (sl.seq + 1) (s1.mrec sl.stream).held = (run, e, left) →
          let t : State :=
            ((s1.withRxBlock.passSlice sl p false).passRun run).setMrec sl.stream
              { sync := some e, held := left, timer := s1.rearm sl.stream left, staleRun := 0 }
          (t.holdDue sl.stream = false → exec (.sliceTaken p) s = .next t)
            ∧ (t.holdDue sl.stream = true → exec (.sliceTaken p) s = exec (.holdExpiry sl.stream) t))
        ∧ (¬ s1.mayClaimRx → exec (.sliceTaken p) s = .next (s1.discardSlice sl.stream .noBuffer)))
    ∧ (∀ (e e' : SeqNo) (hs run left : List Held), releaseRun e hs = (run, e', left) →
      run ++ left = hs ∧ e' = e + BitVec.ofNat 12 run.length
        ∧ (∀ i (hi : i < run.length), run[i].slice.seq = e + BitVec.ofNat 12 i)
        ∧ ∀ h ∈ left.head?, h.slice.seq ≠ e')
    ∧ ∀ (s : State) (k : Nat),
      s.rearm k [] = none
        ∧ ∀ held : List Held, held ≠ [] → ∃ h ∈ held,
          s.rearm k held = some ⟨h.arrival, h.arrival + BitVec.ofNat 32 (s.entry k).holdTime⟩
            ∧ ∀ x ∈ held, (s.time - x.arrival).toNat ≤ (s.time - h.arrival).toNat

/-- R39: a slice 1..W−1 ahead of E is a second copy of a held one, finds no entry, finds no block, or is held at its place
in order, with the deadline set when it is the first. Inserted into slices in ascending order of distance from E, none of
its sequence, it leaves all of them and itself, and no other, in ascending order (R32). -/
def Obligations.EarlySliceIsHeld : Prop :=
  (∀ (p : Path) (s s1 : State) (sl : Slice) (e : SeqNo), s.accepts p sl s1 → (s1.mrec sl.stream).sync = some e →
      1 ≤ (sl.seq - e).toNat → (sl.seq - e).toNat < (s1.entry sl.stream).window →
      let held := (s1.mrec sl.stream).held
      ((∃ h ∈ held, h.slice.seq = sl.seq) → exec (.sliceTaken p) s = .next (s1.discardSlice sl.stream .duplicate))
        ∧ ((∀ h ∈ held, h.slice.seq ≠ sl.seq) → 512 ≤ s1.heldInUse →
          exec (.sliceTaken p) s = .next (s1.discardSlice sl.stream .noHoldEntry))
        ∧ ((∀ h ∈ held, h.slice.seq ≠ sl.seq) → s1.heldInUse < 512 → ¬ s1.mayClaimRx →
          exec (.sliceTaken p) s = .next (s1.discardSlice sl.stream .noBuffer))
        ∧ ((∀ h ∈ held, h.slice.seq ≠ sl.seq) → s1.heldInUse < 512 → s1.mayClaimRx →
          exec (.sliceTaken p) s
            = .next
              (s1.withRxBlock.setMrec sl.stream
                { sync := some e
                  held := insertHeld e { slice := sl, arrival := s1.time, path := p } held
                  timer :=
                    if held = [] then
                      some ⟨s1.time, s1.time + BitVec.ofNat 32 (s1.entry sl.stream).holdTime⟩
                    else (s1.mrec sl.stream).timer
                  staleRun := 0 })))
    ∧ ∀ (e : SeqNo) (h : Held) (held : List Held),
      let ascending := fun (l : List Held) => (l.map (fun x => (x.slice.seq - e).toNat)).Pairwise (· < ·)
      (insertHeld e h held).Perm (h :: held)
        ∧ (ascending held → (∀ x ∈ held, x.slice.seq ≠ h.slice.seq) → ascending (insertHeld e h held))

/-- R40: a slice W..2046 ahead of E passes every held slice and then itself, each with the gap flag exactly when it does not
follow the one passed before it. -/
def Obligations.WindowJumpPassesEverything : Prop :=
  (∀ (p : Path) (s s1 : State) (sl : Slice) (e : SeqNo), s.accepts p sl s1 → (s1.mrec sl.stream).sync = some e →
      1 ≤ (sl.seq - e).toNat → (s1.entry sl.stream).window ≤ (sl.seq - e).toNat → (sl.seq - e).toNat ≤ 2046 →
      (s1.mayClaimRx →
          exec (.sliceTaken p) s
            = .next
              ((s1.withRxBlock.passJump e
                  ((s1.mrec sl.stream).held ++ [{ slice := sl, arrival := s1.time, path := p }])).setMrec sl.stream
                { sync := some (sl.seq + 1), held := [], timer := none, staleRun := 0 }))
        ∧ (¬ s1.mayClaimRx → exec (.sliceTaken p) s = .next (s1.discardSlice sl.stream .noBuffer)))
    ∧ ∀ (s : State) (e : SeqNo) (hs : List Held) (i : Nat) (hi : i < hs.length),
      let before := if h0 : i = 0 then e else hs[i - 1].slice.seq + 1
      (s.passJump e hs).engine.items.length = s.engine.items.length + hs.length
        ∧ (s.passJump e hs).engine.items[s.engine.items.length + i]?
          = some (.slice hs[i].slice hs[i].path (hs[i].slice.seq != before))

/-- R41 to R43: a slice 65..2049 behind E is stale, and at the threshold resynchronises the stream; one 1..64 behind is a late
copy, discarded as DUPLICATE. -/
def Obligations.StaleAndLateSlices : Prop :=
  ∀ (p : Path) (s s1 : State) (sl : Slice) (e : SeqNo), s.accepts p sl s1 → (s1.mrec sl.stream).sync = some e →
    (s1.entry sl.stream).window ≤ 32 →
    let k := sl.stream
    let run := (s1.mrec k).staleRun + 1
    let cleared : State :=
      (((s1.returnRx (s1.mrec k).held.length).setMrec k MergeRec.fresh).send (.abandon k .resync)).report
        (fun st => { st with glob := { st.glob with resyncEvents := satInc st.glob.resyncEvents } })
    (4032 ≤ (sl.seq - e).toNat → exec (.sliceTaken p) s = .next (s1.discardSlice k .duplicate))
      ∧ (2047 ≤ (sl.seq - e).toNat → (sl.seq - e).toNat ≤ 4031 →
        (run < s1.glob.staleThreshold →
            exec (.sliceTaken p) s = .next ((s1.setMrec k { s1.mrec k with staleRun := run }).discardSlice k .stale))
          ∧ (s1.glob.staleThreshold ≤ run → cleared.mayClaimRx →
            exec (.sliceTaken p) s
              = .next
                ((cleared.withRxBlock.passSlice sl p true).setMrec k
                  { sync := some (sl.seq + 1), held := [], timer := none, staleRun := 0 }))
          ∧ (s1.glob.staleThreshold ≤ run → ¬ cleared.mayClaimRx →
            exec (.sliceTaken p) s = .next (cleared.discardSlice k .noBuffer)))

/-- R45 and R51: at its hold deadline a marked stream is flushed; an unmarked one passes its lowest held slice with the gap
flag and the run behind it without, and expires again at once, within the same command (log 8), while its new deadline is
already reached. No expiry is left due. The new deadline counts the stream's hold time from the earliest arrival among what
remains held (R44, log 25). Where R46 would give the same release whether a slice in the window comes first or the expiry,
the order counts here, by R39 and R45: log 30. -/
def Obligations.HoldExpiryReleasesTheLowestRun : Prop :=
  ∀ (k : Nat) (s : State) (h : Held) (hs : List Held) (d : Deadline), s.inReset = false →
    (s.mrec k).held = h :: hs → (s.mrec k).timer = some d → (d.due - d.since).toNat ≤ (s.time - d.since).toNat →
    (markOf s.merge.pendingFlush k = true → exec (.holdExpiry k) s = .next (s.flush k .reconfigured))
      ∧ (markOf s.merge.pendingFlush k = false →
        (∀ run e left, releaseRun (h.slice.seq + 1) hs = (run, e, left) →
            let t : State :=
              ((s.passSlice h.slice h.path true).passRun run).setMrec k
                { sync := some e, held := left, timer := s.rearm k left, staleRun := 0 }
            (t.holdDue k = false → exec (.holdExpiry k) s = .next t)
              ∧ (t.holdDue k = true → exec (.holdExpiry k) s = exec (.holdExpiry k) t)
              ∧ (left = [] → s.rearm k left = none)
              ∧ (left ≠ [] → ∃ x ∈ left,
                s.rearm k left = some ⟨x.arrival, x.arrival + BitVec.ofNat 32 (s.entry k).holdTime⟩
                  ∧ ∀ y ∈ left, (s.time - y.arrival).toNat ≤ (s.time - x.arrival).toNat))
          ∧ ∃ t, exec (.holdExpiry k) s = .next t ∧ t.holdDue k = false)

/-- R50 and R140: a stream flush discards the held slices and returns their blocks, leaves the record UNSYNCED with no timer
and a stale run of 0, clears the mark and sends the abandon request; FLUSH_STREAM flushes as FLUSHED and answers what the
record held. -/
def Obligations.StreamFlushClearsTheStream : Prop :=
  (∀ (s : State) (k : Nat) (reason : AbandonReason), k < 4095 →
      let t := s.flush k reason
      let n := (s.mrec k).held.length
      t = { s with merge := t.merge, engine := { s.engine with items := s.engine.items ++ [.abandon k reason] }
                   pool := { s.pool with free := s.pool.free + n, rx := s.pool.rx - n } }
        ∧ (∀ j, t.mrec j = if j = k then { sync := none, held := [], timer := none, staleRun := 0 } else s.mrec j)
        ∧ ∀ j, markOf t.merge.pendingFlush j = (if j = k then false else markOf s.merge.pendingFlush j))
    ∧ ∀ (s : State) (r : Request), s.executes r .flushStream →
      let k := (rd16 (reqParams r.bytes) 0).toNat
      (4094 < k → exec .flushStream s = .next (s.respond r .badStream []))
        ∧ (k ≤ 4094 → ∀ e, (s.mrec k).sync = some e →
          exec .flushStream s
            = .next
              ((s.flush k .flushed).respond r .ok ([1, byteOf (s.mrec k).held.length] ++ be16n e.toNat)))
        ∧ (k ≤ 4094 → (s.mrec k).sync = none →
          exec .flushStream s
            = .next ((s.flush k .flushed).respond r .ok ([0, byteOf (s.mrec k).held.length] ++ [0, 0])))

/-- R52 and R158: the sweep visits the next listed stream and flushes it if its mark is still set; after the last one every
touched mark is cleared, the session ends and the commit is answered with the active bank and the length of the list. -/
def Obligations.CommitSweepVisitsAndEnds : Prop :=
  (∀ (s : State) (r : Request) (k : Nat) (left : List Nat) (total : Nat), s.inReset = false →
      s.mgmt.executor = .sweeping r (k :: left) total →
      let s1 : State := { s with mgmt := { s.mgmt with executor := .sweeping r left total } }
      (markOf s.merge.pendingFlush k = true → exec .sweepVisit s = .next (s1.flush k .reconfigured))
        ∧ (markOf s.merge.pendingFlush k = false → exec .sweepVisit s = .next s1))
    ∧ ∀ (s : State) (r : Request) (total : Nat), s.inReset = false → s.mgmt.executor = .sweeping r [] total →
      exec .commitSweepEnd s
        = .next
          (State.respond
            { s with
              table := { s.table with touched := 0, queuesTouched := false, globalTouched := false }
              mgmt := { s.mgmt with session := none } }
            r .ok ([if s.table.active then 1 else 0, 0] ++ be16n total))

/-- R56 and R79: the restarts of the merge unit and of the reassembly engine return every block they hold and count nothing.
Each is then reported done (R142), in the same step (log 26). -/
def Obligations.ReceiveEnginesRestart : Prop :=
  (∀ s : State, s.awaitsRestart .merge →
      exec .mergeRestart s
        = .next
          (State.partDone
            { s with
              pool := { s.pool with free := s.pool.free + s.heldInUse, rx := s.pool.rx - s.heldInUse }
              merge := { recs := [], pendingFlush := 0 } }
            .merge))
    ∧ ∀ s : State, s.awaitsRestart .reassembly →
      let n := (s.engine.ctxs.map (fun c => c.blocks.length)).sum
        + (s.engine.items.filter (fun it => match it with | .slice _ _ _ => true | .abandon _ _ => false)).length
      exec .reassemblyRestart s
        = .next
          (State.partDone
            { s with
              pool := { s.pool with free := s.pool.free + n, rx := s.pool.rx - n }
              engine := { discarding := 0, ctxs := [], items := [] } }
            .reassembly)

/-! ## Reassembly (chapter 4) -/

/-- R61, R62 step 1 and R65 step 1: a gap-flagged slice abandons the message its stream is assembling as GAP, and a FIRST or
ONLY without the flag abandons it as TRUNCATED; the message's blocks go with it, the slice's block does not, and the slice
is then dealt with by its position from IDLE. -/
def Obligations.OpenMessageIsAbandonedFirst : Prop :=
  ∀ (k : Nat) (s : State) (sl : Slice) (p : Path) (gap : Bool) (c : Ctx), s.inReset = false → s.oneContextEach →
    s.nextItem k = some (.slice sl p gap) → s.ctxOf k = some c →
    let base : State := ((s.dropItem k).freeCtx k).notDiscarding k
    (gap = true →
        let t := base.abandonMessage k .gap sl.seq c.gathered c.blocks.length
        exec (.reassemblySliceTaken k) s = .next (t.engineSlice sl p false) ∧ t.asmState k = .idle)
      ∧ (gap = false → sl.pos = .first ∨ sl.pos = .only →
        let t := base.abandonMessage k .truncated sl.seq c.gathered c.blocks.length
        exec (.reassemblySliceTaken k) s = .next (t.engineSlice sl p false) ∧ t.asmState k = .idle)

/-- R62: a FIRST slice of a stream with no open message is rejected as BAD_DECLARED, OVERSIZE or NO_CONTEXT, which leaves the
stream DISCARDING, or binds a context. -/
def Obligations.FirstSliceBindsOrIsRejected : Prop :=
  ∀ (k : Nat) (s : State) (sl : Slice) (p : Path) (gap : Bool), s.inReset = false →
    s.nextItem k = some (.slice sl p gap) → s.ctxOf k = none → sl.pos = .first →
    let s1 := s.dropItem k
    let limit := (s.entry k).maxLen
    (sl.aux.toNat < 57 →
        exec (.reassemblySliceTaken k) s = .next ((s1.toDiscarding k).abandonMessage k .badDeclared sl.seq 56 1))
      ∧ (57 ≤ sl.aux.toNat → limit < sl.aux.toNat →
        exec (.reassemblySliceTaken k) s = .next ((s1.toDiscarding k).abandonMessage k .oversize sl.seq 56 1))
      ∧ (57 ≤ sl.aux.toNat → sl.aux.toNat ≤ limit → 64 ≤ s.engine.ctxs.length →
        exec (.reassemblySliceTaken k) s = .next ((s1.toDiscarding k).abandonMessage k .noContext sl.seq 56 1))
      ∧ (57 ≤ sl.aux.toNat → sl.aux.toNat ≤ limit → s.engine.ctxs.length < 64 →
        exec (.reassemblySliceTaken k) s
          = .next
            ((s1.notDiscarding k).bindCtx
              { stream := k
                blocks := [sl.payload]
                declared := sl.aux.toNat
                gathered := 56
                check := crc16 sl.payload
                lanes := LaneSet.single p
                timer := ⟨s.time, s.time + BitVec.ofNat 32 ((s.entry k).asmLimit * 100)⟩
                lastSeq := sl.seq }))

/-- R63 and R72: a MIDDLE slice of a stream with no open message is an ORPHAN and leaves it DISCARDING; else it leaves no room
for a LAST and the message is abandoned as LENGTH_MISMATCH with it, or it is appended. -/
def Obligations.MiddleSliceContinuesAMessage : Prop :=
  ∀ (k : Nat) (s : State) (sl : Slice) (p : Path), s.inReset = false → sl.pos = .middle →
    let s1 := s.dropItem k
    (∀ gap, s.nextItem k = some (.slice sl p gap) → s.ctxOf k = none →
        exec (.reassemblySliceTaken k) s
          = .next
            { (s1.returnRx 1).toDiscarding k with
              stats := { s.stats with glob := { s.stats.glob with orphan := satInc s.stats.glob.orphan } } })
      ∧ ∀ c, s.nextItem k = some (.slice sl p false) → s.ctxOf k = some c →
        (c.declared ≤ c.gathered + 56 →
            exec (.reassemblySliceTaken k) s
              = .next
                (((s1.freeCtx k).toDiscarding k).abandonMessage k .lengthMismatch sl.seq (c.gathered + 56)
                  (c.blocks.length + 1)))
          ∧ (c.gathered + 56 < c.declared →
            exec (.reassemblySliceTaken k) s
              = .next
                ((s1.freeCtx k).bindCtx
                  { stream := c.stream
                    blocks := c.blocks ++ [sl.payload]
                    declared := c.declared
                    gathered := c.gathered + 56
                    check := crc16From c.check sl.payload
                    lanes := c.lanes.union (LaneSet.single p)
                    timer := c.timer
                    lastSeq := sl.seq }))

/-- R64, R66, R72 and R73: a LAST slice of a stream with no open message is an ORPHAN and leaves it IDLE; else the message is
abandoned as LENGTH_MISMATCH or CHECK_FAILED together with the slice, or completes and is routed. -/
def Obligations.LastSliceEndsAMessage : Prop :=
  ∀ (k : Nat) (s : State) (sl : Slice) (p : Path), s.inReset = false → sl.pos = .last →
    let s1 := (s.dropItem k).notDiscarding k
    (∀ gap, s.nextItem k = some (.slice sl p gap) → s.ctxOf k = none →
        exec (.reassemblySliceTaken k) s
          = .next
            { s1.returnRx 1 with
              stats := { s.stats with glob := { s.stats.glob with orphan := satInc s.stats.glob.orphan } } })
      ∧ ∀ c, s.nextItem k = some (.slice sl p false) → s.ctxOf k = some c →
        let total := c.gathered + sl.payload.length
        let mismatch := (s.entry k).checkEnable = true ∧ crc16From c.check sl.payload ≠ sl.aux
        (total ≠ c.declared →
            exec (.reassemblySliceTaken k) s
              = .next ((s1.freeCtx k).abandonMessage k .lengthMismatch sl.seq total (c.blocks.length + 1)))
          ∧ (total = c.declared → mismatch →
            exec (.reassemblySliceTaken k) s
              = .next ((s1.freeCtx k).abandonMessage k .checkFailed sl.seq c.declared (c.blocks.length + 1)))
          ∧ (total = c.declared → ¬ mismatch →
            exec (.reassemblySliceTaken k) s
              = .next
                ((s1.freeCtx k).routeMessage
                  { stream := k
                    length := c.declared
                    lanes := c.lanes.union (LaneSet.single p)
                    blocks := c.blocks ++ [sl.payload] }
                  sl.seq))

/-- R65, R66 and R73: an ONLY slice of a stream with no open message is abandoned as OVERSIZE or CHECK_FAILED, or completes
alone; the stream ends in IDLE and no context is bound. -/
def Obligations.OnlySliceIsAWholeMessage : Prop :=
  ∀ (k : Nat) (s : State) (sl : Slice) (p : Path) (gap : Bool), s.inReset = false →
    s.nextItem k = some (.slice sl p gap) → s.ctxOf k = none → sl.pos = .only →
    let s1 := (s.dropItem k).notDiscarding k
    let fill := sl.payload.length
    let mismatch := (s.entry k).checkEnable = true ∧ crc16 sl.payload ≠ sl.aux
    ((s.entry k).maxLen < fill →
        exec (.reassemblySliceTaken k) s = .next (s1.abandonMessage k .oversize sl.seq fill 1))
      ∧ (fill ≤ (s.entry k).maxLen → mismatch →
        exec (.reassemblySliceTaken k) s = .next (s1.abandonMessage k .checkFailed sl.seq fill 1))
      ∧ (fill ≤ (s.entry k).maxLen → ¬ mismatch →
        exec (.reassemblySliceTaken k) s
          = .next
            (s1.routeMessage
              { stream := k, length := fill, lanes := LaneSet.single p, blocks := [sl.payload] } sl.seq))

/-- R69: an abandon request abandons the message of an ASSEMBLING stream with its reason; a DISCARDING or IDLE stream is
IDLE after it with nothing abandoned. The context keeps the sequence of its last slice, which R71 reports (log 15). -/
def Obligations.AbandonRequestIsTaken : Prop :=
  ∀ (k : Nat) (s : State) (reason : AbandonReason), s.inReset = false → s.nextItem k = some (.abandon k reason) →
    let s1 := (s.dropItem k).notDiscarding k
    (∀ c, s.ctxOf k = some c →
        exec (.abandonRequestTaken k) s
          = .next ((s1.freeCtx k).abandonMessage k reason c.lastSeq c.gathered c.blocks.length))
      ∧ (s.ctxOf k = none → exec (.abandonRequestTaken k) s = .next s1 ∧ s1.asmState k = .idle)

/-- R67: at its assembly deadline a context's message is abandoned as STALL, with the sequence of the last slice appended
(R71, log 15), and its stream is DISCARDING. That the command changes nothing before the deadline is the model's choice, log
2. -/
def Obligations.AssemblyDeadlineStalls : Prop :=
  ∀ (k : Nat) (s : State) (c : Ctx), s.inReset = false → s.ctxOf k = some c →
    ((c.timer.due - c.timer.since).toNat ≤ (s.time - c.timer.since).toNat →
        exec (.assemblyDeadline k) s
          = .next (((s.freeCtx k).toDiscarding k).abandonMessage k .stall c.lastSeq c.gathered c.blocks.length))
      ∧ ((s.time - c.timer.since).toNat < (c.timer.due - c.timer.since).toNat →
        exec (.assemblyDeadline k) s = .next s)

/-- R70, R71, R172, R178 and R183: an abandon returns the message's blocks, counts it for its stream and its reason, writes
one log entry with the time and both lanes' states, the oldest leaving a full log, and on stream 4094 ends an awaiting
probe as FAIL. -/
def Obligations.AbandonIsCountedAndLogged : Prop :=
  ∀ (s : State) (k : Nat) (reason : AbandonReason) (seq : SeqNo) (gathered n : Nat),
    let st := s.stats
    let g := st.glob
    let number : Byte :=
      match reason with
      | .gap => 1 | .truncated => 2 | .oversize => 3 | .badDeclared => 4 | .lengthMismatch => 5 | .checkFailed => 6
      | .stall => 7 | .noContext => 8 | .queueFull => 9 | .flushed => 10 | .reconfigured => 11 | .resync => 12
    let entry : LogEntry :=
      { time := s.time, stream := k, reason := reason, seq := seq, gathered := gathered
        laneA := s.laneA.align, laneB := s.laneB.align }
    let stats : Stats :=
      { streams := (st.setStream k { st.stream k with abandoned := satInc (st.stream k).abandoned }).streams
        laneA := st.laneA
        laneB := st.laneB
        glob :=
          match reason with
          | .gap => { g with gap := satInc g.gap }
          | .truncated => { g with truncated := satInc g.truncated }
          | .oversize => { g with oversize := satInc g.oversize }
          | .badDeclared => { g with badDeclared := satInc g.badDeclared }
          | .lengthMismatch => { g with lengthMismatch := satInc g.lengthMismatch }
          | .checkFailed => { g with checkFailed := satInc g.checkFailed }
          | .stall => { g with stall := satInc g.stall }
          | .noContext => { g with noContext := satInc g.noContext }
          | .queueFull => { g with queueFull := satInc g.queueFull }
          | .flushed => { g with flushed := satInc g.flushed }
          | .reconfigured => { g with reconfigured := satInc g.reconfigured }
          | .resync => { g with resync := satInc g.resync }
        log := if st.log.length < 32 then st.log ++ [entry] else st.log.tail ++ [entry]
        overwrites :=
          if st.log.length < 32 then st.overwrites
          else if st.overwrites = 65535 then 65535 else st.overwrites + 1 }
    let t : State := { s with pool := { s.pool with free := s.pool.free + n, rx := s.pool.rx - n }, stats := stats }
    (k ≠ 4094 ∨ s.probeAwaiting = false → s.abandonMessage k reason seq gathered n = t)
      ∧ (∀ r p slices d, k = 4094 → s.mgmt.executor = .probing r p → p.await = some (slices, d) →
        s.abandonMessage k reason seq gathered n
          = t.respond r .ok
              ([3, number] ++ be16n p.length ++ be16n 0 ++ be16n 0 ++ [byteOf slices, 0] ++ be32 (s.time - p.start)))
      ∧ ∀ j, stats.stream j
          = if j = k then { st.stream j with abandoned := satInc (st.stream j).abandoned } else st.stream j

/-- R73 to R76, R92, R123 and R171: a completed message goes by its stream to the backbone share, the probe comparator or
the delivery queue its entry names, and is dropped, counted as a stray or abandoned as QUEUE_FULL when it is not taken. An
intake position is a number that does not wrap: the model's choice, log 17. The bits of the lanes-used byte that R189 names
no meaning for are sent as 0: the model's choice, log 29. -/
def Obligations.CompletedMessageIsRouted : Prop :=
  ∀ (s : State) (d : Descriptor) (seq : SeqNo),
    let n := d.blocks.length
    let freed : State := { s with pool := { s.pool with free := s.pool.free + n, rx := s.pool.rx - n } }
    let delivered := s.stats.setStream d.stream
      { s.stats.stream d.stream with delivered := satInc (s.stats.stream d.stream).delivered }
    let g := s.stats.glob
    let q := (s.entry d.stream).queue
    (d.stream = 0 → s.mgmt.bbShare.length < 4 →
        s.routeMessage d seq
          = { freed with
              stats := delivered
              mgmt :=
                { s.mgmt with
                  bbShare :=
                    s.mgmt.bbShare
                      ++ [{ source := .backbone, bytes := d.blocks.flatten, position := s.mgmt.nextIntake }]
                  nextIntake := s.mgmt.nextIntake + 1 } })
      ∧ (d.stream = 0 → 4 ≤ s.mgmt.bbShare.length →
        s.routeMessage d seq
          = { freed with stats := { s.stats with glob := { g with mgmtDropped := satInc g.mgmtDropped } } })
      ∧ (d.stream = 4094 → s.probeAwaiting = false →
        s.routeMessage d seq
          = { freed with stats := { s.stats with glob := { g with probeStray := satInc g.probeStray } } })
      ∧ (∀ r p slices dl, d.stream = 4094 → s.mgmt.executor = .probing r p → p.await = some (slices, dl) →
        let answer := fun (result : Byte) (off : Nat) =>
          [result, 0] ++ be16n p.length ++ be16n d.length ++ be16n off ++ [byteOf slices, byteOf d.lanes.code]
            ++ be32 (s.time - p.start)
        (d.blocks.flatten = p.buffer →
            s.routeMessage d seq = State.respond { freed with stats := delivered } r .ok (answer 1 0))
          ∧ ∀ off, d.blocks.flatten.take off = p.buffer.take off →
              off ≤ d.blocks.flatten.length → off ≤ p.buffer.length →
              d.blocks.flatten[off]? ≠ p.buffer[off]? →
              s.routeMessage d seq = State.respond { freed with stats := delivered } r .ok (answer 2 off))
      ∧ (d.stream ≠ 0 → d.stream ≠ 4094 → s.occupancy q < s.activeBank.capacities.get q →
        s.routeMessage d seq
          = { s with
              stats := delivered
              delivery := { s.delivery with dqs := s.delivery.dqs.set q (s.delivery.dqs.get q ++ [d]) } })
      ∧ (d.stream ≠ 0 → d.stream ≠ 4094 → s.activeBank.capacities.get q ≤ s.occupancy q →
        s.routeMessage d seq = s.abandonMessage d.stream .queueFull seq d.length n)

/-! ## The buffer pool (chapter 5) -/

/-- R80 to R82: a receive claim is granted below the ceiling with a block free; a transmit claim is granted whole, within the
transmit limit and the free blocks, or refused whole. -/
def Obligations.PoolGrantsClaimsWhole : Prop :=
  ∀ (s : State) (n : Nat),
    (s.pool.rx < s.glob.ceiling → 0 < s.pool.free →
        s.claimRx = some { s with pool := { s.pool with free := s.pool.free - 1, rx := s.pool.rx + 1 } })
      ∧ (s.glob.ceiling ≤ s.pool.rx ∨ s.pool.free = 0 → s.claimRx = none)
      ∧ (s.pool.tx + n ≤ 4096 - s.glob.ceiling → n ≤ s.pool.free →
        s.claimTx n = some { s with pool := { s.pool with free := s.pool.free - n, tx := s.pool.tx + n } })
      ∧ (4096 - s.glob.ceiling < s.pool.tx + n ∨ s.pool.free < n → s.claimTx n = none)
      ∧ (s.pool.free + s.pool.rx + s.pool.tx = 4096 → s.pool.rx ≤ s.glob.ceiling → s.pool.tx ≤ 4096 - s.glob.ceiling →
        s.glob.ceiling ≤ 4096 →
        (s.pool.rx < s.glob.ceiling → 0 < s.pool.free)
          ∧ (s.pool.tx + n ≤ 4096 - s.glob.ceiling → n ≤ s.pool.free))

/-! ## The local port (chapter 6) -/

/-- R95 to R97 and R188: with no transfer in progress and hold inactive, the head of the first non-empty of MQ, DQ0, DQ1,
DQ2 and DQ3 starts, its first byte marked start; hold stops a start, and its release starts one at once. That the start
presents the first byte is the model's choice, log 18, as is, by log 2, that TRANSFER_START changes nothing where no
transfer can start; that a release of an inactive hold starts a transfer too is deduced, log 28. Bits 7 to 1 of the kind
byte are presented as 0: the model's choice, log 29. -/
def Obligations.TransferStartsInStrictOrder : Prop :=
  ∀ s : State, s.inReset = false →
    let started := fun (d : Delivery) (t : Transfer) (kind : Byte) =>
      { s with
        delivery :=
          { d with
            transfer := some t
            out := [{ data := kind, startMark := true, endMark := false, error := false }]
            valid := true } }
    exec .holdAssert s = .next { s with delivery := { s.delivery with hold := true } }
      ∧ (∃ t, exec .holdRelease s = .next t
        ∧ exec .transferStart { s with delivery := { s.delivery with hold := false } } = .next t)
      ∧ (s.delivery.hold = true ∨ s.delivery.transfer ≠ none → exec .transferStart s = .next s)
      ∧ (s.delivery.hold = false → s.delivery.transfer = none →
        (∀ r rest, s.delivery.mq = r :: rest →
            exec .transferStart s = .next (started { s.delivery with mq := rest } (.mgmt r) 1))
          ∧ (∀ q d rest, s.delivery.mq = [] → (∀ q', q'.num < q.num → s.delivery.dqs.get q' = []) →
            s.delivery.dqs.get q = d :: rest →
            exec .transferStart s
              = .next (started { s.delivery with dqs := s.delivery.dqs.set q rest } (.data q d) 0))
          ∧ (s.delivery.mq = [] → (∀ q, s.delivery.dqs.get q = []) → exec .transferStart s = .next s))

/-- R96, R84 and R188: a delivery is its header and its payload, the first byte with the start mark and the last with the
end mark. The end of a transfer presents the bytes that are still to come; that of a data transfer returns the message's
blocks together and its queue's occupancy falls by 1, that of a transfer from MQ frees a local response buffer. A
microsecond with no command presents the next byte but the last (the pace is the model's choice, log 18), and every byte of
a delivery has been presented, in order, once its transfer has ended. The bits of the kind and lanes-used bytes that R188
names no meaning for are sent as 0: the model's choice, log 29. -/
def Obligations.TransferEndReturnsBlocks : Prop :=
  (∀ t : Transfer,
      let bytes : List Byte :=
        match t with
        | .data q d =>
          [0, byteOf q.num] ++ be16n d.stream ++ be16n d.length ++ [byteOf d.lanes.code, 0] ++ d.blocks.flatten
        | .mgmt r => [1, 0, 0, 0] ++ be16n r.length ++ [0, 0] ++ r
      (deliveryOut t).length = bytes.length
        ∧ ∀ (i : Nat) (b : Byte), bytes[i]? = some b →
          (deliveryOut t)[i]?
            = some { data := b, startMark := decide (i = 0), endMark := decide (i + 1 = bytes.length), error := false })
    ∧ ∀ s : State, s.inReset = false → ∀ t, s.delivery.transfer = some t →
      let ended : Delivery :=
        { s.delivery with
          transfer := none, out := s.delivery.out ++ (deliveryOut t).drop s.delivery.out.length, valid := true }
      (∀ q d, t = .data q d → ∃ u : State,
          exec .transferEnd s = .next u
            ∧ u = { s with
                    pool :=
                      { s.pool with free := s.pool.free + d.blocks.length, rx := s.pool.rx - d.blocks.length }
                    delivery := ended }
            ∧ ∀ q', u.occupancy q' = s.occupancy q' - (if q' = q then 1 else 0))
        ∧ (∀ r, t = .mgmt r →
          exec .transferEnd s
            = .next { s with mgmt := { s.mgmt with lpBufs := s.mgmt.lpBufs - 1 }, delivery := ended })
        ∧ ∀ j, s.delivery.out = (deliveryOut t).take j →
          ended.out = deliveryOut t
            ∧ ∀ u, s.pending = [] → j + 1 < (deliveryOut t).length → step s = .next u →
              u.delivery.transfer = some t ∧ u.delivery.out = (deliveryOut t).take (j + 1)

/-- R104 and R105: the restarts of the delivery side and of the submission side. A data transfer is cut with the error mark
and MQ kept; a frame in progress is dropped with its reservations, and the rest of it is absorbed up to its end mark,
whatever length is left (log 20). Each is then reported done (R142), in the same step (log 26). -/
def Obligations.LocalPortRestarts : Prop :=
  (∀ s : State, s.awaitsRestart .delivery →
      let n :=
        (([.dq0, .dq1, .dq2, .dq3] : List QueueId).map
            (fun q => ((s.delivery.dqs.get q).map (fun d => d.blocks.length)).sum)).sum
      ((∀ q d, s.delivery.transfer ≠ some (.data q d)) →
          exec .deliveryRestart s
            = .next
              (State.partDone
                { s with
                  pool := { s.pool with free := s.pool.free + n, rx := s.pool.rx - n }
                  delivery := { s.delivery with dqs := ⟨[], [], [], []⟩ } }
                .delivery))
        ∧ ∀ q d, s.delivery.transfer = some (.data q d) →
          let n1 := n + d.blocks.length
          exec .deliveryRestart s
            = .next
              (State.partDone
                { s with
                  pool := { s.pool with free := s.pool.free + n1, rx := s.pool.rx - n1 }
                  delivery :=
                    { s.delivery with
                      dqs := ⟨[], [], [], []⟩
                      transfer := none
                      out := s.delivery.out ++ [{ data := 0, startMark := false, endMark := true, error := true }]
                      valid := true } }
                .delivery))
    ∧ ∀ s : State, s.awaitsRestart .submission →
      (s.sub = .idle → exec .submissionRestart s = .next (s.partDone .submission))
        ∧ ((∃ got, s.sub = .header got) ∨ (∃ k n, s.sub = .waitingData k n) ∨ (∃ n, s.sub = .waitingMgmt n)
            ∨ (∃ n got, s.sub = .loadingMgmt n got) →
          exec .submissionRestart s = .next (State.partDone { s with sub := .absorbing 0 } .submission))
        ∧ (∀ k n got, s.sub = .loadingData k n got →
          let m := (n + 55) / 56
          exec .submissionRestart s
            = .next
              (State.partDone
                { s with
                  pool := { s.pool with free := s.pool.free + m, tx := s.pool.tx - m }
                  sub := .absorbing 0 }
                .submission))
        ∧ (∀ n, s.sub = .absorbing n → exec .submissionRestart s = .next (s.partDone .submission))

/-- R98: what a passing byte does in each state of the submission side, but for the bytes that complete a header or a payload;
those are the commands of their own rows, and SUBMISSION_BYTE on such a byte is that command (log 10). -/
def Obligations.SubmissionTakesBytes : Prop :=
  ∀ (s : State) (b : Byte) (startMark endMark : Bool), s.inReset = false →
    let put := fun (x : Submission) => { s with sub := x }
    (s.sub = .idle →
        exec (.submissionByte b startMark endMark) s
          = .next (if startMark = true ∧ endMark = false then put (.header [b]) else s))
      ∧ (∀ got, s.sub = .header got → got.length < 7 →
        exec (.submissionByte b startMark endMark) s
          = .next (put (if endMark = true then .idle else .header (got ++ [b]))))
      ∧ (∀ k n, s.sub = .waitingData k n →
        s.ready = false ∧ exec (.submissionByte b startMark endMark) s = .next s)
      ∧ (∀ n, s.sub = .waitingMgmt n → s.ready = false ∧ exec (.submissionByte b startMark endMark) s = .next s)
      ∧ (∀ k n got, s.sub = .loadingData k n got → got.length + 1 < n →
        exec (.submissionByte b startMark false) s = .next (put (.loadingData k n (got ++ [b]))))
      ∧ (∀ n got, s.sub = .loadingMgmt n got → got.length + 1 < n →
        exec (.submissionByte b startMark false) s = .next (put (.loadingMgmt n (got ++ [b]))))
      ∧ (∀ n, s.sub = .absorbing n →
        exec (.submissionByte b startMark false) s = .next (put (.absorbing (n - 1))))
      ∧ (byteEvent s.sub b endMark = .dataHeader →
        exec (.submissionByte b startMark endMark) s = exec (.dataHeader b endMark) s)
      ∧ (byteEvent s.sub b endMark = .mgmtHeader →
        exec (.submissionByte b startMark endMark) s = exec (.mgmtHeader b endMark) s)
      ∧ (byteEvent s.sub b true = .dataComplete →
        exec (.submissionByte b startMark true) s = exec (.dataFrameComplete b) s)
      ∧ (byteEvent s.sub b true = .mgmtComplete →
        exec (.submissionByte b startMark true) s = exec (.mgmtFrameComplete b) s)
      ∧ (byteEvent s.sub b endMark = .fault →
        exec (.submissionByte b startMark endMark) s = exec (.lengthFault b endMark) s)
      ∧ (byteEvent s.sub b true = .absorbingEnd →
        exec (.submissionByte b startMark true) s = exec (.absorbingEnd b) s)

/-- R99, R100 and R82: a DATA header is rejected for the first check it fails and absorbed, or waits until the transmit FIFO
has a free entry and the pool grants its blocks whole; WAITING_RETRY repeats that test. -/
def Obligations.DataHeaderIsJudged : Prop :=
  ∀ (s : State), s.inReset = false →
    let wait := fun (k n : Nat) =>
      let m := (n + 55) / 56
      if s.slicer.fifo.length < 32 ∧ s.pool.tx + m ≤ 4096 - s.glob.ceiling ∧ m ≤ s.pool.free then
        { s with
          pool := { s.pool with free := s.pool.free - m, tx := s.pool.tx + m }
          sub := .loadingData k n [] }
      else { s with sub := .waitingData k n }
    (∀ k n, s.sub = .waitingData k n → exec .waitingRetry s = .next (wait k n))
      ∧ ∀ (got : List Byte) (b : Byte) (endMark : Bool), s.sub = .header got → got.length = 7 →
        let hdr := got ++ [b]
        let k := (rd16 hdr 2).toNat % 4096
        let n := (rd16 hdr 4).toNat
        (rd8 hdr 0).toNat % 2 = 0 → (endMark = true → n = 0) →
        let after : Submission := if endMark = true then .idle else .absorbing n
        let g := s.stats.glob
        (k = 0 ∨ k = 4094 ∨ k = 4095 →
            exec (.dataHeader b endMark) s
              = .next
                { s with
                  stats := { s.stats with glob := { g with txBadStream := satInc g.txBadStream } }, sub := after })
          ∧ (k ≠ 0 → k ≠ 4094 → k ≠ 4095 → (s.entry k).txEnable = false →
            exec (.dataHeader b endMark) s
              = .next
                { s with
                  stats := { s.stats with glob := { g with txDisabled := satInc g.txDisabled } }, sub := after })
          ∧ (k ≠ 0 → k ≠ 4094 → k ≠ 4095 → (s.entry k).txEnable = true → n = 0 ∨ (s.entry k).maxLen < n →
            exec (.dataHeader b endMark) s
              = .next
                { s with
                  stats := { s.stats with glob := { g with txOversize := satInc g.txOversize } }, sub := after })
          ∧ (k ≠ 0 → k ≠ 4094 → k ≠ 4095 → (s.entry k).txEnable = true → 0 < n → n ≤ (s.entry k).maxLen →
            exec (.dataHeader b endMark) s = .next (wait k n))

/-- R102: a MGMT header is judged on its length alone; it is absorbed and counted, reserves a free place of the local share, or
waits. -/
def Obligations.MgmtHeaderIsJudged : Prop :=
  ∀ (s : State) (got : List Byte) (b : Byte) (endMark : Bool), s.inReset = false → s.sub = .header got →
    got.length = 7 →
    let hdr := got ++ [b]
    let n := (rd16 hdr 4).toNat
    (rd8 hdr 0).toNat % 2 = 1 → (endMark = true → n = 0) →
    let g := s.stats.glob
    (n = 0 ∨ 1024 < n →
        exec (.mgmtHeader b endMark) s
          = .next
            { s with
              stats := { s.stats with glob := { g with mgmtOversize := satInc g.mgmtOversize } }
              sub := if endMark = true then .idle else .absorbing n })
      ∧ (1 ≤ n → n ≤ 1024 → s.mgmt.lpShare.length < 4 →
        exec (.mgmtHeader b endMark) s = .next { s with sub := .loadingMgmt n [] })
      ∧ (1 ≤ n → n ≤ 1024 → 4 ≤ s.mgmt.lpShare.length →
        exec (.mgmtHeader b endMark) s = .next { s with sub := .waitingMgmt n })

/-- R101, R102, R86, R124 and R125: the end-marked byte that completes the declared length puts a DATA frame at the tail of
the transmit FIFO, cut into blocks of 56 bytes and a last one of what remains, and a MGMT frame at the tail of the local
share with the next intake position. An intake position is a number that does not wrap: the model's choice, log 17. -/
def Obligations.CompleteFramesAreTaken : Prop :=
  (∀ (s : State) (b : Byte), s.inReset = false →
      (∀ k n got, s.sub = .loadingData k n got → got.length + 1 = n →
          exec (.dataFrameComplete b) s
            = .next
              { s with
                sub := .idle
                slicer :=
                  { s.slicer with
                    fifo := s.slicer.fifo ++ [{ stream := k, length := n, blocks := piecesOf (got ++ [b]) }] } })
        ∧ ∀ n got, s.sub = .loadingMgmt n got → got.length + 1 = n →
          exec (.mgmtFrameComplete b) s
            = .next
              { s with
                sub := .idle
                mgmt :=
                  { s.mgmt with
                    lpShare :=
                      s.mgmt.lpShare
                        ++ [{ source := .localPort, bytes := got ++ [b], position := s.mgmt.nextIntake }]
                    nextIntake := s.mgmt.nextIntake + 1 } })
    ∧ ∀ bytes : List Byte,
      (piecesOf bytes).flatten = bytes ∧ (piecesOf bytes).length = (bytes.length + 55) / 56
        ∧ (∀ x ∈ piecesOf bytes, 1 ≤ x.length ∧ x.length ≤ 56)
        ∧ ∀ x ∈ (piecesOf bytes).dropLast, x.length = 56

/-- R103: a frame whose end mark is misplaced or missing is counted once, loses its reservations, and ends in IDLE or is
absorbed to its end mark; the end-marked byte ends absorbing, whatever length is left (log 20). -/
def Obligations.LengthFaultsAreCountedOnce : Prop :=
  ∀ (s : State) (b : Byte), s.inReset = false →
    let g := s.stats.glob
    let data : Stats := { s.stats with glob := { g with txOversize := satInc g.txOversize } }
    let mgmt : Stats := { s.stats with glob := { g with mgmtOversize := satInc g.mgmtOversize } }
    (∀ got, s.sub = .header got → got.length = 7 → 0 < (rd16 (got ++ [b]) 4).toNat →
        exec (.lengthFault b true) s
          = .next
            { s with stats := if (rd8 (got ++ [b]) 0).toNat % 2 = 1 then mgmt else data, sub := .idle })
      ∧ (∀ k n got, s.sub = .loadingData k n got →
        let m := (n + 55) / 56
        let freed : Pool := { s.pool with free := s.pool.free + m, tx := s.pool.tx - m }
        (got.length + 1 < n →
            exec (.lengthFault b true) s = .next { s with pool := freed, stats := data, sub := .idle })
          ∧ (got.length + 1 = n →
            exec (.lengthFault b false) s = .next { s with pool := freed, stats := data, sub := .absorbing 0 }))
      ∧ (∀ n got, s.sub = .loadingMgmt n got →
        (got.length + 1 < n → exec (.lengthFault b true) s = .next { s with stats := mgmt, sub := .idle })
          ∧ (got.length + 1 = n → exec (.lengthFault b false) s = .next { s with stats := mgmt, sub := .absorbing 0 }))
      ∧ ∀ n, s.sub = .absorbing n → exec (.absorbingEnd b) s = .next { s with sub := .idle }

/-! ## The slicer (chapter 7) -/

/-- R108, R109 and R112: an idle slicer takes the oldest backbone-bound output, and only with none waiting the frame at the head
of the transmit FIFO; nothing is cut yet and the message check is at its initial value. -/
def Obligations.SlicerTakesOutputsFirst : Prop :=
  ∀ s : State, s.inReset = false → s.slicer.state = .idle →
    (∀ bytes rest, s.slicer.outputs = .response bytes :: rest →
        exec .slicerTakeMessage s
          = .next
            { s with
              slicer :=
                { s.slicer with
                  outputs := rest
                  state :=
                    .slicing
                      { kind := .response, stream := 0, length := bytes.length, pieces := piecesOf bytes, cut := 0
                        check := 0xFFFF } } })
      ∧ (∀ bytes rest, s.slicer.outputs = .probe bytes :: rest →
        exec .slicerTakeMessage s
          = .next
            { s with
              slicer :=
                { s.slicer with
                  outputs := rest
                  state :=
                    .slicing
                      { kind := .probe, stream := 4094, length := bytes.length, pieces := piecesOf bytes, cut := 0
                        check := 0xFFFF } } })
      ∧ (∀ f rest, s.slicer.outputs = [] → s.slicer.fifo = f :: rest →
        exec .slicerTakeMessage s
          = .next
            { s with
              slicer :=
                { s.slicer with
                  fifo := rest
                  state :=
                    .slicing
                      { kind := .data, stream := f.stream, length := f.length, pieces := f.blocks, cut := 0
                        check := 0xFFFF } } })

/-- R110 to R113 and R116: a cut slice carries the message's stream, its position, the stream's transmit sequence, which then
advances by 1, and its aux; a stream 4094 slice goes to the loop path, any other is offered to the lanes that are in its
stream's transmit lane mask with their transmit enable on. In STALLED nothing is cut: SLICE_CUT offers the waiting slice
again to the lanes it was eligible for, which log 13 deduces. -/
def Obligations.SliceIsCutAndNumbered : Prop :=
  (∀ (s : State) (j : Job) (sl : Slice) (el : LaneSet), s.inReset = false → s.slicer.state = .stalled j sl el →
      exec .sliceCut s = .next (s.offerSlice j sl el))
    ∧ ∀ (s : State) (j : Job) (piece : Block) (rest : List Block), s.inReset = false → s.slicer.state = .slicing j →
    j.pieces = piece :: rest →
    let pos : Position :=
      if j.cut = 0 then if rest = [] then .only else .first else if rest = [] then .last else .middle
    let check := crc16From j.check piece
    let sl : Slice :=
      { stream := j.stream
        pos := pos
        seq := s.txSeq j.stream
        aux := if pos = .first then BitVec.ofNat 16 j.length else if pos = .middle then 0 else check
        payload := piece }
    let j1 : Job := { j with pieces := rest, cut := j.cut + 1, check := check }
    let s1 := s.advanceSeq j.stream
    let e := s.entry j.stream
    (∀ k, s1.txSeq k = if k = j.stream then s.txSeq k + 1 else s.txSeq k)
      ∧ s1 = { s with slicer := { s.slicer with seqs := s1.slicer.seqs } }
      ∧ (j.stream = 4094 →
        exec .sliceCut s
          = .next (State.sliceDone { s1 with slicer := { s1.slicer with loop := s.slicer.loop ++ [sl] } } j1))
      ∧ (j.stream ≠ 4094 →
        exec .sliceCut s
          = .next
            (s1.offerSlice j1 sl
              { a := decide (e.txMask ≠ .onlyB) && s.glob.txEnableA
                b := decide (e.txMask ≠ .onlyA) && s.glob.txEnableB
                loop := false }))

/-! ## Management requests (chapter 8) -/

/-- R127, R102 and R130 to R132: an idle executor takes the eligible request with the earliest intake position; it leaves
its share and one buffer of its source becomes IN USE; a local take lets a waiting MGMT header in within the command
(deduced, log 23); the checks are made in order at the take (deduced, log 11), and a refused request is answered at once.
The codes are those of R189 (12.3), and the parameter lengths those that the layouts of R190 (12.4) fix; a LOAD_RECORDS has
none of its own, because its length follows from its record count. -/
def Obligations.ExecutorTakesEarliestEligible : Prop :=
  (∀ s : State, s.inReset = false → s.mgmt.executor = .idle →
      (∀ b bs, s.mgmt.bbShare = b :: bs → s.mgmt.bbBufs < 2 →
          (∀ l ls, s.mgmt.lpShare = l :: ls → s.mgmt.lpBufs < 2 → b.position ≤ l.position) →
          let t : State := { s with mgmt := { s.mgmt with bbShare := bs, bbBufs := s.mgmt.bbBufs + 1 } }
          (∀ status, t.judgeRequest b = .error status → exec .executorTake s = .next (t.respond b status []))
            ∧ ∀ kind, t.judgeRequest b = .ok kind →
              exec .executorTake s = .next { t with mgmt := { t.mgmt with executor := .ready b kind } })
        ∧ (∀ l ls, s.mgmt.lpShare = l :: ls → s.mgmt.lpBufs < 2 →
          (∀ b bs, s.mgmt.bbShare = b :: bs → s.mgmt.bbBufs < 2 → l.position < b.position) →
          let t : State :=
            { s with
              mgmt := { s.mgmt with lpShare := ls, lpBufs := s.mgmt.lpBufs + 1 }
              sub := match s.sub with | .waitingMgmt n => .loadingMgmt n [] | x => x }
          (∀ status, t.judgeRequest l = .error status → exec .executorTake s = .next (t.respond l status []))
            ∧ ∀ kind, t.judgeRequest l = .ok kind →
              exec .executorTake s = .next { t with mgmt := { t.mgmt with executor := .ready l kind } }))
    ∧ ∀ (s : State) (r : Request),
      let policy := match r.source with | .backbone => s.glob.backbonePolicy | .localPort => s.glob.localPolicy
      let code := rd16 r.bytes 0
      let n := (rd16 r.bytes 4).toNat
      let codeOf : ReqKind → Half := fun kind =>
        match kind with
        | .identify => 0x0101 | .readStream => 0x0102 | .readMergeState => 0x0103 | .flushStream => 0x0104
        | .restart => 0x0105 | .loadOpen => 0x0201 | .loadRecords => 0x0202 | .loadCommit => 0x0203
        | .loadAbort => 0x0204 | .loadStatus => 0x0205 | .probe => 0x0301 | .readCounters => 0x0401
        | .clearCounters => 0x0402 | .readLog => 0x0403 | .clearLog => 0x0404
      let lengthOf : ReqKind → Option Nat := fun kind =>
        match kind with
        | .identify | .restart | .loadStatus | .clearLog => some 0
        | .readMergeState | .flushStream | .loadCommit | .loadAbort | .readLog => some 2
        | .readStream | .probe => some 4
        | .readCounters | .clearCounters => some 6
        | .loadOpen => some 8
        | .loadRecords => none
      (r.bytes.length < 8 ∨ n ≠ r.bytes.length - 8 → s.judgeRequest r = .error .badRequest)
        ∧ (8 ≤ r.bytes.length → n = r.bytes.length - 8 →
          ((∀ kind : ReqKind, codeOf kind ≠ code) → s.judgeRequest r = .error .badRequest)
            ∧ ∀ kind : ReqKind, codeOf kind = code →
              (policy = .readOnly →
                  kind ∉ [ReqKind.identify, .readStream, .readMergeState, .readCounters, .readLog, .loadStatus] →
                  s.judgeRequest r = .error .denied)
                ∧ (policy = .full
                    ∨ kind ∈ [ReqKind.identify, .readStream, .readMergeState, .readCounters, .readLog, .loadStatus] →
                  (lengthOf kind = none ∨ lengthOf kind = some n → s.judgeRequest r = .ok kind)
                    ∧ ∀ m, lengthOf kind = some m → m ≠ n → s.judgeRequest r = .error .badRequest))

/-- R133, R135, R137 to R139, R163, R179, R184 and the layouts of R189 and R190: the six reading requests are answered and
change nothing else; a response is its header and its data, and leaves by the route its request came from. An IDENTIFY reads
the groups of its plan one by one and then what is left, where the plan is a free value (log 12), and a READ_MERGE_STATE its
merge record and then its assembly state, with other commands between. Bits 7 to 3 of READ_STREAM's marks byte are sent as
0: the model's choice, log 29. -/
def Obligations.ReadingRequestsOnlyAnswer : Prop :=
  (∀ (s : State) (r : Request) (status : Status) (data : List Byte),
      let value : Byte :=
        match status with
        | .ok => 0 | .denied => 1 | .badRequest => 2 | .badStream => 3 | .notEnabled => 4 | .noSession => 5
        | .wrongSession => 6 | .sessionOwned => 7 | .sessionOpen => 8 | .outOfOrder => 9 | .alreadyLoaded => 10
        | .badRecord => 11 | .countMismatch => 12 | .checkMismatch => 13 | .alreadyCommitted => 14
      let bytes :=
        be16 (rd16 r.bytes 0) ++ be16 (rd16 r.bytes 2) ++ [0, value] ++ be16 s.table.generation
          ++ be16n data.length ++ [0, 0] ++ data
      (r.source = .backbone →
          s.respond r status data
            = { s with
                mgmt := { s.mgmt with executor := .idle }
                slicer := { s.slicer with outputs := s.slicer.outputs ++ [.response bytes] } })
        ∧ (r.source = .localPort →
          s.respond r status data
            = { s with
                mgmt := { s.mgmt with executor := .idle }
                delivery := { s.delivery with mq := s.delivery.mq ++ [bytes] } }))
    ∧ ∀ (s : State) (r : Request),
      let p := reqParams r.bytes
      let k0 := (rd16 p 0).toNat
      let k2 := (rd16 p 2).toNat
      let n := (rd16 p 4).toNat
      let on : Bool → Byte := fun x => if x = true then 1 else 0
      let state : Align → Byte := fun x =>
        match x with | .disabled => 0 | .down => 1 | .hunt => 2 | .confirm => 3 | .up => 4
      let mask : LaneMask → Byte := fun x => match x with | .onlyA => 1 | .onlyB => 2 | .both => 3
      let policy : Policy → Byte := fun x => match x with | .full => 0 | .readOnly => 1
      let queue : QueueId → Byte := fun x => match x with | .dq0 => 0 | .dq1 => 1 | .dq2 => 2 | .dq3 => 3
      let reason : AbandonReason → Byte := fun x =>
        match x with
        | .gap => 1 | .truncated => 2 | .oversize => 3 | .badDeclared => 4 | .lengthMismatch => 5 | .checkFailed => 6
        | .stall => 7 | .noContext => 8 | .queueFull => 9 | .flushed => 10 | .reconfigured => 11 | .resync => 12
      let reads := fun (x : Reading) => s.inReset = false ∧ s.mgmt.executor = .reading r x
      let hold := fun (x : Reading) => { s with mgmt := { s.mgmt with executor := .reading r x } }
      (s.executes r .identify →
          exec .identify s
            = .next
              { s with
                mgmt :=
                  { s.mgmt with
                    executor :=
                      .reading r
                        (.identify ⟨none, none, none, none, none, none, none, none, none⟩
                          (Config.identifyPlan s.mgmt.choices))
                    choices := s.mgmt.choices + 1 } })
        ∧ (∀ (x : IdReads) (plan : List IdBlock), reads (.identify x plan) →
          let la := x.laneA.getD s.laneA.align
          let lb := x.laneB.getD s.laneB.align
          let table := x.table.getD (s.table.generation, s.table.active)
          let pool := x.pool.getD s.pool
          let held := x.merge.getD s.heldInUse
          let bound := x.reassembly.getD s.engine.ctxs.length
          let queues := x.delivery.getD
            (⟨s.occupancy .dq0, s.occupancy .dq1, s.occupancy .dq2, s.occupancy .dq3⟩, s.delivery.mq.length)
          let frames := x.slicer.getD s.slicer.fifo.length
          let time := x.timebase.getD s.time
          (plan = [] →
              exec .identify s
                = .next
                  (s.respond r .ok
                    ([0x04, 0x60, 1, on table.2, state la, state lb] ++ be16 table.1
                      ++ [0x10, 0x00, 0x02, 0x00, 64, 32, 64, 4, 2, 0, 0x01, 0x00]
                      ++ be16n pool.free ++ be16n pool.rx ++ be16n pool.tx ++ be16n held
                      ++ [byteOf bound, byteOf queues.2]
                      ++ be16n queues.1.q0 ++ be16n queues.1.q1 ++ be16n queues.1.q2 ++ be16n queues.1.q3
                      ++ [byteOf frames, 0] ++ be32 time)))
            ∧ ∀ (b : IdBlock) (rest : List IdBlock), plan = b :: rest →
              exec .identify s
                = .next
                  (hold
                    (.identify
                      (match b with
                        | .laneA => { x with laneA := some la }
                        | .laneB => { x with laneB := some lb }
                        | .table => { x with table := some table }
                        | .pool => { x with pool := some pool }
                        | .merge => { x with merge := some held }
                        | .reassembly => { x with reassembly := some bound }
                        | .delivery => { x with delivery := some queues }
                        | .slicer => { x with slicer := some frames }
                        | .timebase => { x with timebase := some time }) rest)))
        ∧ (s.executes r .loadStatus →
          (s.mgmt.session = none →
              exec .loadStatus s
                = .next
                  (s.respond r .ok
                    ([0, 0, 0, 0] ++ be16 s.mgmt.sessionCounter ++ [0, 0, 0, 0] ++ be16 s.table.lastCommitted
                      ++ [0, 0, 0, 0] ++ be16 s.table.generation)))
            ∧ ∀ x, s.mgmt.session = some x →
              exec .loadStatus s
                = .next
                  (s.respond r .ok
                    ([if x.idle = none then (2 : Byte) else 1,
                        match x.owner with | .backbone => (1 : Byte) | .localPort => 2,
                        match x.mode with | .clean => (1 : Byte) | .copy => 2, 0]
                      ++ be16 x.number ++ be16n x.next ++ be16n x.declared ++ be16 s.table.lastCommitted
                      ++ be32 x.declaredCheck ++ be16 s.table.generation)))
        ∧ (s.executes r .readStream →
          (1 < (rd8 p 0).toNat → exec .readStream s = .next (s.respond r .badRequest []))
            ∧ (rd8 p 0 = 0 ∨ rd8 p 0 = 1 → 4094 < k2 → exec .readStream s = .next (s.respond r .badStream []))
            ∧ (rd8 p 0 = 0 ∨ rd8 p 0 = 1 → k2 ≤ 4094 →
              let shadow := decide (rd8 p 0 = 1)
              let b := if shadow then s.shadowBank else s.activeBank
              let e := b.entry k2
              let t := s.table
              exec .readStream s
                = .next
                  (s.respond r .ok
                    ([on (Bool.xor shadow t.active),
                        on (markOf t.touched k2) + 2 * on t.queuesTouched + 4 * on t.globalTouched]
                      ++ ([1, on e.rxEnable] ++ be16n k2 ++ [on e.txEnable, mask e.rxMask, mask e.txMask, byteOf e.window]
                        ++ be16n e.holdTime ++ [byteOf e.asmLimit, on e.checkEnable] ++ be16n e.maxLen
                        ++ [queue e.queue, 0])
                      ++ be16n b.capacities.q0 ++ be16n b.capacities.q1 ++ be16n b.capacities.q2
                      ++ be16n b.capacities.q3
                      ++ ([3, 0] ++ be16n b.glob.ceiling
                        ++ [byteOf b.glob.staleThreshold, on b.glob.rxEnableA, on b.glob.txEnableA,
                          on b.glob.rxEnableB, on b.glob.txEnableB, byteOf b.glob.idleTimeout,
                          policy b.glob.backbonePolicy, policy b.glob.localPolicy, 0, 0, 0, 0])))))
        ∧ (s.executes r .readMergeState → 4094 < k0 → exec .readMergeState s = .next (s.respond r .badStream []))
        ∧ (s.executes r .readMergeState → k0 ≤ 4094 →
          exec .readMergeState s = .next (hold (.mergeState (s.mrec k0) (markOf s.merge.pendingFlush k0))))
        ∧ (∀ (record : MergeRec) (marked : Bool), reads (.mergeState record marked) →
          let sync : List Byte := match record.sync with | some e => be16n e.toNat | none => [0, 0]
          let answer := fun (x : Byte) (gathered declared : Nat) =>
            exec .readMergeState s
              = .next
                (s.respond r .ok
                  ([on record.sync.isSome, on marked] ++ sync ++ [byteOf record.staleRun, byteOf record.held.length, x, 0]
                    ++ be16n gathered ++ be16n declared
                    ++ record.held.flatMap (fun h => be16n h.slice.seq.toNat)))
          (∀ c, s.ctxOf k0 = some c → answer 1 c.gathered c.declared)
            ∧ (s.ctxOf k0 = none → markOf s.engine.discarding k0 = true → answer 2 0 0)
            ∧ (s.ctxOf k0 = none → markOf s.engine.discarding k0 = false → answer 0 0 0))
        ∧ (s.executes r .readCounters →
          let lane : LaneCounters → List Counter := fun c =>
            [c.good, c.badHeader, c.malformed, c.alignLoss, c.won, c.sent, c.overrun]
          let g := s.stats.glob
          (rd8 p 0 = 2 →
              exec .readCounters s
                = .next
                  (s.respond r .ok
                    ((lane s.stats.laneA ++ lane s.stats.laneB
                      ++ [g.streamDisabled, g.laneFiltered, g.duplicate, g.stale, g.noHoldEntry, g.noBuffer, g.orphan,
                        g.gap, g.truncated, g.oversize, g.badDeclared, g.lengthMismatch, g.checkFailed, g.stall,
                        g.noContext, g.queueFull, g.flushed, g.reconfigured, g.resync, g.resyncEvents, g.mgmtDropped,
                        g.mgmtOversize, g.probeStray, g.txBadStream, g.txDisabled, g.txOversize,
                        g.idleTimeouts]).flatMap be32)))
            ∧ (rd8 p 0 ≠ 1 → rd8 p 0 ≠ 2 → exec .readCounters s = .next (s.respond r .badRequest []))
            ∧ (rd8 p 0 = 1 → 4094 < k2 → exec .readCounters s = .next (s.respond r .badStream []))
            ∧ (rd8 p 0 = 1 → k2 ≤ 4094 → n = 0 ∨ 32 < n →
              exec .readCounters s = .next (s.respond r .badRequest []))
            ∧ (rd8 p 0 = 1 → k2 ≤ 4094 → 1 ≤ n → n ≤ 32 → 4094 < k2 + n - 1 →
              exec .readCounters s = .next (s.respond r .badStream []))
            ∧ (rd8 p 0 = 1 → k2 ≤ 4094 → 1 ≤ n → n ≤ 32 → k2 + n - 1 ≤ 4094 →
              exec .readCounters s
                = .next
                  (s.respond r .ok
                    (be16n k2 ++ be16n n
                      ++ (List.range n).flatMap (fun i =>
                        let c := s.stats.stream (k2 + i)
                        be32 c.passed ++ be32 c.duplicates ++ be32 c.delivered ++ be32 c.abandoned)))))
        ∧ (s.executes r .readLog →
          (31 < k0 → exec .readLog s = .next (s.respond r .badRequest []))
            ∧ (k0 ≤ 31 →
              exec .readLog s
                = .next
                  (s.respond r .ok
                    ([byteOf s.stats.log.length, byteOf ((s.stats.log.drop k0).take 8).length]
                      ++ be16 s.stats.overwrites ++ ((s.stats.log.drop k0).take 8).flatMap (fun e =>
                        be32 e.time ++ be16n e.stream ++ be16n e.seq.toNat ++ be16n e.gathered
                          ++ [reason e.reason, 16 * state e.laneA + state e.laneB])))))

/-- R142 and R144: RESTART tells each of the seven parts once; each done report is struck off, and after the seventh the
response OK with no data is produced. -/
def Obligations.RestartTellsSevenParts : Prop :=
  (∀ (s : State) (r : Request), s.executes r .restart →
      exec .restart s
        = .next
          { s with
            mgmt :=
              { s.mgmt with
                executor := .restarting r [.laneA, .laneB, .merge, .reassembly, .delivery, .submission, .slicer] } })
    ∧ ∀ (s : State) (r : Request) (todo : List Part) (p : Part), s.mgmt.executor = .restarting r todo →
      todo.Nodup → p ∈ todo →
      (todo = [p] → s.partDone p = s.respond r .ok [])
        ∧ (todo ≠ [p] → ∃ left : List Part,
          s.partDone p = { s with mgmt := { s.mgmt with executor := .restarting r left } }
            ∧ left ≠ [] ∧ left.Nodup ∧ ∀ q, q ∈ left ↔ q ∈ todo ∧ q ≠ p)

/-! ## Loading and committing (chapter 9) -/

/-- R148, R149, R147 and R161: LOAD_OPEN checks the mode, the count and the session, and holds the executor while the shadow
is prepared; then the session is created with the next number, and the shadow is at the defaults with every mark set or a
copy of the active bank with every mark clear. That LOAD_OPEN leaves the shadow and the marks as they were and
LOAD_OPEN_PREPARED writes them in one step is the model's choice, log 19. -/
def Obligations.LoadOpenCreatesASession : Prop :=
  (∀ (s : State) (r : Request), s.executes r .loadOpen →
      let p := reqParams r.bytes
      let count := (rd16 p 2).toNat
      let fits := 1 ≤ count ∧ count ≤ 8192
      (rd8 p 0 ≠ 1 → rd8 p 0 ≠ 2 → exec .loadOpen s = .next (s.respond r .badRequest []))
        ∧ ∀ mode, (rd8 p 0 = 1 ∧ mode = .clean) ∨ (rd8 p 0 = 2 ∧ mode = .copy) →
          (¬ fits → exec .loadOpen s = .next (s.respond r .badRequest []))
            ∧ (∀ x, fits → s.mgmt.session = some x → x.idle ≠ none →
              exec .loadOpen s
                = .next
                  (s.respond r .sessionOpen
                    ([match x.owner with | .backbone => (1 : Byte) | .localPort => 2, 0] ++ be16 x.number)))
            ∧ (fits → (∀ x, s.mgmt.session = some x → x.idle = none) →
              exec .loadOpen s
                = .next { s with mgmt := { s.mgmt with executor := .preparing r mode count (rd32 p 4) } }))
    ∧ ∀ (s : State) (r : Request) (mode : OpenMode) (count : Nat) (check : Word32), s.inReset = false →
      s.mgmt.executor = .preparing r mode count check →
      let number : Half := if s.mgmt.sessionCounter = 65535 then 1 else s.mgmt.sessionCounter + 1
      let x : Session :=
        { number := number, owner := r.source, mode := mode, declared := count, declaredCheck := check, next := 0
          running := 0, idle := some ⟨s.time, s.time + BitVec.ofNat 32 (s.glob.idleTimeout * 100000)⟩ }
      ∃ table : Table,
        exec .loadOpenPrepared s
            = .next
              (State.respond { s with table := table, mgmt := { s.mgmt with session := some x, sessionCounter := number } }
                r .ok (be16 number))
          ∧ table
            = { table with
                active := s.table.active, generation := s.table.generation, lastCommitted := s.table.lastCommitted
                bank0 := if s.table.active = true then table.bank0 else s.table.bank0
                bank1 := if s.table.active = true then s.table.bank1 else table.bank1 }
          ∧ (mode = .clean →
            table.shadow = Bank.dflt ∧ (∀ k < 4095, markOf table.touched k = true) ∧ table.queuesTouched = true
              ∧ table.globalTouched = true)
          ∧ (mode = .copy →
            table.shadow = s.activeBank ∧ (∀ k, markOf table.touched k = false) ∧ table.queuesTouched = false
              ∧ table.globalTouched = false)

/-- R151 to R155 and R161: a batch at the next index whose records all pass is written to the shadow in order with their marks
set, its words join the running check, the next index advances and the idle deadline is restarted. A record writes one
whole item and nothing else. The records of a batch are its 16-byte pieces in order. -/
def Obligations.LoadRecordsWritesTheShadow : Prop :=
  (∀ (s : State) (r : Request) (x : Session) (recs : List LoadRec), s.executes r .loadRecords →
      let p := reqParams r.bytes
      let first := (rd16 p 2).toNat
      let count := (rd16 p 4).toNat
      let raw := splitRecords count (p.drop 8)
      8 ≤ p.length → 1 ≤ count → count ≤ 32 → reqLength r.bytes = 8 + 16 * count →
      s.hasOpenSession r.source (rd16 p 0) x → first = x.next → first + count ≤ x.declared →
      judgeBatch 0 raw = .ok recs →
      exec .loadRecords s
        = .next
          (State.respond
            { s with
              table := s.table.writeRecs recs
              mgmt :=
                { s.mgmt with
                  session :=
                    some
                      { x with
                        next := x.next + count
                        running :=
                          x.running + (raw.map (fun r => rd32 r 0 + rd32 r 4 + rd32 r 8 + rd32 r 12)).sum
                        idle := some ⟨s.time, s.time + BitVec.ofNat 32 (s.glob.idleTimeout * 100000)⟩ } } }
            r .ok (be16n (x.next + count))))
    ∧ (∀ (count : Nat) (bytes : List Byte), (splitRecords count bytes).length = count
      ∧ ∀ i < count, (splitRecords count bytes)[i]? = some ((bytes.drop (16 * i)).take 16))
    ∧ (∀ t : Table, t.writeRecs [] = t)
    ∧ ∀ (t : Table) (xs : List LoadRec) (x : LoadRec),
      let u := t.writeRecs xs
      let v := t.writeRecs (xs ++ [x])
      v = { v with
            active := u.active, generation := u.generation, lastCommitted := u.lastCommitted
            bank0 := if u.active = true then v.bank0 else u.bank0
            bank1 := if u.active = true then u.bank1 else v.bank1 }
        ∧ (∀ k e, x = .stream k e →
          (∀ j, v.shadow.entry j = if j = k then e else u.shadow.entry j)
            ∧ v.shadow.capacities = u.shadow.capacities ∧ v.shadow.glob = u.shadow.glob
            ∧ (∀ j < 4095, markOf v.touched j = (decide (j = k) || markOf u.touched j))
            ∧ v.queuesTouched = u.queuesTouched ∧ v.globalTouched = u.globalTouched)
        ∧ (∀ q capacity, x = .queue q capacity →
          v.shadow.entries = u.shadow.entries ∧ v.shadow.glob = u.shadow.glob
            ∧ (∀ q', v.shadow.capacities.get q' = if q' = q then capacity else u.shadow.capacities.get q')
            ∧ v.touched = u.touched ∧ v.queuesTouched = true ∧ v.globalTouched = u.globalTouched)
        ∧ (∀ g, x = .glob g →
          v.shadow = { u.shadow with glob := g } ∧ v.touched = u.touched ∧ v.queuesTouched = u.queuesTouched
            ∧ v.globalTouched = true)

/-- R150, R151, R153 and R191: which LOAD_RECORDS are refused, in the order of the checks; nothing changes, but for the idle
deadline of a batch already loaded. A record's checks are made in the order of R153's table on its bytes of R191: the first
that fails gives the offset reported, and with none failing the record writes the item its bytes describe. A batch reports
its first failing record. -/
def Obligations.LoadRecordsRefusals : Prop :=
  (∀ b : List Byte,
      let k := (rd16 b 2).toNat % 4096
      let v : Nat → Nat := fun i => (rd8 b i).toNat
      let w : Nat → Nat := fun i => (rd16 b i).toNat
      let flag : Nat → Bool × Nat := fun i => (decide (1 < v i), i)
      let mask : Nat → Bool × Nat := fun i => (decide (v i = 0 ∨ 3 < v i), i)
      let range : Nat → Nat → Nat → Nat → Bool × Nat := fun x lo hi i => (decide (x < lo ∨ hi < x), i)
      let checks : List (Bool × Nat) :=
        if v 0 = 1 then
          [ (decide (k = 4095), 2), flag 1, flag 4, flag 11, mask 5, mask 6, range (v 7) 1 32 7, range (w 8) 1 1023 8,
            range (v 10) 1 255 10, range (w 12) 1 4096 12, (decide (3 < v 14), 14), (decide (k = 0 ∧ v 1 = 0), 1),
            (decide (k = 0 ∧ (w 12 < 640 ∨ 1024 < w 12)), 12),
            (decide (k = 4094 ∧ (w 12 < 1 ∨ 1024 < w 12)), 12) ]
        else if v 0 = 2 then [ (decide (3 < v 1), 1), range (w 2) 1 256 2 ]
        else if v 0 = 3 then
          [ range (w 2) 512 4032 2, range (v 4) 4 64 4, flag 5, flag 6, flag 7, flag 8, range (v 9) 1 100 9, flag 10,
            flag 11, (decide (v 10 = 1 ∧ v 11 = 1), 10) ]
        else [(true, 0)]
      let on : Nat → Bool := fun i => decide (v i = 1)
      let lanes : Nat → LaneMask := fun i => if v i = 1 then .onlyA else if v i = 2 then .onlyB else .both
      let queue : Nat → QueueId := fun i =>
        if v i = 1 then .dq1 else if v i = 2 then .dq2 else if v i = 3 then .dq3 else .dq0
      (∀ (i off : Nat), checks[i]? = some (true, off) → (∀ j < i, ∃ o, checks[j]? = some (false, o)) →
          judgeRecord b = .error off)
        ∧ ((∀ c ∈ checks, c.1 = false) →
          (v 0 = 1 →
              judgeRecord b
                = .ok
                  (.stream k
                    { rxEnable := on 1, txEnable := on 4, rxMask := lanes 5, txMask := lanes 6, window := v 7
                      holdTime := w 8, asmLimit := v 10, maxLen := w 12, checkEnable := on 11, queue := queue 14 }))
            ∧ (v 0 = 2 → judgeRecord b = .ok (.queue (queue 1) (w 2)))
            ∧ (v 0 = 3 →
              judgeRecord b
                = .ok
                  (.glob
                    { ceiling := w 2, staleThreshold := v 4, rxEnableA := on 5, txEnableA := on 6, rxEnableB := on 7
                      txEnableB := on 8, idleTimeout := v 9
                      backbonePolicy := if v 10 = 0 then .full else .readOnly
                      localPolicy := if v 11 = 0 then .full else .readOnly }))))
    ∧ (∀ i, judgeBatch i [] = .ok [])
    ∧ (∀ (i : Nat) (b : List Byte) (bs : List (List Byte)),
      (∀ off, judgeRecord b = .error off → judgeBatch i (b :: bs) = .error (i, off))
        ∧ ∀ x, judgeRecord b = .ok x →
          (∀ e, judgeBatch (i + 1) bs = .error e → judgeBatch i (b :: bs) = .error e)
            ∧ ∀ xs, judgeBatch (i + 1) bs = .ok xs → judgeBatch i (b :: bs) = .ok (x :: xs))
    ∧ ∀ (s : State) (r : Request), s.executes r .loadRecords →
    let p := reqParams r.bytes
    let first := (rd16 p 2).toNat
    let count := (rd16 p 4).toNat
    let number := rd16 p 0
    let answer := fun (status : Status) (data : List Byte) => exec .loadRecords s = .next (s.respond r status data)
    let fits := 8 ≤ p.length ∧ 1 ≤ count ∧ count ≤ 32 ∧ reqLength r.bytes = 8 + 16 * count
    (¬ fits → answer .badRequest [])
      ∧ (fits → (s.mgmt.session = none ∨ ∃ x, s.mgmt.session = some x ∧ x.idle = none) → answer .noSession [])
      ∧ (∀ x, fits → s.mgmt.session = some x → x.idle ≠ none → x.number ≠ number → answer .wrongSession [])
      ∧ (∀ x, fits → s.mgmt.session = some x → x.idle ≠ none → x.number = number → x.owner ≠ r.source →
        answer .sessionOwned [])
      ∧ ∀ x, fits → s.hasOpenSession r.source number x →
        (x.declared < first + count → answer .badRequest [])
          ∧ (first + count ≤ x.declared → first + count ≤ x.next →
            exec .loadRecords s
              = .next
                (State.respond
                  { s with
                    mgmt :=
                      { s.mgmt with
                        session :=
                          some
                            { x with
                              idle := some ⟨s.time, s.time + BitVec.ofNat 32 (s.glob.idleTimeout * 100000)⟩ } } }
                  r .alreadyLoaded (be16n x.next)))
          ∧ (first + count ≤ x.declared → x.next < first + count → first ≠ x.next →
            answer .outOfOrder (be16n x.next))
          ∧ (first + count ≤ x.declared → first = x.next →
            ∀ i off, judgeBatch 0 (splitRecords count (p.drop 8)) = .error (i, off) →
              answer .badRecord [byteOf i, byteOf off])

/-- R156, R157, R9, R18 and R51: what LOAD_COMMIT is refused for, in order, and the commit swap: the pointer moves, the
generation and the last committed number advance, touched streams are marked, the session is COMMITTING, each lane compares
its receive enable, and the sweep over the touched streams, in ascending order, holds the executor. A sweep over an empty
list ends at once, with the commit (R158). A search that a swap starts begins at the first byte received after it, and no
block that was not tested before a change is tested. -/
def Obligations.LoadCommitSwapsTheBanks : Prop :=
  ∀ (s : State) (r : Request), s.executes r .loadCommit →
    let number := rd16 (reqParams r.bytes) 0
    let again := s.mgmt.session = none ∧ number ≠ 0 ∧ number = s.table.lastCommitted
    let answer := fun (status : Status) (data : List Byte) => exec .loadCommit s = .next (s.respond r status data)
    (again → answer .alreadyCommitted [])
      ∧ (¬ again → (s.mgmt.session = none ∨ ∃ x, s.mgmt.session = some x ∧ x.idle = none) → answer .noSession [])
      ∧ (∀ x, s.mgmt.session = some x → x.idle ≠ none → x.number ≠ number → answer .wrongSession [])
      ∧ (∀ x, s.mgmt.session = some x → x.idle ≠ none → x.number = number → x.owner ≠ r.source →
        answer .sessionOwned [])
      ∧ ∀ x, s.hasOpenSession r.source number x →
        (x.next ≠ x.declared → answer .countMismatch (be16n x.next ++ be16n x.declared))
          ∧ (x.next = x.declared → x.running ≠ x.declaredCheck →
            exec .loadCommit s
              = .next
                (State.respond { s with mgmt := { s.mgmt with session := none } } r .checkMismatch (be32 x.running)))
          ∧ (x.next = x.declared → x.running = x.declaredCheck →
            let list := markedStreams s.table.touched
            let swapped := fun (l : Lane) (before after : Bool) =>
              if before = true ∧ after = false then { l with rx := [], align := .disabled, confirm := 0, failRun := 0 }
              else if before = false ∧ after = true then
                { l with rx := [], align := if l.signal = true then .hunt else .down, confirm := 0, failRun := 0 }
              else l
            let t : State :=
              { s with
                table :=
                  { s.table with
                    active := !s.table.active
                    generation := if s.table.generation = 65535 then 1 else s.table.generation + 1
                    lastCommitted := x.number }
                merge := { s.merge with pendingFlush := s.merge.pendingFlush ||| s.table.touched }
                laneA := swapped s.laneA s.activeBank.glob.rxEnableA s.shadowBank.glob.rxEnableA
                laneB := swapped s.laneB s.activeBank.glob.rxEnableB s.shadowBank.glob.rxEnableB
                mgmt := { s.mgmt with session := some { x with idle := none } } }
            (list ≠ [] →
                exec .loadCommit s = .next { t with mgmt := { t.mgmt with executor := .sweeping r list list.length } })
              ∧ (list = [] →
                exec .loadCommit s
                  = .next
                    (State.respond
                      { t with
                        table := { t.table with touched := 0, queuesTouched := false, globalTouched := false }
                        mgmt := { t.mgmt with session := none } }
                      r .ok [if s.table.active = true then 0 else 1, 0, 0, 0]))
              ∧ (∀ k, k ∈ list ↔ k < 4095 ∧ markOf s.table.touched k = true) ∧ list.Pairwise (· < ·))

/-- R160 and R162: an OPEN session ends without a commit by its owner's LOAD_ABORT, or at its idle deadline, which is
counted; the shadow bank and the marks stay. That LOAD_IDLE_TIMEOUT changes nothing before the deadline is the model's
choice, log 2. -/
def Obligations.SessionEndsWithoutCommit : Prop :=
  (∀ (s : State) (r : Request), s.executes r .loadAbort →
      let number := rd16 (reqParams r.bytes) 0
      let answer := fun (status : Status) => exec .loadAbort s = .next (s.respond r status [])
      ((s.mgmt.session = none ∨ ∃ x, s.mgmt.session = some x ∧ x.idle = none) → answer .noSession)
        ∧ (∀ x, s.mgmt.session = some x → x.idle ≠ none → x.number ≠ number → answer .wrongSession)
        ∧ (∀ x, s.mgmt.session = some x → x.idle ≠ none → x.number = number → x.owner ≠ r.source →
          answer .sessionOwned)
        ∧ ∀ x, s.hasOpenSession r.source number x →
          exec .loadAbort s
            = .next (State.respond { s with mgmt := { s.mgmt with session := none } } r .ok (be16n x.next)))
    ∧ ∀ (s : State) (x : Session) (d : Deadline), s.inReset = false → s.mgmt.session = some x → x.idle = some d →
      ((d.due - d.since).toNat ≤ (s.time - d.since).toNat →
          exec .loadIdleTimeout s
            = .next
              { s with
                mgmt := { s.mgmt with session := none }
                stats :=
                  { s.stats with
                    glob := { s.stats.glob with idleTimeouts := satInc s.stats.glob.idleTimeouts } } })
        ∧ ((s.time - d.since).toNat < (d.due - d.since).toNat → exec .loadIdleTimeout s = .next s)

/-! ## Probes (chapter 10) -/

/-- R168 and R169: PROBE checks the length, stream 4094's enables and its maximum length; else stream 4094 is flushed, the
engine has nothing of the stream left (log 9), and the message of bytes (seed + k) mod 256 joins the outputs with the probe
SENDING. R173: at its deadline an awaiting probe ends as FAIL TIMEOUT, which is not counted. That PROBE_TIMEOUT changes
nothing before the deadline is the model's choice, log 2. -/
def Obligations.ProbeStartsAndTimesOut : Prop :=
  (∀ (s : State) (r : Request), s.executes r .probe → s.oneContextEach →
      let p := reqParams r.bytes
      let length := (rd16 p 0).toNat
      let seed := rd8 p 2
      let e := s.entry 4094
      let fits := 1 ≤ length ∧ length ≤ 1024
      (¬ fits → exec .probe s = .next (s.respond r .badRequest []))
        ∧ (fits → e.rxEnable = false ∨ e.txEnable = false → exec .probe s = .next (s.respond r .notEnabled []))
        ∧ (fits → e.rxEnable = true → e.txEnable = true → e.maxLen < length →
          exec .probe s = .next (s.respond r .badRequest []))
        ∧ (fits → e.rxEnable = true → e.txEnable = true → length ≤ e.maxLen →
          ∃ (t : State) (msg : List Byte),
            exec .probe s = .next t
              ∧ msg.length = length ∧ (∀ k < length, msg[k]? = some (seed + BitVec.ofNat 8 k))
              ∧ t.slicer = { s.slicer with outputs := s.slicer.outputs ++ [.probe msg] }
              ∧ t.mgmt.executor
                = .probing r { length := length, buffer := msg, start := s.time, await := none }
              ∧ t.mrec 4094 = { sync := none, held := [], timer := none, staleRun := 0 }
              ∧ (∀ k, k ≠ 4094 → t.mrec k = s.mrec k)
              ∧ markOf t.merge.pendingFlush 4094 = false
              ∧ t.asmState 4094 = .idle ∧ t.nextItem 4094 = none
              ∧ t.table = s.table ∧ t.delivery = s.delivery ∧ t.sub = s.sub ∧ t.time = s.time
              ∧ t.laneA = s.laneA ∧ t.laneB = s.laneB))
    ∧ ∀ (s : State) (r : Request) (p : ProbeRec) (slices : Nat) (d : Deadline), s.inReset = false →
      s.mgmt.executor = .probing r p → p.await = some (slices, d) →
      ((d.due - d.since).toNat ≤ (s.time - d.since).toNat →
          exec .probeTimeout s
            = .next
              (s.respond r .ok
                ([3, 13] ++ be16n p.length ++ [0, 0, 0, 0] ++ [byteOf slices, 0] ++ be32 (s.time - p.start))))
        ∧ ((s.time - d.since).toNat < (d.due - d.since).toNat → exec .probeTimeout s = .next s)

/-! ## Counters and the abandon log (chapter 11) -/

/-- R180 and R185: CLEAR_COUNTERS answers the counters in scope as they stood and sets them, and no others, to 0; CLEAR_LOG
answers the two counts as they stood and empties the log; neither touches the other. -/
def Obligations.ClearsReturnWhatTheyClear : Prop :=
  (∀ (s : State) (r : Request), s.executes r .clearCounters →
      let p := reqParams r.bytes
      let first := (rd16 p 2).toNat
      let n := (rd16 p 4).toNat
      (rd8 p 0 = 2 →
          exec .clearCounters s
            = .next
              (State.respond
                { s with
                  stats :=
                    { s.stats with
                      laneA := ⟨0, 0, 0, 0, 0, 0, 0⟩, laneB := ⟨0, 0, 0, 0, 0, 0, 0⟩, glob := Globals.zero } }
                r .ok (s.stats.scopeData .lanesGlobal)))
        ∧ (rd8 p 0 = 1 → 1 ≤ n → n ≤ 32 → first + n ≤ 4095 →
          ∃ stats : Stats,
            exec .clearCounters s
                = .next (State.respond { s with stats := stats } r .ok (s.stats.scopeData (.streams first n)))
              ∧ stats = { s.stats with streams := stats.streams }
              ∧ ∀ k, stats.stream k = if first ≤ k ∧ k < first + n then ⟨0, 0, 0, 0⟩ else s.stats.stream k)
        ∧ (rd8 p 0 ≠ 1 → rd8 p 0 ≠ 2 → exec .clearCounters s = .next (s.respond r .badRequest []))
        ∧ (rd8 p 0 = 1 → 4094 < first → exec .clearCounters s = .next (s.respond r .badStream []))
        ∧ (rd8 p 0 = 1 → first ≤ 4094 → n = 0 ∨ 32 < n → exec .clearCounters s = .next (s.respond r .badRequest []))
        ∧ (rd8 p 0 = 1 → first ≤ 4094 → 1 ≤ n → n ≤ 32 → 4095 < first + n →
          exec .clearCounters s = .next (s.respond r .badStream [])))
    ∧ ∀ (s : State) (r : Request), s.executes r .clearLog →
      exec .clearLog s
        = .next
          (State.respond { s with stats := { s.stats with log := [], overwrites := 0 } } r .ok
            ([byteOf s.stats.log.length, 0] ++ be16 s.stats.overwrites))

/-! ## Invariants, and whole-part rules -/

/-- R17, R18, R31 and R142: only LOAD_COMMIT and a release of the reset pin move the active-bank pointer, the generation and the
last committed session number, and no command but those writes the active bank. -/
def Obligations.OnlyACommitChangesTheActiveBank : Prop :=
  ∀ (c : Instr) (s t : State), exec c s = .next t → c ≠ .loadCommit → c ≠ .hardReset → c ≠ .powerOn →
    t.table.active = s.table.active ∧ t.table.generation = s.table.generation
      ∧ t.table.lastCommitted = s.table.lastCommitted ∧ t.activeBank = s.activeBank

/-- The invariants below hold after reset. -/
def Obligations.InvariantsHoldAtReset : Prop :=
  State.reset.blocksAccounted ∧ State.reset.buffersAccounted ∧ State.reset.withinCapacities
    ∧ State.reset.oneContextEach ∧ State.reset.portOnCourse ∧ State.reset.windowsKept ∧ State.reset.banksInRange

/-- R80, R84 and R86: every step keeps the three counts' sum at 4096 and each held count equal to what its side's holders hold.
-/
def Obligations.EveryStepAccountsForBlocks : Prop :=
  ∀ s t : State, s.blocksAccounted → step s = .next t → t.blocksAccounted

/-- R126: every step keeps each source's response buffers in use those of the request executing and of the responses that wait
or leave, at most two, and each share to requests of its own source (R123, R124). -/
def Obligations.EveryStepAccountsForBuffers : Prop :=
  ∀ s t : State, s.buffersAccounted → step s = .next t → t.buffersAccounted

/-- R4, R12, R32, R33, R59, R91, R94, R100, R102, R107, R108, R123, R124 and R182: every step keeps each table and queue of
fixed size within it, with the banks in range and the response buffers accounted for, which are invariants of their own.
No two contexts are bound to one stream (R59), and the bytes presented of a delivery in transfer stay its first ones (R96,
with the pace of log 18). -/
def Obligations.EveryStepKeepsCapacities : Prop :=
  ∀ s t : State, step s = .next t →
    (s.banksInRange → s.buffersAccounted → s.withinCapacities → t.withinCapacities)
      ∧ (s.oneContextEach → t.oneContextEach)
      ∧ (s.portOnCourse → t.portOnCourse)

/-- R34, R29 and R51: every step keeps every held slice of an unmarked stream 1..W−1 ahead of E, in order and with no sequence
twice. -/
def Obligations.EveryStepKeepsTheWindow : Prop :=
  ∀ s t : State, s.windowsKept → step s = .next t → t.windowsKept

/-- R20, R22, R23 and R24: every step keeps every item of both banks in its range, stream 0 receive-enabled, and at least one
source at FULL policy in each. -/
def Obligations.EveryStepKeepsTablesInRange : Prop :=
  ∀ s t : State, s.banksInRange → step s = .next t → t.banksInRange

end
end

