-- ==== Sys2Proof/Laws/State.lean ====
section
/-! SUPPORT. One lemma per field for each update of State: what an operation leaves unchanged, and what it writes. -/

namespace Sys2Proof.Machine

/-! ## setLane -/

@[simp] theorem State.setLane_inReset (s : State) (l : LaneId) (x : Lane) : (s.setLane l x).inReset = s.inReset := by cases l <;> rfl

@[simp] theorem State.setLane_time (s : State) (l : LaneId) (x : Lane) : (s.setLane l x).time = s.time := by cases l <;> rfl

@[simp] theorem State.setLane_merge (s : State) (l : LaneId) (x : Lane) : (s.setLane l x).merge = s.merge := by cases l <;> rfl

@[simp] theorem State.setLane_engine (s : State) (l : LaneId) (x : Lane) : (s.setLane l x).engine = s.engine := by cases l <;> rfl

@[simp] theorem State.setLane_pool (s : State) (l : LaneId) (x : Lane) : (s.setLane l x).pool = s.pool := by cases l <;> rfl

@[simp] theorem State.setLane_delivery (s : State) (l : LaneId) (x : Lane) : (s.setLane l x).delivery = s.delivery := by cases l <;> rfl

@[simp] theorem State.setLane_sub (s : State) (l : LaneId) (x : Lane) : (s.setLane l x).sub = s.sub := by cases l <;> rfl

@[simp] theorem State.setLane_slicer (s : State) (l : LaneId) (x : Lane) : (s.setLane l x).slicer = s.slicer := by cases l <;> rfl

@[simp] theorem State.setLane_table (s : State) (l : LaneId) (x : Lane) : (s.setLane l x).table = s.table := by cases l <;> rfl

@[simp] theorem State.setLane_mgmt (s : State) (l : LaneId) (x : Lane) : (s.setLane l x).mgmt = s.mgmt := by cases l <;> rfl

@[simp] theorem State.setLane_stats (s : State) (l : LaneId) (x : Lane) : (s.setLane l x).stats = s.stats := by cases l <;> rfl

@[simp] theorem State.setLane_pending (s : State) (l : LaneId) (x : Lane) : (s.setLane l x).pending = s.pending := by cases l <;> rfl

/-! ## report -/

@[simp] theorem State.report_inReset (s : State) (f : Stats → Stats) : (s.report f).inReset = s.inReset := rfl

@[simp] theorem State.report_time (s : State) (f : Stats → Stats) : (s.report f).time = s.time := rfl

@[simp] theorem State.report_laneA (s : State) (f : Stats → Stats) : (s.report f).laneA = s.laneA := rfl

@[simp] theorem State.report_laneB (s : State) (f : Stats → Stats) : (s.report f).laneB = s.laneB := rfl

@[simp] theorem State.report_merge (s : State) (f : Stats → Stats) : (s.report f).merge = s.merge := rfl

@[simp] theorem State.report_engine (s : State) (f : Stats → Stats) : (s.report f).engine = s.engine := rfl

@[simp] theorem State.report_pool (s : State) (f : Stats → Stats) : (s.report f).pool = s.pool := rfl

@[simp] theorem State.report_delivery (s : State) (f : Stats → Stats) : (s.report f).delivery = s.delivery := rfl

@[simp] theorem State.report_sub (s : State) (f : Stats → Stats) : (s.report f).sub = s.sub := rfl

@[simp] theorem State.report_slicer (s : State) (f : Stats → Stats) : (s.report f).slicer = s.slicer := rfl

@[simp] theorem State.report_table (s : State) (f : Stats → Stats) : (s.report f).table = s.table := rfl

@[simp] theorem State.report_mgmt (s : State) (f : Stats → Stats) : (s.report f).mgmt = s.mgmt := rfl

@[simp] theorem State.report_pending (s : State) (f : Stats → Stats) : (s.report f).pending = s.pending := rfl

/-! ## returnRx -/

@[simp] theorem State.returnRx_inReset (s : State) (n : Nat) : (s.returnRx n).inReset = s.inReset := rfl

@[simp] theorem State.returnRx_time (s : State) (n : Nat) : (s.returnRx n).time = s.time := rfl

@[simp] theorem State.returnRx_laneA (s : State) (n : Nat) : (s.returnRx n).laneA = s.laneA := rfl

@[simp] theorem State.returnRx_laneB (s : State) (n : Nat) : (s.returnRx n).laneB = s.laneB := rfl

@[simp] theorem State.returnRx_merge (s : State) (n : Nat) : (s.returnRx n).merge = s.merge := rfl

@[simp] theorem State.returnRx_engine (s : State) (n : Nat) : (s.returnRx n).engine = s.engine := rfl

@[simp] theorem State.returnRx_delivery (s : State) (n : Nat) : (s.returnRx n).delivery = s.delivery := rfl

@[simp] theorem State.returnRx_sub (s : State) (n : Nat) : (s.returnRx n).sub = s.sub := rfl

@[simp] theorem State.returnRx_slicer (s : State) (n : Nat) : (s.returnRx n).slicer = s.slicer := rfl

@[simp] theorem State.returnRx_table (s : State) (n : Nat) : (s.returnRx n).table = s.table := rfl

@[simp] theorem State.returnRx_mgmt (s : State) (n : Nat) : (s.returnRx n).mgmt = s.mgmt := rfl

@[simp] theorem State.returnRx_stats (s : State) (n : Nat) : (s.returnRx n).stats = s.stats := rfl

@[simp] theorem State.returnRx_pending (s : State) (n : Nat) : (s.returnRx n).pending = s.pending := rfl

/-! ## returnTx -/

@[simp] theorem State.returnTx_inReset (s : State) (n : Nat) : (s.returnTx n).inReset = s.inReset := rfl

@[simp] theorem State.returnTx_time (s : State) (n : Nat) : (s.returnTx n).time = s.time := rfl

@[simp] theorem State.returnTx_laneA (s : State) (n : Nat) : (s.returnTx n).laneA = s.laneA := rfl

@[simp] theorem State.returnTx_laneB (s : State) (n : Nat) : (s.returnTx n).laneB = s.laneB := rfl

@[simp] theorem State.returnTx_merge (s : State) (n : Nat) : (s.returnTx n).merge = s.merge := rfl

@[simp] theorem State.returnTx_engine (s : State) (n : Nat) : (s.returnTx n).engine = s.engine := rfl

@[simp] theorem State.returnTx_delivery (s : State) (n : Nat) : (s.returnTx n).delivery = s.delivery := rfl

@[simp] theorem State.returnTx_sub (s : State) (n : Nat) : (s.returnTx n).sub = s.sub := rfl

@[simp] theorem State.returnTx_slicer (s : State) (n : Nat) : (s.returnTx n).slicer = s.slicer := rfl

@[simp] theorem State.returnTx_table (s : State) (n : Nat) : (s.returnTx n).table = s.table := rfl

@[simp] theorem State.returnTx_mgmt (s : State) (n : Nat) : (s.returnTx n).mgmt = s.mgmt := rfl

@[simp] theorem State.returnTx_stats (s : State) (n : Nat) : (s.returnTx n).stats = s.stats := rfl

@[simp] theorem State.returnTx_pending (s : State) (n : Nat) : (s.returnTx n).pending = s.pending := rfl

/-! ## setMrec -/

@[simp] theorem State.setMrec_inReset (s : State) (k : Nat) (r : MergeRec) : (s.setMrec k r).inReset = s.inReset := rfl

@[simp] theorem State.setMrec_time (s : State) (k : Nat) (r : MergeRec) : (s.setMrec k r).time = s.time := rfl

@[simp] theorem State.setMrec_laneA (s : State) (k : Nat) (r : MergeRec) : (s.setMrec k r).laneA = s.laneA := rfl

@[simp] theorem State.setMrec_laneB (s : State) (k : Nat) (r : MergeRec) : (s.setMrec k r).laneB = s.laneB := rfl

@[simp] theorem State.setMrec_engine (s : State) (k : Nat) (r : MergeRec) : (s.setMrec k r).engine = s.engine := rfl

@[simp] theorem State.setMrec_pool (s : State) (k : Nat) (r : MergeRec) : (s.setMrec k r).pool = s.pool := rfl

@[simp] theorem State.setMrec_delivery (s : State) (k : Nat) (r : MergeRec) : (s.setMrec k r).delivery = s.delivery := rfl

@[simp] theorem State.setMrec_sub (s : State) (k : Nat) (r : MergeRec) : (s.setMrec k r).sub = s.sub := rfl

@[simp] theorem State.setMrec_slicer (s : State) (k : Nat) (r : MergeRec) : (s.setMrec k r).slicer = s.slicer := rfl

@[simp] theorem State.setMrec_table (s : State) (k : Nat) (r : MergeRec) : (s.setMrec k r).table = s.table := rfl

@[simp] theorem State.setMrec_mgmt (s : State) (k : Nat) (r : MergeRec) : (s.setMrec k r).mgmt = s.mgmt := rfl

@[simp] theorem State.setMrec_stats (s : State) (k : Nat) (r : MergeRec) : (s.setMrec k r).stats = s.stats := rfl

@[simp] theorem State.setMrec_pending (s : State) (k : Nat) (r : MergeRec) : (s.setMrec k r).pending = s.pending := rfl

/-! ## send -/

@[simp] theorem State.send_inReset (s : State) (it : Item) : (s.send it).inReset = s.inReset := rfl

@[simp] theorem State.send_time (s : State) (it : Item) : (s.send it).time = s.time := rfl

@[simp] theorem State.send_laneA (s : State) (it : Item) : (s.send it).laneA = s.laneA := rfl

@[simp] theorem State.send_laneB (s : State) (it : Item) : (s.send it).laneB = s.laneB := rfl

@[simp] theorem State.send_merge (s : State) (it : Item) : (s.send it).merge = s.merge := rfl

@[simp] theorem State.send_pool (s : State) (it : Item) : (s.send it).pool = s.pool := rfl

@[simp] theorem State.send_delivery (s : State) (it : Item) : (s.send it).delivery = s.delivery := rfl

@[simp] theorem State.send_sub (s : State) (it : Item) : (s.send it).sub = s.sub := rfl

@[simp] theorem State.send_slicer (s : State) (it : Item) : (s.send it).slicer = s.slicer := rfl

@[simp] theorem State.send_table (s : State) (it : Item) : (s.send it).table = s.table := rfl

@[simp] theorem State.send_mgmt (s : State) (it : Item) : (s.send it).mgmt = s.mgmt := rfl

@[simp] theorem State.send_stats (s : State) (it : Item) : (s.send it).stats = s.stats := rfl

@[simp] theorem State.send_pending (s : State) (it : Item) : (s.send it).pending = s.pending := rfl

/-! ## passSlice -/

@[simp] theorem State.passSlice_inReset (s : State) (sl : Slice) (p : Path) (g : Bool) : (s.passSlice sl p g).inReset = s.inReset := rfl

@[simp] theorem State.passSlice_time (s : State) (sl : Slice) (p : Path) (g : Bool) : (s.passSlice sl p g).time = s.time := rfl

@[simp] theorem State.passSlice_laneA (s : State) (sl : Slice) (p : Path) (g : Bool) : (s.passSlice sl p g).laneA = s.laneA := rfl

@[simp] theorem State.passSlice_laneB (s : State) (sl : Slice) (p : Path) (g : Bool) : (s.passSlice sl p g).laneB = s.laneB := rfl

@[simp] theorem State.passSlice_merge (s : State) (sl : Slice) (p : Path) (g : Bool) : (s.passSlice sl p g).merge = s.merge := rfl

@[simp] theorem State.passSlice_pool (s : State) (sl : Slice) (p : Path) (g : Bool) : (s.passSlice sl p g).pool = s.pool := rfl

@[simp] theorem State.passSlice_delivery (s : State) (sl : Slice) (p : Path) (g : Bool) : (s.passSlice sl p g).delivery = s.delivery := rfl

@[simp] theorem State.passSlice_sub (s : State) (sl : Slice) (p : Path) (g : Bool) : (s.passSlice sl p g).sub = s.sub := rfl

@[simp] theorem State.passSlice_slicer (s : State) (sl : Slice) (p : Path) (g : Bool) : (s.passSlice sl p g).slicer = s.slicer := rfl

@[simp] theorem State.passSlice_table (s : State) (sl : Slice) (p : Path) (g : Bool) : (s.passSlice sl p g).table = s.table := rfl

@[simp] theorem State.passSlice_mgmt (s : State) (sl : Slice) (p : Path) (g : Bool) : (s.passSlice sl p g).mgmt = s.mgmt := rfl

@[simp] theorem State.passSlice_pending (s : State) (sl : Slice) (p : Path) (g : Bool) : (s.passSlice sl p g).pending = s.pending := rfl

/-! ## discardSlice -/

@[simp] theorem State.discardSlice_inReset (s : State) (k : Nat) (r : DiscardReason) : (s.discardSlice k r).inReset = s.inReset := rfl

@[simp] theorem State.discardSlice_time (s : State) (k : Nat) (r : DiscardReason) : (s.discardSlice k r).time = s.time := rfl

@[simp] theorem State.discardSlice_laneA (s : State) (k : Nat) (r : DiscardReason) : (s.discardSlice k r).laneA = s.laneA := rfl

@[simp] theorem State.discardSlice_laneB (s : State) (k : Nat) (r : DiscardReason) : (s.discardSlice k r).laneB = s.laneB := rfl

@[simp] theorem State.discardSlice_merge (s : State) (k : Nat) (r : DiscardReason) : (s.discardSlice k r).merge = s.merge := rfl

@[simp] theorem State.discardSlice_engine (s : State) (k : Nat) (r : DiscardReason) : (s.discardSlice k r).engine = s.engine := rfl

@[simp] theorem State.discardSlice_pool (s : State) (k : Nat) (r : DiscardReason) : (s.discardSlice k r).pool = s.pool := rfl

@[simp] theorem State.discardSlice_delivery (s : State) (k : Nat) (r : DiscardReason) : (s.discardSlice k r).delivery = s.delivery := rfl

@[simp] theorem State.discardSlice_sub (s : State) (k : Nat) (r : DiscardReason) : (s.discardSlice k r).sub = s.sub := rfl

@[simp] theorem State.discardSlice_slicer (s : State) (k : Nat) (r : DiscardReason) : (s.discardSlice k r).slicer = s.slicer := rfl

@[simp] theorem State.discardSlice_table (s : State) (k : Nat) (r : DiscardReason) : (s.discardSlice k r).table = s.table := rfl

@[simp] theorem State.discardSlice_mgmt (s : State) (k : Nat) (r : DiscardReason) : (s.discardSlice k r).mgmt = s.mgmt := rfl

@[simp] theorem State.discardSlice_pending (s : State) (k : Nat) (r : DiscardReason) : (s.discardSlice k r).pending = s.pending := rfl

/-! ## flush -/

@[simp] theorem State.flush_inReset (s : State) (k : Nat) (r : AbandonReason) : (s.flush k r).inReset = s.inReset := rfl

@[simp] theorem State.flush_time (s : State) (k : Nat) (r : AbandonReason) : (s.flush k r).time = s.time := rfl

@[simp] theorem State.flush_laneA (s : State) (k : Nat) (r : AbandonReason) : (s.flush k r).laneA = s.laneA := rfl

@[simp] theorem State.flush_laneB (s : State) (k : Nat) (r : AbandonReason) : (s.flush k r).laneB = s.laneB := rfl

@[simp] theorem State.flush_delivery (s : State) (k : Nat) (r : AbandonReason) : (s.flush k r).delivery = s.delivery := rfl

@[simp] theorem State.flush_sub (s : State) (k : Nat) (r : AbandonReason) : (s.flush k r).sub = s.sub := rfl

@[simp] theorem State.flush_slicer (s : State) (k : Nat) (r : AbandonReason) : (s.flush k r).slicer = s.slicer := rfl

@[simp] theorem State.flush_table (s : State) (k : Nat) (r : AbandonReason) : (s.flush k r).table = s.table := rfl

@[simp] theorem State.flush_mgmt (s : State) (k : Nat) (r : AbandonReason) : (s.flush k r).mgmt = s.mgmt := rfl

@[simp] theorem State.flush_stats (s : State) (k : Nat) (r : AbandonReason) : (s.flush k r).stats = s.stats := rfl

@[simp] theorem State.flush_pending (s : State) (k : Nat) (r : AbandonReason) : (s.flush k r).pending = s.pending := rfl

/-! ## freeBuffer -/

@[simp] theorem State.freeBuffer_inReset (s : State) (src : Source) : (s.freeBuffer src).inReset = s.inReset := by cases src <;> rfl

@[simp] theorem State.freeBuffer_time (s : State) (src : Source) : (s.freeBuffer src).time = s.time := by cases src <;> rfl

@[simp] theorem State.freeBuffer_laneA (s : State) (src : Source) : (s.freeBuffer src).laneA = s.laneA := by cases src <;> rfl

@[simp] theorem State.freeBuffer_laneB (s : State) (src : Source) : (s.freeBuffer src).laneB = s.laneB := by cases src <;> rfl

@[simp] theorem State.freeBuffer_merge (s : State) (src : Source) : (s.freeBuffer src).merge = s.merge := by cases src <;> rfl

@[simp] theorem State.freeBuffer_engine (s : State) (src : Source) : (s.freeBuffer src).engine = s.engine := by cases src <;> rfl

@[simp] theorem State.freeBuffer_pool (s : State) (src : Source) : (s.freeBuffer src).pool = s.pool := by cases src <;> rfl

@[simp] theorem State.freeBuffer_delivery (s : State) (src : Source) : (s.freeBuffer src).delivery = s.delivery := by cases src <;> rfl

@[simp] theorem State.freeBuffer_sub (s : State) (src : Source) : (s.freeBuffer src).sub = s.sub := by cases src <;> rfl

@[simp] theorem State.freeBuffer_slicer (s : State) (src : Source) : (s.freeBuffer src).slicer = s.slicer := by cases src <;> rfl

@[simp] theorem State.freeBuffer_table (s : State) (src : Source) : (s.freeBuffer src).table = s.table := by cases src <;> rfl

@[simp] theorem State.freeBuffer_stats (s : State) (src : Source) : (s.freeBuffer src).stats = s.stats := by cases src <;> rfl

@[simp] theorem State.freeBuffer_pending (s : State) (src : Source) : (s.freeBuffer src).pending = s.pending := by cases src <;> rfl

/-! ## freeCtx -/

@[simp] theorem State.freeCtx_inReset (s : State) (k : Nat) : (s.freeCtx k).inReset = s.inReset := rfl

@[simp] theorem State.freeCtx_time (s : State) (k : Nat) : (s.freeCtx k).time = s.time := rfl

@[simp] theorem State.freeCtx_laneA (s : State) (k : Nat) : (s.freeCtx k).laneA = s.laneA := rfl

@[simp] theorem State.freeCtx_laneB (s : State) (k : Nat) : (s.freeCtx k).laneB = s.laneB := rfl

@[simp] theorem State.freeCtx_merge (s : State) (k : Nat) : (s.freeCtx k).merge = s.merge := rfl

@[simp] theorem State.freeCtx_pool (s : State) (k : Nat) : (s.freeCtx k).pool = s.pool := rfl

@[simp] theorem State.freeCtx_delivery (s : State) (k : Nat) : (s.freeCtx k).delivery = s.delivery := rfl

@[simp] theorem State.freeCtx_sub (s : State) (k : Nat) : (s.freeCtx k).sub = s.sub := rfl

@[simp] theorem State.freeCtx_slicer (s : State) (k : Nat) : (s.freeCtx k).slicer = s.slicer := rfl

@[simp] theorem State.freeCtx_table (s : State) (k : Nat) : (s.freeCtx k).table = s.table := rfl

@[simp] theorem State.freeCtx_mgmt (s : State) (k : Nat) : (s.freeCtx k).mgmt = s.mgmt := rfl

@[simp] theorem State.freeCtx_stats (s : State) (k : Nat) : (s.freeCtx k).stats = s.stats := rfl

@[simp] theorem State.freeCtx_pending (s : State) (k : Nat) : (s.freeCtx k).pending = s.pending := rfl

/-! ## bindCtx -/

@[simp] theorem State.bindCtx_inReset (s : State) (c : Ctx) : (s.bindCtx c).inReset = s.inReset := rfl

@[simp] theorem State.bindCtx_time (s : State) (c : Ctx) : (s.bindCtx c).time = s.time := rfl

@[simp] theorem State.bindCtx_laneA (s : State) (c : Ctx) : (s.bindCtx c).laneA = s.laneA := rfl

@[simp] theorem State.bindCtx_laneB (s : State) (c : Ctx) : (s.bindCtx c).laneB = s.laneB := rfl

@[simp] theorem State.bindCtx_merge (s : State) (c : Ctx) : (s.bindCtx c).merge = s.merge := rfl

@[simp] theorem State.bindCtx_pool (s : State) (c : Ctx) : (s.bindCtx c).pool = s.pool := rfl

@[simp] theorem State.bindCtx_delivery (s : State) (c : Ctx) : (s.bindCtx c).delivery = s.delivery := rfl

@[simp] theorem State.bindCtx_sub (s : State) (c : Ctx) : (s.bindCtx c).sub = s.sub := rfl

@[simp] theorem State.bindCtx_slicer (s : State) (c : Ctx) : (s.bindCtx c).slicer = s.slicer := rfl

@[simp] theorem State.bindCtx_table (s : State) (c : Ctx) : (s.bindCtx c).table = s.table := rfl

@[simp] theorem State.bindCtx_mgmt (s : State) (c : Ctx) : (s.bindCtx c).mgmt = s.mgmt := rfl

@[simp] theorem State.bindCtx_stats (s : State) (c : Ctx) : (s.bindCtx c).stats = s.stats := rfl

@[simp] theorem State.bindCtx_pending (s : State) (c : Ctx) : (s.bindCtx c).pending = s.pending := rfl

/-! ## toDiscarding -/

@[simp] theorem State.toDiscarding_inReset (s : State) (k : Nat) : (s.toDiscarding k).inReset = s.inReset := rfl

@[simp] theorem State.toDiscarding_time (s : State) (k : Nat) : (s.toDiscarding k).time = s.time := rfl

@[simp] theorem State.toDiscarding_laneA (s : State) (k : Nat) : (s.toDiscarding k).laneA = s.laneA := rfl

@[simp] theorem State.toDiscarding_laneB (s : State) (k : Nat) : (s.toDiscarding k).laneB = s.laneB := rfl

@[simp] theorem State.toDiscarding_merge (s : State) (k : Nat) : (s.toDiscarding k).merge = s.merge := rfl

@[simp] theorem State.toDiscarding_pool (s : State) (k : Nat) : (s.toDiscarding k).pool = s.pool := rfl

@[simp] theorem State.toDiscarding_delivery (s : State) (k : Nat) : (s.toDiscarding k).delivery = s.delivery := rfl

@[simp] theorem State.toDiscarding_sub (s : State) (k : Nat) : (s.toDiscarding k).sub = s.sub := rfl

@[simp] theorem State.toDiscarding_slicer (s : State) (k : Nat) : (s.toDiscarding k).slicer = s.slicer := rfl

@[simp] theorem State.toDiscarding_table (s : State) (k : Nat) : (s.toDiscarding k).table = s.table := rfl

@[simp] theorem State.toDiscarding_mgmt (s : State) (k : Nat) : (s.toDiscarding k).mgmt = s.mgmt := rfl

@[simp] theorem State.toDiscarding_stats (s : State) (k : Nat) : (s.toDiscarding k).stats = s.stats := rfl

@[simp] theorem State.toDiscarding_pending (s : State) (k : Nat) : (s.toDiscarding k).pending = s.pending := rfl

/-! ## notDiscarding -/

@[simp] theorem State.notDiscarding_inReset (s : State) (k : Nat) : (s.notDiscarding k).inReset = s.inReset := rfl

@[simp] theorem State.notDiscarding_time (s : State) (k : Nat) : (s.notDiscarding k).time = s.time := rfl

@[simp] theorem State.notDiscarding_laneA (s : State) (k : Nat) : (s.notDiscarding k).laneA = s.laneA := rfl

@[simp] theorem State.notDiscarding_laneB (s : State) (k : Nat) : (s.notDiscarding k).laneB = s.laneB := rfl

@[simp] theorem State.notDiscarding_merge (s : State) (k : Nat) : (s.notDiscarding k).merge = s.merge := rfl

@[simp] theorem State.notDiscarding_pool (s : State) (k : Nat) : (s.notDiscarding k).pool = s.pool := rfl

@[simp] theorem State.notDiscarding_delivery (s : State) (k : Nat) : (s.notDiscarding k).delivery = s.delivery := rfl

@[simp] theorem State.notDiscarding_sub (s : State) (k : Nat) : (s.notDiscarding k).sub = s.sub := rfl

@[simp] theorem State.notDiscarding_slicer (s : State) (k : Nat) : (s.notDiscarding k).slicer = s.slicer := rfl

@[simp] theorem State.notDiscarding_table (s : State) (k : Nat) : (s.notDiscarding k).table = s.table := rfl

@[simp] theorem State.notDiscarding_mgmt (s : State) (k : Nat) : (s.notDiscarding k).mgmt = s.mgmt := rfl

@[simp] theorem State.notDiscarding_stats (s : State) (k : Nat) : (s.notDiscarding k).stats = s.stats := rfl

@[simp] theorem State.notDiscarding_pending (s : State) (k : Nat) : (s.notDiscarding k).pending = s.pending := rfl

/-! ## dropItem -/

@[simp] theorem State.dropItem_inReset (s : State) (k : Nat) : (s.dropItem k).inReset = s.inReset := rfl

@[simp] theorem State.dropItem_time (s : State) (k : Nat) : (s.dropItem k).time = s.time := rfl

@[simp] theorem State.dropItem_laneA (s : State) (k : Nat) : (s.dropItem k).laneA = s.laneA := rfl

@[simp] theorem State.dropItem_laneB (s : State) (k : Nat) : (s.dropItem k).laneB = s.laneB := rfl

@[simp] theorem State.dropItem_merge (s : State) (k : Nat) : (s.dropItem k).merge = s.merge := rfl

@[simp] theorem State.dropItem_pool (s : State) (k : Nat) : (s.dropItem k).pool = s.pool := rfl

@[simp] theorem State.dropItem_delivery (s : State) (k : Nat) : (s.dropItem k).delivery = s.delivery := rfl

@[simp] theorem State.dropItem_sub (s : State) (k : Nat) : (s.dropItem k).sub = s.sub := rfl

@[simp] theorem State.dropItem_slicer (s : State) (k : Nat) : (s.dropItem k).slicer = s.slicer := rfl

@[simp] theorem State.dropItem_table (s : State) (k : Nat) : (s.dropItem k).table = s.table := rfl

@[simp] theorem State.dropItem_mgmt (s : State) (k : Nat) : (s.dropItem k).mgmt = s.mgmt := rfl

@[simp] theorem State.dropItem_stats (s : State) (k : Nat) : (s.dropItem k).stats = s.stats := rfl

@[simp] theorem State.dropItem_pending (s : State) (k : Nat) : (s.dropItem k).pending = s.pending := rfl

/-! ## setSlicer -/

@[simp] theorem State.setSlicer_inReset (s : State) (x : SlicerState) : (s.setSlicer x).inReset = s.inReset := rfl

@[simp] theorem State.setSlicer_time (s : State) (x : SlicerState) : (s.setSlicer x).time = s.time := rfl

@[simp] theorem State.setSlicer_laneA (s : State) (x : SlicerState) : (s.setSlicer x).laneA = s.laneA := rfl

@[simp] theorem State.setSlicer_laneB (s : State) (x : SlicerState) : (s.setSlicer x).laneB = s.laneB := rfl

@[simp] theorem State.setSlicer_merge (s : State) (x : SlicerState) : (s.setSlicer x).merge = s.merge := rfl

@[simp] theorem State.setSlicer_engine (s : State) (x : SlicerState) : (s.setSlicer x).engine = s.engine := rfl

@[simp] theorem State.setSlicer_pool (s : State) (x : SlicerState) : (s.setSlicer x).pool = s.pool := rfl

@[simp] theorem State.setSlicer_delivery (s : State) (x : SlicerState) : (s.setSlicer x).delivery = s.delivery := rfl

@[simp] theorem State.setSlicer_sub (s : State) (x : SlicerState) : (s.setSlicer x).sub = s.sub := rfl

@[simp] theorem State.setSlicer_table (s : State) (x : SlicerState) : (s.setSlicer x).table = s.table := rfl

@[simp] theorem State.setSlicer_mgmt (s : State) (x : SlicerState) : (s.setSlicer x).mgmt = s.mgmt := rfl

@[simp] theorem State.setSlicer_stats (s : State) (x : SlicerState) : (s.setSlicer x).stats = s.stats := rfl

@[simp] theorem State.setSlicer_pending (s : State) (x : SlicerState) : (s.setSlicer x).pending = s.pending := rfl

/-! ## advanceSeq -/

@[simp] theorem State.advanceSeq_inReset (s : State) (k : Nat) : (s.advanceSeq k).inReset = s.inReset := rfl

@[simp] theorem State.advanceSeq_time (s : State) (k : Nat) : (s.advanceSeq k).time = s.time := rfl

@[simp] theorem State.advanceSeq_laneA (s : State) (k : Nat) : (s.advanceSeq k).laneA = s.laneA := rfl

@[simp] theorem State.advanceSeq_laneB (s : State) (k : Nat) : (s.advanceSeq k).laneB = s.laneB := rfl

@[simp] theorem State.advanceSeq_merge (s : State) (k : Nat) : (s.advanceSeq k).merge = s.merge := rfl

@[simp] theorem State.advanceSeq_engine (s : State) (k : Nat) : (s.advanceSeq k).engine = s.engine := rfl

@[simp] theorem State.advanceSeq_pool (s : State) (k : Nat) : (s.advanceSeq k).pool = s.pool := rfl

@[simp] theorem State.advanceSeq_delivery (s : State) (k : Nat) : (s.advanceSeq k).delivery = s.delivery := rfl

@[simp] theorem State.advanceSeq_sub (s : State) (k : Nat) : (s.advanceSeq k).sub = s.sub := rfl

@[simp] theorem State.advanceSeq_table (s : State) (k : Nat) : (s.advanceSeq k).table = s.table := rfl

@[simp] theorem State.advanceSeq_mgmt (s : State) (k : Nat) : (s.advanceSeq k).mgmt = s.mgmt := rfl

@[simp] theorem State.advanceSeq_stats (s : State) (k : Nat) : (s.advanceSeq k).stats = s.stats := rfl

@[simp] theorem State.advanceSeq_pending (s : State) (k : Nat) : (s.advanceSeq k).pending = s.pending := rfl

/-! ## setSub -/

@[simp] theorem State.setSub_inReset (s : State) (x : Submission) : (s.setSub x).inReset = s.inReset := rfl

@[simp] theorem State.setSub_time (s : State) (x : Submission) : (s.setSub x).time = s.time := rfl

@[simp] theorem State.setSub_laneA (s : State) (x : Submission) : (s.setSub x).laneA = s.laneA := rfl

@[simp] theorem State.setSub_laneB (s : State) (x : Submission) : (s.setSub x).laneB = s.laneB := rfl

@[simp] theorem State.setSub_merge (s : State) (x : Submission) : (s.setSub x).merge = s.merge := rfl

@[simp] theorem State.setSub_engine (s : State) (x : Submission) : (s.setSub x).engine = s.engine := rfl

@[simp] theorem State.setSub_pool (s : State) (x : Submission) : (s.setSub x).pool = s.pool := rfl

@[simp] theorem State.setSub_delivery (s : State) (x : Submission) : (s.setSub x).delivery = s.delivery := rfl

@[simp] theorem State.setSub_slicer (s : State) (x : Submission) : (s.setSub x).slicer = s.slicer := rfl

@[simp] theorem State.setSub_table (s : State) (x : Submission) : (s.setSub x).table = s.table := rfl

@[simp] theorem State.setSub_mgmt (s : State) (x : Submission) : (s.setSub x).mgmt = s.mgmt := rfl

@[simp] theorem State.setSub_stats (s : State) (x : Submission) : (s.setSub x).stats = s.stats := rfl

@[simp] theorem State.setSub_pending (s : State) (x : Submission) : (s.setSub x).pending = s.pending := rfl

/-! ## setSession -/

@[simp] theorem State.setSession_inReset (s : State) (x : Option Session) : (s.setSession x).inReset = s.inReset := rfl

@[simp] theorem State.setSession_time (s : State) (x : Option Session) : (s.setSession x).time = s.time := rfl

@[simp] theorem State.setSession_laneA (s : State) (x : Option Session) : (s.setSession x).laneA = s.laneA := rfl

@[simp] theorem State.setSession_laneB (s : State) (x : Option Session) : (s.setSession x).laneB = s.laneB := rfl

@[simp] theorem State.setSession_merge (s : State) (x : Option Session) : (s.setSession x).merge = s.merge := rfl

@[simp] theorem State.setSession_engine (s : State) (x : Option Session) : (s.setSession x).engine = s.engine := rfl

@[simp] theorem State.setSession_pool (s : State) (x : Option Session) : (s.setSession x).pool = s.pool := rfl

@[simp] theorem State.setSession_delivery (s : State) (x : Option Session) : (s.setSession x).delivery = s.delivery := rfl

@[simp] theorem State.setSession_sub (s : State) (x : Option Session) : (s.setSession x).sub = s.sub := rfl

@[simp] theorem State.setSession_slicer (s : State) (x : Option Session) : (s.setSession x).slicer = s.slicer := rfl

@[simp] theorem State.setSession_table (s : State) (x : Option Session) : (s.setSession x).table = s.table := rfl

@[simp] theorem State.setSession_stats (s : State) (x : Option Session) : (s.setSession x).stats = s.stats := rfl

@[simp] theorem State.setSession_pending (s : State) (x : Option Session) : (s.setSession x).pending = s.pending := rfl

/-! ## holdReading -/

@[simp] theorem State.holdReading_inReset (s : State) (r : Request) (x : Reading) : (s.holdReading r x).inReset = s.inReset := rfl

@[simp] theorem State.holdReading_time (s : State) (r : Request) (x : Reading) : (s.holdReading r x).time = s.time := rfl

@[simp] theorem State.holdReading_laneA (s : State) (r : Request) (x : Reading) : (s.holdReading r x).laneA = s.laneA := rfl

@[simp] theorem State.holdReading_laneB (s : State) (r : Request) (x : Reading) : (s.holdReading r x).laneB = s.laneB := rfl

@[simp] theorem State.holdReading_merge (s : State) (r : Request) (x : Reading) : (s.holdReading r x).merge = s.merge := rfl

@[simp] theorem State.holdReading_engine (s : State) (r : Request) (x : Reading) : (s.holdReading r x).engine = s.engine := rfl

@[simp] theorem State.holdReading_pool (s : State) (r : Request) (x : Reading) : (s.holdReading r x).pool = s.pool := rfl

@[simp] theorem State.holdReading_delivery (s : State) (r : Request) (x : Reading) : (s.holdReading r x).delivery = s.delivery := rfl

@[simp] theorem State.holdReading_sub (s : State) (r : Request) (x : Reading) : (s.holdReading r x).sub = s.sub := rfl

@[simp] theorem State.holdReading_slicer (s : State) (r : Request) (x : Reading) : (s.holdReading r x).slicer = s.slicer := rfl

@[simp] theorem State.holdReading_table (s : State) (r : Request) (x : Reading) : (s.holdReading r x).table = s.table := rfl

@[simp] theorem State.holdReading_stats (s : State) (r : Request) (x : Reading) : (s.holdReading r x).stats = s.stats := rfl

@[simp] theorem State.holdReading_pending (s : State) (r : Request) (x : Reading) : (s.holdReading r x).pending = s.pending := rfl

@[simp] theorem State.holdReading_executor (s : State) (r : Request) (x : Reading) :
    (s.holdReading r x).mgmt.executor = .reading r x := rfl

/-! ## respond -/

@[simp] theorem State.respond_inReset (s : State) (r : Request) (st : Status) (d : List Byte) : (s.respond r st d).inReset = s.inReset := by unfold State.respond; cases r.source <;> rfl

@[simp] theorem State.respond_time (s : State) (r : Request) (st : Status) (d : List Byte) : (s.respond r st d).time = s.time := by unfold State.respond; cases r.source <;> rfl

@[simp] theorem State.respond_laneA (s : State) (r : Request) (st : Status) (d : List Byte) : (s.respond r st d).laneA = s.laneA := by unfold State.respond; cases r.source <;> rfl

@[simp] theorem State.respond_laneB (s : State) (r : Request) (st : Status) (d : List Byte) : (s.respond r st d).laneB = s.laneB := by unfold State.respond; cases r.source <;> rfl

@[simp] theorem State.respond_merge (s : State) (r : Request) (st : Status) (d : List Byte) : (s.respond r st d).merge = s.merge := by unfold State.respond; cases r.source <;> rfl

@[simp] theorem State.respond_engine (s : State) (r : Request) (st : Status) (d : List Byte) : (s.respond r st d).engine = s.engine := by unfold State.respond; cases r.source <;> rfl

@[simp] theorem State.respond_pool (s : State) (r : Request) (st : Status) (d : List Byte) : (s.respond r st d).pool = s.pool := by unfold State.respond; cases r.source <;> rfl

@[simp] theorem State.respond_sub (s : State) (r : Request) (st : Status) (d : List Byte) : (s.respond r st d).sub = s.sub := by unfold State.respond; cases r.source <;> rfl

@[simp] theorem State.respond_table (s : State) (r : Request) (st : Status) (d : List Byte) : (s.respond r st d).table = s.table := by unfold State.respond; cases r.source <;> rfl

@[simp] theorem State.respond_stats (s : State) (r : Request) (st : Status) (d : List Byte) : (s.respond r st d).stats = s.stats := by unfold State.respond; cases r.source <;> rfl

@[simp] theorem State.respond_pending (s : State) (r : Request) (st : Status) (d : List Byte) : (s.respond r st d).pending = s.pending := by unfold State.respond; cases r.source <;> rfl

/-! ## orphanSlice -/

@[simp] theorem State.orphanSlice_inReset (s : State) (k : Nat) : (s.orphanSlice k).inReset = s.inReset := rfl

@[simp] theorem State.orphanSlice_time (s : State) (k : Nat) : (s.orphanSlice k).time = s.time := rfl

@[simp] theorem State.orphanSlice_laneA (s : State) (k : Nat) : (s.orphanSlice k).laneA = s.laneA := rfl

@[simp] theorem State.orphanSlice_laneB (s : State) (k : Nat) : (s.orphanSlice k).laneB = s.laneB := rfl

@[simp] theorem State.orphanSlice_merge (s : State) (k : Nat) : (s.orphanSlice k).merge = s.merge := rfl

@[simp] theorem State.orphanSlice_engine (s : State) (k : Nat) : (s.orphanSlice k).engine = s.engine := rfl

@[simp] theorem State.orphanSlice_delivery (s : State) (k : Nat) : (s.orphanSlice k).delivery = s.delivery := rfl

@[simp] theorem State.orphanSlice_sub (s : State) (k : Nat) : (s.orphanSlice k).sub = s.sub := rfl

@[simp] theorem State.orphanSlice_slicer (s : State) (k : Nat) : (s.orphanSlice k).slicer = s.slicer := rfl

@[simp] theorem State.orphanSlice_table (s : State) (k : Nat) : (s.orphanSlice k).table = s.table := rfl

@[simp] theorem State.orphanSlice_mgmt (s : State) (k : Nat) : (s.orphanSlice k).mgmt = s.mgmt := rfl

@[simp] theorem State.orphanSlice_pending (s : State) (k : Nat) : (s.orphanSlice k).pending = s.pending := rfl


/-! ## What each operation writes -/

@[simp] theorem State.setLane_lane (s : State) (l : LaneId) (x : Lane) : (s.setLane l x).lane l = x := by
  cases l <;> rfl

@[simp] theorem State.setLane_laneA (s : State) (x : Lane) : (s.setLane .a x).laneA = x := rfl

@[simp] theorem State.setLane_laneB (s : State) (x : Lane) : (s.setLane .b x).laneB = x := rfl

@[simp] theorem State.setLaneB_laneA (s : State) (x : Lane) : (s.setLane .b x).laneA = s.laneA := rfl

@[simp] theorem State.setLaneA_laneB (s : State) (x : Lane) : (s.setLane .a x).laneB = s.laneB := rfl

/-! ## A lane's receive side: what each update leaves of the other fields, and what it writes -/

@[simp] theorem Lane.enter_rx (l : Lane) (x : Align) : (l.enter x).rx = l.rx := rfl

@[simp] theorem Lane.enter_align (l : Lane) (x : Align) : (l.enter x).align = x := rfl

@[simp] theorem Lane.enterAfresh_rx (l : Lane) (x : Align) : (l.enterAfresh x).rx = [] := rfl

@[simp] theorem Lane.enterAfresh_align (l : Lane) (x : Align) : (l.enterAfresh x).align = x := rfl

@[simp] theorem Lane.enterAfresh_fifo (l : Lane) (x : Align) : (l.enterAfresh x).fifo = l.fifo := rfl

@[simp] theorem Lane.enterAfresh_confirm (l : Lane) (x : Align) : (l.enterAfresh x).confirm = 0 := rfl

@[simp] theorem Lane.enterAfresh_failRun (l : Lane) (x : Align) : (l.enterAfresh x).failRun = 0 := rfl

@[simp] theorem Lane.receive_rx (l : Lane) (bytes : List Byte) : (l.receive bytes).rx = l.rx ++ bytes := rfl

@[simp] theorem Lane.receive_align (l : Lane) (bytes : List Byte) : (l.receive bytes).align = l.align := rfl

@[simp] theorem Lane.receive_fifo (l : Lane) (bytes : List Byte) : (l.receive bytes).fifo = l.fifo := rfl

@[simp] theorem Lane.receive_confirm (l : Lane) (bytes : List Byte) : (l.receive bytes).confirm = l.confirm := rfl

@[simp] theorem Lane.receive_failRun (l : Lane) (bytes : List Byte) : (l.receive bytes).failRun = l.failRun := rfl

@[simp] theorem Lane.advance_rx (l : Lane) (n : Nat) : (l.advance n).rx = l.rx.drop n := rfl

@[simp] theorem Lane.advance_align (l : Lane) (n : Nat) : (l.advance n).align = l.align := rfl

@[simp] theorem Lane.advance_fifo (l : Lane) (n : Nat) : (l.advance n).fifo = l.fifo := rfl

@[simp] theorem Lane.advance_confirm (l : Lane) (n : Nat) : (l.advance n).confirm = l.confirm := rfl

@[simp] theorem Lane.advance_failRun (l : Lane) (n : Nat) : (l.advance n).failRun = l.failRun := rfl

/-! ## The port's output: a microsecond changes only the bytes presented and valid -/

@[simp] theorem Delivery.present_dqs (d : Delivery) : d.present.dqs = d.dqs := by
  unfold Delivery.present; split <;> (try split) <;> rfl

@[simp] theorem Delivery.present_mq (d : Delivery) : d.present.mq = d.mq := by
  unfold Delivery.present; split <;> (try split) <;> rfl

@[simp] theorem Delivery.present_transfer (d : Delivery) : d.present.transfer = d.transfer := by
  unfold Delivery.present; split <;> (try split) <;> simp_all

@[simp] theorem Delivery.present_hold (d : Delivery) : d.present.hold = d.hold := by
  unfold Delivery.present; split <;> (try split) <;> rfl

/-! ## Lanes of the part -/

@[simp] theorem State.lane_a (s : State) : s.lane .a = s.laneA := rfl

@[simp] theorem State.lane_b (s : State) : s.lane .b = s.laneB := rfl

@[simp] theorem State.report_stats (s : State) (f : Stats → Stats) : (s.report f).stats = f s.stats := rfl

@[simp] theorem State.returnRx_pool (s : State) (n : Nat) :
    (s.returnRx n).pool = ⟨s.pool.free + n, s.pool.rx - n, s.pool.tx⟩ := rfl

@[simp] theorem State.returnTx_pool (s : State) (n : Nat) :
    (s.returnTx n).pool = ⟨s.pool.free + n, s.pool.rx, s.pool.tx - n⟩ := rfl

@[simp] theorem State.send_items (s : State) (it : Item) : (s.send it).engine.items = s.engine.items ++ [it] := rfl

@[simp] theorem State.send_ctxs (s : State) (it : Item) : (s.send it).engine.ctxs = s.engine.ctxs := rfl

@[simp] theorem State.send_discarding (s : State) (it : Item) :
    (s.send it).engine.discarding = s.engine.discarding := rfl

@[simp] theorem State.passSlice_items (s : State) (sl : Slice) (p : Path) (g : Bool) :
    (s.passSlice sl p g).engine.items = s.engine.items ++ [.slice sl p g] := rfl

@[simp] theorem State.passSlice_ctxs (s : State) (sl : Slice) (p : Path) (g : Bool) :
    (s.passSlice sl p g).engine.ctxs = s.engine.ctxs := rfl

@[simp] theorem State.passSlice_discarding (s : State) (sl : Slice) (p : Path) (g : Bool) :
    (s.passSlice sl p g).engine.discarding = s.engine.discarding := rfl

@[simp] theorem State.passSlice_stats (s : State) (sl : Slice) (p : Path) (g : Bool) :
    (s.passSlice sl p g).stats = s.stats.passedSlice sl.stream p := rfl

@[simp] theorem State.discardSlice_stats (s : State) (k : Nat) (r : DiscardReason) :
    (s.discardSlice k r).stats = s.stats.discardedSlice k r := rfl

@[simp] theorem State.setMrec_pendingFlush (s : State) (k : Nat) (r : MergeRec) :
    (s.setMrec k r).merge.pendingFlush = s.merge.pendingFlush := rfl

@[simp] theorem State.setMrec_recs (s : State) (k : Nat) (r : MergeRec) :
    (s.setMrec k r).merge.recs = SMap.set (fun _ => MergeRec.fresh) s.merge.recs k r := rfl

@[simp] theorem State.flush_items (s : State) (k : Nat) (r : AbandonReason) :
    (s.flush k r).engine.items = s.engine.items ++ [.abandon k r] := rfl

@[simp] theorem State.flush_ctxs (s : State) (k : Nat) (r : AbandonReason) :
    (s.flush k r).engine.ctxs = s.engine.ctxs := rfl

@[simp] theorem State.flush_pool (s : State) (k : Nat) (r : AbandonReason) :
    (s.flush k r).pool = (s.returnRx (s.mrec k).held.length).pool := rfl

@[simp] theorem State.flush_pendingFlush (s : State) (k : Nat) (r : AbandonReason) :
    (s.flush k r).merge.pendingFlush = clearMark s.merge.pendingFlush k := rfl

@[simp] theorem State.flush_recs (s : State) (k : Nat) (r : AbandonReason) :
    (s.flush k r).merge.recs = SMap.set (fun _ => MergeRec.fresh) s.merge.recs k MergeRec.fresh := rfl

@[simp] theorem State.freeCtx_ctxs (s : State) (k : Nat) :
    (s.freeCtx k).engine.ctxs = s.engine.ctxs.eraseP (fun c => c.stream == k) := rfl

@[simp] theorem State.freeCtx_items (s : State) (k : Nat) : (s.freeCtx k).engine.items = s.engine.items := rfl

@[simp] theorem State.bindCtx_ctxs (s : State) (c : Ctx) : (s.bindCtx c).engine.ctxs = s.engine.ctxs ++ [c] := rfl

@[simp] theorem State.bindCtx_items (s : State) (c : Ctx) : (s.bindCtx c).engine.items = s.engine.items := rfl

@[simp] theorem State.toDiscarding_ctxs (s : State) (k : Nat) : (s.toDiscarding k).engine.ctxs = s.engine.ctxs := rfl

@[simp] theorem State.toDiscarding_items (s : State) (k : Nat) :
    (s.toDiscarding k).engine.items = s.engine.items := rfl

@[simp] theorem State.notDiscarding_ctxs (s : State) (k : Nat) :
    (s.notDiscarding k).engine.ctxs = s.engine.ctxs := rfl

@[simp] theorem State.notDiscarding_items (s : State) (k : Nat) :
    (s.notDiscarding k).engine.items = s.engine.items := rfl

@[simp] theorem State.dropItem_ctxs (s : State) (k : Nat) : (s.dropItem k).engine.ctxs = s.engine.ctxs := rfl

@[simp] theorem State.dropItem_items (s : State) (k : Nat) :
    (s.dropItem k).engine.items = s.engine.items.eraseP (fun it => it.stream == k) := rfl

@[simp] theorem State.setSlicer_state (s : State) (x : SlicerState) : (s.setSlicer x).slicer.state = x := rfl

@[simp] theorem State.setSlicer_fifo (s : State) (x : SlicerState) :
    (s.setSlicer x).slicer.fifo = s.slicer.fifo := rfl

@[simp] theorem State.setSlicer_outputs (s : State) (x : SlicerState) :
    (s.setSlicer x).slicer.outputs = s.slicer.outputs := rfl

@[simp] theorem State.setSub_sub (s : State) (x : Submission) : (s.setSub x).sub = x := rfl

@[simp] theorem State.setSession_session (s : State) (x : Option Session) : (s.setSession x).mgmt.session = x := rfl

@[simp] theorem State.setSession_executor (s : State) (x : Option Session) :
    (s.setSession x).mgmt.executor = s.mgmt.executor := rfl

@[simp] theorem State.respond_executor (s : State) (r : Request) (st : Status) (d : List Byte) :
    (s.respond r st d).mgmt.executor = .idle := by
  unfold State.respond; cases r.source <;> rfl

@[simp] theorem State.respond_mgmt (s : State) (r : Request) (st : Status) (d : List Byte) :
    (s.respond r st d).mgmt = { s.mgmt with executor := .idle } := by
  unfold State.respond; cases r.source <;> rfl

end Sys2Proof.Machine
end

