-- ==== Sys2Proof/Laws/Commands.lean ====
section
/-! SUPPORT. What the frames around a command's effect answer: of a running part, of a request ready to be carried out, of
a part told to restart, and of a byte that is a row's own. -/

namespace Sys2Proof.Machine

/-- Out of reset a command has its effect. -/
theorem live_running {s : State} (h : s.inReset = false) (f : State → State) : live s f = .next (f s) := by
  simp [live, h]

/-- While the reset pin is asserted a command has none (R192). -/
theorem live_inReset {s : State} (h : s.inReset = true) (f : State → State) : live s f = .next s := by
  simp [live, h]

/-- A command of the running part always answers a next state. -/
theorem live_next (s : State) (f : State → State) : ∃ t, live s f = .next t ∧ (t = s ∨ s.inReset = false ∧ t = f s) := by
  cases h : s.inReset
  · exact ⟨f s, live_running h f, .inr ⟨rfl, rfl⟩⟩
  · exact ⟨s, live_inReset h f, .inl rfl⟩

/-- What a command of the running part can answer: the state itself, or its effect out of reset. -/
theorem live_cases {s t : State} {f : State → State} (h : live s f = .next t) :
    t = s ∨ (s.inReset = false ∧ t = f s) := by
  obtain ⟨u, hu, hc⟩ := live_next s f
  rw [hu] at h; cases h; exact hc

/-- A request that has passed the checks is carried out by its own command. -/
theorem onReady_executes {s : State} {r : Request} {kind : ReqKind} (h : s.executes r kind)
    (f : State → Request → State) : onReady s kind f = .next (f s r) := by
  simp [onReady, live, h.1, h.2]

/-- What a request command can answer: the state itself, or the action on the executing request of its kind. -/
theorem onReady_cases {s t : State} {kind : ReqKind} {f : State → Request → State} (h : onReady s kind f = .next t) :
    t = s ∨ ∃ r, s.executes r kind ∧ t = f s r := by
  rcases live_cases h with rfl | ⟨h0, rfl⟩
  · exact .inl rfl
  · cases he : s.mgmt.executor with
    | ready r k =>
      by_cases hk : k = kind
      · subst hk; exact .inr ⟨r, ⟨h0, he⟩, by simp⟩
      · left; simp [hk]
    | idle => left; rfl
    | reading _ _ => left; rfl
    | preparing _ _ _ _ => left; rfl
    | sweeping _ _ _ => left; rfl
    | probing _ _ => left; rfl
    | restarting _ _ => left; rfl

/-- A request between its reads goes on where it stands. -/
theorem onReading_reads {s : State} {r : Request} {x : Reading} (h0 : s.inReset = false)
    (he : s.mgmt.executor = .reading r x) (kind : ReqKind) (f : State → Request → State)
    (g : State → Request → Reading → State) : onReading s kind f g = .next (g s r x) := by
  simp [onReading, live, h0, he]

/-- A request that reads several blocks is begun when it has passed the checks. -/
theorem onReading_executes {s : State} {r : Request} {kind : ReqKind} (h : s.executes r kind)
    (f : State → Request → State) (g : State → Request → Reading → State) :
    onReading s kind f g = .next (f s r) := by
  simp [onReading, live, h.1, h.2]

/-- What a command that reads several blocks can answer: the state itself, its beginning, or its going on. -/
theorem onReading_cases {s t : State} {kind : ReqKind} {f : State → Request → State}
    {g : State → Request → Reading → State} (h : onReading s kind f g = .next t) :
    t = s ∨ (∃ r, s.executes r kind ∧ t = f s r)
      ∨ ∃ r x, s.inReset = false ∧ s.mgmt.executor = .reading r x ∧ t = g s r x := by
  rcases live_cases h with rfl | ⟨h0, rfl⟩
  · exact .inl rfl
  · cases he : s.mgmt.executor with
    | ready r k =>
      by_cases hk : k = kind
      · subst hk; exact .inr (.inl ⟨r, ⟨h0, he⟩, by simp⟩)
      · left; simp [hk]
    | reading r x => exact .inr (.inr ⟨r, x, h0, rfl, rfl⟩)
    | idle => left; rfl
    | preparing _ _ _ _ => left; rfl
    | sweeping _ _ _ => left; rfl
    | probing _ _ => left; rfl
    | restarting _ _ => left; rfl

/-- A part that has been told restarts and reports it done. -/
theorem restartPart_awaits {s : State} {p : Part} (h : s.awaitsRestart p) (f : State → State) :
    restartPart s p f = .next ((f s).partDone p) := by
  obtain ⟨h0, r, todo, he, hp⟩ := h
  have ht : s.told p = true := by simp only [State.told, he]; exact hp
  simp [restartPart, live, h0, ht]

/-- What a restart command can answer: the state itself, or the part's restart reported done. -/
theorem restartPart_cases {s t : State} {p : Part} {f : State → State} (h : restartPart s p f = .next t) :
    t = s ∨ (s.awaitsRestart p ∧ t = (f s).partDone p) := by
  rcases live_cases h with rfl | ⟨h0, rfl⟩
  · exact .inl rfl
  · cases he : s.mgmt.executor with
    | restarting r todo =>
      have ht : s.told p = todo.contains p := by simp only [State.told, he]
      cases hp : todo.contains p
      · left; rw [ht, hp]; rfl
      · right; exact ⟨⟨h0, r, todo, he, hp⟩, by rw [ht, hp]; rfl⟩
    | idle => left; simp [State.told, he]
    | ready _ _ => left; simp [State.told, he]
    | reading _ _ => left; simp [State.told, he]
    | preparing _ _ _ _ => left; simp [State.told, he]
    | sweeping _ _ _ => left; simp [State.told, he]
    | probing _ _ => left; simp [State.told, he]

/-- A byte that is its row's own is taken. -/
theorem byteAs_event {s : State} {e : ByteEvent} {data : Byte} {endMark : Bool} (h : s.inReset = false)
    (he : byteEvent s.sub data endMark = e) : byteAs e data endMark s = .next (s.takeByte data false endMark) := by
  simp [byteAs, live, h, he]

/-- What a byte command can answer: the state itself, or the byte taken. -/
theorem byteAs_cases {s t : State} {e : ByteEvent} {data : Byte} {endMark : Bool}
    (h : byteAs e data endMark s = .next t) :
    t = s ∨ (s.inReset = false ∧ byteEvent s.sub data endMark = e ∧ t = s.takeByte data false endMark) := by
  rcases live_cases h with rfl | ⟨h0, rfl⟩
  · exact .inl rfl
  · by_cases he : byteEvent s.sub data endMark = e
    · right; exact ⟨h0, he, by simp [he]⟩
    · left; simp [he]

end Sys2Proof.Machine
end

