-- ==== Sys2Proof/Laws/Frames.lean ====
section
/-! SUPPORT. What the shared operations leave alone: the queue of commands, the timebase, the reset pin and the stream
table. -/

namespace Sys2Proof.Machine

/-- The queue of commands, the timebase, the reset pin and the stream table are as they were. -/
structure Steady (s t : State) : Prop where
  pending : t.pending = s.pending
  time : t.time = s.time
  inReset : t.inReset = s.inReset
  table : t.table = s.table

theorem Steady.refl (s : State) : Steady s s := ⟨rfl, rfl, rfl, rfl⟩

theorem Steady.trans {s t u : State} (h : Steady s t) (h' : Steady t u) : Steady s u :=
  ⟨h'.pending.trans h.pending, h'.time.trans h.time, h'.inReset.trans h.inReset, h'.table.trans h.table⟩

/-- A steady operation after a change to other fields. -/
theorem Steady.after {s t u : State} (h : Steady t u) (hp : t.pending = s.pending) (ht : t.time = s.time)
    (hr : t.inReset = s.inReset) (hb : t.table = s.table) : Steady s u := Steady.trans ⟨hp, ht, hr, hb⟩ h

theorem Steady.ite {s t u : State} {p : Prop} [Decidable p] (h : Steady s t) (h' : Steady s u) :
    Steady s (if p then t else u) := by
  split <;> assumption

theorem Steady.entry {s t : State} (h : Steady s t) (k : Nat) : t.entry k = s.entry k := by
  unfold State.entry State.activeBank State.bank; rw [h.table]

theorem Steady.glob {s t : State} (h : Steady s t) : t.glob = s.glob := by
  unfold State.glob State.activeBank State.bank; rw [h.table]

theorem Steady.banksInRange {s t : State} (h : Steady s t) (hb : s.banksInRange) : t.banksInRange := by
  unfold State.banksInRange; rw [h.table]; exact hb

/-! ## Ops -/

theorem steady_setLane (s : State) (l : LaneId) (x : Lane) : Steady s (s.setLane l x) := ⟨by simp, by simp, by simp, by simp⟩

theorem steady_report (s : State) (f : Stats → Stats) : Steady s (s.report f) := ⟨rfl, rfl, rfl, rfl⟩

theorem steady_returnRx (s : State) (n : Nat) : Steady s (s.returnRx n) := ⟨rfl, rfl, rfl, rfl⟩

theorem steady_returnTx (s : State) (n : Nat) : Steady s (s.returnTx n) := ⟨rfl, rfl, rfl, rfl⟩

theorem steady_withRxBlock (s : State) : Steady s s.withRxBlock := ⟨rfl, rfl, rfl, rfl⟩

theorem steady_setMrec (s : State) (k : Nat) (r : MergeRec) : Steady s (s.setMrec k r) := ⟨rfl, rfl, rfl, rfl⟩

theorem steady_send (s : State) (it : Item) : Steady s (s.send it) := ⟨rfl, rfl, rfl, rfl⟩

theorem steady_passSlice (s : State) (sl : Slice) (p : Path) (gap : Bool) : Steady s (s.passSlice sl p gap) :=
  ⟨rfl, rfl, rfl, rfl⟩

theorem steady_discardSlice (s : State) (k : Nat) (r : DiscardReason) : Steady s (s.discardSlice k r) :=
  ⟨rfl, rfl, rfl, rfl⟩

theorem steady_flush (s : State) (k : Nat) (r : AbandonReason) : Steady s (s.flush k r) := ⟨rfl, rfl, rfl, rfl⟩

theorem steady_respond (s : State) (r : Request) (status : Status) (data : List Byte) :
    Steady s (s.respond r status data) := ⟨by simp, by simp, by simp, by simp⟩

theorem steady_freeBuffer (s : State) (src : Source) : Steady s (s.freeBuffer src) := ⟨by simp, by simp, by simp, by simp⟩

theorem steady_freeCtx (s : State) (k : Nat) : Steady s (s.freeCtx k) := ⟨rfl, rfl, rfl, rfl⟩

theorem steady_bindCtx (s : State) (c : Ctx) : Steady s (s.bindCtx c) := ⟨rfl, rfl, rfl, rfl⟩

theorem steady_toDiscarding (s : State) (k : Nat) : Steady s (s.toDiscarding k) := ⟨rfl, rfl, rfl, rfl⟩

theorem steady_notDiscarding (s : State) (k : Nat) : Steady s (s.notDiscarding k) := ⟨rfl, rfl, rfl, rfl⟩

theorem steady_dropItem (s : State) (k : Nat) : Steady s (s.dropItem k) := ⟨rfl, rfl, rfl, rfl⟩

theorem steady_setSlicer (s : State) (x : SlicerState) : Steady s (s.setSlicer x) := ⟨rfl, rfl, rfl, rfl⟩

theorem steady_setSub (s : State) (x : Submission) : Steady s (s.setSub x) := ⟨rfl, rfl, rfl, rfl⟩

theorem steady_advanceSeq (s : State) (k : Nat) : Steady s (s.advanceSeq k) := ⟨rfl, rfl, rfl, rfl⟩

/-- A receive claim is granted on its conditions, and then takes one block. -/
theorem claimRx_some {s : State} (h : s.mayClaimRx) : s.claimRx = some s.withRxBlock := by
  unfold State.mayClaimRx at h; unfold State.claimRx; rw [if_pos h]; rfl

theorem claimRx_none {s : State} (h : ¬ s.mayClaimRx) : s.claimRx = none := by
  unfold State.mayClaimRx at h; unfold State.claimRx; rw [if_neg h]

/-- What a receive claim can answer. -/
theorem claimRx_cases (s : State) : (s.mayClaimRx ∧ s.claimRx = some s.withRxBlock) ∨ s.claimRx = none := by
  by_cases h : s.mayClaimRx
  · exact .inl ⟨h, claimRx_some h⟩
  · exact .inr (claimRx_none h)

/-- What a transmit claim can answer. -/
theorem claimTx_cases (s : State) (n : Nat) :
    (s.pool.tx + n ≤ Config.poolBlocks - s.glob.ceiling ∧ n ≤ s.pool.free
        ∧ s.claimTx n = some { s with pool := { s.pool with free := s.pool.free - n, tx := s.pool.tx + n } })
      ∨ s.claimTx n = none := by
  unfold State.claimTx
  split
  · next h => exact .inl ⟨h.1, h.2, rfl⟩
  · exact .inr rfl

theorem steady_partDone (s : State) (p : Part) : Steady s (s.partDone p) := by
  unfold State.partDone
  split
  · split
    · exact steady_respond ..
    · exact ⟨rfl, rfl, rfl, rfl⟩
  all_goals exact Steady.refl s

theorem steady_endProbe (s : State) (a b : Byte) (n off : Nat) (l : LaneSet) : Steady s (s.endProbe a b n off l) := by
  unfold State.endProbe
  split
  · split
    · exact steady_respond ..
    · exact Steady.refl s
  all_goals exact Steady.refl s

theorem steady_informProbe (s : State) (k : Nat) (r : AbandonReason) : Steady s (s.informProbe k r) := by
  unfold State.informProbe
  split
  · exact steady_endProbe ..
  · exact Steady.refl s

theorem steady_abandonMessage (s : State) (k : Nat) (r : AbandonReason) (q : SeqNo) (g n : Nat) :
    Steady s (s.abandonMessage k r q g n) :=
  ((steady_returnRx s n).trans (steady_report _ _)).trans (steady_informProbe ..)

theorem steady_probeSent (s : State) (n : Nat) : Steady s (s.probeSent n) := by
  unfold State.probeSent
  split
  · exact ⟨rfl, rfl, rfl, rfl⟩
  all_goals exact Steady.refl s

theorem steady_messageSliced (s : State) (j : Job) : Steady s (s.messageSliced j) := by
  unfold State.messageSliced
  split
  · exact Steady.refl s
  · exact steady_freeBuffer ..
  · exact steady_probeSent ..

theorem steady_sliceDone (s : State) (j : Job) : Steady s (s.sliceDone j) := by
  have h1 : Steady s (if j.kind = .data then s.returnTx 1 else s) := .ite (steady_returnTx s 1) (.refl s)
  exact h1.trans (.ite ((steady_messageSliced _ j).trans (steady_setSlicer _ _)) (steady_setSlicer _ _))

theorem steady_offerSlice (s : State) (j : Job) (sl : Slice) (el : LaneSet) : Steady s (s.offerSlice j sl el) := by
  unfold State.offerSlice
  refine Steady.ite (steady_setSlicer ..) ?_
  refine Steady.trans ?_ (steady_sliceDone _ j)
  refine Steady.trans ?_ (Steady.ite (steady_report _ _) (Steady.refl _))
  refine Steady.trans ?_ (Steady.ite (steady_report _ _) (Steady.refl _))
  refine Steady.trans ?_ (Steady.ite (steady_setLane _ _ _) (Steady.refl _))
  exact Steady.ite (steady_setLane _ _ _) (Steady.refl _)

theorem steady_startTransfer (s : State) : Steady s s.startTransfer := by
  unfold State.startTransfer
  split
  · split
    · exact ⟨rfl, rfl, rfl, rfl⟩
    · exact Steady.refl s
  · exact Steady.refl s

/-! ## Lanes -/

theorem steady_upFailure (s : State) (l : LaneId) : Steady s (s.upFailure l) :=
  Steady.ite ((steady_report s _).trans (steady_setLane _ _ _))
    (((steady_report s _).trans (steady_setLane _ _ _)).trans (steady_report _ _))

theorem steady_upScreen (s : State) (l : LaneId) (b : List Byte) : Steady s (s.upScreen l b) :=
  Steady.ite (steady_setLane ..) (Steady.ite ((steady_setLane ..).trans (steady_report _ _))
    ((steady_setLane ..).trans (steady_report _ _)))

theorem steady_countSent (s : State) (l : LaneId) : Steady s (s.countSent l) := by
  unfold State.countSent
  split
  · exact steady_report s _
  all_goals exact Steady.refl s

theorem steady_reoffer (s : State) (l : LaneId) : Steady s (s.reoffer l) := by
  unfold State.reoffer
  split
  · exact Steady.ite (steady_offerSlice ..) (Steady.refl s)
  all_goals exact Steady.refl s

/-! ## The merge unit -/

theorem steady_passRun (hs : List Held) : ∀ s : State, Steady s (s.passRun hs) := by
  induction hs with
  | nil => exact fun s => Steady.refl s
  | cons h hs ih => exact fun s => (steady_passSlice s h.slice h.path false).trans (ih _)

theorem steady_passJump (hs : List Held) : ∀ (s : State) (e : SeqNo), Steady s (s.passJump e hs) := by
  induction hs with
  | nil => exact fun s _ => Steady.refl s
  | cons h hs ih => exact fun s e => (steady_passSlice s h.slice h.path _).trans (ih _ _)

theorem steady_expireOnce (s : State) (k : Nat) : Steady s (s.expireOnce k) := by
  unfold State.expireOnce
  split
  · exact Steady.refl s
  · exact ((steady_passSlice ..).trans (steady_passRun _ _)).trans (steady_setMrec ..)

theorem steady_expireLoop (k : Nat) : ∀ (n : Nat) (s : State), Steady s (State.expireLoop k n s) := by
  intro n
  induction n with
  | zero => exact fun s => Steady.refl s
  | succ n ih => exact fun s => Steady.ite ((steady_expireOnce s k).trans (ih _)) (Steady.refl s)

theorem steady_expireDue (s : State) (k : Nat) : Steady s (s.expireDue k) := steady_expireLoop k _ s

theorem steady_synchronise (s : State) (sl : Slice) (p : Path) : Steady s (s.synchronise sl p) := by
  unfold State.synchronise
  rcases claimRx_cases s with ⟨_, h⟩ | h <;> rw [h]
  · exact ((steady_withRxBlock s).trans (steady_passSlice ..)).trans (steady_setMrec ..)
  · exact steady_discardSlice ..

theorem steady_passAtE (s : State) (sl : Slice) (p : Path) : Steady s (s.passAtE sl p) := by
  unfold State.passAtE
  rcases claimRx_cases s with ⟨_, h⟩ | h <;> rw [h]
  · exact ((((steady_withRxBlock s).trans (steady_passSlice ..)).trans (steady_passRun _ _)).trans
      (steady_setMrec ..)).trans (steady_expireDue ..)
  · exact steady_discardSlice ..

theorem steady_holdSlice (s : State) (e : SeqNo) (sl : Slice) (p : Path) : Steady s (s.holdSlice e sl p) := by
  unfold State.holdSlice
  refine Steady.ite (steady_discardSlice ..) (Steady.ite (steady_discardSlice ..) ?_)
  rcases claimRx_cases s with ⟨_, h⟩ | h <;> rw [h]
  · exact (steady_withRxBlock s).trans (steady_setMrec ..)
  · exact steady_discardSlice ..

theorem steady_windowJump (s : State) (e : SeqNo) (sl : Slice) (p : Path) : Steady s (s.windowJump e sl p) := by
  unfold State.windowJump
  rcases claimRx_cases s with ⟨_, h⟩ | h <;> rw [h]
  · exact ((steady_withRxBlock s).trans (steady_passJump _ _ _)).trans (steady_setMrec ..)
  · exact steady_discardSlice ..

theorem steady_resynchronise (s : State) (sl : Slice) (p : Path) : Steady s (s.resynchronise sl p) := by
  unfold State.resynchronise
  simp only
  generalize hs2 : State.report _ _ = s2
  have h2 : Steady s s2 := by
    rw [← hs2]
    exact (((steady_returnRx ..).trans (steady_setMrec ..)).trans (steady_send ..)).trans (steady_report ..)
  rcases claimRx_cases s2 with ⟨_, h⟩ | h <;> rw [h]
  · exact ((h2.trans (steady_withRxBlock s2)).trans (steady_passSlice ..)).trans (steady_setMrec ..)
  · exact h2.trans (steady_discardSlice ..)

theorem steady_judgeSlice (s : State) (sl : Slice) (p : Path) : Steady s (s.judgeSlice sl p) := by
  unfold State.judgeSlice
  split
  · exact steady_synchronise ..
  · exact Steady.ite (steady_passAtE ..) (Steady.ite (steady_holdSlice ..) (Steady.ite (steady_windowJump ..)
      (Steady.ite (Steady.ite ((steady_setMrec ..).trans (steady_discardSlice ..)) (steady_resynchronise ..))
        (steady_discardSlice ..))))

theorem steady_takeSlice (s : State) (sl : Slice) (p : Path) : Steady s (s.takeSlice sl p) := by
  have h : ∀ s : State, Steady s (s.screenSlice sl p) := fun s =>
    Steady.ite (steady_discardSlice ..) (Steady.ite (steady_discardSlice ..) (steady_judgeSlice ..))
  exact Steady.ite ((steady_flush ..).trans (h _)) (h s)

theorem steady_nextSlice {s s1 : State} {p : Path} {sl : Slice} (h : s.nextSlice p = some (sl, s1)) : Steady s s1 := by
  unfold State.nextSlice at h
  cases p <;> simp only at h <;> split at h <;> cases h <;> exact ⟨rfl, rfl, rfl, rfl⟩

/-! ## The reassembly engine -/

theorem steady_routeMessage (s : State) (d : Descriptor) (q : SeqNo) : Steady s (s.routeMessage d q) := by
  unfold State.routeMessage State.offerToShare State.offerToProbe State.offerToQueue
  refine Steady.ite ?_ (Steady.ite ?_ ?_)
  · exact Steady.ite ⟨rfl, rfl, rfl, rfl⟩ ((steady_returnRx ..).trans (steady_report ..))
  · refine Steady.ite ?_ ((steady_returnRx ..).trans (steady_report ..))
    simp only
    split <;> exact ((steady_returnRx ..).trans (steady_report ..)).trans (steady_endProbe ..)
  · exact Steady.ite ⟨rfl, rfl, rfl, rfl⟩ (steady_abandonMessage ..)

theorem steady_abandonOpen (s : State) (c : Ctx) (r : AbandonReason) (q : SeqNo) : Steady s (s.abandonOpen c r q) :=
  ((steady_freeCtx ..).trans (steady_notDiscarding ..)).trans (steady_abandonMessage ..)

theorem steady_abandonWith (s : State) (c : Ctx) (r : AbandonReason) (q : SeqNo) (g : Nat) :
    Steady s (s.abandonWith c r q g) := (steady_freeCtx ..).trans (steady_abandonMessage ..)

theorem steady_truncateOpen (s : State) (sl : Slice) : Steady s (s.truncateOpen sl) := by
  unfold State.truncateOpen
  split
  · exact steady_abandonOpen ..
  · exact Steady.refl s

theorem steady_orphanSlice (s : State) (k : Nat) : Steady s (s.orphanSlice k) := ⟨rfl, rfl, rfl, rfl⟩

theorem steady_takeFirst (s : State) (sl : Slice) (p : Path) : Steady s (s.takeFirst sl p) := by
  have h : ∀ r, Steady s ((s.truncateOpen sl).rejectFirst sl r) := fun r =>
    ((steady_truncateOpen ..).trans (steady_toDiscarding ..)).trans (steady_abandonMessage ..)
  exact Steady.ite (h _) (Steady.ite (h _) (Steady.ite (h _)
    (((steady_truncateOpen ..).trans (steady_notDiscarding ..)).trans (steady_bindCtx ..))))

theorem steady_takeMiddle (s : State) (sl : Slice) (p : Path) : Steady s (s.takeMiddle sl p) := by
  unfold State.takeMiddle
  split
  · exact (steady_orphanSlice ..).trans (steady_toDiscarding ..)
  · exact Steady.ite ((steady_toDiscarding ..).trans (steady_abandonWith ..))
      ((steady_freeCtx ..).trans (steady_bindCtx ..))

theorem steady_takeLast (s : State) (sl : Slice) (p : Path) : Steady s (s.takeLast sl p) := by
  unfold State.takeLast
  split
  · exact (steady_orphanSlice ..).trans (steady_notDiscarding ..)
  · exact Steady.ite ((steady_notDiscarding ..).trans (steady_abandonWith ..))
      (Steady.ite ((steady_notDiscarding ..).trans (steady_abandonWith ..))
        (((steady_notDiscarding ..).trans (steady_freeCtx ..)).trans (steady_routeMessage ..)))

theorem steady_takeOnly (s : State) (sl : Slice) (p : Path) : Steady s (s.takeOnly sl p) := by
  have h : Steady s ((s.truncateOpen sl).notDiscarding sl.stream) :=
    (steady_truncateOpen ..).trans (steady_notDiscarding ..)
  exact Steady.ite (h.trans (steady_abandonMessage ..)) (Steady.ite (h.trans (steady_abandonMessage ..))
    (h.trans (steady_routeMessage ..)))

theorem steady_applyGap (s : State) (sl : Slice) (gap : Bool) : Steady s (s.applyGap sl gap) := by
  unfold State.applyGap
  split
  · split
    · exact steady_abandonOpen ..
    · exact Steady.refl s
  · exact Steady.refl s

theorem steady_engineSlice (s : State) (sl : Slice) (p : Path) (gap : Bool) : Steady s (s.engineSlice sl p gap) := by
  unfold State.engineSlice
  refine (steady_applyGap s sl gap).trans ?_
  simp only
  split
  · exact steady_takeFirst ..
  · exact steady_takeMiddle ..
  · exact steady_takeLast ..
  · exact steady_takeOnly ..

theorem steady_engineAbandon (s : State) (k : Nat) (r : AbandonReason) : Steady s (s.engineAbandon k r) := by
  unfold State.engineAbandon
  split
  · exact steady_abandonOpen ..
  · exact steady_notDiscarding ..

theorem steady_engineItem (s : State) (it : Item) : Steady s (s.engineItem it) := by
  cases it
  · exact steady_engineSlice ..
  · exact steady_engineAbandon ..

theorem steady_drainItems (k : Nat) : ∀ (n : Nat) (s : State), Steady s (State.drainItems k n s) := by
  intro n
  induction n with
  | zero => exact fun s => Steady.refl s
  | succ n ih =>
    intro s
    unfold State.drainItems
    split
    · exact ((steady_dropItem ..).trans (steady_engineItem ..)).trans (ih _)
    · exact Steady.refl s

/-! ## The local port, requests and probes -/

theorem steady_cutTransfer (s : State) : Steady s s.cutTransfer := by
  unfold State.cutTransfer
  split
  · exact ⟨rfl, rfl, rfl, rfl⟩
  all_goals exact Steady.refl s

theorem steady_tryLoadData (s : State) (k n : Nat) : Steady s (s.tryLoadData k n) := by
  unfold State.tryLoadData
  refine Steady.ite ?_ (steady_setSub ..)
  rcases claimTx_cases s (sliceCount n) with ⟨_, _, h⟩ | h <;> rw [h]
  · exact ⟨rfl, rfl, rfl, rfl⟩
  · exact steady_setSub ..

theorem steady_headerDone (s : State) (hdr : List Byte) (e : Bool) : Steady s (s.headerDone hdr e) := by
  have hm : Steady s (s.judgeMgmtHeader hdr e) :=
    Steady.ite ((steady_report ..).trans (steady_setSub ..)) (Steady.ite (steady_setSub ..) (steady_setSub ..))
  have hd : Steady s (s.judgeDataHeader hdr e) := by
    unfold State.judgeDataHeader
    simp only
    split
    · exact (steady_report ..).trans (steady_setSub ..)
    · exact steady_tryLoadData ..
  exact Steady.ite ((steady_report ..).trans (steady_setSub ..)) (Steady.ite hm hd)

theorem steady_loadFault (s : State) (n : Nat) (m : Bool) (x : Submission) : Steady s (s.loadFault n m x) :=
  ⟨rfl, rfl, rfl, rfl⟩

theorem steady_takeByte (s : State) (b : Byte) (st e : Bool) : Steady s (s.takeByte b st e) := by
  unfold State.takeByte
  split
  · exact Steady.ite (steady_setSub ..) (Steady.refl s)
  · exact Steady.ite (steady_setSub ..) (steady_headerDone ..)
  · exact Steady.refl s
  · exact Steady.refl s
  · exact Steady.ite (Steady.ite (steady_loadFault ..) (steady_setSub ..))
      (Steady.ite ⟨rfl, rfl, rfl, rfl⟩ (steady_loadFault ..))
  · exact Steady.ite (Steady.ite (steady_loadFault ..) (steady_setSub ..))
      (Steady.ite ⟨rfl, rfl, rfl, rfl⟩ (steady_loadFault ..))
  · exact steady_setSub ..

theorem steady_wakeMgmtHeader (s : State) : Steady s s.wakeMgmtHeader := by
  unfold State.wakeMgmtHeader
  split
  · exact ⟨rfl, rfl, rfl, rfl⟩
  all_goals exact Steady.refl s

theorem steady_startRequest (s : State) (r : Request) : Steady s (s.startRequest r) := by
  unfold State.startRequest
  split
  · exact steady_respond ..
  · exact ⟨rfl, rfl, rfl, rfl⟩

theorem steady_setSession (s : State) (x : Option Session) : Steady s (s.setSession x) := ⟨rfl, rfl, rfl, rfl⟩

theorem steady_startProbe (s : State) (r : Request) (n : Nat) (seed : Byte) : Steady s (s.startProbe r n seed) :=
  ((steady_flush ..).trans (steady_drainItems ..)).trans ⟨rfl, rfl, rfl, rfl⟩

/-- What an offer can do: stall, or finish the slice after copies have joined lane FIFOs with room (R114). -/
theorem offerSlice_cases (s : State) (j : Job) (sl : Slice) (el : LaneSet) :
    s.offerSlice j sl el = s.setSlicer (.stalled j sl el)
      ∨ ∃ (A B : Lane) (st : Stats),
        s.offerSlice j sl el = State.sliceDone { s with laneA := A, laneB := B, stats := st } j
          ∧ (A = s.laneA ∨ s.laneA.room = true ∧ A = s.laneA.accept sl)
          ∧ (B = s.laneB ∨ s.laneB.room = true ∧ B = s.laneB.accept sl)
          ∧ st.log = s.stats.log := by
  unfold State.offerSlice
  cases ha : el.a <;> cases hb : el.b <;> cases ra : s.laneA.room <;> cases rb : s.laneB.room
  all_goals simp only [Bool.or_true, Bool.or_false, Bool.or_self, Bool.not_true, Bool.not_false, Bool.and_self, Bool.and_true,
    Bool.and_false, if_true, if_false, Bool.false_eq_true]
  all_goals first
    | exact .inl rfl
    | exact .inl trivial
    | (right; exact ⟨_, _, _, rfl, .inl rfl, .inl rfl, rfl⟩)
    | (right; exact ⟨_, _, _, rfl, .inr ⟨trivial, rfl⟩, .inl rfl, rfl⟩)
    | (right; exact ⟨_, _, _, rfl, .inl rfl, .inr ⟨trivial, rfl⟩, rfl⟩)
    | (right; exact ⟨_, _, _, rfl, .inr ⟨trivial, rfl⟩, .inr ⟨trivial, rfl⟩, rfl⟩)

end Sys2Proof.Machine
end

