-- ==== Sys2Proof/Laws/Tables.lean ====
section
/-! SUPPORT. The laws of sparse tables: read after write, and that every write keeps the canonical form. -/

namespace Sys2Proof.Machine

variable {α : Type}

theorem SMap.find?_drop_same (m : SMap α) (k : Nat) : SMap.find? (SMap.drop m k) k = none := by
  induction m with
  | nil => rfl
  | cons e m ih =>
    by_cases h : e.1 = k
    · simpa [SMap.drop, h] using ih
    · have hd : SMap.drop (e :: m) k = e :: SMap.drop m k := by simp [SMap.drop, h]
      rw [hd]; simp [SMap.find?, h, ih]

theorem SMap.find?_drop_other (m : SMap α) {j k : Nat} (hj : j ≠ k) :
    SMap.find? (SMap.drop m k) j = SMap.find? m j := by
  induction m with
  | nil => rfl
  | cons e m ih =>
    by_cases h : e.1 = k
    · have hd : SMap.drop (e :: m) k = SMap.drop m k := by simp [SMap.drop, h]
      have : e.1 ≠ j := by omega
      rw [hd]; simp [SMap.find?, this, ih]
    · have hd : SMap.drop (e :: m) k = e :: SMap.drop m k := by simp [SMap.drop, h]
      rw [hd]; simp [SMap.find?, ih]

theorem SMap.find?_put_other (m : SMap α) {j k : Nat} (v : α) (hj : j ≠ k) :
    SMap.find? (SMap.put m k v) j = SMap.find? m j := by
  induction m with
  | nil => simp [SMap.put, SMap.find?, Ne.symm hj]
  | cons e m ih =>
    unfold SMap.put
    split
    · simp [SMap.find?, Ne.symm hj]
    · simp [SMap.find?, ih]

theorem SMap.find?_put_same (m : SMap α) (k : Nat) (v : α) (h : SMap.find? m k = none) :
    SMap.find? (SMap.put m k v) k = some v := by
  induction m with
  | nil => simp [SMap.put, SMap.find?]
  | cons e m ih =>
    have he : e.1 ≠ k := by
      intro hk; simp [SMap.find?, hk] at h
    unfold SMap.put
    split
    · simp [SMap.find?]
    · simp only [SMap.find?, he, if_false] at h ⊢
      exact ih h

/-- A read after a write to the same key gives the value written. -/
@[simp] theorem SMap.get_set_same [DecidableEq α] (d : Nat → α) (m : SMap α) (k : Nat) (v : α) :
    SMap.get d (SMap.set d m k v) k = v := by
  unfold SMap.set
  split
  · next h => simp [SMap.get, SMap.find?_drop_same, h]
  · simp [SMap.get, SMap.find?_put_same _ _ _ (SMap.find?_drop_same m k)]

/-- A write leaves every other key alone. -/
@[simp] theorem SMap.get_set_other [DecidableEq α] (d : Nat → α) (m : SMap α) {j k : Nat} (v : α) (hj : j ≠ k) :
    SMap.get d (SMap.set d m k v) j = SMap.get d m j := by
  unfold SMap.set
  split
  · simp [SMap.get, SMap.find?_drop_other m hj]
  · simp [SMap.get, SMap.find?_put_other _ _ hj, SMap.find?_drop_other m hj]

theorem SMap.get_set [DecidableEq α] (d : Nat → α) (m : SMap α) (j k : Nat) (v : α) :
    SMap.get d (SMap.set d m k v) j = if j = k then v else SMap.get d m j := by
  by_cases h : j = k
  · subst h; simp
  · simp [h]

theorem SMap.mem_put (m : SMap α) (k : Nat) (v : α) (x : Nat × α) :
    x ∈ SMap.put m k v ↔ x = (k, v) ∨ x ∈ m := by
  induction m with
  | nil => simp [SMap.put]
  | cons e m ih =>
    unfold SMap.put
    split
    · simp
    · simp [ih, or_left_comm]

/-- Putting a new key at its place keeps the keys strictly rising. -/
theorem SMap.put_sorted (m : SMap α) (k : Nat) (v : α) (hs : (m.map (·.1)).Pairwise (· < ·))
    (hk : ∀ e ∈ m, e.1 ≠ k) : ((SMap.put m k v).map (·.1)).Pairwise (· < ·) := by
  induction m with
  | nil => simp [SMap.put]
  | cons e m ih =>
    simp only [List.map_cons, List.pairwise_cons, List.mem_map] at hs
    have hek : e.1 ≠ k := hk e (by simp)
    unfold SMap.put
    split
    · next h =>
      simp only [List.map_cons, List.pairwise_cons, List.mem_cons, List.mem_map]
      refine ⟨?_, fun a ha => hs.1 a ha, hs.2⟩
      rintro a (rfl | ha)
      · exact h
      · have := hs.1 a ha; omega
    · next h =>
      simp only [List.map_cons, List.pairwise_cons, List.mem_map]
      refine ⟨?_, ih hs.2 (fun x hx => hk x (by simp [hx]))⟩
      rintro a ⟨x, hx, rfl⟩
      rcases (SMap.mem_put m k v x).1 hx with rfl | hx
      · show e.1 < k; omega
      · exact hs.1 x.1 ⟨x, hx, rfl⟩

theorem SMap.drop_wf (d : Nat → α) (m : SMap α) (k : Nat) (h : SMap.wf d m) : SMap.wf d (SMap.drop m k) := by
  refine ⟨?_, fun e he => h.2 e (List.mem_filter.1 he).1⟩
  exact h.1.sublist (List.filter_sublist.map _)

/-- Every write keeps the canonical form. -/
theorem SMap.set_wf [DecidableEq α] (d : Nat → α) (m : SMap α) (k : Nat) (v : α) (h : SMap.wf d m) :
    SMap.wf d (SMap.set d m k v) := by
  unfold SMap.set
  split
  · exact SMap.drop_wf d m k h
  · next hv =>
    have hd := SMap.drop_wf d m k h
    refine ⟨SMap.put_sorted _ _ _ hd.1 ?_, ?_⟩
    · intro e he
      simpa using (List.mem_filter.1 he).2
    · intro e he
      rcases (SMap.mem_put _ _ _ _).1 he with rfl | he
      · exact hv
      · exact hd.2 e he

theorem SMap.sum_put (f : α → Nat) (m : SMap α) (k : Nat) (v : α) :
    ((SMap.put m k v).map (fun e => f e.2)).sum = f v + (m.map (fun e => f e.2)).sum := by
  induction m with
  | nil => simp [SMap.put]
  | cons e m ih =>
    unfold SMap.put
    split
    · simp
    · simp only [List.map_cons, List.sum_cons, ih]; omega

/-- A measure summed over a table in canonical form splits into the key's share and the rest. -/
theorem SMap.sum_drop (f : α → Nat) (d : Nat → α) (m : SMap α) (k : Nat) (hd : f (d k) = 0)
    (h : (m.map (·.1)).Pairwise (· < ·)) :
    ((SMap.drop m k).map (fun e => f e.2)).sum + f (SMap.get d m k) = (m.map (fun e => f e.2)).sum := by
  induction m with
  | nil => simp [SMap.drop, SMap.get, SMap.find?, hd]
  | cons e m ih =>
    simp only [List.map_cons, List.pairwise_cons, List.mem_map] at h
    by_cases he : e.1 = k
    · have hnone : SMap.drop m k = m := by
        refine List.filter_eq_self.2 (fun x hx => ?_)
        have := h.1 x.1 ⟨x, hx, rfl⟩
        simp; omega
      have hdrop : SMap.drop (e :: m) k = SMap.drop m k := by simp [SMap.drop, he]
      rw [hdrop, hnone]
      simp [SMap.get, SMap.find?, he]; omega
    · have hdrop : SMap.drop (e :: m) k = e :: SMap.drop m k := by simp [SMap.drop, he]
      have hget : SMap.get d (e :: m) k = SMap.get d m k := by simp [SMap.get, SMap.find?, he]
      have := ih h.2
      rw [hdrop, hget]; simp only [List.map_cons, List.sum_cons]; omega

/-- What a write does to a measure summed over a table in canonical form. -/
theorem SMap.sum_set [DecidableEq α] (f : α → Nat) (d : Nat → α) (m : SMap α) (k : Nat) (v : α) (hd : f (d k) = 0)
    (h : SMap.wf d m) :
    ((SMap.set d m k v).map (fun e => f e.2)).sum + f (SMap.get d m k) = f v + (m.map (fun e => f e.2)).sum := by
  have hs := SMap.sum_drop f d m k hd h.1
  unfold SMap.set
  split
  · next hv => subst hv; omega
  · rw [SMap.sum_put]; omega

end Sys2Proof.Machine
end

