-- ==== Sys2Proof/Laws/Blocks.lean ====
section
/-! SUPPORT. What each shared operation does to the balance between the pool's counts and the blocks its holders hold
(R80, R84, R86). -/

namespace Sys2Proof.Machine

/-- The counts sum to 4096; the receive-held count exceeds the receive side's holders by `er`, the transmit-held count
the transmit side's by `et`; the merge records are sound and a payload loading is incomplete. Between operations both are
0. -/
def State.balanced (s : State) (er et : Int) : Prop :=
  s.pool.free + s.pool.rx + s.pool.tx = Config.poolBlocks ∧ (s.pool.rx : Int) = s.rxHolders + er
    ∧ (s.pool.tx : Int) = s.txHolders + et ∧ s.recsSound ∧ s.sub.incomplete

theorem State.balanced.to {s : State} {er et er' et' : Int} (h : s.balanced er et) (hr : er = er') (ht : et = et') :
    s.balanced er' et' := by subst hr ht; exact h

theorem State.balanced_ite {t u : State} {er et : Int} {p : Prop} [Decidable p] (h : t.balanced er et)
    (h' : u.balanced er et) : (if p then t else u).balanced er et := by
  split <;> assumption

/-- What the balance rests on. -/
theorem State.balanced.congr {s t : State} {er et : Int} (h : s.balanced er et) (hp : t.pool = s.pool)
    (hm : t.merge.recs = s.merge.recs) (hi : t.engine.items = s.engine.items) (hc : t.engine.ctxs = s.engine.ctxs)
    (hq : t.delivery.dqs = s.delivery.dqs) (hx : t.delivery.transfer = s.delivery.transfer) (hs : t.sub = s.sub)
    (hf : t.slicer.fifo = s.slicer.fifo) (hj : t.slicer.state = s.slicer.state) : t.balanced er et := by
  unfold State.balanced State.rxHolders State.txHolders State.heldInUse State.recsSound State.mrec at *
  rw [hp, hm, hi, hc, hq, hx, hs, hf, hj]; exact h

/-! ## Measures -/

theorem heldInUse_setMrec {s : State} (h : SMap.wf (fun _ => MergeRec.fresh) s.merge.recs) (k : Nat) (r : MergeRec) :
    (s.setMrec k r).heldInUse + (s.mrec k).held.length = r.held.length + s.heldInUse :=
  SMap.sum_set (fun r : MergeRec => r.held.length) (fun _ => MergeRec.fresh) s.merge.recs k r rfl h

theorem held_le_heldInUse {s : State} (h : SMap.wf (fun _ => MergeRec.fresh) s.merge.recs) (k : Nat) :
    (s.mrec k).held.length ≤ s.heldInUse := by
  have := heldInUse_setMrec h k MergeRec.fresh
  have h0 : MergeRec.fresh.held.length = 0 := rfl
  omega

theorem setMrec_mrec (s : State) (k j : Nat) (r : MergeRec) : (s.setMrec k r).mrec j = if j = k then r else s.mrec j :=
  SMap.get_set _ _ _ _ _

theorem recsSound_setMrec {s : State} (h : s.recsSound) (k : Nat) {r : MergeRec} (hr : r.sync = none → r.held = []) :
    (s.setMrec k r).recsSound := by
  refine ⟨SMap.set_wf _ _ _ _ h.1, fun j hj => ?_⟩
  rw [setMrec_mrec] at hj ⊢
  split at hj
  · next hjk => rw [if_pos hjk]; exact hr hj
  · next hjk => rw [if_neg hjk]; exact h.2 j hj

theorem itemBlocks_append (xs ys : List Item) : itemBlocks (xs ++ ys) = itemBlocks xs + itemBlocks ys := by
  simp [itemBlocks]

theorem ctxBlocks_append (xs ys : List Ctx) : ctxBlocks (xs ++ ys) = ctxBlocks xs + ctxBlocks ys := by
  simp [ctxBlocks]

theorem frameBlocks_append (xs ys : List Frame) : frameBlocks (xs ++ ys) = frameBlocks xs + frameBlocks ys := by
  simp [frameBlocks]

theorem sum_eraseP {α : Type} (f : α → Nat) (p : α → Bool) (l : List α) (a : α) (h : l.find? p = some a) :
    ((l.eraseP p).map f).sum + f a = (l.map f).sum := by
  induction l with
  | nil => cases h
  | cons x xs ih =>
    by_cases hx : p x = true
    · rw [List.find?_cons_of_pos hx] at h; cases h
      rw [List.eraseP_cons_of_pos hx, List.map_cons, List.sum_cons]; omega
    · rw [List.find?_cons_of_neg hx] at h
      rw [List.eraseP_cons_of_neg hx]
      have := ih h
      simp only [List.map_cons, List.sum_cons]; omega

theorem ctxBlocks_erase (cs : List Ctx) (k : Nat) (c : Ctx) (h : cs.find? (fun c => c.stream == k) = some c) :
    ctxBlocks (cs.eraseP (fun c => c.stream == k)) + c.blocks.length = ctxBlocks cs :=
  sum_eraseP (fun c : Ctx => c.blocks.length) (fun c => c.stream == k) cs c h

/-- The blocks an item carries. -/
def Item.blocks : Item → Nat
  | .slice _ _ _ => 1
  | .abandon _ _ => 0

theorem itemBlocks_eq (xs : List Item) : itemBlocks xs = (xs.map Item.blocks).sum := by
  unfold itemBlocks; congr 1

theorem itemBlocks_erase (xs : List Item) (k : Nat) (it : Item) (h : xs.find? (fun it => it.stream == k) = some it) :
    itemBlocks (xs.eraseP (fun it => it.stream == k)) + it.blocks = itemBlocks xs := by
  rw [itemBlocks_eq, itemBlocks_eq]; exact sum_eraseP Item.blocks (fun it => it.stream == k) xs it h

theorem descBlocks_append (xs ys : List Descriptor) : descBlocks (xs ++ ys) = descBlocks xs + descBlocks ys := by
  simp [descBlocks]

theorem queueBlocks_set (p : PerQueue (List Descriptor)) (q : QueueId) (l : List Descriptor) :
    queueBlocks (p.set q l) + descBlocks (p.get q) = descBlocks l + queueBlocks p := by
  cases q <;> simp only [queueBlocks, PerQueue.set, PerQueue.get] <;> omega

theorem nextItem_stream {s : State} {k : Nat} {it : Item} (h : s.nextItem k = some it) : it.stream = k := by
  have := List.find?_some h; simpa using this

theorem ctxOf_stream {s : State} {k : Nat} {c : Ctx} (h : s.ctxOf k = some c) : c.stream = k := by
  have := List.find?_some h; simpa using this

/-! ## The pool -/

theorem balanced_returnRx {s : State} {er et : Int} (n : Nat) (h : s.balanced er et) (hn : (n : Int) ≤ s.rxHolders + er) :
    (s.returnRx n).balanced (er - n) et := by
  obtain ⟨h1, h2, h3, h4, h5⟩ := h
  refine ⟨?_, ?_, h3, h4, h5⟩
  · show s.pool.free + n + (s.pool.rx - n) + s.pool.tx = _; omega
  · show ((s.pool.rx - n : Nat) : Int) = s.rxHolders + (er - n); omega

theorem balanced_returnTx {s : State} {er et : Int} (n : Nat) (h : s.balanced er et) (hn : (n : Int) ≤ s.txHolders + et) :
    (s.returnTx n).balanced er (et - n) := by
  obtain ⟨h1, h2, h3, h4, h5⟩ := h
  refine ⟨?_, h2, ?_, h4, h5⟩
  · show s.pool.free + n + s.pool.rx + (s.pool.tx - n) = _; omega
  · show ((s.pool.tx - n : Nat) : Int) = s.txHolders + (et - n); omega

theorem balanced_withRxBlock {s : State} {er et : Int} (hc : s.mayClaimRx) (h : s.balanced er et) :
    s.withRxBlock.balanced (er + 1) et := by
  obtain ⟨h1, h2, h3, h4, h5⟩ := h
  have hc2 : 0 < s.pool.free := hc.2
  refine ⟨?_, ?_, h3, h4, h5⟩
  · show s.pool.free - 1 + (s.pool.rx + 1) + s.pool.tx = _; omega
  · show ((s.pool.rx + 1 : Nat) : Int) = s.rxHolders + (er + 1); omega

theorem balanced_report {s : State} {er et : Int} (f : Stats → Stats) (h : s.balanced er et) :
    (s.report f).balanced er et := h

theorem balanced_setMrec {s : State} {er et : Int} (k : Nat) {r : MergeRec} (h : s.balanced er et)
    (hr : r.sync = none → r.held = []) :
    (s.setMrec k r).balanced (er + (s.mrec k).held.length - r.held.length) et := by
  obtain ⟨h1, h2, h3, h4, h5⟩ := h
  have hh := heldInUse_setMrec h4.1 k r
  refine ⟨h1, ?_, h3, recsSound_setMrec h4 k hr, h5⟩
  have h6 : (s.setMrec k r).rxHolders + s.heldInUse = s.rxHolders + (s.setMrec k r).heldInUse := by
    unfold State.rxHolders; simp only [State.setMrec_engine, State.setMrec_delivery]; omega
  show (s.pool.rx : Int) = _; omega

/-! ## Passing and flushing -/

theorem balanced_send {s : State} {er et : Int} (it : Item) (h : s.balanced er et) :
    (s.send it).balanced (er - it.blocks) et := by
  obtain ⟨h1, h2, h3, h4, h5⟩ := h
  refine ⟨h1, ?_, h3, h4, h5⟩
  have hi : itemBlocks (s.engine.items ++ [it]) = itemBlocks s.engine.items + it.blocks := by
    rw [itemBlocks_append]; simp [itemBlocks_eq]
  have : (s.send it).rxHolders = s.rxHolders + it.blocks := by
    show s.heldInUse + itemBlocks (s.engine.items ++ [it]) + ctxBlocks s.engine.ctxs + queueBlocks s.delivery.dqs
      + transferBlocks s.delivery.transfer = _
    rw [hi]; unfold State.rxHolders; omega
  show (s.pool.rx : Int) = _; omega

theorem balanced_passSlice {s : State} {er et : Int} (sl : Slice) (p : Path) (gap : Bool) (h : s.balanced er et) :
    (s.passSlice sl p gap).balanced (er - 1) et := balanced_send (.slice sl p gap) h

theorem balanced_passRun (hs : List Held) : ∀ {s : State} {er et : Int}, s.balanced er et →
    (s.passRun hs).balanced (er - hs.length) et := by
  induction hs with
  | nil => exact fun h => h.to (by simp) rfl
  | cons x xs ih =>
    intro s er et h
    exact (ih (balanced_passSlice x.slice x.path false h)).to (by simp only [List.length_cons]; omega) rfl

theorem balanced_passJump (hs : List Held) : ∀ {s : State} {er et : Int} (e : SeqNo), s.balanced er et →
    (s.passJump e hs).balanced (er - hs.length) et := by
  induction hs with
  | nil => exact fun e h => h.to (by simp) rfl
  | cons x xs ih =>
    intro s er et e h
    exact (ih (x.slice.seq + 1) (balanced_passSlice x.slice x.path (x.slice.seq != e) h)).to
      (by simp only [List.length_cons]; omega) rfl

theorem balanced_flush {s : State} {er et : Int} (k : Nat) (r : AbandonReason) (h : s.balanced er et) (he : 0 ≤ er) :
    (s.flush k r).balanced er et := by
  have hl := held_le_heldInUse h.2.2.2.1.1 k
  have hx : s.heldInUse ≤ s.rxHolders := by unfold State.rxHolders; omega
  have h1 := balanced_returnRx (s.mrec k).held.length h (by omega)
  have h2 := balanced_setMrec k (r := MergeRec.fresh) h1 (fun _ => rfl)
  have h3 : ((s.returnRx (s.mrec k).held.length).mrec k).held.length = (s.mrec k).held.length := rfl
  have h4 : MergeRec.fresh.held.length = 0 := rfl
  have h5 := h2.to (er' := er) (et' := et) (by omega) rfl
  exact (balanced_send (.abandon k r)
    (State.balanced.congr (t := { (s.returnRx (s.mrec k).held.length).setMrec k MergeRec.fresh with
      merge :=
        { ((s.returnRx (s.mrec k).held.length).setMrec k MergeRec.fresh).merge with
          pendingFlush := clearMark s.merge.pendingFlush k } }) h5 rfl rfl rfl rfl rfl rfl rfl rfl rfl)).to
    (by simp [Item.blocks]) rfl

/-! ## Responses, probes and restarts -/

theorem balanced_respond {s : State} {er et : Int} (r : Request) (st : Status) (d : List Byte) (h : s.balanced er et) :
    (s.respond r st d).balanced er et := by
  unfold State.respond
  cases r.source <;> exact h

theorem balanced_freeBuffer {s : State} {er et : Int} (src : Source) (h : s.balanced er et) :
    (s.freeBuffer src).balanced er et := by
  cases src <;> exact h

theorem balanced_partDone {s : State} {er et : Int} (p : Part) (h : s.balanced er et) :
    (s.partDone p).balanced er et := by
  unfold State.partDone
  split
  · split
    · exact balanced_respond _ _ _ h
    · exact h
  all_goals exact h

theorem balanced_endProbe {s : State} {er et : Int} (a b : Byte) (n off : Nat) (l : LaneSet) (h : s.balanced er et) :
    (s.endProbe a b n off l).balanced er et := by
  unfold State.endProbe
  split
  · split
    · exact balanced_respond _ _ _ h
    · exact h
  all_goals exact h

theorem balanced_abandonMessage {s : State} {er et : Int} (k : Nat) (r : AbandonReason) (q : SeqNo) (g n : Nat)
    (h : s.balanced (er + n) et) (he : 0 ≤ er) : (s.abandonMessage k r q g n).balanced er et := by
  have h1 := (balanced_returnRx n h (by omega)).to (er' := er) (et' := et) (by omega) rfl
  unfold State.abandonMessage State.informProbe
  refine State.balanced_ite (balanced_endProbe _ _ _ _ _ ?_) ?_ <;> exact h1

/-! ## Contexts, items and routing -/

theorem balanced_freeCtx {s : State} {er et : Int} {k : Nat} {c : Ctx} (hc : s.ctxOf k = some c)
    (h : s.balanced er et) : (s.freeCtx k).balanced (er + c.blocks.length) et := by
  obtain ⟨h1, h2, h3, h4, h5⟩ := h
  have he := ctxBlocks_erase _ _ _ hc
  refine ⟨h1, ?_, h3, h4, h5⟩
  have : (s.freeCtx k).rxHolders + c.blocks.length = s.rxHolders := by
    show s.heldInUse + itemBlocks s.engine.items + ctxBlocks (s.engine.ctxs.eraseP (fun c => c.stream == k))
      + queueBlocks s.delivery.dqs + transferBlocks s.delivery.transfer + _ = _
    unfold State.rxHolders; omega
  show (s.pool.rx : Int) = _; omega

theorem balanced_bindCtx {s : State} {er et : Int} (c : Ctx) (h : s.balanced er et) :
    (s.bindCtx c).balanced (er - c.blocks.length) et := by
  obtain ⟨h1, h2, h3, h4, h5⟩ := h
  refine ⟨h1, ?_, h3, h4, h5⟩
  have : (s.bindCtx c).rxHolders = s.rxHolders + c.blocks.length := by
    show s.heldInUse + itemBlocks s.engine.items + ctxBlocks (s.engine.ctxs ++ [c])
      + queueBlocks s.delivery.dqs + transferBlocks s.delivery.transfer = _
    rw [ctxBlocks_append]; unfold State.rxHolders; simp [ctxBlocks]; omega
  show (s.pool.rx : Int) = _; omega

theorem balanced_toDiscarding {s : State} {er et : Int} (k : Nat) (h : s.balanced er et) :
    (s.toDiscarding k).balanced er et := h

theorem balanced_notDiscarding {s : State} {er et : Int} (k : Nat) (h : s.balanced er et) :
    (s.notDiscarding k).balanced er et := h

theorem balanced_dropItem {s : State} {er et : Int} {k : Nat} {it : Item} (hi : s.nextItem k = some it)
    (h : s.balanced er et) : (s.dropItem k).balanced (er + it.blocks) et := by
  obtain ⟨h1, h2, h3, h4, h5⟩ := h
  have he := itemBlocks_erase _ _ _ hi
  refine ⟨h1, ?_, h3, h4, h5⟩
  have : (s.dropItem k).rxHolders + it.blocks = s.rxHolders := by
    show s.heldInUse + itemBlocks (s.engine.items.eraseP (fun it => it.stream == k)) + ctxBlocks s.engine.ctxs
      + queueBlocks s.delivery.dqs + transferBlocks s.delivery.transfer + _ = _
    unfold State.rxHolders; omega
  show (s.pool.rx : Int) = _; omega

theorem balanced_routeMessage {s : State} {er et : Int} (d : Descriptor) (q : SeqNo)
    (h : s.balanced (er + d.blocks.length) et) (he : 0 ≤ er) : (s.routeMessage d q).balanced er et := by
  have h1 := (balanced_returnRx d.blocks.length h (by omega)).to (er' := er) (et' := et) (by omega) rfl
  unfold State.routeMessage State.offerToShare State.offerToProbe State.offerToQueue
  refine State.balanced_ite (State.balanced_ite h1 h1) (State.balanced_ite (State.balanced_ite ?_ h1)
    (State.balanced_ite ?_ (balanced_abandonMessage _ _ _ _ _ h he)))
  · simp only
    split <;> exact balanced_endProbe _ _ _ _ _ h1
  · obtain ⟨a, b, c, e⟩ := h
    refine ⟨a, ?_, c, e⟩
    have hq := queueBlocks_set s.delivery.dqs (s.entry d.stream).queue
      (s.delivery.dqs.get (s.entry d.stream).queue ++ [d])
    rw [descBlocks_append] at hq
    have hd : descBlocks [d] = d.blocks.length := by simp [descBlocks]
    show (s.pool.rx : Int) = ((s.heldInUse + itemBlocks s.engine.items + ctxBlocks s.engine.ctxs
      + queueBlocks (s.delivery.dqs.set (s.entry d.stream).queue (s.delivery.dqs.get (s.entry d.stream).queue ++ [d]))
      + transferBlocks s.delivery.transfer : Nat) : Int) + er
    unfold State.rxHolders at b
    omega

/-! ## The merge unit's judgements -/

theorem releaseRun_length (hs : List Held) : ∀ e : SeqNo,
    (releaseRun e hs).1.length + (releaseRun e hs).2.2.length = hs.length := by
  induction hs with
  | nil => exact fun _ => rfl
  | cons h hs ih =>
    intro e
    unfold releaseRun
    split
    · have := ih (e + 1)
      simp only [List.length_cons]; omega
    · simp

theorem insertHeld_length (e : SeqNo) (h : Held) (hs : List Held) : (insertHeld e h hs).length = hs.length + 1 := by
  induction hs with
  | nil => rfl
  | cons x xs ih => unfold insertHeld; split <;> simp [ih]

theorem steadyRecs_passRun (hs : List Held) : ∀ s : State, (s.passRun hs).merge = s.merge := by
  induction hs with
  | nil => exact fun _ => rfl
  | cons h hs ih => exact fun s => (ih _).trans rfl

theorem steadyRecs_passJump (hs : List Held) : ∀ (s : State) (e : SeqNo), (s.passJump e hs).merge = s.merge := by
  induction hs with
  | nil => exact fun _ _ => rfl
  | cons h hs ih => exact fun s e => (ih _ _).trans rfl

theorem mrec_congr {s t : State} (h : t.merge = s.merge) (k : Nat) : t.mrec k = s.mrec k := by
  unfold State.mrec; rw [h]

theorem balanced_expireOnce {s : State} {er et : Int} (k : Nat) (h : s.balanced er et) :
    (s.expireOnce k).balanced er et := by
  unfold State.expireOnce
  split
  · exact h
  · next x xs hx =>
    have hl := releaseRun_length xs (x.slice.seq + 1)
    have h1 := balanced_passRun (releaseRun (x.slice.seq + 1) xs).1 (balanced_passSlice x.slice x.path true h)
    have hm : (((s.passSlice x.slice x.path true).passRun (releaseRun (x.slice.seq + 1) xs).1).mrec k).held = x :: xs := by
      rw [← hx, mrec_congr (steadyRecs_passRun _ _)]; rfl
    refine (balanced_setMrec k h1 (fun hc => by cases hc)).to ?_ rfl
    rw [hm]; simp only [List.length_cons]; omega

theorem balanced_expireLoop (k : Nat) : ∀ (n : Nat) {s : State} {er et : Int}, s.balanced er et →
    (State.expireLoop k n s).balanced er et := by
  intro n
  induction n with
  | zero => exact fun h => h
  | succ n ih => exact fun h => State.balanced_ite (ih (balanced_expireOnce k h)) h

theorem balanced_expireDue {s : State} {er et : Int} (k : Nat) (h : s.balanced er et) :
    (s.expireDue k).balanced er et := balanced_expireLoop k _ h

theorem balanced_judgeSlice {s : State} {er et : Int} (sl : Slice) (p : Path) (h : s.balanced er et) (he : 0 ≤ er) :
    (s.judgeSlice sl p).balanced er et := by
  unfold State.judgeSlice
  split
  · next hs =>
    unfold State.synchronise
    rcases claimRx_cases s with ⟨hc, hx⟩ | hx <;> rw [hx]
    · have hn : (s.mrec sl.stream).held = [] := h.2.2.2.1.2 _ hs
      refine (balanced_setMrec sl.stream (balanced_passSlice sl p true (balanced_withRxBlock hc h))
        (fun hc => by cases hc)).to ?_ rfl
      have : ((s.withRxBlock.passSlice sl p true).mrec sl.stream).held = [] := hn
      rw [this]; simp
    · exact h
  · next e hs =>
    simp only
    refine State.balanced_ite ?_ (State.balanced_ite ?_ (State.balanced_ite ?_ (State.balanced_ite ?_ h)))
    · unfold State.passAtE
      rcases claimRx_cases s with ⟨hc, hx⟩ | hx <;> rw [hx]
      · have hl := releaseRun_length (s.mrec sl.stream).held (sl.seq + 1)
        have h1 := balanced_passRun (releaseRun (sl.seq + 1) (s.mrec sl.stream).held).1
          (balanced_passSlice sl p false (balanced_withRxBlock hc h))
        refine balanced_expireDue _ ((balanced_setMrec sl.stream h1 (fun hc => by cases hc)).to ?_ rfl)
        rw [mrec_congr (steadyRecs_passRun _ _)]
        have : ((s.withRxBlock.passSlice sl p false).mrec sl.stream).held = (s.mrec sl.stream).held := rfl
        rw [this]; simp only; omega
      · exact h
    · unfold State.holdSlice
      refine State.balanced_ite h (State.balanced_ite h ?_)
      rcases claimRx_cases s with ⟨hc, hx⟩ | hx <;> rw [hx]
      · refine (balanced_setMrec sl.stream (balanced_withRxBlock hc h) (fun hc => by cases hc)).to ?_ rfl
        have : (s.withRxBlock.mrec sl.stream).held = (s.mrec sl.stream).held := rfl
        rw [this, insertHeld_length]; omega
      · exact h
    · unfold State.windowJump
      rcases claimRx_cases s with ⟨hc, hx⟩ | hx <;> rw [hx]
      · have h1 := balanced_passJump ((s.mrec sl.stream).held ++ [{ slice := sl, arrival := s.time, path := p }]) e
          (balanced_withRxBlock hc h)
        refine (balanced_setMrec sl.stream h1 (fun hc => by cases hc)).to ?_ rfl
        rw [mrec_congr (steadyRecs_passJump _ _ _)]
        have : (s.withRxBlock.mrec sl.stream).held = (s.mrec sl.stream).held := rfl
        rw [this]; simp
      · exact h
    · unfold State.staleSlice
      refine State.balanced_ite ?_ ?_
      · refine (balanced_setMrec sl.stream h (fun hc => ?_)).to ?_ rfl
        · rw [show (s.mrec sl.stream).sync = none from hc] at hs; cases hs
        · simp
      · unfold State.resynchronise
        have hl := held_le_heldInUse h.2.2.2.1.1 sl.stream
        have hh : s.heldInUse ≤ s.rxHolders := by unfold State.rxHolders; omega
        have h1 := balanced_returnRx (s.mrec sl.stream).held.length h (by omega)
        have h2 := balanced_setMrec sl.stream (r := MergeRec.fresh) h1 (fun _ => rfl)
        have h3 : ((s.returnRx (s.mrec sl.stream).held.length).mrec sl.stream).held.length
            = (s.mrec sl.stream).held.length := rfl
        have h4 : MergeRec.fresh.held.length = 0 := rfl
        have h5 := balanced_report (fun st => st.event .resyncEvents)
          ((balanced_send (.abandon sl.stream .resync) h2).to (er' := er) (et' := et)
            (by simp only [Item.blocks]; omega) rfl)
        simp only
        generalize hz : (State.report _ (fun st => st.event .resyncEvents)) = z at h5
        have hzm : (z.mrec sl.stream).held = [] := by
          rw [← hz]
          show (((s.returnRx (s.mrec sl.stream).held.length).setMrec sl.stream MergeRec.fresh).mrec sl.stream).held = []
          rw [setMrec_mrec, if_pos rfl]; rfl
        rcases claimRx_cases z with ⟨hc, hx⟩ | hx <;> rw [hx]
        · refine (balanced_setMrec sl.stream (balanced_passSlice sl p true (balanced_withRxBlock hc h5))
            (fun hc => by cases hc)).to ?_ rfl
          have : ((z.withRxBlock.passSlice sl p true).mrec sl.stream).held = (z.mrec sl.stream).held := rfl
          rw [this, hzm]; simp
        · exact h5

theorem balanced_takeSlice {s : State} {er et : Int} (sl : Slice) (p : Path) (h : s.balanced er et) (he : 0 ≤ er) :
    (s.takeSlice sl p).balanced er et := by
  have hs : ∀ {t : State}, t.balanced er et → (t.screenSlice sl p).balanced er et := fun h =>
    State.balanced_ite h (State.balanced_ite h (balanced_judgeSlice sl p h he))
  exact State.balanced_ite (hs (balanced_flush _ _ h he)) (hs h)

/-! ## The engine's dealings -/

theorem balanced_abandonOpen {s : State} {er et : Int} {k : Nat} {c : Ctx} (hc : s.ctxOf k = some c) (r : AbandonReason)
    (q : SeqNo) (h : s.balanced er et) (he : 0 ≤ er) : (s.abandonOpen c r q).balanced er et := by
  have hk := ctxOf_stream hc
  unfold State.abandonOpen
  rw [hk]
  exact balanced_abandonMessage _ _ _ _ _ (balanced_notDiscarding k (balanced_freeCtx hc h)) he

theorem balanced_abandonWith {s : State} {er et : Int} {k : Nat} {c : Ctx} (hc : s.ctxOf k = some c) (r : AbandonReason)
    (q : SeqNo) (g : Nat) (h : s.balanced (er + 1) et) (he : 0 ≤ er) : (s.abandonWith c r q g).balanced er et := by
  have hk := ctxOf_stream hc
  unfold State.abandonWith
  rw [hk]
  exact balanced_abandonMessage _ _ _ _ _ ((balanced_freeCtx hc h).to (by omega) rfl) he

theorem balanced_truncateOpen {s : State} {er et : Int} (sl : Slice) (h : s.balanced er et) (he : 0 ≤ er) :
    (s.truncateOpen sl).balanced er et := by
  unfold State.truncateOpen
  split
  · next hc => exact balanced_abandonOpen hc _ _ h he
  · exact h

theorem balanced_orphanSlice {s : State} {er et : Int} (k : Nat) (h : s.balanced (er + 1) et) (he : 0 ≤ er) :
    (s.orphanSlice k).balanced er et :=
  (balanced_report (fun st => st.discardedSlice k .orphan) (balanced_returnRx 1 h (by omega))).to (by omega) rfl

theorem balanced_engineSlice {s : State} {er et : Int} (sl : Slice) (p : Path) (gap : Bool)
    (h : s.balanced (er + 1) et) (he : 0 ≤ er) : (s.engineSlice sl p gap).balanced er et := by
  unfold State.engineSlice
  have h1 : (s.applyGap sl gap).balanced (er + 1) et := by
    unfold State.applyGap
    refine State.balanced_ite ?_ h
    split
    · next hc => exact balanced_abandonOpen hc _ _ h (by omega)
    · exact h
  generalize s.applyGap sl gap = s1 at h1
  simp only
  split
  · unfold State.takeFirst
    have h2 := balanced_truncateOpen sl h1 (by omega)
    generalize s1.truncateOpen sl = s2 at h2
    have hr : ∀ r, (s2.rejectFirst sl r).balanced er et := fun r =>
      balanced_abandonMessage _ _ _ _ _ (balanced_toDiscarding sl.stream h2) he
    exact State.balanced_ite (hr _) (State.balanced_ite (hr _) (State.balanced_ite (hr _)
      ((balanced_bindCtx _ (balanced_notDiscarding sl.stream h2)).to (by simp) rfl)))
  · unfold State.takeMiddle
    split
    · exact balanced_toDiscarding _ (balanced_orphanSlice _ h1 he)
    · next c hc =>
      refine State.balanced_ite (balanced_abandonWith (s := s1.toDiscarding sl.stream) hc _ _ _ h1 he) ?_
      refine (balanced_bindCtx _ (balanced_freeCtx hc h1)).to ?_ rfl
      simp only [Ctx.append, List.length_append, List.length_cons, List.length_nil]; omega
  · unfold State.takeLast
    split
    · exact balanced_notDiscarding _ (balanced_orphanSlice _ h1 he)
    · next c hc =>
      have hw : ∀ r q g, ((s1.notDiscarding sl.stream).abandonWith c r q g).balanced er et := fun r q g =>
        balanced_abandonWith (s := s1.notDiscarding sl.stream) hc _ _ _ h1 he
      refine State.balanced_ite (hw _ _ _) (State.balanced_ite (hw _ _ _) (balanced_routeMessage _ _ ?_ he))
      refine (balanced_freeCtx (s := s1.notDiscarding sl.stream) hc h1).to ?_ rfl
      simp only [List.length_append, List.length_cons, List.length_nil]; omega
  · unfold State.takeOnly
    have h2 := balanced_notDiscarding sl.stream (balanced_truncateOpen sl h1 (by omega))
    generalize (s1.truncateOpen sl).notDiscarding sl.stream = s2 at h2
    exact State.balanced_ite (balanced_abandonMessage _ _ _ _ _ h2 he)
      (State.balanced_ite (balanced_abandonMessage _ _ _ _ _ h2 he) (balanced_routeMessage _ _ h2 he))

theorem balanced_engineAbandon {s : State} {er et : Int} (k : Nat) (r : AbandonReason) (h : s.balanced er et)
    (he : 0 ≤ er) : (s.engineAbandon k r).balanced er et := by
  unfold State.engineAbandon
  split
  · next hc => exact balanced_abandonOpen hc _ _ h he
  · exact h

theorem balanced_drainItems (k : Nat) : ∀ (n : Nat) {s : State} {er et : Int}, s.balanced er et → 0 ≤ er →
    (State.drainItems k n s).balanced er et := by
  intro n
  induction n with
  | zero => exact fun h _ => h
  | succ n ih =>
    intro s er et h he
    unfold State.drainItems
    split
    · next it hi =>
      refine ih ?_ he
      have h1 := balanced_dropItem hi h
      cases it
      · exact balanced_engineSlice _ _ _ h1 he
      · exact balanced_engineAbandon _ _ (h1.to (by simp [Item.blocks]) rfl) he
    · exact h

/-! ## The slicer and the submission side -/

/-- The slices of a job not yet done, as blocks. -/
def Job.blocks (j : Job) : Nat := if j.kind = .data then j.pieces.length else 0

theorem slicerBlocks_slicing (j : Job) : slicerBlocks (.slicing j) = j.blocks := rfl

theorem slicerBlocks_stalled (j : Job) (sl : Slice) (el : LaneSet) :
    slicerBlocks (.stalled j sl el) = j.blocks + if j.kind = .data then 1 else 0 := by
  show (if j.kind = .data then j.pieces.length + 1 else 0) = _
  unfold Job.blocks; split <;> rfl

theorem balanced_setSlicer {s : State} {er et : Int} (x : SlicerState) (h : s.balanced er et) :
    (s.setSlicer x).balanced er (et + slicerBlocks s.slicer.state - slicerBlocks x) := by
  obtain ⟨h1, h2, h3, h4, h5⟩ := h
  refine ⟨h1, h2, ?_, h4, h5⟩
  have : (s.setSlicer x).txHolders + slicerBlocks s.slicer.state = s.txHolders + slicerBlocks x := by
    show reservedBlocks s.sub + frameBlocks s.slicer.fifo + slicerBlocks x + _ = _
    unfold State.txHolders; omega
  show (s.pool.tx : Int) = _; omega

theorem messageSliced_slicer (s : State) (j : Job) : (s.messageSliced j).slicer = s.slicer := by
  unfold State.messageSliced State.probeSent
  split
  · rfl
  · rfl
  · split <;> rfl

theorem balanced_messageSliced {s : State} {er et : Int} (j : Job) (h : s.balanced er et) :
    (s.messageSliced j).balanced er et := by
  unfold State.messageSliced State.probeSent
  split
  · exact h
  · exact h
  · split <;> exact h

/-- A slice is done: with the job's slice still counted, the balance is kept. -/
theorem balanced_sliceDone {s : State} {er et : Int} (j : Job) (h : s.balanced er et) (he : 0 ≤ et)
    (hb : slicerBlocks s.slicer.state = j.blocks + if j.kind = .data then 1 else 0) :
    (s.sliceDone j).balanced er et := by
  unfold State.sliceDone
  have hx : slicerBlocks s.slicer.state ≤ s.txHolders := by unfold State.txHolders; omega
  have h1 : (if j.kind = .data then s.returnTx 1 else s).balanced er (et - if j.kind = .data then 1 else 0) := by
    split
    · next hk =>
      rw [if_pos hk] at hb
      exact balanced_returnTx 1 h (by omega)
    · exact h.to rfl (by simp)
  have hs : (if j.kind = .data then s.returnTx 1 else s).slicer = s.slicer := by split <;> rfl
  generalize (if j.kind = .data then s.returnTx 1 else s) = s1 at h1 hs
  simp only
  split
  · next hp =>
    refine (balanced_setSlicer .idle (balanced_messageSliced j h1)).to rfl ?_
    rw [messageSliced_slicer, hs, hb]
    have : j.blocks = 0 := by
      unfold Job.blocks; rw [List.isEmpty_iff.1 hp]; split <;> rfl
    rw [this]; show et - _ + _ - ((0 : Nat) : Int) = et
    split <;> simp
  · refine (balanced_setSlicer (.slicing j) h1).to rfl ?_
    rw [hs, hb, slicerBlocks_slicing]
    split <;> simp

theorem balanced_offerSlice {s : State} {er et : Int} (j : Job) (sl : Slice) (el : LaneSet) (h : s.balanced er et)
    (he : 0 ≤ et) (hb : slicerBlocks s.slicer.state = j.blocks + if j.kind = .data then 1 else 0) :
    (s.offerSlice j sl el).balanced er et := by
  rcases offerSlice_cases s j sl el with h1 | ⟨A, B, st, h1, _⟩ <;> rw [h1]
  · refine (balanced_setSlicer _ h).to rfl ?_
    rw [hb, slicerBlocks_stalled]; omega
  · exact balanced_sliceDone (s := { s with laneA := A, laneB := B, stats := st }) j h he hb

theorem balanced_setSub {s : State} {er et : Int} {x : Submission} (h : s.balanced er et) (hx : x.incomplete) :
    (s.setSub x).balanced er (et + reservedBlocks s.sub - reservedBlocks x) := by
  obtain ⟨h1, h2, h3, h4, _⟩ := h
  refine ⟨h1, h2, ?_, h4, hx⟩
  have : (s.setSub x).txHolders + reservedBlocks s.sub = s.txHolders + reservedBlocks x := by
    show reservedBlocks x + frameBlocks s.slicer.fifo + slicerBlocks s.slicer.state + _ = _
    unfold State.txHolders; omega
  show (s.pool.tx : Int) = _; omega

theorem incomplete_absorbFrom (n : Nat) (e : Bool) : (absorbFrom n e).incomplete := by
  unfold absorbFrom; split <;> trivial

theorem reserved_absorbFrom (n : Nat) (e : Bool) : reservedBlocks (absorbFrom n e) = 0 := by
  unfold absorbFrom; split <;> rfl

theorem balanced_tryLoadData {s : State} {er et : Int} (k n : Nat) (h : s.balanced er et)
    (hs : reservedBlocks s.sub = 0) (hn : 0 < n) : (s.tryLoadData k n).balanced er et := by
  have hw : (s.setSub (.waitingData k n)).balanced er et :=
    (balanced_setSub (x := .waitingData k n) h hn).to rfl (by rw [hs]; simp [reservedBlocks])
  unfold State.tryLoadData
  refine State.balanced_ite ?_ hw
  rcases claimTx_cases s (sliceCount n) with ⟨_, hf, hx⟩ | hx <;> rw [hx]
  · obtain ⟨h1, h2, h3, h4, h5⟩ := h
    refine ⟨?_, h2, ?_, h4, hn⟩
    · show s.pool.free - sliceCount n + s.pool.rx + (s.pool.tx + sliceCount n) = _; omega
    · show ((s.pool.tx + sliceCount n : Nat) : Int)
        = ((sliceCount n + frameBlocks s.slicer.fifo + slicerBlocks s.slicer.state : Nat) : Int) + et
      unfold State.txHolders at h3; omega
  · exact hw

theorem balanced_headerDone {s : State} {er et : Int} (hdr : List Byte) (e : Bool) (h : s.balanced er et)
    (hs : reservedBlocks s.sub = 0) : (s.headerDone hdr e).balanced er et := by
  have put : ∀ {t : State} {x : Submission}, t.balanced er et → reservedBlocks t.sub = 0 → x.incomplete →
      reservedBlocks x = 0 → (t.setSub x).balanced er et := fun ht h0 hx h1 =>
    (balanced_setSub ht hx).to rfl (by rw [h0, h1]; simp)
  have absorb : ∀ {t : State} (n : Nat), t.balanced er et → reservedBlocks t.sub = 0 →
      (t.setSub (absorbFrom n e)).balanced er et := fun n ht h0 =>
    put ht h0 (incomplete_absorbFrom n e) (reserved_absorbFrom n e)
  unfold State.headerDone
  refine State.balanced_ite (put (balanced_report _ h) hs trivial rfl) (State.balanced_ite ?_ ?_)
  · unfold State.judgeMgmtHeader
    simp only
    split
    · exact absorb _ (balanced_report _ h) hs
    · next hn =>
      have h1 : 0 < subLength hdr := by omega
      exact State.balanced_ite (put h hs (x := .loadingMgmt (subLength hdr) []) h1 rfl)
        (put h hs (x := .waitingMgmt (subLength hdr)) h1 rfl)
  · unfold State.judgeDataHeader
    simp only
    split
    · exact absorb _ (balanced_report _ h) hs
    · next hr =>
      refine balanced_tryLoadData _ _ h hs ?_
      unfold State.dataReject at hr
      split at hr
      · cases hr
      · split at hr
        · cases hr
        · split at hr
          · cases hr
          · omega

theorem balanced_loadFault {s : State} {er et : Int} (m : Bool) {x : Submission} (h : s.balanced er et) (he : 0 ≤ et)
    (hx : x.incomplete) (h0 : reservedBlocks x = 0) (n : Nat) (hn : reservedBlocks s.sub = n) :
    (s.loadFault n m x).balanced er et := by
  have hh : n ≤ s.txHolders := by unfold State.txHolders; omega
  have h1 := balanced_report (fun st => st.event (faultCounter m)) (balanced_returnTx n h (by omega))
  refine (balanced_setSub h1 hx).to rfl ?_
  rw [h0]
  show et - n + (reservedBlocks s.sub : Int) - ((0 : Nat) : Int) = et
  rw [hn]; simp

theorem cutPieces_length : ∀ (fuel : Nat) (bytes : List Byte), bytes.length ≤ fuel →
    (cutPieces fuel bytes).length = (bytes.length + 55) / 56 := by
  intro fuel
  induction fuel with
  | zero =>
    intro bytes h
    have : bytes = [] := by simpa using h
    subst this; rfl
  | succ fuel ih =>
    intro bytes h
    cases bytes with
    | nil => rfl
    | cons b bs =>
      have hd : ((b :: bs).drop 56).length = bs.length + 1 - 56 := by simp
      have := ih ((b :: bs).drop 56) (by simp only [List.length_cons] at h; omega)
      show (cutPieces fuel ((b :: bs).drop 56)).length + 1 = _
      rw [this, hd, List.length_cons]; omega

/-- A message has as many pieces as R2 says. -/
theorem piecesOf_length (bytes : List Byte) : (piecesOf bytes).length = sliceCount bytes.length :=
  cutPieces_length _ _ (Nat.le_refl _)

theorem balanced_takeByte {s : State} {er et : Int} (b : Byte) (st e : Bool) (h : s.balanced er et) (he : 0 ≤ et) :
    (s.takeByte b st e).balanced er et := by
  have put : ∀ {x : Submission}, x.incomplete → reservedBlocks x = reservedBlocks s.sub → (s.setSub x).balanced er et :=
    fun hx h1 => (balanced_setSub h hx).to rfl (by rw [h1]; simp)
  have hi := h.2.2.2.2
  unfold State.takeByte
  split
  · next hs =>
    have h0 : reservedBlocks s.sub = 0 := by rw [hs]; rfl
    refine State.balanced_ite (put ?_ ?_) h
    · split <;> trivial
    · rw [h0]; split <;> rfl
  · next got hs =>
    have h0 : reservedBlocks s.sub = 0 := by rw [hs]; rfl
    refine State.balanced_ite (put ?_ ?_) (balanced_headerDone _ _ h h0)
    · split <;> trivial
    · rw [h0]; split <;> rfl
  · exact h
  · exact h
  · next k n got hs =>
    rw [hs] at hi
    have hg : got.length < n := hi
    split
    · next h1 =>
      refine State.balanced_ite (balanced_loadFault (x := .idle) false h he trivial rfl _ (by rw [hs]; rfl)) (put ?_ ?_)
      · show (got ++ [b]).length < n
        simp only [List.length_append, List.length_cons, List.length_nil]; omega
      · rw [hs]; rfl
    · next h1 =>
      refine State.balanced_ite ?_ (balanced_loadFault (x := .absorbing 0) false h he trivial rfl _ (by rw [hs]; rfl))
      obtain ⟨a1, a2, a3, a4, _⟩ := h
      refine ⟨a1, a2, ?_, a4, trivial⟩
      have hl : (piecesOf (got ++ [b])).length = sliceCount n := by
        rw [piecesOf_length]; congr 1
        simp only [List.length_append, List.length_cons, List.length_nil]; omega
      show (s.pool.tx : Int) = ((0 + frameBlocks (s.slicer.fifo ++ [⟨k, n, piecesOf (got ++ [b])⟩])
        + slicerBlocks s.slicer.state : Nat) : Int) + et
      rw [frameBlocks_append]
      have hf : frameBlocks [⟨k, n, piecesOf (got ++ [b])⟩] = sliceCount n := by simp [frameBlocks, hl]
      unfold State.txHolders at a3
      rw [hs] at a3
      rw [hf]; simp only [reservedBlocks] at a3; omega
  · next n got hs =>
    rw [hs] at hi
    have hg : got.length < n := hi
    split
    · next h1 =>
      refine State.balanced_ite (balanced_loadFault (x := .idle) true h he trivial rfl _ (by rw [hs]; rfl)) (put ?_ ?_)
      · show (got ++ [b]).length < n
        simp only [List.length_append, List.length_cons, List.length_nil]; omega
      · rw [hs]; rfl
    · refine State.balanced_ite ?_ (balanced_loadFault (x := .absorbing 0) true h he trivial rfl _ (by rw [hs]; rfl))
      obtain ⟨a1, a2, a3, a4, _⟩ := h
      refine ⟨a1, a2, ?_, a4, trivial⟩
      unfold State.txHolders at a3
      rw [hs] at a3
      exact a3
  · next left hs =>
    refine put ?_ ?_
    · split <;> trivial
    · rw [hs]; split <;> rfl

end Sys2Proof.Machine
end

