-- ==== Sys2Proof/Laws/Buffers.lean ====
section
/-! SUPPORT. What each shared operation does to the balance between the response buffers in use and the requests and
responses that use them (R94, R108, R126). -/

namespace Sys2Proof.Machine

/-- The backbone's buffers in use exceed its requests executing and responses waiting or leaving by `eb`, the local
port's by `el`; neither source has more than two in use. Between operations both are 0. -/
def State.buffered (s : State) (eb el : Int) : Prop :=
  (s.mgmt.bbBufs : Int)
      = executingFor .backbone s.mgmt.executor + waitingResponses s.slicer.outputs
        + (if slicingResponse s.slicer.state then 1 else 0 : Nat) + eb
    ∧ (s.mgmt.lpBufs : Int)
      = executingFor .localPort s.mgmt.executor + s.delivery.mq.length + transferringResponse s.delivery.transfer + el
    ∧ s.mgmt.bbBufs ≤ Config.respBufs ∧ s.mgmt.lpBufs ≤ Config.respBufs

theorem State.buffered.to {s : State} {eb el eb' el' : Int} (h : s.buffered eb el) (hb : eb = eb') (hl : el = el') :
    s.buffered eb' el' := by subst hb hl; exact h

theorem State.buffered_ite {t u : State} {eb el : Int} {p : Prop} [Decidable p] (h : t.buffered eb el)
    (h' : u.buffered eb el) : (if p then t else u).buffered eb el := by
  split <;> assumption

/-- What the balance rests on. -/
theorem State.buffered.congr {s t : State} {eb el : Int} (h : s.buffered eb el) (hm : t.mgmt = s.mgmt)
    (hs : t.slicer = s.slicer) (hd : t.delivery = s.delivery) : t.buffered eb el := by
  unfold State.buffered at *; rw [hm, hs, hd]; exact h

theorem waitingResponses_append (xs ys : List Output) :
    waitingResponses (xs ++ ys) = waitingResponses xs + waitingResponses ys := by
  simp [waitingResponses]

/-- 1 for a request's own source. -/
def Request.from (r : Request) (src : Source) : Nat := if r.source = src then 1 else 0

theorem executingFor_ready (src : Source) (r : Request) (k : ReqKind) : executingFor src (.ready r k) = r.from src := rfl

theorem executingFor_preparing (src : Source) (r : Request) (m : OpenMode) (n : Nat) (c : Word32) :
    executingFor src (.preparing r m n c) = r.from src := rfl

theorem executingFor_sweeping (src : Source) (r : Request) (l : List Nat) (n : Nat) :
    executingFor src (.sweeping r l n) = r.from src := rfl

theorem executingFor_probing (src : Source) (r : Request) (p : ProbeRec) :
    executingFor src (.probing r p) = r.from src := rfl

theorem executingFor_restarting (src : Source) (r : Request) (todo : List Part) :
    executingFor src (.restarting r todo) = r.from src := rfl

/-- A response takes the place of the request executing. -/
theorem buffered_respond {s : State} {eb el : Int} (r : Request) (st : Status) (d : List Byte) (h : s.buffered eb el) :
    (s.respond r st d).buffered (eb + executingFor .backbone s.mgmt.executor - r.from .backbone)
      (el + executingFor .localPort s.mgmt.executor - r.from .localPort) := by
  obtain ⟨h1, h2, h3, h4⟩ := h
  have hi : ∀ src, executingFor src Executor.idle = 0 := fun src => by cases src <;> rfl
  unfold State.respond Request.from
  cases hr : r.source
  · refine ⟨?_, ?_, h3, h4⟩
    · show (s.mgmt.bbBufs : Int) = executingFor .backbone .idle + waitingResponses (s.slicer.outputs ++ [.response _])
        + (if slicingResponse s.slicer.state then 1 else 0 : Nat) + _
      rw [hi, waitingResponses_append]
      simp only [waitingResponses, List.map_cons, List.map_nil, List.sum_cons, List.sum_nil, if_true] at *; omega
    · show (s.mgmt.lpBufs : Int) = executingFor .localPort .idle + s.delivery.mq.length
        + transferringResponse s.delivery.transfer + _
      rw [hi]; simp only [reduceCtorEq, if_false]; omega
  · refine ⟨?_, ?_, h3, h4⟩
    · show (s.mgmt.bbBufs : Int) = executingFor .backbone .idle + waitingResponses s.slicer.outputs
        + (if slicingResponse s.slicer.state then 1 else 0 : Nat) + _
      rw [hi]; simp only [reduceCtorEq, if_false]; omega
    · show (s.mgmt.lpBufs : Int) = executingFor .localPort .idle + (s.delivery.mq ++ [_]).length
        + transferringResponse s.delivery.transfer + _
      rw [hi]; simp only [List.length_append, List.length_cons, List.length_nil, if_true]; omega

/-- A response of the request executing keeps the balance. -/
theorem buffered_respond_executing {s : State} {eb el : Int} {r : Request} (st : Status) (d : List Byte)
    (h : s.buffered eb el) (hx : ∀ src, executingFor src s.mgmt.executor = r.from src) :
    (s.respond r st d).buffered eb el :=
  (buffered_respond r st d h).to (by rw [hx]; omega) (by rw [hx]; omega)

theorem buffered_endProbe {s : State} {eb el : Int} (a b : Byte) (n off : Nat) (l : LaneSet) (h : s.buffered eb el) :
    (s.endProbe a b n off l).buffered eb el := by
  unfold State.endProbe
  split
  · next he =>
    split
    · exact buffered_respond_executing _ _ h (fun src => by rw [he]; rfl)
    · exact h
  all_goals exact h

theorem buffered_abandonMessage {s : State} {eb el : Int} (k : Nat) (r : AbandonReason) (q : SeqNo) (g n : Nat)
    (h : s.buffered eb el) : (s.abandonMessage k r q g n).buffered eb el := by
  unfold State.abandonMessage State.informProbe
  exact State.buffered_ite (buffered_endProbe _ _ _ _ _ h) h

theorem buffered_partDone {s : State} {eb el : Int} (p : Part) (h : s.buffered eb el) :
    (s.partDone p).buffered eb el := by
  unfold State.partDone
  split
  · next r todo he =>
    refine State.buffered_ite (buffered_respond_executing _ _ h (fun src => by rw [he]; rfl)) ?_
    unfold State.buffered at h ⊢
    rw [he] at h
    exact h
  all_goals exact h

theorem buffered_routeMessage {s : State} {eb el : Int} (d : Descriptor) (q : SeqNo) (h : s.buffered eb el) :
    (s.routeMessage d q).buffered eb el := by
  unfold State.routeMessage State.offerToShare State.offerToProbe State.offerToQueue
  refine State.buffered_ite (State.buffered_ite h h) (State.buffered_ite (State.buffered_ite ?_ h)
    (State.buffered_ite h (buffered_abandonMessage _ _ _ _ _ h)))
  simp only
  split <;> exact buffered_endProbe _ _ _ _ _ h

theorem buffered_abandonOpen {s : State} {eb el : Int} (c : Ctx) (r : AbandonReason) (q : SeqNo)
    (h : s.buffered eb el) : (s.abandonOpen c r q).buffered eb el := buffered_abandonMessage _ _ _ _ _ h

theorem buffered_abandonWith {s : State} {eb el : Int} (c : Ctx) (r : AbandonReason) (q : SeqNo) (g : Nat)
    (h : s.buffered eb el) : (s.abandonWith c r q g).buffered eb el := buffered_abandonMessage _ _ _ _ _ h

theorem buffered_truncateOpen {s : State} {eb el : Int} (sl : Slice) (h : s.buffered eb el) :
    (s.truncateOpen sl).buffered eb el := by
  unfold State.truncateOpen
  split
  · exact buffered_abandonOpen _ _ _ h
  · exact h

theorem buffered_engineSlice {s : State} {eb el : Int} (sl : Slice) (p : Path) (gap : Bool) (h : s.buffered eb el) :
    (s.engineSlice sl p gap).buffered eb el := by
  unfold State.engineSlice
  have h1 : (s.applyGap sl gap).buffered eb el := by
    unfold State.applyGap
    refine State.buffered_ite ?_ h
    split
    · exact buffered_abandonOpen _ _ _ h
    · exact h
  generalize s.applyGap sl gap = s1 at h1
  have h2 := buffered_truncateOpen sl h1
  simp only
  split
  · exact State.buffered_ite (buffered_abandonMessage _ _ _ _ _ h2) (State.buffered_ite
      (buffered_abandonMessage _ _ _ _ _ h2) (State.buffered_ite (buffered_abandonMessage _ _ _ _ _ h2) h2))
  · unfold State.takeMiddle
    split
    · exact h1
    · exact State.buffered_ite (buffered_abandonWith _ _ _ _ h1) h1
  · unfold State.takeLast
    split
    · exact h1
    · exact State.buffered_ite (buffered_abandonWith _ _ _ _ h1) (State.buffered_ite (buffered_abandonWith _ _ _ _ h1)
        (buffered_routeMessage _ _ h1))
  · exact State.buffered_ite (buffered_abandonMessage _ _ _ _ _ h2) (State.buffered_ite
      (buffered_abandonMessage _ _ _ _ _ h2) (buffered_routeMessage _ _ h2))

theorem buffered_engineAbandon {s : State} {eb el : Int} (k : Nat) (r : AbandonReason) (h : s.buffered eb el) :
    (s.engineAbandon k r).buffered eb el := by
  unfold State.engineAbandon
  split
  · exact buffered_abandonOpen _ _ _ h
  · exact h

theorem buffered_drainItems (k : Nat) : ∀ (n : Nat) {s : State} {eb el : Int}, s.buffered eb el →
    (State.drainItems k n s).buffered eb el := by
  intro n
  induction n with
  | zero => exact fun h => h
  | succ n ih =>
    intro s eb el h
    unfold State.drainItems
    split
    · next it _ =>
      cases it
      · exact ih (buffered_engineSlice _ _ _ h)
      · exact ih (buffered_engineAbandon _ _ h)
    · exact h

/-! ## The merge unit leaves the buffers alone -/

/-- The management engine, the slicer and the delivery side are as they were. -/
structure Untouched (s t : State) : Prop where
  mgmt : t.mgmt = s.mgmt
  slicer : t.slicer = s.slicer
  delivery : t.delivery = s.delivery

theorem Untouched.refl (s : State) : Untouched s s := ⟨rfl, rfl, rfl⟩

theorem Untouched.trans {s t u : State} (h : Untouched s t) (h' : Untouched t u) : Untouched s u :=
  ⟨h'.mgmt.trans h.mgmt, h'.slicer.trans h.slicer, h'.delivery.trans h.delivery⟩

theorem Untouched.ite {s t u : State} {p : Prop} [Decidable p] (h : Untouched s t) (h' : Untouched s u) :
    Untouched s (if p then t else u) := by
  split <;> assumption

theorem untouched_passRun (hs : List Held) : ∀ s : State, Untouched s (s.passRun hs) := by
  induction hs with
  | nil => exact fun s => Untouched.refl s
  | cons h hs ih => exact fun s => (Untouched.mk rfl rfl rfl : Untouched s (s.passSlice h.slice h.path false)).trans (ih _)

theorem untouched_passJump (hs : List Held) : ∀ (s : State) (e : SeqNo), Untouched s (s.passJump e hs) := by
  induction hs with
  | nil => exact fun s _ => Untouched.refl s
  | cons h hs ih =>
    exact fun s e => (Untouched.mk rfl rfl rfl : Untouched s (s.passSlice h.slice h.path (h.slice.seq != e))).trans (ih _ _)

theorem untouched_setMrec (s : State) (k : Nat) (r : MergeRec) : Untouched s (s.setMrec k r) := ⟨rfl, rfl, rfl⟩

theorem untouched_passSlice (s : State) (sl : Slice) (p : Path) (gap : Bool) : Untouched s (s.passSlice sl p gap) :=
  ⟨rfl, rfl, rfl⟩

theorem untouched_discardSlice (s : State) (k : Nat) (r : DiscardReason) : Untouched s (s.discardSlice k r) :=
  ⟨rfl, rfl, rfl⟩

theorem untouched_withRxBlock (s : State) : Untouched s s.withRxBlock := ⟨rfl, rfl, rfl⟩

theorem untouched_flush (s : State) (k : Nat) (r : AbandonReason) : Untouched s (s.flush k r) := ⟨rfl, rfl, rfl⟩

theorem untouched_expireDue (s : State) (k : Nat) : Untouched s (s.expireDue k) := by
  have once : ∀ s : State, Untouched s (s.expireOnce k) := by
    intro s
    unfold State.expireOnce
    split
    · exact Untouched.refl s
    · exact ((untouched_passSlice ..).trans (untouched_passRun _ _)).trans (untouched_setMrec ..)
  have loop : ∀ (n : Nat) (s : State), Untouched s (State.expireLoop k n s) := by
    intro n
    induction n with
    | zero => exact fun s => Untouched.refl s
    | succ n ih => exact fun s => Untouched.ite ((once s).trans (ih _)) (Untouched.refl s)
  exact loop _ s

theorem untouched_judgeSlice (s : State) (sl : Slice) (p : Path) : Untouched s (s.judgeSlice sl p) := by
  unfold State.judgeSlice
  split
  · unfold State.synchronise
    rcases claimRx_cases s with ⟨_, h⟩ | h <;> rw [h]
    · exact ((untouched_withRxBlock s).trans (untouched_passSlice ..)).trans (untouched_setMrec ..)
    · exact untouched_discardSlice ..
  · refine Untouched.ite ?_ (Untouched.ite ?_ (Untouched.ite ?_ (Untouched.ite (Untouched.ite ⟨rfl, rfl, rfl⟩ ?_)
      (untouched_discardSlice ..))))
    · unfold State.passAtE
      rcases claimRx_cases s with ⟨_, h⟩ | h <;> rw [h]
      · exact ((((untouched_withRxBlock s).trans (untouched_passSlice ..)).trans (untouched_passRun _ _)).trans
          (untouched_setMrec ..)).trans (untouched_expireDue ..)
      · exact untouched_discardSlice ..
    · unfold State.holdSlice
      refine Untouched.ite (untouched_discardSlice ..) (Untouched.ite (untouched_discardSlice ..) ?_)
      rcases claimRx_cases s with ⟨_, h⟩ | h <;> rw [h]
      · exact (untouched_withRxBlock s).trans (untouched_setMrec ..)
      · exact untouched_discardSlice ..
    · unfold State.windowJump
      rcases claimRx_cases s with ⟨_, h⟩ | h <;> rw [h]
      · exact ((untouched_withRxBlock s).trans (untouched_passJump _ _ _)).trans (untouched_setMrec ..)
      · exact untouched_discardSlice ..
    · unfold State.resynchronise
      simp only
      generalize hs2 : State.report _ _ = s2
      have h2 : Untouched s s2 := by rw [← hs2]; exact ⟨rfl, rfl, rfl⟩
      rcases claimRx_cases s2 with ⟨_, h⟩ | h <;> rw [h]
      · exact ((h2.trans (untouched_withRxBlock s2)).trans (untouched_passSlice ..)).trans (untouched_setMrec ..)
      · exact h2.trans (untouched_discardSlice ..)

theorem untouched_takeSlice (s : State) (sl : Slice) (p : Path) : Untouched s (s.takeSlice sl p) := by
  have h : ∀ s : State, Untouched s (s.screenSlice sl p) := fun s =>
    Untouched.ite (untouched_discardSlice ..) (Untouched.ite (untouched_discardSlice ..) (untouched_judgeSlice ..))
  exact Untouched.ite ((untouched_flush ..).trans (h _)) (h s)

/-! ## The slicer -/

/-- The end of a slice: with the job's response still counted as leaving, the balance is kept. -/
theorem buffered_sliceDone {s : State} {eb el : Int} (j : Job) (h : s.buffered eb el) (he : 0 ≤ eb)
    (hj : slicingResponse s.slicer.state = (j.kind == .response)) : (s.sliceDone j).buffered eb el := by
  have h1 : (if j.kind = .data then s.returnTx 1 else s).buffered eb el := State.buffered_ite h h
  have h2 : slicingResponse (if j.kind = .data then s.returnTx 1 else s).slicer.state = (j.kind == .response) := by
    rw [← hj]; split <;> rfl
  unfold State.sliceDone
  generalize (if j.kind = .data then s.returnTx 1 else s) = t at h1 h2
  obtain ⟨a, b, c, d⟩ := h1
  rw [h2] at a
  have hidle : slicingResponse .idle = false := rfl
  simp only
  split
  · unfold State.messageSliced
    cases hk : j.kind <;> rw [hk] at a
    · exact ⟨a, b, c, d⟩
    · refine ⟨?_, b, ?_, d⟩
      · have a' : (t.mgmt.bbBufs : Int) = executingFor .backbone t.mgmt.executor + waitingResponses t.slicer.outputs
            + ((1 : Nat) : Int) + eb := a
        show ((t.mgmt.bbBufs - 1 : Nat) : Int) = executingFor .backbone t.mgmt.executor
          + waitingResponses t.slicer.outputs + ((0 : Nat) : Int) + eb
        omega
      · show t.mgmt.bbBufs - 1 ≤ _; omega
    · simp only
      unfold State.probeSent
      split
      · next he =>
        rw [he] at a b
        exact ⟨a, b, c, d⟩
      all_goals exact ⟨a, b, c, d⟩
  · exact ⟨a, b, c, d⟩

theorem buffered_offerSlice {s : State} {eb el : Int} (j : Job) (sl : Slice) (x : LaneSet) (h : s.buffered eb el)
    (he : 0 ≤ eb) (hj : slicingResponse s.slicer.state = (j.kind == .response)) :
    (s.offerSlice j sl x).buffered eb el := by
  rcases offerSlice_cases s j sl x with h1 | ⟨A, B, st, h1, _⟩ <;> rw [h1]
  · obtain ⟨a, b, c, d⟩ := h
    rw [hj] at a
    exact ⟨a, b, c, d⟩
  · exact buffered_sliceDone (s := { s with laneA := A, laneB := B, stats := st }) j h he hj

theorem untouched_takeByte_mgmt (s : State) (hdr : List Byte) (e : Bool) : (s.headerDone hdr e).slicer = s.slicer
    ∧ (s.headerDone hdr e).delivery = s.delivery ∧ (s.headerDone hdr e).mgmt = s.mgmt := by
  unfold State.headerDone State.judgeMgmtHeader State.judgeDataHeader
  simp only
  split
  · exact ⟨rfl, rfl, rfl⟩
  · split
    · split
      · exact ⟨rfl, rfl, rfl⟩
      · split <;> exact ⟨rfl, rfl, rfl⟩
    · split
      · exact ⟨rfl, rfl, rfl⟩
      · unfold State.tryLoadData
        split
        · rcases claimTx_cases s (sliceCount (subLength hdr)) with ⟨_, _, h⟩ | h <;> rw [h] <;> exact ⟨rfl, rfl, rfl⟩
        · exact ⟨rfl, rfl, rfl⟩

theorem buffered_takeByte {s : State} {eb el : Int} (b : Byte) (st e : Bool) (h : s.buffered eb el) :
    (s.takeByte b st e).buffered eb el := by
  unfold State.takeByte
  split
  · exact State.buffered_ite h h
  · have hh := fun hdr => untouched_takeByte_mgmt s hdr e
    exact State.buffered_ite h (h.congr (hh _).2.2 (hh _).1 (hh _).2.1)
  · exact h
  · exact h
  · exact State.buffered_ite (State.buffered_ite h h) (State.buffered_ite h h)
  · exact State.buffered_ite (State.buffered_ite h h) (State.buffered_ite h h)
  · exact h

end Sys2Proof.Machine
end

