-- ==== Sys2Proof/Laws/Merge.lean ====
section
/-! SUPPORT. The merge unit's operations: what a run releases, when expiries stop, what a window jump passes, and what each
does to a record's held set (R34, R38 to R45, R50). -/

namespace Sys2Proof.Machine

/-! ## Counters and marks -/

/-- A counter rises by 1 and stays at its largest value. -/
theorem satInc_toNat (c : Counter) : (satInc c).toNat = min (c.toNat + 1) 4294967295 := by
  unfold satInc
  split
  · next h => subst h; rfl
  · next h =>
    have : c.toNat ≠ 4294967295 := fun hc => h (BitVec.eq_of_toNat_eq hc)
    have h2 := c.isLt
    have h3 : (c + 1).toNat = (c.toNat + 1) % 2 ^ 32 := by rw [BitVec.toNat_add]; rfl
    rw [h3, Nat.mod_eq_of_lt (by omega)]
    omega

/-- A write of one stream's counters. -/
theorem stream_setStream (st : Stats) (k j : Nat) (c : StreamCounters) :
    (st.setStream k c).stream j = if j = k then c else st.stream j := by
  simp [Stats.stream, Stats.setStream, SMap.get_set]

/-- A cleared mark, and the others as they were. -/
theorem markOf_clearMark (m : StreamMarks) (k j : Nat) : markOf (clearMark m k) j = (if j
    = k then false else markOf m j) := by
  unfold markOf clearMark
  simp only [BitVec.getLsbD_and, BitVec.getLsbD_not, BitVec.getLsbD_twoPow]
  by_cases h : j = k
  · subst h
    by_cases hj : j < 4095
    · simp [hj]
    · simp [hj]
  · by_cases hj : j < 4095
    · simp [hj, h, Ne.symm h]
    · have : m.getLsbD j = false := BitVec.getLsbD_of_ge m j (by omega)
      simp [this]

/-! ## Runs and expiries -/

/-- The run released is the longest that counts up from E; the rest is left. -/
theorem releaseRun_spec (e e' : SeqNo) (hs run left : List Held) (h : releaseRun e hs = (run, e', left)) :
      run ++ left = hs ∧ e' = e + BitVec.ofNat 12 run.length
        ∧ (∀ i (hi : i < run.length), run[i].slice.seq = e + BitVec.ofNat 12 i)
        ∧ ∀ h ∈ left.head?, h.slice.seq ≠ e' := by
  induction hs generalizing e run with
  | nil => simp only [releaseRun, Prod.mk.injEq] at h; obtain ⟨rfl, rfl, rfl⟩ := h; simp
  | cons x xs ih =>
    unfold releaseRun at h
    split at h
    · next hx =>
      simp only [Prod.mk.injEq] at h
      obtain ⟨rfl, rfl, rfl⟩ := h
      obtain ⟨h1, h2, h3, h4⟩ := ih (e + 1) _ rfl
      refine ⟨by rw [List.cons_append, h1], ?_, ?_, h4⟩
      · rw [h2, List.length_cons, BitVec.ofNat_add, BitVec.add_assoc, BitVec.add_comm 1]; rfl
      · intro i hi
        cases i with
        | zero => simp [hx]
        | succ i =>
          simp only [List.getElem_cons_succ]
          rw [h3 i (by simpa using hi), BitVec.ofNat_add, BitVec.add_assoc, BitVec.add_comm 1]; rfl
    · next hx =>
      simp only [Prod.mk.injEq] at h
      obtain ⟨rfl, rfl, rfl⟩ := h
      simp [hx]

theorem releaseRun_left_length (e : SeqNo) (hs : List Held) : (releaseRun e hs).2.2.length ≤ hs.length := by
  have h := (releaseRun_spec e (releaseRun e hs).2.1 hs (releaseRun e hs).1 (releaseRun e hs).2.2 rfl).1
  have h := congrArg List.length h
  rw [List.length_append] at h; omega

/-- With no expiry due nothing expires. -/
theorem expireDue_not {s : State} {k : Nat} (h : s.holdDue k = false) : s.expireDue k = s := by
  unfold State.expireDue
  cases (s.mrec k).held.length with
  | zero => rfl
  | succ n => unfold State.expireLoop; simp [h]

theorem expireOnce_held (s : State) (k : Nat) (h : Held) (hs : List Held) (hh : (s.mrec k).held = h :: hs) :
    ((s.expireOnce k).mrec k).held = (releaseRun (h.slice.seq + 1) hs).2.2 := by
  simp [State.expireOnce, hh, setMrec_mrec]

/-- As many expiries as slices are held are enough. -/
theorem expireLoop_fuel (k : Nat) : ∀ (n m : Nat) (s : State), (s.mrec k).held.length ≤ n → n ≤ m →
    State.expireLoop k n s = State.expireLoop k m s := by
  intro n
  induction n with
  | zero =>
    intro m s h1 h2
    have hd : s.holdDue k = false := by
      have : (s.mrec k).held = [] := List.length_eq_zero_iff.1 (by omega)
      simp [State.holdDue, this]
    cases m <;> simp [State.expireLoop, hd]
  | succ n ih =>
    intro m s h1 h2
    obtain ⟨m, rfl⟩ : ∃ m', m = m' + 1 := ⟨m - 1, by omega⟩
    unfold State.expireLoop
    split
    · next hd =>
      cases hh : (s.mrec k).held with
      | nil => simp [State.holdDue, hh] at hd
      | cons h hs =>
        apply ih _ _ _ (by omega)
        rw [expireOnce_held s k h hs hh]
        have := releaseRun_left_length (h.slice.seq + 1) hs
        rw [hh] at h1; simp at h1; omega
    · rfl

/-- An expiry that is due, and then those due after it. -/
theorem expireDue_once {s : State} {k : Nat} (h : s.holdDue k = true) :
    s.expireDue k = (s.expireOnce k).expireDue k := by
  unfold State.expireDue
  cases hh : (s.mrec k).held with
  | nil => simp [State.holdDue, hh] at h
  | cons x xs =>
    rw [List.length_cons, State.expireLoop, if_pos h]
    symm
    apply expireLoop_fuel _ _ _ _ (Nat.le_refl _)
    rw [expireOnce_held s k x xs hh]
    exact releaseRun_left_length _ _

/-- No expiry is left due. -/
theorem expireDue_done (k : Nat) : ∀ (n : Nat) (s : State), (s.mrec k).held.length ≤ n →
    (State.expireLoop k n s).holdDue k = false := by
  intro n
  induction n with
  | zero =>
    intro s h
    have : (s.mrec k).held = [] := List.length_eq_zero_iff.1 (by omega)
    simp [State.expireLoop, State.holdDue, this]
  | succ n ih =>
    intro s h
    unfold State.expireLoop
    split
    · next hd =>
      cases hh : (s.mrec k).held with
      | nil => simp [State.holdDue, hh] at hd
      | cons x xs =>
        apply ih
        rw [expireOnce_held s k x xs hh]
        have := releaseRun_left_length (x.slice.seq + 1) xs
        rw [hh] at h; simp at h; omega
    · next hd => simpa using hd

/-- The items a window jump sends, each with the gap flag exactly when it breaks the order. -/
theorem passJump_items (e : SeqNo) (hs : List Held) (s : State) :
   ∃ its, (s.passJump e hs).engine.items = s.engine.items ++ its ∧ its.length = hs.length ∧
     ∀ i (hi : i < hs.length), its[i]? = some (.slice hs[i].slice hs[i].path (hs[i].slice.seq != (if h0 : i
         = 0 then e else hs[i-1].slice.seq + 1))) := by
  induction hs generalizing e s with
  | nil => exact ⟨[], by simp [State.passJump]⟩
  | cons h hs ih =>
    obtain ⟨its, h1, h2, h3⟩ := ih (h.slice.seq + 1) (s.passSlice h.slice h.path (h.slice.seq != e))
    refine ⟨.slice h.slice h.path (h.slice.seq != e) :: its, ?_, by simp [h2], ?_⟩
    · simp only [State.passJump, h1, State.passSlice_items, List.append_assoc, List.cons_append, List.nil_append]
    · intro i hi
      cases i with
      | zero => simp
      | succ i =>
        simp only [List.getElem?_cons_succ, List.getElem_cons_succ]
        rw [h3 i (by simpa using hi)]
        cases i with
        | zero => simp
        | succ i => simp

theorem passRun_merge (hs : List Held) : ∀ s : State, (s.passRun hs).merge = s.merge ∧ (s.passRun hs).table
    = s.table := by
  induction hs with
  | nil => exact fun s => ⟨rfl, rfl⟩
  | cons h hs ih => exact fun s => ih (s.passSlice h.slice h.path false)

theorem passJump_merge (hs : List Held) : ∀ (s : State) (e : SeqNo), (s.passJump e hs).merge = s.merge ∧
    (s.passJump e hs).table = s.table := by
  induction hs with
  | nil => exact fun s e => ⟨rfl, rfl⟩
  | cons h hs ih => exact fun s e => ih (s.passSlice h.slice h.path _) _

/-! ## Held sets in order -/

/-- A held set in ascending order of distance from E, at distances of at least 1 and below a bound. -/
def heldAhead (e : SeqNo) (W : Nat) (hs : List Held) : Prop :=
  (∀ h ∈ hs, 1 ≤ distanceFrom e h ∧ distanceFrom e h < W) ∧ (hs.map (distanceFrom e)).Pairwise (· < ·)

theorem heldAhead_nil (e : SeqNo) (W : Nat) : heldAhead e W [] := ⟨by simp, by simp⟩

theorem heldAhead_cons {e : SeqNo} {W : Nat} {h : Held} {hs : List Held} :
    heldAhead e W (h :: hs) ↔ 1 ≤ distanceFrom e h ∧ distanceFrom e h < W ∧ (∀ x ∈ hs,
        distanceFrom e h < distanceFrom e x) ∧ heldAhead e W hs := by
  unfold heldAhead
  simp only [List.mem_cons, forall_eq_or_imp, List.map_cons, List.pairwise_cons, List.mem_map, forall_exists_index,
      and_imp, forall_apply_eq_imp_iff₂]
  tauto

theorem distanceFrom_shift {e f : SeqNo} {h : Held} (hd : (f - e).toNat ≤ distanceFrom e h) :
    distanceFrom f h = distanceFrom e h - (f - e).toNat := by
  unfold distanceFrom at *
  generalize h.slice.seq = q at *
  bv_omega

/-- E moves on, but not up to any held slice. -/
theorem heldAhead_shift {e f : SeqNo} {W : Nat} {hs : List Held} (h : heldAhead e W hs) (hf : ∀ x ∈ hs,
    (f - e).toNat < distanceFrom e x) :
    heldAhead f W hs := by
  induction hs with
  | nil => exact heldAhead_nil _ _
  | cons y ys ih =>
    rw [heldAhead_cons] at h ⊢
    obtain ⟨h1, h2, h3, h4⟩ := h
    have hy := hf y (by simp)
    have dy := distanceFrom_shift (f := f) (h := y) (e := e) (by omega)
    refine ⟨by omega, by omega, fun x hx => ?_, ih h4 (fun x hx => hf x (by simp [hx]))⟩
    have := hf x (by simp [hx])
    have dx := distanceFrom_shift (f := f) (h := x) (e := e) (by omega)
    have := h3 x hx
    omega

/-- What a run leaves is in order from the E after it. -/
theorem heldAhead_releaseRun (W : Nat) : ∀ (hs : List Held) (e : SeqNo), heldAhead e W hs →
    heldAhead (releaseRun (e + 1) hs).2.1 W (releaseRun (e + 1) hs).2.2 := by
  intro hs
  induction hs with
  | nil => exact fun e _ => heldAhead_nil _ _
  | cons h hs ih =>
    intro e ha
    unfold releaseRun
    have h1 : (e + 1 - e).toNat = 1 := by bv_omega
    obtain ⟨a1, a2, a3, a4⟩ := heldAhead_cons.1 ha
    split
    · next hq =>
      refine ih (e + 1) (heldAhead_shift a4 (fun x hx => ?_))
      have := a3 x hx; omega
    · next hq =>
      have hne : distanceFrom e h ≠ 1 := by
        intro hc; apply hq; unfold distanceFrom at hc; generalize h.slice.seq = q at *; bv_omega
      show heldAhead (e + 1) W (h :: hs)
      refine heldAhead_shift ha (fun x hx => ?_)
      rw [h1]
      rcases List.mem_cons.1 hx with rfl | hx
      · omega
      · have := a3 x hx; omega

theorem mem_insertHeld (e : SeqNo) (h x : Held) : ∀ hs : List Held, x ∈ insertHeld e h hs ↔ x = h ∨ x ∈ hs := by
  intro hs
  induction hs with
  | nil => simp [insertHeld]
  | cons y ys ih => unfold insertHeld; split <;> simp [ih, or_left_comm]

/-- A slice with a new sequence is held at its place. -/
theorem heldAhead_insertHeld {e : SeqNo} {W : Nat} (h : Held) (h1 : 1 ≤ distanceFrom e h) (h2 :
    distanceFrom e h < W) :
    ∀ hs : List Held, heldAhead e W hs → (∀ x ∈ hs, x.slice.seq ≠ h.slice.seq) → heldAhead e W (insertHeld e h hs)
        := by
  intro hs
  induction hs with
  | nil => intro _ _; exact heldAhead_cons.2 ⟨h1, h2, by simp, heldAhead_nil _ _⟩
  | cons y ys ih =>
    intro ha hn
    obtain ⟨a1, a2, a3, a4⟩ := heldAhead_cons.1 ha
    unfold insertHeld
    split
    · next hl =>
      refine heldAhead_cons.2 ⟨h1, h2, fun x hx => ?_, ha⟩
      have hl : distanceFrom e h < distanceFrom e y := hl
      rcases List.mem_cons.1 hx with rfl | hx
      · exact hl
      · have := a3 x hx; omega
    · next hl =>
      have hl : ¬ distanceFrom e h < distanceFrom e y := hl
      have hne : distanceFrom e y ≠ distanceFrom e h := by
        intro hc
        have := hn y (by simp)
        apply this
        unfold distanceFrom at hc
        generalize y.slice.seq = q at *
        generalize h.slice.seq = r at *
        bv_omega
      refine heldAhead_cons.2 ⟨a1, a2, fun x hx => ?_, ih a4 (fun x hx => hn x (by simp [hx]))⟩
      rcases (mem_insertHeld e h x ys).1 hx with rfl | hx
      · omega
      · exact a3 x hx

/-- A record's held set lies below a bound, or is empty in an UNSYNCED record. -/
def heldBelow (r : MergeRec) (W : Nat) : Prop :=
  match r.sync with
  | none => r.held = []
  | some e => heldAhead e W r.held

theorem heldInWindow_iff (r : MergeRec) (W : Nat) : heldInWindow r W ↔ heldBelow r W := by
  unfold heldInWindow heldBelow heldAhead
  cases r.sync with
  | none => rfl
  | some e =>
    simp only
    constructor
    · rintro ⟨a, b⟩; exact ⟨fun h hh => by have := a h hh; omega, b⟩
    · rintro ⟨a, b⟩; exact ⟨fun h hh => by have := a h hh; omega, b⟩

theorem heldInOrder_iff (r : MergeRec) : heldInOrder r ↔ heldBelow r 4096 := by
  unfold heldInOrder heldBelow heldAhead
  cases r.sync with
  | none => rfl
  | some e =>
    simp only
    constructor
    · rintro ⟨a, b⟩; exact ⟨fun h hh => ⟨a h hh, (h.slice.seq - e).isLt⟩, b⟩
    · rintro ⟨a, b⟩; exact ⟨fun h hh => (a h hh).1, b⟩

theorem heldBelow_order {r : MergeRec} {W : Nat} (h : heldBelow r W) : heldBelow r 4096 := by
  rw [← heldInOrder_iff]; rw [← heldInWindow_iff] at h
  unfold heldInWindow at h; unfold heldInOrder
  cases hs : r.sync with
  | none => rw [hs] at h; exact h
  | some e => rw [hs] at h; exact ⟨fun x hx => (h.1 x hx).1, h.2⟩

theorem heldBelow_of_empty {r : MergeRec} (W : Nat) (h : r.held = []) : heldBelow r W := by
  unfold heldBelow; split
  · exact h
  · rw [h]; exact heldAhead_nil _ _

/-! ## Operations on one record -/

/-- What R34 and R51 ask of every record. -/
def recordsKept (s : State) : Prop := ∀ k < 4095, heldBelow (s.mrec k) 4096 ∧ (markOf s.merge.pendingFlush k
    = false → heldBelow (s.mrec k) (s.entry k).window)

/-- An operation that writes one stream's record only. -/
structure OneRecord (s t : State) (k : Nat) : Prop where
  table : t.table = s.table
  marks : t.merge.pendingFlush = s.merge.pendingFlush
  other : ∀ j, j ≠ k → t.mrec j = s.mrec j

theorem OneRecord.entry {s t : State} {k : Nat} (h : OneRecord s t k) (j : Nat) : t.entry j = s.entry j := by
  unfold State.entry State.activeBank State.bank; rw [h.table]

theorem OneRecord.refl (s : State) (k : Nat) : OneRecord s s k := ⟨rfl, rfl, fun _ _ => rfl⟩

theorem OneRecord.trans {s t u : State} {k : Nat} (h : OneRecord s t k) (h' : OneRecord t u k) : OneRecord s u k :=
  ⟨h'.table.trans h.table, h'.marks.trans h.marks, fun j hj => (h'.other j hj).trans (h.other j hj)⟩

theorem OneRecord.set (s : State) (k : Nat) (r : MergeRec) : OneRecord s (s.setMrec k r) k := ⟨rfl, rfl, fun j hj
    => by rw [setMrec_mrec, if_neg hj]⟩

theorem OneRecord.of {s t : State} {k : Nat} (ht : t.table = s.table) (hm : t.merge = s.merge) : OneRecord s t k :=
  ⟨ht, by rw [hm], fun j _ => by unfold State.mrec; rw [hm]⟩

/-- Such an operation, which keeps the record's held set in its window. -/
def RecordChange (s t : State) (k : Nat) : Prop := OneRecord s t k ∧ (heldBelow (s.mrec k) (s.entry k).window
    → heldBelow (t.mrec k) (s.entry k).window)

theorem RecordChange.refl (s : State) (k : Nat) : RecordChange s s k := ⟨OneRecord.refl _ _, id⟩

theorem RecordChange.trans {s t u : State} {k : Nat} (h : RecordChange s t k) (h' : RecordChange t u k) :
    RecordChange s u k :=
  ⟨h.1.trans h'.1, fun hr => by have := h'.2 (by rw [h.1.entry]; exact h.2 hr); rw [h.1.entry] at this; exact this⟩

theorem RecordChange.of {s t : State} {k : Nat} (ht : t.table = s.table) (hm : t.merge = s.merge) :
    RecordChange s t k :=
  ⟨OneRecord.of ht hm, fun h => by unfold State.mrec at *; rw [hm]; exact h⟩

theorem RecordChange.set {s : State} {k : Nat} {r : MergeRec} (h : heldBelow (s.mrec k) (s.entry k).window
    → heldBelow r (s.entry k).window) : RecordChange s (s.setMrec k r) k :=
  ⟨OneRecord.set _ _ _, fun hr => by rw [setMrec_mrec, if_pos rfl]; exact h hr⟩

theorem RecordChange.ite {s t u : State} {k : Nat} {p : Prop} [Decidable p] (h : p → RecordChange s t k) (h' : ¬ p
    → RecordChange s u k) :
    RecordChange s (if p then t else u) k := by
  split
  · exact h ‹_›
  · exact h' ‹_›

theorem change_expireOnce (s : State) (k : Nat) : RecordChange s (s.expireOnce k) k := by
  unfold State.expireOnce
  split
  · exact RecordChange.refl _ _
  · next h l hh =>
    have o : OneRecord s ((s.passSlice h.slice h.path true).passRun (releaseRun (h.slice.seq + 1) l).1) k :=
        OneRecord.of (passRun_merge _ _).2 (passRun_merge _ _).1
    refine ⟨o.trans (OneRecord.set _ _ _), fun hs => ?_⟩
    rw [setMrec_mrec, if_pos rfl]
    unfold heldBelow at hs
    split at hs
    · rw [hs] at hh; cases hh
    · next e he =>
      rw [hh] at hs
      obtain ⟨a1, a2, a3, a4⟩ := heldAhead_cons.1 hs
      exact heldAhead_releaseRun _ l h.slice.seq (heldAhead_shift a4 (fun x hx => a3 x hx))

theorem change_expireLoop (k : Nat) : ∀ (n : Nat) (s : State), RecordChange s (State.expireLoop k n s) k := by
  intro n
  induction n with
  | zero => exact fun s => RecordChange.refl _ _
  | succ n ih => exact fun s => RecordChange.ite (fun _ => (change_expireOnce s k).trans (ih _)) (fun _
      => RecordChange.refl _ _)

theorem change_judgeSlice (s : State) (sl : Slice) (p : Path) : RecordChange s (s.judgeSlice sl p) sl.stream := by
  have hd : ∀ r, RecordChange s (s.discardSlice sl.stream r) sl.stream := fun r => RecordChange.of rfl rfl
  unfold State.judgeSlice
  split
  · unfold State.synchronise
    rcases claimRx_cases s with ⟨_, hc⟩ | hc <;> rw [hc]
    · refine RecordChange.trans (t := s.withRxBlock.passSlice sl p true) (RecordChange.of rfl rfl) ?_
      exact RecordChange.set (fun _ => heldBelow_of_empty _ rfl)
    · exact hd _
  · next e he =>
    have hrok : ∀ {W}, heldBelow (s.mrec sl.stream) W → heldAhead e W (s.mrec sl.stream).held := by
      intro W h; unfold heldBelow at h; rw [he] at h; exact h
    simp only
    refine RecordChange.ite (fun h0 => ?_) (fun h0 => RecordChange.ite (fun hw => ?_) (fun hw => RecordChange.ite
        (fun _ => ?_) (fun _ => RecordChange.ite (fun _ => ?_) (fun _ => hd _))))
    · have hq : sl.seq = e := by bv_omega
      unfold State.passAtE
      rcases claimRx_cases s with ⟨_, hc⟩ | hc <;> rw [hc]
      · simp only
        refine RecordChange.trans ?_ (change_expireLoop _ _ _)
        have o : RecordChange s ((s.withRxBlock.passSlice sl p false).passRun (releaseRun (sl.seq + 1)
            (s.mrec sl.stream).held).1) sl.stream := RecordChange.of (passRun_merge _ _).2 (passRun_merge _ _).1
        refine ⟨o.1.trans (OneRecord.set _ _ _), fun h => ?_⟩
        rw [setMrec_mrec, if_pos rfl, hq]
        exact heldAhead_releaseRun _ _ e (hrok h)
      · exact hd _
    · unfold State.holdSlice
      refine RecordChange.ite (fun _ => hd _) (fun hany => RecordChange.ite (fun _ => hd _) (fun _ => ?_))
      rcases claimRx_cases s with ⟨_, hc⟩ | hc <;> rw [hc]
      · refine RecordChange.trans (t := s.withRxBlock) (RecordChange.of rfl rfl) (RecordChange.set (fun h => ?_))
        refine heldAhead_insertHeld (e := e) ⟨sl, s.time, p⟩ ?_ ?_ _ (hrok h) ?_
        · show 1 ≤ (sl.seq - e).toNat; omega
        · exact hw
        · intro x hx hc2
          apply hany
          rw [List.any_eq_true]
          exact ⟨x, hx, by simp [hc2]⟩
      · exact hd _
    · unfold State.windowJump
      rcases claimRx_cases s with ⟨_, hc⟩ | hc <;> rw [hc]
      · refine RecordChange.trans (t := s.withRxBlock.passJump e _) ?_ (RecordChange.set (fun _
          => heldBelow_of_empty _ rfl))
        exact RecordChange.of (passJump_merge _ _ _).2 (passJump_merge _ _ _).1
      · exact hd _
    · unfold State.staleSlice
      simp only
      refine RecordChange.ite (fun _ => ?_) (fun _ => ?_)
      · refine RecordChange.trans (RecordChange.set (fun h => ?_)) (RecordChange.of rfl rfl)
        unfold heldBelow at h ⊢; exact h
      · unfold State.resynchronise
        simp only
        generalize hw : State.report _ _ = w
        have o1 : RecordChange s w sl.stream := by
          rw [← hw]
          refine RecordChange.trans (t := s.returnRx (s.mrec sl.stream).held.length) (RecordChange.of rfl rfl) ?_
          refine RecordChange.trans (t := State.setMrec _ sl.stream MergeRec.fresh) (RecordChange.set (fun _
              => heldBelow_of_empty _ rfl)) ?_
          exact RecordChange.of rfl rfl
        rcases claimRx_cases w with ⟨_, hc⟩ | hc <;> rw [hc]
        · refine o1.trans ?_
          refine RecordChange.trans (t := w.withRxBlock.passSlice sl p true) (RecordChange.of rfl rfl) ?_
          exact RecordChange.set (fun _ => heldBelow_of_empty _ rfl)
        · exact o1.trans (RecordChange.of rfl rfl)

/-- An operation on an unmarked stream keeps what is asked of every record. -/
theorem recordsKept_change {s t : State} {k : Nat} (h : RecordChange s t k) (hs : recordsKept s) (hm : k < 4095
    → markOf s.merge.pendingFlush k = false) : recordsKept t := by
  intro j hj
  by_cases hjk : j = k
  · subst hjk
    have := h.2 ((hs j hj).2 (hm hj))
    exact ⟨heldBelow_order this, fun _ => by rw [h.1.entry]; exact this⟩
  · rw [h.1.other j hjk, h.1.marks, h.1.entry]; exact hs j hj

theorem recordsKept_flush {s : State} (k : Nat) (r : AbandonReason) (h : recordsKept s) : recordsKept (s.flush k r)
    := by
  intro j hj
  have hm : (s.flush k r).mrec j = ((s.returnRx (s.mrec k).held.length).setMrec k MergeRec.fresh).mrec j := rfl
  have hp : (s.flush k r).merge.pendingFlush = clearMark s.merge.pendingFlush k := rfl
  have he : (s.flush k r).entry j = s.entry j := rfl
  rw [hm, hp, he, markOf_clearMark, setMrec_mrec]
  split
  · exact ⟨heldBelow_of_empty _ rfl, fun _ => heldBelow_of_empty _ rfl⟩
  · exact h j hj

theorem recordsKept_takeSlice {s : State} (sl : Slice) (p : Path) (h : recordsKept s) : recordsKept
    (s.takeSlice sl p) := by
  have hscr : ∀ u : State, recordsKept u → (sl.stream < 4095 → markOf u.merge.pendingFlush sl.stream = false)
      → recordsKept (u.screenSlice sl p) := by
    intro u hu hm
    have : RecordChange u (u.screenSlice sl p) sl.stream := by
      unfold State.screenSlice
      exact RecordChange.ite (fun _ => RecordChange.of rfl rfl) (fun _ => RecordChange.ite (fun _
          => RecordChange.of rfl rfl) (fun _ => change_judgeSlice _ _ _))
    exact recordsKept_change this hu hm
  unfold State.takeSlice
  split
  · refine hscr _ (recordsKept_flush _ _ h) (fun _ => ?_)
    show markOf (clearMark s.merge.pendingFlush sl.stream) sl.stream = false
    rw [markOf_clearMark, if_pos rfl]
  · next hm => exact hscr _ h (fun _ => by simpa using hm)

theorem recordsKept_congr {s t : State} (h : recordsKept s) (ht : t.table = s.table) (hm : t.merge = s.merge) :
    recordsKept t := by
  intro j hj
  unfold State.mrec State.entry State.activeBank State.bank
  rw [ht, hm]; exact h j hj

theorem recordsKept_fresh {t : State} (h : t.merge.recs = []) : recordsKept t := by
  intro j _
  have : t.mrec j = MergeRec.fresh := by unfold State.mrec; rw [h]; rfl
  rw [this]; exact ⟨heldBelow_of_empty _ rfl, fun _ => heldBelow_of_empty _ rfl⟩

theorem windowsKept_iff (s : State) : s.windowsKept ↔ s.shadowTracksMarks ∧ recordsKept s := by
  unfold State.windowsKept recordsKept
  simp only [heldInWindow_iff, heldInOrder_iff, Config.numStreams]

/-! ## The hold deadline -/

/-- The earliest arrival is that of one of the held slices, and none of them has waited longer (R38, R44). -/
theorem earliestArrival_spec (now : Time) : ∀ held : List Held, held ≠ [] →
    ∃ h ∈ held, earliestArrival now held = h.arrival
      ∧ ∀ x ∈ held, (now - x.arrival).toNat ≤ (now - h.arrival).toNat := by
  intro held
  induction held with
  | nil => exact fun h => absurd rfl h
  | cons h hs ih =>
    intro _
    unfold earliestArrival
    split
    · next hle =>
      refine ⟨h, List.mem_cons_self, rfl, fun x hx => ?_⟩
      rcases List.mem_cons.1 hx with rfl | hx
      · exact Nat.le_refl _
      · obtain ⟨m, _, hm, hall⟩ := ih (List.ne_nil_of_mem hx)
        rw [hm] at hle
        exact Nat.le_trans (hall x hx) hle
    · next hlt =>
      cases hs with
      | nil => simp [earliestArrival] at hlt
      | cons y ys =>
        obtain ⟨m, hmem, hm, hall⟩ := ih (List.cons_ne_nil _ _)
        refine ⟨m, List.mem_cons_of_mem _ hmem, hm, fun x hx => ?_⟩
        rcases List.mem_cons.1 hx with rfl | hx
        · rw [hm] at hlt; omega
        · exact hall x hx

/-- The deadline set anew counts the stream's hold time from the earliest arrival among the slices that stay held; with
none held there is none (R44). -/
theorem rearm_spec (s : State) (k : Nat) :
    s.rearm k [] = none
      ∧ ∀ held : List Held, held ≠ [] → ∃ h ∈ held,
        s.rearm k held = some ⟨h.arrival, h.arrival + BitVec.ofNat 32 (s.entry k).holdTime⟩
          ∧ ∀ x ∈ held, (s.time - x.arrival).toNat ≤ (s.time - h.arrival).toNat := by
  refine ⟨rfl, fun held hne => ?_⟩
  obtain ⟨h, hm, he, hall⟩ := earliestArrival_spec s.time held hne
  refine ⟨h, hm, ?_, hall⟩
  unfold State.rearm
  rw [if_neg (by simpa using hne), he]; rfl

end Sys2Proof.Machine
end

