-- ==== Sys2Proof/Laws/Capacities.lean ====
section
/-! SUPPORT. What each shared operation does to the tables and queues of fixed size (R4, R12, R32, R33, R59,
R107, R123, R124, R182). -/

namespace Sys2Proof.Machine

/-- What a lane keeps to (R4, R12). -/
def capLane (l : Lane) : Prop := l.fifo.length ≤ 64 ∧ l.confirm ≤ 6 ∧ l.failRun < 4

/-- The contexts, the lanes, the transmit FIFO, the shares and the log stay within their capacities, and the shares keep
to their sources. -/
structure CapacitiesKept (s t : State) : Prop where
  ctxs : s.engine.ctxs.length ≤ 64 → t.engine.ctxs.length ≤ 64
  lanes : capLane s.laneA ∧ capLane s.laneB → capLane t.laneA ∧ capLane t.laneB
  tx : s.slicer.fifo.length + reservedEntry s.sub ≤ 32 → t.slicer.fifo.length + reservedEntry t.sub ≤ 32
  shares : s.mgmt.bbShare.length ≤ 4 ∧ s.mgmt.lpShare.length + reservedPlace s.sub ≤ 4 → t.mgmt.bbShare.length ≤ 4
      ∧ t.mgmt.lpShare.length + reservedPlace t.sub ≤ 4
  log : s.stats.log.length ≤ 32 → t.stats.log.length ≤ 32
  sources : s.sharesSorted → t.sharesSorted

theorem CapacitiesKept.refl (s : State) : CapacitiesKept s s := ⟨id, id, id, id, id, id⟩

theorem CapacitiesKept.trans {s t u : State} (h : CapacitiesKept s t) (h' : CapacitiesKept t u) :
    CapacitiesKept s u :=
  ⟨h'.ctxs ∘ h.ctxs, h'.lanes ∘ h.lanes, h'.tx ∘ h.tx, h'.shares ∘ h.shares, h'.log ∘ h.log,
    h'.sources ∘ h.sources⟩

theorem CapacitiesKept.ite {s t u : State} {p : Prop} [Decidable p] (h : CapacitiesKept s t) (h' :
    CapacitiesKept s u) :
    CapacitiesKept s (if p then t else u) := by
  split
  · exact h
  · exact h'

theorem kept_report (s : State) (f : Stats → Stats) (hf : ∀ st, (f st).log = st.log) : CapacitiesKept s
    (s.report f) :=
  ⟨id, id, id, id, fun h => by show (f s.stats).log.length ≤ 32; rw [hf]; exact h, id⟩

theorem kept_setLane (s : State) (l : LaneId) (x : Lane) (hx : capLane (s.lane l) → capLane x) : CapacitiesKept s
    (s.setLane l x) := by
  cases l
  · exact ⟨id, fun h => ⟨hx h.1, h.2⟩, id, id, id, id⟩
  · exact ⟨id, fun h => ⟨h.1, hx h.2⟩, id, id, id, id⟩

theorem kept_passSlice (s : State) (sl : Slice) (p : Path) (gap : Bool) : CapacitiesKept s (s.passSlice sl p gap) :=
    by
  refine ⟨id, id, id, id, ?_, id⟩
  cases p <;> exact id

theorem kept_discardSlice (s : State) (k : Nat) (r : DiscardReason) : CapacitiesKept s (s.discardSlice k r) := by
  refine ⟨id, id, id, id, ?_, id⟩
  cases r <;> exact id

theorem kept_orphanSlice (s : State) (k : Nat) : CapacitiesKept s (s.orphanSlice k) := ⟨id, id, id, id, id, id⟩

theorem kept_bindCtx (s : State) (c : Ctx) (h : s.engine.ctxs.length < 64) : CapacitiesKept s (s.bindCtx c) :=
  ⟨fun _ => by show (s.engine.ctxs ++ [c]).length ≤ 64; simp; omega, id, id, id, id, id⟩

theorem kept_freeCtx (s : State) (k : Nat) : CapacitiesKept s (s.freeCtx k) :=
  ⟨fun h => Nat.le_trans (List.length_eraseP_le) h, id, id, id, id, id⟩

theorem kept_respond (s : State) (r : Request) (st : Status) (d : List Byte) : CapacitiesKept s (s.respond r st d)
    := by
  unfold State.respond
  cases r.source <;> exact ⟨id, id, id, id, id, id⟩

theorem kept_freeBuffer (s : State) (src : Source) : CapacitiesKept s (s.freeBuffer src) := by
  cases src <;> exact ⟨id, id, id, id, id, id⟩

theorem kept_setSub (s : State) (x : Submission) (h1 : reservedEntry x ≤ reservedEntry s.sub) (h2 :
    reservedPlace x ≤ reservedPlace s.sub) : CapacitiesKept s (s.setSub x) :=
  ⟨id, id, fun h => by show s.slicer.fifo.length + reservedEntry x ≤ 32; omega, fun h => ⟨h.1,
      by show s.mgmt.lpShare.length + reservedPlace x ≤ 4; have := h.2; omega⟩, id, id⟩

theorem CapacitiesKept.respond {s t : State} (h : CapacitiesKept s t) (r : Request) (st : Status) (d : List Byte) :
    CapacitiesKept s (t.respond r st d) := h.trans (kept_respond t r st d)

theorem kept_setSub_free (s : State) (x : Submission) (h1 : reservedEntry x = 0) (h2 : reservedPlace x = 0) :
    CapacitiesKept s (s.setSub x) := kept_setSub s x (by omega) (by omega)

theorem kept_partDone (s : State) (p : Part) : CapacitiesKept s (s.partDone p) := by
  unfold State.partDone
  split
  · split
    · exact kept_respond ..
    · exact ⟨id, id, id, id, id, id⟩
  all_goals exact CapacitiesKept.refl s

theorem kept_endProbe (s : State) (a b : Byte) (n off : Nat) (l : LaneSet) : CapacitiesKept s
    (s.endProbe a b n off l) := by
  unfold State.endProbe
  split
  · split
    · exact kept_respond ..
    · exact CapacitiesKept.refl s
  all_goals exact CapacitiesKept.refl s

theorem kept_abandonMessage (s : State) (k : Nat) (r : AbandonReason) (q : SeqNo) (g n : Nat) :
    CapacitiesKept s (s.abandonMessage k r q g n) := by
  unfold State.abandonMessage State.informProbe
  simp only
  have h : ∀ e, CapacitiesKept s ((s.returnRx n).report (fun st => st.abandonedMessage e)) := by
    intro e
    refine ⟨id, id, id, id, fun h => ?_, id⟩
    show (s.stats.abandonedMessage e).log.length ≤ 32
    unfold Stats.abandonedMessage Stats.writeLog
    simp only
    split
    · next hl =>
      have hl : s.stats.log.length < 32 := hl
      show (s.stats.log ++ [_]).length ≤ 32
      simp; omega
    · show (s.stats.log.drop 1 ++ [_]).length ≤ 32
      simp; omega
  exact CapacitiesKept.ite ((h _).trans (kept_endProbe ..)) (h _)

theorem kept_probeSent (s : State) (n : Nat) : CapacitiesKept s (s.probeSent n) := by
  unfold State.probeSent
  split
  · exact ⟨id, id, id, id, id, id⟩
  all_goals exact CapacitiesKept.refl s

theorem kept_messageSliced (s : State) (j : Job) : CapacitiesKept s (s.messageSliced j) := by
  unfold State.messageSliced
  split
  · exact CapacitiesKept.refl s
  · exact kept_freeBuffer ..
  · exact kept_probeSent ..

theorem kept_sliceDone (s : State) (j : Job) : CapacitiesKept s (s.sliceDone j) := by
  have h1 : CapacitiesKept s (if j.kind = .data then s.returnTx 1 else s) := .ite ⟨id, id, id, id, id, id⟩ (.refl s)
  exact h1.trans (.ite ((kept_messageSliced _ j).trans ⟨id, id, id, id, id, id⟩) ⟨id, id, id, id, id, id⟩)

theorem kept_offerSlice (s : State) (j : Job) (sl : Slice) (el : LaneSet) : CapacitiesKept s (s.offerSlice j sl el)
    := by
  rcases offerSlice_cases s j sl el with h | ⟨A, B, st, h, hA, hB, hl⟩ <;> rw [h]
  · exact ⟨id, id, id, id, id, id⟩
  · refine CapacitiesKept.trans (t := { s with laneA := A, laneB := B, stats := st }) ⟨id, ?_, id, id,
      by rw [← hl]; exact id, id⟩ (kept_sliceDone _ _)
    have acc : ∀ (l L : Lane), capLane l → (L = l ∨ l.room = true ∧ L = l.accept sl) → capLane L := by
      rintro l L hc (rfl | ⟨hr, rfl⟩)
      · exact hc
      · refine ⟨?_, hc.2.1, hc.2.2⟩
        have : l.fifo.length < 64 := of_decide_eq_true hr
        show (l.fifo ++ [sl]).length ≤ 64
        simp; omega
    exact fun h => ⟨acc _ _ h.1 hA, acc _ _ h.2 hB⟩

theorem kept_stat (s : State) (l : LaneId) (f : LaneCounters → LaneCounters) : CapacitiesKept s (s.report (fun st
    => st.onLane l f)) := by
  cases l <;> exact ⟨id, id, id, id, id, id⟩

theorem kept_upFailure (s : State) (l : LaneId) : CapacitiesKept s (s.upFailure l) := by
  unfold State.upFailure
  have hl : (s.report (fun st => st.onLane l LaneCounters.addBadHeader)).lane l = s.lane l := by cases l <;> rfl
  simp only
  split
  · next h => exact (kept_stat ..).trans (kept_setLane _ _ _ (fun hc => by rw [hl] at hc; exact ⟨hc.1, hc.2.1, h⟩))
  · exact ((kept_stat ..).trans (kept_setLane _ _ _ (fun hc => by rw [hl] at hc; exact ⟨hc.1, Nat.zero_le 6,
      Nat.zero_lt_succ 3⟩))).trans (kept_stat ..)

theorem kept_upScreen (s : State) (l : LaneId) (b : List Byte) : CapacitiesKept s (s.upScreen l b) := by
  unfold State.upScreen
  have h : ∀ x, CapacitiesKept s (s.setLane l { s.lane l with failRun := 0, handed := x }) := fun x
      => kept_setLane _ _ _ (fun hc => ⟨hc.1, hc.2.1, Nat.zero_lt_succ 3⟩)
  exact CapacitiesKept.ite (h _) (CapacitiesKept.ite ((h _).trans (kept_stat ..)) ((h _).trans (kept_stat ..)))

theorem kept_countSent (s : State) (l : LaneId) : CapacitiesKept s (s.countSent l) := by
  unfold State.countSent
  split
  · exact kept_stat ..
  all_goals exact CapacitiesKept.refl s

theorem kept_reoffer (s : State) (l : LaneId) : CapacitiesKept s (s.reoffer l) := by
  unfold State.reoffer
  split
  · exact CapacitiesKept.ite (kept_offerSlice ..) (CapacitiesKept.refl s)
  all_goals exact CapacitiesKept.refl s

theorem kept_takeMiddle (s : State) (sl : Slice) (p : Path) : CapacitiesKept s (s.takeMiddle sl p) := by
  unfold State.takeMiddle
  split
  · exact (kept_orphanSlice ..).trans ⟨id, id, id, id, id, id⟩
  · next c hc =>
    refine CapacitiesKept.ite (((⟨id, id, id, id, id, id⟩ : CapacitiesKept s (s.toDiscarding sl.stream)).trans
        (kept_freeCtx ..)).trans (kept_abandonMessage ..)) ?_
    refine ⟨fun h64 => ?_, id, id, id, id, id⟩
    have hm : c ∈ s.engine.ctxs := List.mem_of_find?_eq_some hc
    have hp := List.find?_some hc
    have := List.length_eraseP_of_mem (p := fun c : Ctx => c.stream == sl.stream) hm hp
    show (s.engine.ctxs.eraseP (fun c : Ctx => c.stream == sl.stream) ++ [_]).length ≤ 64
    rw [List.length_append, this]
    have : 0 < s.engine.ctxs.length := List.length_pos_of_mem hm
    simp; omega

theorem kept_returnRx (s : State) (n : Nat) : CapacitiesKept s (s.returnRx n) := ⟨id, id, id, id, id, id⟩

theorem kept_returnTx (s : State) (n : Nat) : CapacitiesKept s (s.returnTx n) := ⟨id, id, id, id, id, id⟩

theorem kept_withRxBlock (s : State) : CapacitiesKept s s.withRxBlock := ⟨id, id, id, id, id, id⟩

theorem kept_setMrec (s : State) (k : Nat) (r : MergeRec) : CapacitiesKept s (s.setMrec k r) := ⟨id, id, id, id, id, id⟩

theorem kept_send (s : State) (it : Item) : CapacitiesKept s (s.send it) := ⟨id, id, id, id, id, id⟩

theorem kept_flush (s : State) (k : Nat) (r : AbandonReason) : CapacitiesKept s (s.flush k r) := ⟨id, id, id, id, id, id⟩

theorem kept_toDiscarding (s : State) (k : Nat) : CapacitiesKept s (s.toDiscarding k) := ⟨id, id, id, id, id, id⟩

theorem kept_notDiscarding (s : State) (k : Nat) : CapacitiesKept s (s.notDiscarding k) := ⟨id, id, id, id, id, id⟩

theorem kept_dropItem (s : State) (k : Nat) : CapacitiesKept s (s.dropItem k) := ⟨id, id, id, id, id, id⟩

theorem kept_setSlicer (s : State) (x : SlicerState) : CapacitiesKept s (s.setSlicer x) := ⟨id, id, id, id, id, id⟩

theorem kept_advanceSeq (s : State) (k : Nat) : CapacitiesKept s (s.advanceSeq k) := ⟨id, id, id, id, id, id⟩

theorem kept_informProbe (s : State) (k : Nat) (r : AbandonReason) : CapacitiesKept s (s.informProbe k r) := by
  unfold State.informProbe
  split
  · exact kept_endProbe ..
  · exact CapacitiesKept.refl s

theorem kept_startTransfer (s : State) : CapacitiesKept s s.startTransfer := by
  unfold State.startTransfer
  split
  · split
    · exact ⟨id, id, id, id, id, id⟩
    · exact CapacitiesKept.refl s
  · exact CapacitiesKept.refl s

theorem kept_passRun (hs : List Held) : ∀ s : State, CapacitiesKept s (s.passRun hs) := by
  induction hs with
  | nil => exact fun s => CapacitiesKept.refl s
  | cons h hs ih => exact fun s => (kept_passSlice s h.slice h.path false).trans (ih _)

theorem kept_passJump (hs : List Held) : ∀ (s : State) (e : SeqNo), CapacitiesKept s (s.passJump e hs) := by
  induction hs with
  | nil => exact fun s _ => CapacitiesKept.refl s
  | cons h hs ih => exact fun s e => (kept_passSlice s h.slice h.path _).trans (ih _ _)

theorem kept_expireOnce (s : State) (k : Nat) : CapacitiesKept s (s.expireOnce k) := by
  unfold State.expireOnce
  split
  · exact CapacitiesKept.refl s
  · exact ((kept_passSlice ..).trans (kept_passRun _ _)).trans (kept_setMrec ..)

theorem kept_expireLoop (k : Nat) : ∀ (n : Nat) (s : State), CapacitiesKept s (State.expireLoop k n s) := by
  intro n
  induction n with
  | zero => exact fun s => CapacitiesKept.refl s
  | succ n ih => exact fun s => CapacitiesKept.ite ((kept_expireOnce s k).trans (ih _)) (CapacitiesKept.refl s)

theorem kept_expireDue (s : State) (k : Nat) : CapacitiesKept s (s.expireDue k) := kept_expireLoop k _ s

theorem kept_synchronise (s : State) (sl : Slice) (p : Path) : CapacitiesKept s (s.synchronise sl p) := by
  unfold State.synchronise
  rcases claimRx_cases s with ⟨_, h⟩ | h <;> rw [h]
  · exact ((kept_withRxBlock s).trans (kept_passSlice ..)).trans (kept_setMrec ..)
  · exact kept_discardSlice ..

theorem kept_passAtE (s : State) (sl : Slice) (p : Path) : CapacitiesKept s (s.passAtE sl p) := by
  unfold State.passAtE
  rcases claimRx_cases s with ⟨_, h⟩ | h <;> rw [h]
  · exact ((((kept_withRxBlock s).trans (kept_passSlice ..)).trans (kept_passRun _ _)).trans
      (kept_setMrec ..)).trans (kept_expireDue ..)
  · exact kept_discardSlice ..

theorem kept_holdSlice (s : State) (e : SeqNo) (sl : Slice) (p : Path) : CapacitiesKept s (s.holdSlice e sl p) := by
  unfold State.holdSlice
  refine CapacitiesKept.ite (kept_discardSlice ..) (CapacitiesKept.ite (kept_discardSlice ..) ?_)
  rcases claimRx_cases s with ⟨_, h⟩ | h <;> rw [h]
  · exact (kept_withRxBlock s).trans (kept_setMrec ..)
  · exact kept_discardSlice ..

theorem kept_windowJump (s : State) (e : SeqNo) (sl : Slice) (p : Path) : CapacitiesKept s (s.windowJump e sl p) := by
  unfold State.windowJump
  rcases claimRx_cases s with ⟨_, h⟩ | h <;> rw [h]
  · exact ((kept_withRxBlock s).trans (kept_passJump _ _ _)).trans (kept_setMrec ..)
  · exact kept_discardSlice ..

theorem kept_resynchronise (s : State) (sl : Slice) (p : Path) : CapacitiesKept s (s.resynchronise sl p) := by
  unfold State.resynchronise
  simp only
  generalize hs2 : State.report _ _ = s2
  have h2 : CapacitiesKept s s2 := by
    rw [← hs2]
    exact (((kept_returnRx ..).trans (kept_setMrec ..)).trans (kept_send ..)).trans (kept_report _ _ (by intros; rfl))
  rcases claimRx_cases s2 with ⟨_, h⟩ | h <;> rw [h]
  · exact ((h2.trans (kept_withRxBlock s2)).trans (kept_passSlice ..)).trans (kept_setMrec ..)
  · exact h2.trans (kept_discardSlice ..)

theorem kept_judgeSlice (s : State) (sl : Slice) (p : Path) : CapacitiesKept s (s.judgeSlice sl p) := by
  unfold State.judgeSlice
  split
  · exact kept_synchronise ..
  · exact CapacitiesKept.ite (kept_passAtE ..) (CapacitiesKept.ite (kept_holdSlice ..) (CapacitiesKept.ite
      (kept_windowJump ..)
      (CapacitiesKept.ite (CapacitiesKept.ite ((kept_setMrec ..).trans (kept_discardSlice ..))
          (kept_resynchronise ..))
        (kept_discardSlice ..))))

theorem kept_takeSlice (s : State) (sl : Slice) (p : Path) : CapacitiesKept s (s.takeSlice sl p) := by
  have h : ∀ s : State, CapacitiesKept s (s.screenSlice sl p) := fun s =>
    CapacitiesKept.ite (kept_discardSlice ..) (CapacitiesKept.ite (kept_discardSlice ..) (kept_judgeSlice ..))
  exact CapacitiesKept.ite ((kept_flush ..).trans (h _)) (h s)

theorem kept_routeMessage (s : State) (d : Descriptor) (q : SeqNo) : CapacitiesKept s (s.routeMessage d q) := by
  unfold State.routeMessage State.offerToShare State.offerToProbe State.offerToQueue
  refine CapacitiesKept.ite ?_ (CapacitiesKept.ite ?_ ?_)
  · unfold Config.shareSize
    split
    · next h => exact ⟨id, id, id, fun hh => ⟨by show (s.mgmt.bbShare ++ [_]).length ≤ 4; simp; omega, hh.2⟩, id,
        fun hs => ⟨fun x hx => by
          rcases List.mem_append.1 hx with hx | hx
          · exact hs.1 x hx
          · rw [List.mem_singleton.1 hx], hs.2⟩⟩
    · exact ((kept_returnRx ..).trans (kept_report _ _ (by intros; rfl)))
  · refine CapacitiesKept.ite ?_ ((kept_returnRx ..).trans (kept_report _ _ (by intros; rfl)))
    simp only
    split <;> exact ((kept_returnRx ..).trans (kept_report _ _ (by intros; rfl))).trans (kept_endProbe ..)
  · exact CapacitiesKept.ite ⟨id, id, id, id, id, id⟩ (kept_abandonMessage ..)

theorem kept_abandonOpen (s : State) (c : Ctx) (r : AbandonReason) (q : SeqNo) : CapacitiesKept s
    (s.abandonOpen c r q) :=
  ((kept_freeCtx ..).trans (kept_notDiscarding ..)).trans (kept_abandonMessage ..)

theorem kept_abandonWith (s : State) (c : Ctx) (r : AbandonReason) (q : SeqNo) (g : Nat) :
    CapacitiesKept s (s.abandonWith c r q g) := (kept_freeCtx ..).trans (kept_abandonMessage ..)

theorem kept_truncateOpen (s : State) (sl : Slice) : CapacitiesKept s (s.truncateOpen sl) := by
  unfold State.truncateOpen
  split
  · exact kept_abandonOpen ..
  · exact CapacitiesKept.refl s

theorem kept_takeFirst (s : State) (sl : Slice) (p : Path) : CapacitiesKept s (s.takeFirst sl p) := by
  have h : ∀ r, CapacitiesKept s ((s.truncateOpen sl).rejectFirst sl r) := fun r =>
    ((kept_truncateOpen ..).trans (kept_toDiscarding ..)).trans (kept_abandonMessage ..)
  unfold State.takeFirst
  simp only
  refine CapacitiesKept.ite (h _) (CapacitiesKept.ite (h _) ?_)
  split
  · exact h _
  · next hc =>
    refine ((kept_truncateOpen ..).trans (kept_notDiscarding ..)).trans (kept_bindCtx _ _ ?_)
    exact Nat.lt_of_not_le hc

theorem kept_takeLast (s : State) (sl : Slice) (p : Path) : CapacitiesKept s (s.takeLast sl p) := by
  unfold State.takeLast
  split
  · exact (kept_orphanSlice ..).trans (kept_notDiscarding ..)
  · exact CapacitiesKept.ite ((kept_notDiscarding ..).trans (kept_abandonWith ..))
      (CapacitiesKept.ite ((kept_notDiscarding ..).trans (kept_abandonWith ..))
        (((kept_notDiscarding ..).trans (kept_freeCtx ..)).trans (kept_routeMessage ..)))

theorem kept_takeOnly (s : State) (sl : Slice) (p : Path) : CapacitiesKept s (s.takeOnly sl p) := by
  have h : CapacitiesKept s ((s.truncateOpen sl).notDiscarding sl.stream) :=
    (kept_truncateOpen ..).trans (kept_notDiscarding ..)
  exact CapacitiesKept.ite (h.trans (kept_abandonMessage ..)) (CapacitiesKept.ite (h.trans (kept_abandonMessage ..))
    (h.trans (kept_routeMessage ..)))

theorem kept_applyGap (s : State) (sl : Slice) (gap : Bool) : CapacitiesKept s (s.applyGap sl gap) := by
  unfold State.applyGap
  split
  · split
    · exact kept_abandonOpen ..
    · exact CapacitiesKept.refl s
  · exact CapacitiesKept.refl s

theorem kept_engineSlice (s : State) (sl : Slice) (p : Path) (gap : Bool) : CapacitiesKept s
    (s.engineSlice sl p gap) := by
  unfold State.engineSlice
  refine (kept_applyGap s sl gap).trans ?_
  simp only
  split
  · exact kept_takeFirst ..
  · exact kept_takeMiddle ..
  · exact kept_takeLast ..
  · exact kept_takeOnly ..

theorem kept_engineAbandon (s : State) (k : Nat) (r : AbandonReason) : CapacitiesKept s (s.engineAbandon k r) := by
  unfold State.engineAbandon
  split
  · exact kept_abandonOpen ..
  · exact kept_notDiscarding ..

theorem kept_engineItem (s : State) (it : Item) : CapacitiesKept s (s.engineItem it) := by
  cases it
  · exact kept_engineSlice ..
  · exact kept_engineAbandon ..

theorem kept_drainItems (k : Nat) : ∀ (n : Nat) (s : State), CapacitiesKept s (State.drainItems k n s) := by
  intro n
  induction n with
  | zero => exact fun s => CapacitiesKept.refl s
  | succ n ih =>
    intro s
    unfold State.drainItems
    split
    · exact ((kept_dropItem ..).trans (kept_engineItem ..)).trans (ih _)
    · exact CapacitiesKept.refl s

theorem kept_cutTransfer (s : State) : CapacitiesKept s s.cutTransfer := by
  unfold State.cutTransfer
  split
  · exact ⟨id, id, id, id, id, id⟩
  all_goals exact CapacitiesKept.refl s

theorem kept_setSession (s : State) (x : Option Session) : CapacitiesKept s (s.setSession x) := ⟨id, id, id, id, id, id⟩

theorem kept_startProbe (s : State) (r : Request) (n : Nat) (seed : Byte) : CapacitiesKept s
    (s.startProbe r n seed) :=
  ((kept_flush ..).trans (kept_drainItems ..)).trans ⟨id, id, id, id, id, id⟩

theorem kept_tryLoadData (s : State) (k n : Nat) (_h : reservedEntry s.sub = 0) : CapacitiesKept s
    (s.tryLoadData k n) := by
  unfold State.tryLoadData
  split
  · next hf =>
    have hf : s.slicer.fifo.length < 32 := hf
    rcases claimTx_cases s (sliceCount n) with ⟨_, _, hx⟩ | hx <;> rw [hx]
    · exact ⟨id, id, fun _ => by show s.slicer.fifo.length + 1 ≤ 32; omega, fun hh => ⟨hh.1,
        by show s.mgmt.lpShare.length + 0 ≤ 4; omega⟩, id, id⟩
    · exact kept_setSub_free _ _ rfl rfl
  · exact kept_setSub_free _ _ rfl rfl

theorem res_absorb (n : Nat) (e : Bool) : reservedEntry (absorbFrom n e) = 0 ∧ reservedPlace (absorbFrom n e) = 0 :=
    by
  unfold absorbFrom; split <;> exact ⟨rfl, rfl⟩

theorem kept_headerDone (s : State) (got hdr : List Byte) (e : Bool) (h : s.sub = .header got) : CapacitiesKept s
    (s.headerDone hdr e) := by
  have he : reservedEntry s.sub = 0 := by rw [h]; rfl
  have hr : ∀ ev, CapacitiesKept s (s.report (fun st => st.event ev)) := fun ev => kept_report _ _ (by intros; rfl)
  unfold State.headerDone
  refine CapacitiesKept.ite ((hr _).trans (kept_setSub_free _ _ rfl rfl)) (CapacitiesKept.ite ?_ ?_)
  · unfold State.judgeMgmtHeader
    simp only
    refine CapacitiesKept.ite ((hr _).trans (kept_setSub_free _ _ (res_absorb _ _).1 (res_absorb _ _).2)) ?_
    split
    · next hp =>
      have hp : s.mgmt.lpShare.length + 0 < 4 := by
        unfold State.localPlace at hp; rw [h] at hp; exact of_decide_eq_true hp
      refine ⟨id, id, fun hh => ?_, fun hh => ⟨hh.1, ?_⟩, id, id⟩
      · show s.slicer.fifo.length + 0 ≤ 32; omega
      · show s.mgmt.lpShare.length + 1 ≤ 4; omega
    · exact kept_setSub_free _ _ rfl rfl
  · unfold State.judgeDataHeader
    simp only
    split
    · exact ((hr _).trans (kept_setSub_free _ _ (res_absorb _ _).1 (res_absorb _ _).2))
    · exact kept_tryLoadData _ _ _ he

theorem kept_loadFault (s : State) (n : Nat) (m : Bool) (x : Submission) (h1 : reservedEntry x = 0) (h2 :
    reservedPlace x = 0) : CapacitiesKept s (s.loadFault n m x) := by
  unfold State.loadFault
  refine CapacitiesKept.trans (t := (s.returnTx n).report _) (⟨id, id, id, id, id, id⟩) (kept_setSub_free _ _ h1 h2)

theorem kept_takeByte (s : State) (b : Byte) (st e : Bool) : CapacitiesKept s (s.takeByte b st e) := by
  unfold State.takeByte
  split
  · split
    · cases e <;> exact kept_setSub_free _ _ rfl rfl
    · exact CapacitiesKept.refl s
  · next got h =>
    split
    · cases e <;> exact kept_setSub_free _ _ rfl rfl
    · exact kept_headerDone s got _ _ h
  · exact CapacitiesKept.refl s
  · exact CapacitiesKept.refl s
  · next k n got h =>
    have hs : ∀ g, CapacitiesKept s (s.setSub (.loadingData k n g)) := fun g => kept_setSub _ _
        (by rw [h]; exact Nat.le_refl 1) (by rw [h]; exact Nat.le_refl 0)
    refine CapacitiesKept.ite (CapacitiesKept.ite (kept_loadFault _ _ _ _ rfl rfl) (hs _)) (CapacitiesKept.ite ?_
        (kept_loadFault _ _ _ _ rfl rfl))
    refine ⟨id, id, fun hh => ?_, fun hh => ?_, id, id⟩
    · rw [h] at hh
      have hh : s.slicer.fifo.length + 1 ≤ 32 := hh
      show (s.slicer.fifo ++ [_]).length + 0 ≤ 32
      simp; omega
    · rw [h] at hh; exact hh
  · next n got h =>
    have hs : ∀ g, CapacitiesKept s (s.setSub (.loadingMgmt n g)) := fun g => kept_setSub _ _
        (by rw [h]; exact Nat.le_refl 0) (by rw [h]; exact Nat.le_refl 1)
    refine CapacitiesKept.ite (CapacitiesKept.ite (kept_loadFault _ _ _ _ rfl rfl) (hs _)) (CapacitiesKept.ite ?_
        (kept_loadFault _ _ _ _ rfl rfl))
    refine ⟨id, id, fun hh => ?_, fun hh => ⟨hh.1, ?_⟩, id, fun hs => ⟨hs.1, fun x hx => ?_⟩⟩
    · rw [h] at hh; exact hh
    · rw [h] at hh
      have hh : s.mgmt.lpShare.length + 1 ≤ 4 := hh.2
      show (s.mgmt.lpShare ++ [_]).length + 0 ≤ 4
      simp; omega
    · rcases List.mem_append.1 hx with hx | hx
      · exact hs.2 x hx
      · rw [List.mem_singleton.1 hx]
  · cases e <;> exact kept_setSub_free _ _ rfl rfl

theorem kept_startRequest (s : State) (r : Request) : CapacitiesKept s (s.startRequest r) := by
  unfold State.startRequest
  split
  · exact kept_respond ..
  · exact ⟨id, id, id, id, id, id⟩

theorem kept_nextSlice {s s1 : State} {p : Path} {sl : Slice} (h : s.nextSlice p = some (sl, s1)) :
    CapacitiesKept s s1 := by
  unfold State.nextSlice at h
  cases p <;> simp only at h <;> split at h <;> cases h <;> exact ⟨id, id, id, id, id, id⟩

/-! ## Held-slice table entries and stale runs -/

/-- What the merge records keep to (R32, R33). -/
def capMerge (s : State) : Prop :=
  SMap.wf (fun _ => MergeRec.fresh) s.merge.recs ∧ s.heldInUse ≤ 512 ∧ ∀ k, (s.mrec k).staleRun ≤ 64

theorem cap_setMrec {s : State} (k : Nat) (r : MergeRec) (h : capMerge s) (hr : r.held.length ≤
    (s.mrec k).held.length ∨ s.heldInUse < 512 ∧ r.held.length ≤ (s.mrec k).held.length + 1)
    (hs : r.staleRun ≤ 64) : capMerge (s.setMrec k r) := by
  refine ⟨SMap.set_wf _ _ _ _ h.1, ?_, fun j => ?_⟩
  · have := heldInUse_setMrec h.1 k r
    have h2 := h.2.1
    rcases hr with h3 | h3 <;> omega
  · unfold State.mrec State.setMrec
    simp only [SMap.get_set]
    split
    · exact hs
    · exact h.2.2 j

theorem cap_congr {s t : State} (h : capMerge s) (hm : t.merge.recs = s.merge.recs) : capMerge t := by
  unfold capMerge State.heldInUse State.mrec at *; rw [hm]; exact h

theorem cap_expireOnce {s : State} (k : Nat) (h : capMerge s) : capMerge (s.expireOnce k) := by
  unfold State.expireOnce
  split
  · exact h
  · next x xs hx =>
    refine cap_setMrec _ _ (cap_congr h ?_) (.inl ?_) (Nat.zero_le _)
    · rw [(passRun_merge _ _).1]; rfl
    · have : (((s.passSlice x.slice x.path true).passRun (releaseRun (x.slice.seq + 1) xs).1).mrec k).held = x ::
        xs := by
        unfold State.mrec; rw [(passRun_merge _ _).1]; exact hx
      rw [this]; exact Nat.le_succ_of_le (releaseRun_left_length _ _)

theorem cap_expireLoop (k : Nat) : ∀ (n : Nat) {s : State}, capMerge s → capMerge (State.expireLoop k n s) := by
  intro n
  induction n with
  | zero => exact fun h => h
  | succ n ih => intro s h; unfold State.expireLoop; split
                 · exact ih (cap_expireOnce k h)
                 · exact h

theorem cap_flush {s : State} (k : Nat) (r : AbandonReason) (h : capMerge s) : capMerge (s.flush k r) :=
  cap_setMrec (s := s.returnRx (s.mrec k).held.length) k MergeRec.fresh h (.inl (Nat.zero_le _)) (Nat.zero_le _)

theorem cap_ite {s t : State} {p : Prop} [Decidable p] (h : p → capMerge s) (h' : ¬p → capMerge t) : capMerge
    (if p then s else t) := by
  split
  · exact h ‹_›
  · exact h' ‹_›

theorem cap_judgeSlice {s : State} (sl : Slice) (p : Path) (hg : s.glob.staleThreshold ≤ 64) (h : capMerge s) :
    capMerge (s.judgeSlice sl p) := by
  have e0 : ∀ {t : State} (k : Nat) (y : Option SeqNo), capMerge t →
      capMerge (t.setMrec k { sync := y, held := [], timer := none, staleRun := 0 }) :=
    fun k y ht => cap_setMrec _ _ ht (.inl (Nat.zero_le _)) (Nat.zero_le _)
  unfold State.judgeSlice
  split
  · unfold State.synchronise
    rcases claimRx_cases s with ⟨_, hc⟩ | hc <;> rw [hc]
    · exact e0 _ _ h
    · exact h
  · simp only
    refine cap_ite (fun h0 => ?_) (fun h0 => cap_ite (fun hw => ?_) (fun hw => cap_ite (fun _ => ?_) (fun _
        => cap_ite (fun _ => ?_) (fun _ => h))))
    · unfold State.passAtE
      rcases claimRx_cases s with ⟨_, hc⟩ | hc <;> rw [hc]
      · refine cap_expireLoop _ _ ?_
        refine cap_setMrec _ _ (cap_congr h ?_) (.inl ?_) (Nat.zero_le _)
        · rw [(passRun_merge _ _).1]; rfl
        · have : (((s.withRxBlock.passSlice sl p false).passRun (releaseRun (sl.seq + 1)
            (s.mrec sl.stream).held).1).mrec sl.stream).held = (s.mrec sl.stream).held := by
            unfold State.mrec; rw [(passRun_merge _ _).1]; rfl
          rw [this]; exact releaseRun_left_length _ _
      · exact h
    · unfold State.holdSlice
      refine cap_ite (fun _ => h) (fun hany => cap_ite (fun _ => h) (fun hl => ?_))
      rcases claimRx_cases s with ⟨_, hc⟩ | hc <;> rw [hc]
      · refine cap_setMrec (s := s.withRxBlock) _ _ h (.inr ⟨Nat.lt_of_not_le hl, ?_⟩) (Nat.zero_le _)
        exact Nat.le_of_eq (insertHeld_length _ _ _)
      · exact h
    · unfold State.windowJump
      rcases claimRx_cases s with ⟨_, hc⟩ | hc <;> rw [hc]
      · exact e0 _ _ (cap_congr h (by rw [(passJump_merge _ _ _).1]; rfl))
      · exact h
    · unfold State.staleSlice
      simp only
      refine cap_ite (fun hr => ?_) (fun _ => ?_)
      · exact cap_setMrec (s := s) _ _ h (.inl (Nat.le_refl _)) (Nat.le_of_lt (Nat.lt_of_lt_of_le hr hg))
      · unfold State.resynchronise
        simp only
        generalize hw : State.report _ _ = w
        have o1 : capMerge w := by
          rw [← hw]
          exact cap_setMrec (s := s.returnRx _) sl.stream MergeRec.fresh h (.inl (Nat.zero_le _)) (Nat.zero_le _)
        rcases claimRx_cases w with ⟨_, hc⟩ | hc <;> rw [hc]
        · exact e0 _ _ o1
        · exact o1

/-- With the stale threshold in its range (R24), a slice taken keeps the merge records to their bounds. -/
theorem cap_takeSlice {s : State} (sl : Slice) (p : Path) (hg : s.glob.staleThreshold ≤ 64) (h : capMerge s) :
    capMerge (s.takeSlice sl p) := by
  have hs : ∀ {u : State}, u.glob.staleThreshold ≤ 64 → capMerge u → capMerge (u.screenSlice sl p) := fun hu h => by
    unfold State.screenSlice
    exact cap_ite (fun _ => h) (fun _ => cap_ite (fun _ => h) (fun _ => cap_judgeSlice _ _ hu h))
  exact cap_ite (fun _ => hs hg (cap_flush _ _ h)) (fun _ => hs hg h)

end Sys2Proof.Machine
end

