-- ==== Sys2Proof/Laws/Engine.lean ====
section
/-! SUPPORT. The reassembly engine's operations: which contexts each leaves bound, what a log write leaves, where two byte
strings first differ (R59, R61 to R71, R171, R183). -/

namespace Sys2Proof.Machine

/-- A log write: the oldest entry leaves a full log, and the overwrite count stays at its largest value. -/
theorem writeLog_spec (st : Stats) (e : LogEntry) :
    st.writeLog e
      = { st with
          log := if st.log.length < 32 then st.log ++ [e] else st.log.tail ++ [e]
          overwrites :=
            if st.log.length < 32 then st.overwrites
            else if st.overwrites = 65535 then 65535 else st.overwrites + 1 } := by
  unfold Stats.writeLog
  by_cases h : st.log.length < 32
  · rw [if_pos (show _ < Config.logSize from h), if_pos h, if_pos h]
  · rw [if_neg (show ¬ _ < Config.logSize from h), if_neg h, if_neg h, List.drop_one]
    unfold satInc16
    by_cases h2 : st.overwrites = 65535
    · rw [if_pos h2, if_pos (show st.overwrites = BitVec.allOnes 16 from h2), h2]
    · rw [if_neg h2, if_neg (show ¬ st.overwrites = BitVec.allOnes 16 from h2)]

/-- The lowest offset at which two byte strings differ. -/
theorem firstDiff_spec (xs ys : List Byte) : ∀ i off, (xs.take off = ys.take off) → off ≤ xs.length
    → off ≤ ys.length → xs[off]? ≠ ys[off]? →
   firstDiff i xs ys = some (i + off) := by
  induction xs generalizing ys with
  | nil =>
    intro i off h1 h2 h3 h4
    have : off = 0 := by simpa using h2
    subst this
    cases ys with
    | nil => simp at h4
    | cons y ys => rfl
  | cons x xs ih =>
    intro i off h1 h2 h3 h4
    cases ys with
    | nil =>
      have : off = 0 := by simpa using h3
      subst this; rfl
    | cons y ys =>
      cases off with
      | zero =>
        have : x ≠ y := by simpa using h4
        simp [firstDiff, this]
      | succ off =>
        simp only [List.take_succ_cons, List.cons.injEq] at h1
        simp only [firstDiff, h1.1, if_true]
        rw [ih ys (i + 1) off h1.2 (by simpa using h2) (by simpa using h3) (by simpa using h4)]
        congr 1; omega

theorem firstDiff_self (xs : List Byte) : ∀ i, firstDiff i xs xs = none := by
  induction xs with
  | nil => intro i; rfl
  | cons x xs ih => intro i; simp [firstDiff, ih]

/-! ## Contexts -/

theorem find?_eraseP_ctxs (ctxs : List Ctx) (k : Nat) (h : (ctxs.map (fun c => c.stream)).Nodup) :
    (ctxs.eraseP (fun c => c.stream == k)).find? (fun c => c.stream == k) = none := by
  induction ctxs with
  | nil => rfl
  | cons c cs ih =>
    simp only [List.map_cons, List.nodup_cons, List.mem_map, not_exists, not_and] at h
    by_cases hc : c.stream = k
    · subst hc
      simp only [List.eraseP_cons, beq_self_eq_true, List.find?_eq_none, beq_iff_eq]
      intro x hx; exact h.1 x hx
    · have hb : (c.stream == k) = false := by simpa using hc
      simp [hb, ih h.2]

/-- A freed stream has no context. -/
theorem ctxOf_freeCtx {s : State} (h : s.oneContextEach) (k : Nat) : (s.freeCtx k).ctxOf k = none :=
  find?_eraseP_ctxs _ _ h

/-- An abandon leaves the engine to its caller. -/
theorem abandonMessage_engine (s : State) (k : Nat) (r : AbandonReason) (seq : SeqNo) (g n : Nat) :
    (s.abandonMessage k r seq g n).engine = s.engine := by
  unfold State.abandonMessage State.informProbe
  simp only
  split
  · unfold State.endProbe
    split
    · split
      · simp
      · simp
    all_goals simp
  · simp

theorem asmState_idle (s : State) (k : Nat) (h : s.ctxOf k = none) (h2 : markOf s.engine.discarding k = false) :
    s.asmState k = .idle := by
  simp [State.asmState, h, h2]

/-- The items are as they were, and no two contexts are bound to one stream. -/
def ContextsKept (s : State) (t : State) : Prop := t.engine.items = s.engine.items ∧ t.oneContextEach

theorem oneContextEach_freeCtx {s : State} (h : s.oneContextEach) (k : Nat) : (s.freeCtx k).oneContextEach :=
  List.Nodup.sublist (List.Sublist.map _ List.eraseP_sublist) h

/-- Binding a context to a stream that has none. -/
theorem oneContextEach_bindCtx {s : State} (h : s.oneContextEach) (c : Ctx) (hn : s.ctxOf c.stream = none) :
    (s.bindCtx c).oneContextEach := by
  unfold State.oneContextEach State.bindCtx
  simp only [List.map_append, List.map_cons, List.map_nil]
  rw [List.nodup_append]
  refine ⟨h, by simp, ?_⟩
  intro a ha b hb hab
  simp only [List.mem_singleton] at hb
  subst hb; subst hab
  rw [List.mem_map] at ha
  obtain ⟨x, hx, hxs⟩ := ha
  unfold State.ctxOf at hn
  rw [List.find?_eq_none] at hn
  exact hn x hx (by simpa using hxs)

theorem contexts_abandonMessage (s : State) (h : s.oneContextEach) (k' : Nat) (r : AbandonReason) (q : SeqNo) (g n :
    Nat) : ContextsKept s (s.abandonMessage k' r q g n) := by
  unfold ContextsKept State.oneContextEach; rw [abandonMessage_engine]; exact ⟨rfl, h⟩

theorem ContextsKept.tr {s t u : State} (h : ContextsKept s t) (h' : t.oneContextEach → ContextsKept t u) :
    ContextsKept s u :=
  ⟨(h' h.2).1.trans h.1, (h' h.2).2⟩

theorem ContextsKept.ite {s t u : State} {p : Prop} [Decidable p] (h : ContextsKept s t) (h' : ContextsKept s u) :
    ContextsKept s (if p then t else u) := by
  split <;> assumption

theorem contexts_abandonOpen (s : State) (h : s.oneContextEach) (c : Ctx) (r : AbandonReason) (q : SeqNo) :
    ContextsKept s (s.abandonOpen c r q) := by
  unfold State.abandonOpen
  exact ContextsKept.tr (t := (s.freeCtx c.stream).notDiscarding c.stream) ⟨rfl, oneContextEach_freeCtx h _⟩ (fun h
      => contexts_abandonMessage _ h _ _ _ _ _)

theorem endProbe_engine (s : State) (a b : Byte) (n o : Nat) (l : LaneSet) : (s.endProbe a b n o l).engine
    = s.engine := by
  unfold State.endProbe
  split
  · split <;> simp
  all_goals rfl

theorem contexts_routeMessage (s : State) (h : s.oneContextEach) (d : Descriptor) (q : SeqNo) : ContextsKept s
    (s.routeMessage d q) := by
  unfold State.routeMessage State.offerToShare State.offerToProbe State.offerToQueue
  refine ContextsKept.ite (ContextsKept.ite ⟨rfl, h⟩ ⟨rfl, h⟩) (ContextsKept.ite (ContextsKept.ite ?_ ⟨rfl, h⟩)
      (ContextsKept.ite ⟨rfl, h⟩ (contexts_abandonMessage _ h _ _ _ _ _)))
  simp only
  split <;> (unfold ContextsKept State.oneContextEach; rw [endProbe_engine]; exact ⟨rfl, h⟩)

theorem ctxOf_abandonOpen {s : State} (h : s.oneContextEach) (c : Ctx) (r : AbandonReason) (q : SeqNo) :
    (s.abandonOpen c r q).ctxOf c.stream = none := by
  unfold State.abandonOpen State.ctxOf; rw [abandonMessage_engine]
  exact ctxOf_freeCtx h _

theorem contexts_truncateOpen {s : State} (h : s.oneContextEach) (sl : Slice) : ContextsKept s (s.truncateOpen sl)
    ∧ (s.truncateOpen sl).ctxOf sl.stream = none := by
  unfold State.truncateOpen; split
  · next c hc =>
    refine ⟨contexts_abandonOpen s h c _ _, ?_⟩
    have := ctxOf_stream hc
    rw [← this]; exact ctxOf_abandonOpen h _ _ _
  · next hc => exact ⟨⟨rfl, h⟩, hc⟩

/-- A passed slice keeps one context to a stream. -/
theorem contexts_engineSlice (s : State) (h : s.oneContextEach) (sl : Slice) (p : Path) (g : Bool) : ContextsKept s
    (s.engineSlice sl p g) := by
  unfold State.engineSlice
  have h1 : ContextsKept s (s.applyGap sl g) := by
    unfold State.applyGap; split
    · split
      · exact contexts_abandonOpen _ h ..
      · exact ⟨rfl, h⟩
    · exact ⟨rfl, h⟩
  refine h1.tr (fun h => ?_)
  generalize s.applyGap sl g = s1 at *
  simp only
  split
  · obtain ⟨h2, h3⟩ := contexts_truncateOpen h sl
    unfold State.takeFirst
    refine h2.tr (fun h => ?_)
    generalize s1.truncateOpen sl = s2 at *
    have hr : ∀ r, ContextsKept s2 (s2.rejectFirst sl r) := fun r => ContextsKept.tr (t :=
        s2.toDiscarding sl.stream) ⟨rfl, h⟩ (fun h => contexts_abandonMessage _ h _ _ _ _ _)
    refine ContextsKept.ite (hr _) (ContextsKept.ite (hr _) (ContextsKept.ite (hr _) ⟨rfl, ?_⟩))
    exact oneContextEach_bindCtx (s := s2.notDiscarding sl.stream) h _ h3
  · unfold State.takeMiddle
    split
    · exact ⟨rfl, h⟩
    · next c hc =>
      have hcs := ctxOf_stream hc
      refine ContextsKept.ite ?_ ⟨rfl, ?_⟩
      · exact ContextsKept.tr (t := (s1.toDiscarding sl.stream).freeCtx c.stream) ⟨rfl, oneContextEach_freeCtx h _⟩
          (fun h => contexts_abandonMessage _ h _ _ _ _ _)
      · apply oneContextEach_bindCtx (oneContextEach_freeCtx h _)
        show (s1.freeCtx sl.stream).ctxOf c.stream = none
        rw [hcs]; exact ctxOf_freeCtx h _
  · unfold State.takeLast
    split
    · exact ⟨rfl, h⟩
    · next c hc =>
      have ha : ∀ a b cc d, ContextsKept s1 (State.abandonWith (s1.notDiscarding sl.stream) a b cc d) :=
          fun a b cc d =>
        ContextsKept.tr (t := (s1.notDiscarding sl.stream).freeCtx a.stream) ⟨rfl, oneContextEach_freeCtx h _⟩
            (fun h => contexts_abandonMessage _ h _ _ _ _ _)
      refine ContextsKept.ite (ha _ _ _ _) (ContextsKept.ite (ha _ _ _ _) ?_)
      exact ContextsKept.tr (t := (s1.notDiscarding sl.stream).freeCtx sl.stream) ⟨rfl, oneContextEach_freeCtx h _⟩
          (fun h => contexts_routeMessage _ h _ _)
  · obtain ⟨h2, h3⟩ := contexts_truncateOpen h sl
    unfold State.takeOnly
    refine ContextsKept.tr (t := (s1.truncateOpen sl).notDiscarding sl.stream) ⟨h2.1, h2.2⟩ (fun h => ?_)
    generalize (s1.truncateOpen sl).notDiscarding sl.stream = s2 at *
    exact ContextsKept.ite (contexts_abandonMessage _ h _ _ _ _ _) (ContextsKept.ite
        (contexts_abandonMessage _ h _ _ _ _ _) (contexts_routeMessage _ h _ _))

theorem contexts_engineItem (s : State) (h : s.oneContextEach) (it : Item) : ContextsKept s (s.engineItem it) := by
  cases it with
  | slice sl p g => exact contexts_engineSlice s h sl p g
  | abandon k' r =>
    show ContextsKept s (s.engineAbandon k' r)
    unfold State.engineAbandon; split
    · exact contexts_abandonOpen _ h ..
    · exact ⟨rfl, h⟩

theorem items_dropItem_length {s : State} {k : Nat} {it : Item} (h : s.nextItem k = some it) :
    (s.dropItem k).engine.items.length + 1 = s.engine.items.length := by
  unfold State.nextItem at h
  have hm := List.mem_of_find?_eq_some h
  have hp := List.find?_some h
  show (s.engine.items.eraseP _).length + 1 = _
  rw [List.length_eraseP_of_mem hm hp]
  have := List.length_pos_of_mem hm
  omega

end Sys2Proof.Machine
end

