-- ==== Sys2Proof/Laws/LaneReceive.lean ====
section
/-! SUPPORT. The receive side of a lane: what a test in HUNT, CONFIRM and UP can answer, by what has been received (R5 to
R7, R10). -/

namespace Sys2Proof.Machine

/-- A block is tested once its 64 bytes are there. -/
theorem Lane.partlyReceived_iff (l : Lane) : l.partlyReceived = true ↔ l.rx.length < 64 := decide_eq_true_iff

theorem Lane.not_partlyReceived {l : Lane} (h : 64 ≤ l.rx.length) : ¬ l.partlyReceived = true := by
  rw [Lane.partlyReceived_iff]; omega

/-- A block passes when its header check is the one computed over its bytes 0..6 (R4). -/
theorem Lane.block_passes_iff (l : Lane) :
    blockPasses l.block = true ↔ crc8 ((l.rx.take 64).take 7) = rd8 (l.rx.take 64) 7 := beq_iff_eq

/-- What a test in HUNT does (R5). -/
theorem Lane.huntTest_eq (l : Lane) :
    l.huntTest
      = if l.rx.length < 64 then l
        else if crc8 ((l.rx.take 64).take 7) = rd8 (l.rx.take 64) 7 then
          { l with rx := l.rx.drop 64, align := .confirm, confirm := 1 }
        else { l with rx := l.rx.drop 1 } := by
  unfold Lane.huntTest
  simp only [Lane.partlyReceived_iff, Lane.block_passes_iff]
  rfl

/-- What a test in CONFIRM does (R6). -/
theorem Lane.confirmTest_eq (l : Lane) :
    l.confirmTest
      = if l.rx.length < 64 then l
        else if crc8 ((l.rx.take 64).take 7) = rd8 (l.rx.take 64) 7 then
          if l.confirm < 5 then { l with rx := l.rx.drop 64, confirm := l.confirm + 1 }
          else { l with rx := l.rx.drop 64, align := .up, confirm := 6, failRun := 0 }
        else { l with rx := l.rx.drop 64, align := .hunt, confirm := 0 } := by
  have h : (l.confirm + 1 < Config.confirmsForUp) = (l.confirm < 5) := by
    simp [Config.confirmsForUp, Nat.succ_lt_succ_iff]
  unfold Lane.confirmTest
  simp only [Lane.partlyReceived_iff, Lane.block_passes_iff, h]
  rfl

/-- What UP_BLOCK does in UP: nothing yet with the block partly received, else the block is screened or counted as
failing at a lane that has gone past it (R7, R10). -/
theorem execUpBlock_up {l : LaneId} {s : State} (bytes : List Byte) (h : s.inReset = false)
    (hu : (s.lane l).align = .up) :
    execUpBlock l bytes s
      = .next
        (let rx := (s.lane l).rx ++ bytes
         let s1 := s.setLane l { s.lane l with rx := rx.drop 64 }
         if rx.length < 64 then s.setLane l { s.lane l with rx := rx }
         else if crc8 ((rx.take 64).take 7) = rd8 (rx.take 64) 7 then s1.upScreen l (rx.take 64)
         else s1.upFailure l) := by
  unfold execUpBlock
  rw [live_running h, if_pos hu]
  simp only [Lane.partlyReceived_iff, Lane.block_passes_iff]
  rfl

end Sys2Proof.Machine
end

