-- ==== Sys2Proof/Laws/LocalPort.lean ====
section
/-! SUPPORT. The submission side's operations: header fields, the wait of R100, cutting a payload into blocks. -/

namespace Sys2Proof.Machine

theorem subIsMgmt_iff (hdr : List Byte) : subIsMgmt hdr = true ↔ (rd8 hdr 0).toNat % 2 = 1 := by
  unfold subIsMgmt
  rw [BitVec.getLsbD, Nat.testBit_zero]; simp

theorem subStream_eq (hdr : List Byte) : subStream hdr = (rd16 hdr 2).toNat % 4096 := by
  unfold subStream
  simp [BitVec.extractLsb'_toNat]

theorem subIsMgmt_of_odd {hdr : List Byte} (h : (rd8 hdr 0).toNat % 2 = 1) : subIsMgmt hdr = true :=
    (subIsMgmt_iff hdr).2 h

theorem subIsMgmt_of_even {hdr : List Byte} (h : (rd8 hdr 0).toNat % 2 = 0) : subIsMgmt hdr = false := by
  rw [Bool.eq_false_iff]; intro hc; have := (subIsMgmt_iff hdr).1 hc; omega

/-- The FIFO test and the claim of R100 (R82). -/
theorem tryLoadData_eq (s : State) (k n : Nat) : s.tryLoadData k n =
      (if s.slicer.fifo.length < 32 ∧ s.pool.tx + (n + 55) / 56 ≤ 4096 - s.glob.ceiling ∧
          (n + 55) / 56 ≤ s.pool.free then
        { s with
          pool := { s.pool with free := s.pool.free - (n + 55) / 56, tx := s.pool.tx + (n + 55) / 56 }
          sub := .loadingData k n [] }
      else { s with sub := .waitingData k n }) := by
  unfold State.tryLoadData State.claimTx
  by_cases h1 : s.slicer.fifo.length < 32
  · rw [if_pos (show _ < Config.txFifoSize from h1)]
    by_cases h2 : s.pool.tx + (n + 55) / 56 ≤ 4096 - s.glob.ceiling ∧ (n + 55) / 56 ≤ s.pool.free
    · rw [if_pos (show s.pool.tx + sliceCount n ≤ Config.poolBlocks - s.glob.ceiling
        ∧ sliceCount n ≤ s.pool.free from h2), if_pos ⟨h1, h2⟩]; rfl
    · rw [if_neg (show ¬ (s.pool.tx + sliceCount n ≤ Config.poolBlocks - s.glob.ceiling
        ∧ sliceCount n ≤ s.pool.free) from h2), if_neg (fun hc => h2 hc.2)]; rfl
  · rw [if_neg (show ¬ _ < Config.txFifoSize from h1), if_neg (fun hc => h1 hc.1)]; rfl

/-- Pieces of 56 bytes and a last one of what remains. -/
theorem cutPieces_spec : ∀ (fuel : Nat) (bytes : List Byte), bytes.length ≤ fuel →
   (cutPieces fuel bytes).flatten = bytes ∧ (cutPieces fuel bytes).length = (bytes.length + 55) / 56
        ∧ (∀ x ∈ cutPieces fuel bytes, 1 ≤ x.length ∧ x.length ≤ 56)
        ∧ ∀ x ∈ (cutPieces fuel bytes).dropLast, x.length = 56 := by
  intro fuel
  induction fuel with
  | zero =>
    intro bytes h
    have : bytes = [] := by simpa using h
    subst this; simp [cutPieces]
  | succ fuel ih =>
    intro bytes h
    cases bytes with
    | nil => simp [cutPieces]
    | cons b bs =>
      have hd : ((b :: bs).drop 56).length = bs.length + 1 - 56 := by simp
      obtain ⟨h1, h2, h3, h4⟩ := ih ((b :: bs).drop 56) (by simp only [List.length_cons] at h; omega)
      have hc : cutPieces (fuel + 1) (b :: bs) = (b :: bs).take 56 :: cutPieces fuel ((b :: bs).drop 56) := rfl
      rw [hc]
      refine ⟨?_, ?_, ?_, ?_⟩
      · rw [List.flatten_cons, h1, List.take_append_drop]
      · rw [List.length_cons, h2, hd, List.length_cons]; omega
      · intro x hx
        rcases List.mem_cons.1 hx with rfl | hx
        · simp
        · exact h3 x hx
      · intro x hx
        by_cases hn : cutPieces fuel ((b :: bs).drop 56) = []
        · rw [hn] at hx; simp at hx
        · rw [List.dropLast_cons_of_ne_nil hn] at hx
          rcases List.mem_cons.1 hx with rfl | hx
          · have hne : ((b :: bs).drop 56) ≠ [] := by
              intro hz; rw [hz] at hn; apply hn; cases fuel <;> rfl
            have := List.length_pos_iff.2 hne
            rw [hd] at this
            rw [List.length_take, List.length_cons]; omega
          · exact h4 x hx

end Sys2Proof.Machine
end

