-- ==== Sys2Proof/Laws/Port.lean ====
section
/-! SUPPORT. The port's output (R96, R188): the bytes of a delivery with their marks, and what a microsecond, the start and
the end of a transfer and a cut do to the bytes presented. -/

namespace Sys2Proof.Machine

/-! ## The bytes of a delivery -/

@[simp] theorem deliveryOut_length (t : Transfer) : (deliveryOut t).length = (deliveryBytes t).length :=
  List.length_mapIdx

/-- The byte at a position of a delivery, with its marks (R188). -/
theorem deliveryOut_get (t : Transfer) {i : Nat} {b : Byte} (h : (deliveryBytes t)[i]? = some b) :
    (deliveryOut t)[i]?
      = some
        { data := b, startMark := decide (i = 0), endMark := decide (i + 1 = (deliveryBytes t).length), error := false } := by
  unfold deliveryOut
  simp only [List.getElem?_mapIdx, h, Option.map_some]
  rfl

/-- Every delivery has its 8-byte header. -/
theorem deliveryBytes_length (t : Transfer) : 8 ≤ (deliveryBytes t).length := by
  cases t <;> simp [deliveryBytes, be16n, be16]

/-- The first byte of a delivery: its kind, with the start mark. -/
theorem deliveryOut_first (t : Transfer) :
    (deliveryOut t).take 1
      = [{ data := match t with | .data _ _ => 0 | .mgmt _ => 1, startMark := true, endMark := false, error := false }] := by
  have hb : (deliveryBytes t)[0]? = some (match t with | .data _ _ => (0 : Byte) | .mgmt _ => 1) := by cases t <;> rfl
  have h := deliveryOut_get t hb
  have h8 := deliveryBytes_length t
  have he : decide (0 + 1 = (deliveryBytes t).length) = false := decide_eq_false (by omega)
  rw [List.take_one, List.head?_eq_getElem?, h, he]; rfl

/-! ## Presenting -/

/-- With no transfer in progress a microsecond presents nothing. -/
theorem Delivery.present_none {d : Delivery} (h : d.transfer = none) : d.present = { d with valid := false } := by
  unfold Delivery.present; split
  · rfl
  · next ht => rw [h] at ht; cases ht

/-- What a microsecond presents of the delivery in transfer: the next byte, unless it is the last. -/
theorem Delivery.present_some {d : Delivery} {t : Transfer} (h : d.transfer = some t) :
    d.present
      = if d.out.length + 1 < (deliveryOut t).length then
          { d with out := d.out ++ ((deliveryOut t)[d.out.length]?).toList, valid := true }
        else { d with valid := false } := by
  have hl : (d.toCome t).length = (deliveryOut t).length - d.out.length := List.length_drop
  have hg : (d.toCome t)[0]? = (deliveryOut t)[d.out.length]? := by
    unfold Delivery.toCome; rw [List.getElem?_drop, Nat.add_zero]
  unfold Delivery.present
  split
  · next ht => rw [h] at ht; cases ht
  · next u hu =>
    rw [h] at hu; cases hu
    split
    · next b c rest he =>
      rw [he] at hl hg
      simp only [List.length_cons] at hl
      rw [if_pos (by omega), ← hg]; rfl
    · next b he =>
      rw [he] at hl
      simp only [List.length_cons, List.length_nil] at hl
      rw [if_neg (by omega)]
    · next he =>
      rw [he] at hl
      simp only [List.length_nil] at hl
      rw [if_neg (by omega)]

/-- With the first j bytes presented, the next one makes them the first j+1. -/
theorem take_next {α : Type} (xs : List α) (j : Nat) : xs.take j ++ (xs[j]?).toList = xs.take (j + 1) := by
  rw [List.take_add_one]

/-- With the first j bytes presented, a microsecond presents the next, unless it is the last. -/
theorem Delivery.present_next {d : Delivery} {t : Transfer} {j : Nat} (ht : d.transfer = some t)
    (ho : d.out = (deliveryOut t).take j) (hj : j + 1 < (deliveryOut t).length) :
    d.present = { d with out := (deliveryOut t).take (j + 1), valid := true } := by
  have hl : d.out.length = j := by rw [ho, List.length_take]; omega
  rw [Delivery.present_some ht, hl, if_pos hj, ho, take_next]

end Sys2Proof.Machine
end

