-- ==== Sys2Proof/Laws/Outputs.lean ====
section
/-! SUPPORT. What each shared operation does to the part's outputs: the transfer in progress and the bytes presented of it,
the occupancy of the delivery queues (R91), and the probe message that waits or is being sliced (R108). -/

namespace Sys2Proof.Machine

/-- The probe messages that wait or are being sliced are that of a SENDING probe (R108). -/
def State.probeBalanced (s : State) : Prop :=
  waitingProbes s.slicer.outputs + slicingProbe s.slicer.state = probeSending s.mgmt.executor

/-- The outputs are as they were, or keep to their bounds. -/
structure OutputsKept (s t : State) : Prop where
  table : t.table = s.table
  transfer : t.delivery.transfer = s.delivery.transfer
  out : t.delivery.out = s.delivery.out
  probe : s.probeBalanced → t.probeBalanced
  occ : (∀ q, s.activeBank.capacities.get q ≤ 256) → (∀ q, s.occupancy q ≤ 256) → ∀ q, t.occupancy q ≤ 256

theorem OutputsKept.refl (s : State) : OutputsKept s s := ⟨rfl, rfl, rfl, id, fun _ h => h⟩

theorem OutputsKept.trans {s t u : State} (h : OutputsKept s t) (h' : OutputsKept t u) : OutputsKept s u :=
  ⟨h'.table.trans h.table, h'.transfer.trans h.transfer, h'.out.trans h.out, h'.probe ∘ h.probe, fun hc ho =>
    h'.occ (fun q => by
      have : t.activeBank = s.activeBank := by unfold State.activeBank State.bank; rw [h.table]
      rw [this]; exact hc q) (h.occ hc ho)⟩

theorem OutputsKept.ite {s t u : State} {p : Prop} [Decidable p] (h : OutputsKept s t) (h' : OutputsKept s u) :
    OutputsKept s (if p then t else u) := by
  split <;> assumption

/-- What the outputs rest on. -/
theorem OutputsKept.of_fields {s t : State} (hx : t.mgmt.executor = s.mgmt.executor)
    (ho : t.slicer.outputs = s.slicer.outputs) (hs : t.slicer.state = s.slicer.state) (hd : t.delivery = s.delivery)
    (ht : t.table = s.table) : OutputsKept s t := by
  refine ⟨ht, by rw [hd], by rw [hd], fun h => ?_, fun _ h q => ?_⟩
  · unfold State.probeBalanced at *; rw [hx, ho, hs]; exact h
  · have : t.occupancy q = s.occupancy q := by unfold State.occupancy; rw [hd]
    rw [this]; exact h q

theorem Untouched.outputsKept {s t : State} (h : Untouched s t) (ht : t.table = s.table) : OutputsKept s t :=
  .of_fields (by rw [h.mgmt]) (by rw [h.slicer]) (by rw [h.slicer]) h.delivery ht

/-- An operation on the outputs after a change to other fields. -/
theorem OutputsKept.after {s t u : State} (h : OutputsKept t u) (hm : t.mgmt = s.mgmt) (hs : t.slicer = s.slicer)
    (hd : t.delivery = s.delivery) (ht : t.table = s.table) : OutputsKept s u :=
  .trans (.of_fields (by rw [hm]) (by rw [hs]) (by rw [hs]) hd ht) h

theorem waitingProbes_append (xs ys : List Output) : waitingProbes (xs ++ ys) = waitingProbes xs + waitingProbes ys := by
  simp [waitingProbes]

/-! ## Responses and the probe's endings -/

/-- A response while no probe is SENDING. -/
theorem outputs_respond {s : State} (r : Request) (st : Status) (d : List Byte)
    (h : probeSending s.mgmt.executor = 0) : OutputsKept s (s.respond r st d) := by
  unfold State.respond
  cases r.source
  · refine ⟨rfl, rfl, rfl, fun hp => ?_, fun _ ho => ho⟩
    unfold State.probeBalanced at *
    rw [h] at hp
    show waitingProbes (s.slicer.outputs ++ [.response _]) + slicingProbe s.slicer.state = 0
    rw [waitingProbes_append]; exact hp
  · refine ⟨rfl, rfl, rfl, fun hp => ?_, fun _ ho => ho⟩
    unfold State.probeBalanced at *
    rw [h] at hp; exact hp

theorem outputs_endProbe (s : State) (a b : Byte) (n off : Nat) (l : LaneSet) : OutputsKept s (s.endProbe a b n off l) := by
  unfold State.endProbe
  split
  · next he =>
    split
    · next ha => exact outputs_respond _ _ _ (by rw [he]; simp [probeSending, ha])
    · exact .refl s
  all_goals exact .refl s

theorem outputs_abandonMessage (s : State) (k : Nat) (r : AbandonReason) (q : SeqNo) (g n : Nat) :
    OutputsKept s (s.abandonMessage k r q g n) := by
  unfold State.abandonMessage State.informProbe
  exact .ite (.after (outputs_endProbe ..) rfl rfl rfl rfl) (.of_fields rfl rfl rfl rfl rfl)

theorem outputs_partDone (s : State) (p : Part) : OutputsKept s (s.partDone p) := by
  unfold State.partDone
  split
  · next he =>
    refine .ite (outputs_respond _ _ _ (by rw [he]; rfl)) ⟨rfl, rfl, rfl, fun h => ?_, fun _ h => h⟩
    unfold State.probeBalanced at *; rw [he] at h; exact h
  all_goals exact .refl s

/-! ## The reassembly engine -/

/-- A message joins its queue below the queue's capacity (R92). -/
theorem outputs_routeMessage (s : State) (d : Descriptor) (q : SeqNo) : OutputsKept s (s.routeMessage d q) := by
  unfold State.routeMessage State.offerToShare State.offerToProbe State.offerToQueue
  refine .ite (.ite (.of_fields rfl rfl rfl rfl rfl) (.of_fields rfl rfl rfl rfl rfl)) (.ite (.ite ?_
    (.of_fields rfl rfl rfl rfl rfl)) ?_)
  · simp only
    split <;> exact .after (outputs_endProbe ..) rfl rfl rfl rfl
  · simp only
    split
    · next hq =>
      refine ⟨rfl, rfl, rfl, fun h => h, fun hc ho q => ?_⟩
      have h256 := hc (s.entry d.stream).queue
      have hq : s.occupancy (s.entry d.stream).queue < s.activeBank.capacities.get (s.entry d.stream).queue := hq
      have hx := ho q
      unfold State.occupancy at hq hx ⊢
      generalize (s.entry d.stream).queue = x at *
      have hs : ((s.delivery.dqs.set x (s.delivery.dqs.get x ++ [d])).get q).length
          = (s.delivery.dqs.get q).length + (if x = q then 1 else 0) := by
        cases x <;> cases q <;> simp [PerQueue.get, PerQueue.set]
      show ((s.delivery.dqs.set x (s.delivery.dqs.get x ++ [d])).get q).length + _ ≤ 256
      rw [hs]
      by_cases hxq : x = q
      · subst hxq; simp only [if_true]; simp only [State.report] at *; omega
      · rw [if_neg hxq]; exact hx
    · exact outputs_abandonMessage ..

theorem outputs_abandonOpen (s : State) (c : Ctx) (r : AbandonReason) (q : SeqNo) : OutputsKept s (s.abandonOpen c r q) :=
  .after (outputs_abandonMessage ..) rfl rfl rfl rfl

theorem outputs_abandonWith (s : State) (c : Ctx) (r : AbandonReason) (q : SeqNo) (g : Nat) :
    OutputsKept s (s.abandonWith c r q g) :=
  .after (outputs_abandonMessage ..) rfl rfl rfl rfl

theorem outputs_truncateOpen (s : State) (sl : Slice) : OutputsKept s (s.truncateOpen sl) := by
  unfold State.truncateOpen
  split
  · exact outputs_abandonOpen ..
  · exact .refl s

theorem outputs_engineSlice (s : State) (sl : Slice) (p : Path) (gap : Bool) :
    OutputsKept s (s.engineSlice sl p gap) := by
  unfold State.engineSlice
  have h1 : OutputsKept s (s.applyGap sl gap) := by
    unfold State.applyGap
    refine .ite ?_ (.refl s)
    split
    · exact outputs_abandonOpen ..
    · exact .refl s
  have F : ∀ {u v : State}, v.mgmt = u.mgmt → v.slicer = u.slicer → v.delivery = u.delivery → v.table = u.table →
      OutputsKept u v := fun a b c d => .of_fields (by rw [a]) (by rw [b]) (by rw [b]) c d
  generalize s.applyGap sl gap = s1 at h1
  refine h1.trans ?_
  have h2 := outputs_truncateOpen s1 sl
  simp only
  split
  · have hr : ∀ r, OutputsKept s1 ((s1.truncateOpen sl).rejectFirst sl r) := fun r =>
      h2.trans (.after (outputs_abandonMessage ..) rfl rfl rfl rfl)
    exact .ite (hr _) (.ite (hr _) (.ite (hr _) (h2.trans (F rfl rfl rfl rfl))))
  · unfold State.takeMiddle
    split
    · exact F rfl rfl rfl rfl
    · exact .ite (.after (outputs_abandonWith ..) rfl rfl rfl rfl) (F rfl rfl rfl rfl)
  · have hn : ∀ k, OutputsKept s1 (s1.notDiscarding k) := fun _ => F rfl rfl rfl rfl
    unfold State.takeLast
    split
    · exact F rfl rfl rfl rfl
    · exact .ite ((hn _).trans (outputs_abandonWith ..)) (.ite ((hn _).trans (outputs_abandonWith ..))
        ((hn sl.stream).trans (.after (outputs_routeMessage ..) rfl rfl rfl rfl)))
  · have hn : OutputsKept s1 ((s1.truncateOpen sl).notDiscarding sl.stream) := h2.trans (F rfl rfl rfl rfl)
    exact .ite (hn.trans (outputs_abandonMessage ..)) (.ite (hn.trans (outputs_abandonMessage ..))
      (hn.trans (outputs_routeMessage ..)))

theorem outputs_engineAbandon (s : State) (k : Nat) (r : AbandonReason) : OutputsKept s (s.engineAbandon k r) := by
  unfold State.engineAbandon
  split
  · exact outputs_abandonOpen ..
  · exact .of_fields rfl rfl rfl rfl rfl

theorem outputs_drainItems (k : Nat) : ∀ (n : Nat) (s : State), OutputsKept s (State.drainItems k n s) := by
  intro n
  induction n with
  | zero => exact fun s => .refl s
  | succ n ih =>
    intro s
    have hd : OutputsKept s (s.dropItem k) := .of_fields rfl rfl rfl rfl rfl
    unfold State.drainItems
    split
    · next it _ =>
      cases it
      · exact (hd.trans (outputs_engineSlice ..)).trans (ih _)
      · exact (hd.trans (outputs_engineAbandon ..)).trans (ih _)
    · exact .refl s

/-! ## The slicer -/

/-- The end of a slice: a probe message's last one leaves its probe AWAITING. -/
theorem outputs_sliceDone {s : State} (j : Job) (hj : slicingProbe s.slicer.state = if j.kind = .probe then 1 else 0) :
    OutputsKept s (s.sliceDone j) := by
  have h1 : OutputsKept s (if j.kind = .data then s.returnTx 1 else s) := .ite (.of_fields rfl rfl rfl rfl rfl) (.refl s)
  have hk : slicingProbe (if j.kind = .data then s.returnTx 1 else s).slicer.state = if j.kind = .probe then 1 else 0 := by
    rw [← hj]; split <;> rfl
  unfold State.sliceDone
  generalize (if j.kind = .data then s.returnTx 1 else s) = t at h1 hk
  refine h1.trans ?_
  simp only
  split
  · unfold State.messageSliced
    cases hkind : j.kind <;> rw [hkind] at hk <;> simp only [reduceCtorEq, if_false, if_true] at hk
    · refine ⟨rfl, rfl, rfl, fun h => ?_, fun _ h => h⟩
      unfold State.probeBalanced at *; rw [hk] at h; exact h
    · refine ⟨rfl, rfl, rfl, fun h => ?_, fun _ h => h⟩
      unfold State.probeBalanced at *; rw [hk] at h; exact h
    · simp only
      unfold State.probeSent
      have le1 : probeSending t.mgmt.executor ≤ 1 := by
        unfold probeSending; split
        · split <;> omega
        all_goals omega
      split
      · next he =>
        refine ⟨rfl, rfl, rfl, fun h => ?_, fun _ h => h⟩
        unfold State.probeBalanced at *; rw [hk] at h
        show waitingProbes t.slicer.outputs + 0 = 0
        omega
      all_goals
        next he =>
        refine ⟨rfl, rfl, rfl, fun h => ?_, fun _ h => h⟩
        unfold State.probeBalanced at *; rw [hk, he] at h
        simp only [probeSending] at h; omega
  · refine ⟨rfl, rfl, rfl, fun h => ?_, fun _ h => h⟩
    unfold State.probeBalanced at *; rw [hk] at h; exact h

theorem outputs_offerSlice {s : State} (j : Job) (sl : Slice) (x : LaneSet)
    (hj : slicingProbe s.slicer.state = if j.kind = .probe then 1 else 0) : OutputsKept s (s.offerSlice j sl x) := by
  rcases offerSlice_cases s j sl x with h1 | ⟨A, B, st, h1, _⟩ <;> rw [h1]
  · refine ⟨rfl, rfl, rfl, fun h => ?_, fun _ h => h⟩
    unfold State.probeBalanced at *; rw [hj] at h; exact h
  · exact .after (outputs_sliceDone (s := { s with laneA := A, laneB := B, stats := st }) j hj) rfl rfl rfl rfl

/-! ## Delivery queues -/

/-- A transfer that starts takes the entry of its queue's occupancy with it (R91, R95). -/
theorem occupancy_startTransfer (s : State) (q : QueueId) : s.startTransfer.occupancy q = s.occupancy q := by
  unfold State.startTransfer
  split
  · next hc =>
    simp only [Bool.and_eq_true, Option.isNone_iff_eq_none] at hc
    split
    · next t d hx =>
      unfold State.occupancy
      simp only [hc.1]
      unfold Delivery.choose at hx
      split at hx
      · cases hx; rfl
      · repeat' split at hx
        all_goals (first | (cases hx; done) | skip)
        all_goals
          cases hx
          cases q <;> simp_all [PerQueue.get]
    · rfl
  · rfl

end Sys2Proof.Machine
end

