-- ==== Sys2Proof/Laws/Records.lean ====
section
/-! SUPPORT. Load records: the pieces of a batch, the checks on a record's bytes in their order, and which of them is
reported (R152, R153, R191). -/

namespace Sys2Proof.Machine

/-- The records of a batch are its 16-byte pieces, in order (R190). -/
theorem splitRecords_spec : ∀ (count : Nat) (bytes : List Byte), (splitRecords count bytes).length = count
    ∧ ∀ i < count, (splitRecords count bytes)[i]? = some ((bytes.drop (16 * i)).take 16) := by
  intro count
  induction count with
  | zero => exact fun bytes => ⟨rfl, fun i h => absurd h (Nat.not_lt_zero i)⟩
  | succ n ih =>
    intro bytes
    obtain ⟨h1, h2⟩ := ih (bytes.drop 16)
    refine ⟨by simp [splitRecords, h1], fun i hi => ?_⟩
    cases i with
    | zero => simp [splitRecords]
    | succ i =>
      simp only [splitRecords, List.getElem?_cons_succ]
      rw [h2 i (by omega), List.drop_drop]
      congr 3; omega

/-- The offset reported is that of the first check that fails (R153). -/
theorem firstFailing_first : ∀ (checks : List (Bool × Nat)) (i off : Nat), checks[i]? = some (true, off) →
    (∀ j < i, ∃ o, checks[j]? = some (false, o)) → firstFailing checks = some off := by
  intro checks
  induction checks with
  | nil => intro i off h; simp at h
  | cons c cs ih =>
    intro i off h hj
    cases i with
    | zero => simp only [List.getElem?_cons_zero, Option.some.injEq] at h; subst h; rfl
    | succ i =>
      obtain ⟨o, ho⟩ := hj 0 (Nat.succ_pos i)
      simp only [List.getElem?_cons_zero, Option.some.injEq] at ho; subst ho
      exact ih i off h (fun j hlt => hj (j + 1) (Nat.succ_lt_succ hlt))

/-- With no check failing there is no offset to report. -/
theorem firstFailing_none {checks : List (Bool × Nat)} (h : ∀ c ∈ checks, c.1 = false) : firstFailing checks = none := by
  unfold firstFailing
  rw [List.find?_eq_none.2 (fun c hc => by rw [h c hc]; exact Bool.false_ne_true)]; rfl

theorem byte_eq_iff (x : Byte) {n : Nat} (h : n < 256) : x = BitVec.ofNat 8 n ↔ x.toNat = n := by
  rw [← BitVec.toNat_inj, BitVec.toNat_ofNat, Nat.mod_eq_of_lt h]

theorem badFlag_eq (x : Byte) : badFlag x = decide (1 < x.toNat) := by
  unfold badFlag
  rw [Bool.eq_iff_iff]
  simp only [Bool.and_eq_true, bne_iff_ne, ne_eq, decide_eq_true_eq]
  rw [show (0 : Byte) = BitVec.ofNat 8 0 from rfl, show (1 : Byte) = BitVec.ofNat 8 1 from rfl, byte_eq_iff x (by decide),
    byte_eq_iff x (by decide)]
  omega

theorem badMask_eq (x : Byte) : badMask x = decide (x.toNat = 0 ∨ 3 < x.toNat) := by
  unfold badMask
  rw [Bool.eq_iff_iff]
  simp only [Bool.and_eq_true, bne_iff_ne, ne_eq, decide_eq_true_eq]
  rw [show (1 : Byte) = BitVec.ofNat 8 1 from rfl, show (2 : Byte) = BitVec.ofNat 8 2 from rfl,
    show (3 : Byte) = BitVec.ofNat 8 3 from rfl, byte_eq_iff x (by decide),
    byte_eq_iff x (by decide), byte_eq_iff x (by decide)]
  omega

theorem outside_eq (n lo hi : Nat) : outside n lo hi = decide (n < lo ∨ hi < n) := by
  unfold outside; rw [Bool.decide_or]

theorem byte_beq (x : Byte) {n : Nat} (h : n < 256) : (x == BitVec.ofNat 8 n) = decide (x.toNat = n) := by
  rw [Bool.eq_iff_iff, beq_iff_eq, decide_eq_true_eq, byte_eq_iff x h]

theorem recStream_eq (r : List Byte) : recStream r = (rd16 r 2).toNat % 4096 := by
  unfold recStream
  simp [BitVec.extractLsb'_toNat]

/-- The three lists of checks in terms of a record's bytes and words (R153, R191). -/
theorem recordChecks_eq (b : List Byte) :
      let k := (rd16 b 2).toNat % 4096
      let v : Nat → Nat := fun i => (rd8 b i).toNat
      let w : Nat → Nat := fun i => (rd16 b i).toNat
      let flag : Nat → Bool × Nat := fun i => (decide (1 < v i), i)
      let mask : Nat → Bool × Nat := fun i => (decide (v i = 0 ∨ 3 < v i), i)
      let range : Nat → Nat → Nat → Nat → Bool × Nat := fun x lo hi i => (decide (x < lo ∨ hi < x), i)
      streamRecChecks b = 
          [ (decide (k = 4095), 2), flag 1, flag 4, flag 11, mask 5, mask 6, range (v 7) 1 32 7, range (w 8) 1 1023 8,
            range (v 10) 1 255 10, range (w 12) 1 4096 12, (decide (3 < v 14), 14), (decide (k = 0 ∧ v 1 = 0), 1),
            (decide (k = 0 ∧ (w 12 < 640 ∨ 1024 < w 12)), 12),
            (decide (k = 4094 ∧ (w 12 < 1 ∨ 1024 < w 12)), 12) ]
     ∧ queueRecChecks b = [ (decide (3 < v 1), 1), range (w 2) 1 256 2 ]
     ∧ globalRecChecks b =
          [ range (w 2) 512 4032 2, range (v 4) 4 64 4, flag 5, flag 6, flag 7, flag 8, range (v 9) 1 100 9, flag 10,
            flag 11, (decide (v 10 = 1 ∧ v 11 = 1), 10) ] := by
  intro k v w flag mask range
  refine ⟨?_, ?_, ?_⟩
  · unfold streamRecChecks
    simp only [badFlag_eq, badMask_eq, outside_eq, recStream_eq, Bool.decide_and]
    rw [show (rd8 b 1 == 0) = decide (v 1 = 0) from byte_beq (rd8 b 1) (by decide)]
    rfl
  · unfold queueRecChecks
    simp only [outside_eq]; rfl
  · unfold globalRecChecks
    simp only [badFlag_eq, outside_eq, Bool.decide_and]
    rw [show (rd8 b 10 == 1) = decide (v 10 = 1) from byte_beq (rd8 b 10) (by decide),
      show (rd8 b 11 == 1) = decide (v 11 = 1) from byte_beq (rd8 b 11) (by decide)]

end Sys2Proof.Machine
end

