-- ==== Sys2Proof/Laws/Requests.lean ====
section
/-! SUPPORT. The management engine's checks and writes: codes, ranges, session checks, what records write (R130 to R132,
R148 to R155, R180). -/

namespace Sys2Proof.Machine

theorem outside_true {n lo hi : Nat} : outside n lo hi = true ↔ n < lo ∨ hi < n := by simp [outside]

theorem outside_false {n lo hi : Nat} : outside n lo hi = false ↔ lo ≤ n ∧ n ≤ hi := by simp [outside]

theorem ofCode?_code (kind : ReqKind) : ReqKind.ofCode? kind.code = some kind := by cases kind <;> decide

theorem ofCode?_none {c : Half} (h : ∀ kind : ReqKind, kind.code ≠ c) : ReqKind.ofCode? c = none := by
  unfold ReqKind.ofCode?
  rw [List.find?_eq_none]; intro x hx; simpa using h x

theorem readOnlyMay_iff (kind : ReqKind) : kind.readOnlyMay = true ↔ kind ∈ [ReqKind.identify, .readStream,
    .readMergeState, .readCounters, .readLog, .loadStatus] := by
  cases kind <;> decide

/-! ## Marks and banks -/

theorem markOf_allOnes {k : Nat} (h : k < 4095) : markOf (BitVec.allOnes 4095) k = true := by
  unfold markOf; rw [BitVec.getLsbD_allOnes]; exact decide_eq_true h

theorem markOf_zero (k : Nat) : markOf 0 k = false := by simp [markOf]

/-- A set mark, and the others as they were. -/
theorem markOf_setMark (m : StreamMarks) (k j : Nat) (h : j < 4095) : markOf (setMark m k) j = (decide (j
    = k) || markOf m j) := by
  unfold markOf setMark
  rw [BitVec.getLsbD_or, BitVec.getLsbD_twoPow, Bool.or_comm]
  by_cases hj : j = k
  · subst hj; simp [h]
  · simp [hj, Ne.symm hj]

theorem mem_markedStreams (m : StreamMarks) (k : Nat) : k ∈ markedStreams m ↔ k < 4095 ∧ markOf m k = true := by
  simp [markedStreams, Config.numStreams]

/-! ## The commit sweep -/

@[simp] theorem State.endSweep_inReset (s : State) (r : Request) (n : Nat) : (s.endSweep r n).inReset = s.inReset := by
  unfold State.endSweep; simp

@[simp] theorem State.endSweep_time (s : State) (r : Request) (n : Nat) : (s.endSweep r n).time = s.time := by
  unfold State.endSweep; simp

@[simp] theorem State.endSweep_laneA (s : State) (r : Request) (n : Nat) : (s.endSweep r n).laneA = s.laneA := by
  unfold State.endSweep; simp

@[simp] theorem State.endSweep_laneB (s : State) (r : Request) (n : Nat) : (s.endSweep r n).laneB = s.laneB := by
  unfold State.endSweep; simp

@[simp] theorem State.endSweep_merge (s : State) (r : Request) (n : Nat) : (s.endSweep r n).merge = s.merge := by
  unfold State.endSweep; simp

@[simp] theorem State.endSweep_engine (s : State) (r : Request) (n : Nat) : (s.endSweep r n).engine = s.engine := by
  unfold State.endSweep; simp

@[simp] theorem State.endSweep_pool (s : State) (r : Request) (n : Nat) : (s.endSweep r n).pool = s.pool := by
  unfold State.endSweep; simp

@[simp] theorem State.endSweep_sub (s : State) (r : Request) (n : Nat) : (s.endSweep r n).sub = s.sub := by
  unfold State.endSweep; simp

@[simp] theorem State.endSweep_stats (s : State) (r : Request) (n : Nat) : (s.endSweep r n).stats = s.stats := by
  unfold State.endSweep; simp

@[simp] theorem State.endSweep_pending (s : State) (r : Request) (n : Nat) : (s.endSweep r n).pending = s.pending := by
  unfold State.endSweep; simp

@[simp] theorem startSweep_nil (s : State) (r : Request) : s.startSweep r [] = s.endSweep r 0 := by
  unfold State.startSweep; rw [if_pos rfl]

/-- A sweep over streams holds the executor. -/
theorem startSweep_of_ne {l : List Nat} (h : l ≠ []) (s : State) (r : Request) :
    s.startSweep r l = { s with mgmt := { s.mgmt with executor := .sweeping r l l.length } } := by
  unfold State.startSweep; rw [if_neg h]

/-- What the start of a sweep can do. -/
theorem startSweep_cases (s : State) (r : Request) (l : List Nat) :
    (l = [] ∧ s.startSweep r l = s.endSweep r 0)
      ∨ (l ≠ [] ∧ s.startSweep r l = { s with mgmt := { s.mgmt with executor := .sweeping r l l.length } }) := by
  by_cases h : l = []
  · subst h; exact .inl ⟨rfl, startSweep_nil s r⟩
  · exact .inr ⟨h, startSweep_of_ne h s r⟩

/-! ## Queues -/

theorem PerQueue.get_set {α : Type} (p : PerQueue α) (q q' : QueueId) (x : α) : (p.set q x).get q' = if q'
    = q then x else p.get q' := by
  cases q <;> cases q' <;> rfl

theorem newIdle_eq (s : State) : s.newIdle = ⟨s.time, s.time + BitVec.ofNat 32 (s.glob.idleTimeout * 100000)⟩ := rfl

theorem setShadow_shadow (t : Table) (b : Bank) : (t.setShadow b).shadow = b := by
  unfold Table.setShadow Table.shadow; cases t.active <;> simp

/-- Only the shadow bank and the touched marks have changed. -/
def ShadowOnly (t u : Table) : Prop := u.active = t.active ∧ u.generation = t.generation ∧ u.lastCommitted
    = t.lastCommitted ∧ (if u.active then u.bank1 else u.bank0) = (if t.active then t.bank1 else t.bank0)

theorem ShadowOnly.writeRec (t : Table) (x : LoadRec) : ShadowOnly t (t.writeRec t.shadow x) := by
  unfold ShadowOnly Table.writeRec
  cases x <;> simp only <;> unfold Table.setShadow <;> cases t.active <;> simp

theorem ShadowOnly.trans {t u v : Table} (h : ShadowOnly t u) (h' : ShadowOnly u v) : ShadowOnly t v :=
  ⟨h'.1.trans h.1, h'.2.1.trans h.2.1, h'.2.2.1.trans h.2.2.1, h'.2.2.2.trans h.2.2.2⟩

/-- A batch writes the shadow bank and the marks only. -/
theorem ShadowOnly.writeRecs (l : List LoadRec) : ∀ t : Table, ShadowOnly t (t.writeRecs l) := by
  induction l with
  | nil => exact fun t => ⟨rfl, rfl, rfl, rfl⟩
  | cons x xs ih => exact fun t => (ShadowOnly.writeRec t x).trans (ih _)

/-- Untouched streams' entries are the same in both banks (R29). -/
def Table.tracksMarks (t : Table) : Prop := ∀ k < 4095, markOf t.touched k = false → t.bank0.entry k = t.bank1.entry k

theorem tracksMarks_writeRec {t : Table} (h : Table.tracksMarks t) (x : LoadRec) : Table.tracksMarks
    (t.writeRec t.shadow x) := by
  intro k hk hm
  cases x with
  | stream j e =>
    unfold Table.writeRec at hm ⊢
    simp only at hm ⊢
    rw [markOf_setMark _ _ _ hk] at hm
    have hjk : k ≠ j := by intro hc; simp [hc] at hm
    have hm' : markOf t.touched k = false := by simpa [hjk] using hm
    have := h k hk hm'
    unfold Table.setShadow Table.shadow
    cases ha : t.active
    · simp only [Bank.entry, Bool.false_eq_true, if_false] at this ⊢
      rw [SMap.get_set_other _ _ _ hjk]; exact this
    · simp only [Bank.entry, if_true] at this ⊢
      rw [SMap.get_set_other _ _ _ hjk]; exact this
  | queue q c =>
    unfold Table.writeRec at hm ⊢
    simp only at hm ⊢
    have hm' : markOf t.touched k = false := by
      rw [← hm]; unfold Table.setShadow; split <;> rfl
    have := h k hk hm'
    unfold Table.setShadow Table.shadow
    cases ha : t.active <;> exact this
  | glob g =>
    unfold Table.writeRec at hm ⊢
    simp only at hm ⊢
    have hm' : markOf t.touched k = false := by
      rw [← hm]; unfold Table.setShadow; split <;> rfl
    have := h k hk hm'
    unfold Table.setShadow Table.shadow
    cases ha : t.active <;> exact this

theorem tracksMarks_writeRecs (l : List LoadRec) : ∀ {t : Table}, Table.tracksMarks t → Table.tracksMarks
    (t.writeRecs l) := by
  induction l with
  | nil => exact fun h => h
  | cons x xs ih => exact fun h => ih (tracksMarks_writeRec h x)

/-! ## Sessions and counters -/

/-- The running check after a batch. -/
theorem addChecks_sum (raw : List (List Byte)) : ∀ c : Word32, addChecks c raw = c + (raw.map (fun r
    => rd32 r 0 + rd32 r 4 + rd32 r 8 + rd32 r 12)).sum := by
  induction raw with
  | nil => intro c; simp [addChecks]
  | cons x xs ih =>
    intro c
    have : addChecks c (x :: xs) = addChecks (c + recordCheck x) xs := rfl
    rw [this, ih, List.map_cons, List.sum_cons]
    simp only [recordCheck, BitVec.add_assoc]

theorem isOpen_of {x : Session} (h : x.idle ≠ none) : ¬ x.isOpen = false := by
  unfold Session.isOpen
  cases hx : x.idle with
  | none => exact absurd hx h
  | some d => simp

/-- The checks of R150, one by one. -/
theorem sessionChecks_open {s : State} {src : Source} {n : Half} {x : Session} (h : s.hasOpenSession src n x) :
    s.sessionChecks src n = .ok x := by
  obtain ⟨h1, h2, h3, h4⟩ := h
  unfold State.sessionChecks; rw [h1]; simp only
  rw [if_neg, if_neg (fun hc => hc h3), if_neg (fun hc => hc h4)]
  unfold Session.isOpen
  cases hx : x.idle with
  | none => exact absurd hx h2
  | some d => simp

theorem sessionChecks_none {s : State} {src : Source} {n : Half} (h : s.mgmt.session = none ∨ ∃ x, s.mgmt.session
    = some x ∧ x.idle = none) :
    s.sessionChecks src n = .error .noSession := by
  unfold State.sessionChecks
  rcases h with h | ⟨x, h, hx⟩
  · rw [h]
  · rw [h]; simp only; rw [if_pos (by simp [Session.isOpen, hx])]

theorem sessionChecks_wrong {s : State} {src : Source} {n : Half} {x : Session} (h : s.mgmt.session = some x) (h2 :
    x.idle ≠ none) (h3 : x.number ≠ n) :
    s.sessionChecks src n = .error .wrongSession := by
  unfold State.sessionChecks; rw [h]; simp only; rw [if_neg (isOpen_of h2), if_pos h3]

theorem sessionChecks_owned {s : State} {src : Source} {n : Half} {x : Session} (h : s.mgmt.session = some x) (h2 :
    x.idle ≠ none) (h3 : x.number = n) (h4 : x.owner ≠ src) :
    s.sessionChecks src n = .error .sessionOwned := by
  unfold State.sessionChecks; rw [h]; simp only; rw [if_neg (isOpen_of h2), if_neg (fun hc => hc h3), if_pos h4]

/-- What clearing a list of streams leaves. -/
theorem clearStreams_spec (l : List Nat) : ∀ st : Stats,
   let st1 := l.foldl (fun st k => st.setStream k StreamCounters.zero) st
   st1 = { st with streams := st1.streams } ∧ ∀ k, st1.stream k = if k ∈ l then ⟨0, 0, 0, 0⟩ else st.stream k := by
  induction l with
  | nil => intro st; exact ⟨rfl, fun k => by simp⟩
  | cons x xs ih =>
    intro st
    obtain ⟨h1, h2⟩ := ih (st.setStream x StreamCounters.zero)
    refine ⟨?_, fun k => ?_⟩
    · rw [List.foldl_cons, h1]; rfl
    · rw [List.foldl_cons, h2 k, stream_setStream]
      by_cases hk : k ∈ xs
      · simp [hk]
      · by_cases hx : k = x
        · subst hx; simp [hk, StreamCounters.zero]
        · simp [hk, hx]

end Sys2Proof.Machine
end

