-- ==== Sys2Proof/Laws/Wire.lean ====
section
/-! SUPPORT. The header word of a block as it is sent (R1, R187). -/

namespace Sys2Proof.Machine

theorem append_bytes32 (w : BitVec 32) : ((w.extractLsb' 24 8 ++ w.extractLsb' 16 8 : BitVec 16) ++
    (w.extractLsb' 8 8 ++ w.extractLsb' 0 8 : BitVec 16) : BitVec 32) = w := by
  apply BitVec.eq_of_getLsbD_eq
  intro i hi
  simp only [BitVec.getLsbD_append, BitVec.getLsbD_extractLsb']
  split_ifs with h1 h2 h3
  · simp [h2]
  · simp only [show i - 8 < 8 by omega, decide_true, Bool.true_and]; congr 1; omega
  · simp only [show i - 16 < 8 by omega, decide_true, Bool.true_and]; congr 1; omega
  · simp only [show i - 16 - 8 < 8 by omega, decide_true, Bool.true_and]; congr 1; omega

theorem append_bytes16 (w : BitVec 16) : (w.extractLsb' 8 8 ++ w.extractLsb' 0 8 : BitVec 16) = w := by
  apply BitVec.eq_of_toNat_eq
  simp only [BitVec.toNat_append, BitVec.extractLsb'_toNat, Nat.shiftRight_eq_div_pow]
  have := w.isLt
  rw [← Nat.shiftLeft_add_eq_or_of_lt (by omega)]
  simp only [Nat.shiftLeft_eq]
  omega

theorem extractLsb_append_high {a b : Nat} (x : BitVec a) (y : BitVec b) (i n : Nat) : (x ++ y).extractLsb'
    (b + i) n = x.extractLsb' i n := by
  apply BitVec.eq_of_getLsbD_eq
  intro j hj
  simp only [BitVec.getLsbD_extractLsb', BitVec.getLsbD_append, hj, decide_true, Bool.true_and]
  rw [if_neg (by omega)]; congr 1; omega

theorem extractLsb_append_low {a b : Nat} (x : BitVec a) (y : BitVec b) (i n : Nat) (h : i + n ≤ b) :
    (x ++ y).extractLsb' i n = y.extractLsb' i n := by
  apply BitVec.eq_of_getLsbD_eq
  intro j hj
  simp only [BitVec.getLsbD_extractLsb', BitVec.getLsbD_append, hj, decide_true, Bool.true_and]
  rw [if_pos (by omega)]

theorem extractLsb_self {a : Nat} (x : BitVec a) : x.extractLsb' 0 a = x := by
  apply BitVec.eq_of_getLsbD_eq
  intro j hj
  simp [hj]

/-- A slice header's first 32 bits. -/
def firstWordOf (sl : Slice) : BitVec 32 :=
    BitVec.ofNat 12 sl.stream ++ sl.pos.code ++ sl.seq ++ BitVec.ofNat 6 sl.payload.length

/-- The 64 bits of a slice's header, with its check. -/
theorem headerWord_blockOfSlice (sl : Slice) : ∃ c : Byte, headerWord (blockOfSlice sl) = firstWordOf sl ++
    ((sl.aux ++ ((0 : Byte) ++ c : BitVec 16) : BitVec 32)) := by
  refine ⟨crc8 (headerBytes sl), ?_⟩
  unfold headerWord blockOfSlice
  generalize crc8 (headerBytes sl) = c
  have h1 : ∀ tail, rd32 (headerBytes sl ++ [c] ++ sl.payload ++ tail) 0 = firstWordOf sl := fun _ => append_bytes32 _
  have h2 : ∀ tail, rd32 (headerBytes sl ++ [c] ++ sl.payload ++ tail) 4
      = (sl.aux.extractLsb' 8 8 ++ sl.aux.extractLsb' 0 8 : BitVec 16) ++ ((0 : Byte) ++ c : BitVec 16) := fun _ => rfl
  rw [h1, h2, append_bytes16]

theorem Position.ofCode_code (p : Position) : Position.ofCode p.code = p := by cases p <;> decide

end Sys2Proof.Machine
end

