-- ==== Sys2Proof/WellFormed.lean ====
section
/-! DEFINITION. Which commands can reach the part: a stream that has a record is 0..4094 (R32, R58). -/

namespace Sys2Proof

/-- A stream that has a merge record and an assembly state. -/
def recordedStream (k : Nat) : Bool := k < Config.numStreams

/-- The checks on a command's operands. Every other command has no operand outside its range. -/
def Instr.wellFormed : Instr → Bool
  | .holdExpiry k => recordedStream k
  | .reassemblySliceTaken k => recordedStream k
  | .assemblyDeadline k => recordedStream k
  | .abandonRequestTaken k => recordedStream k
  | .resetAssert | .hardReset | .powerOn | .signalLoss _ | .signalRegain _ | .huntCandidate _ _ | .confirmBlock _ _
  | .upBlock _ _ | .lineBlockEnd _ | .sliceTaken _
  | .sweepVisit | .commitSweepEnd | .transferStart | .transferEnd | .holdAssert | .holdRelease | .dataHeader _ _
  | .waitingRetry | .mgmtHeader _ _ | .dataFrameComplete _ | .mgmtFrameComplete _ | .lengthFault _ _
  | .absorbingEnd _ | .slicerTakeMessage | .sliceCut | .executorTake | .identify | .readStream | .readMergeState
  | .flushStream | .restart | .laneTxRestart _ | .mergeRestart | .reassemblyRestart | .deliveryRestart
  | .submissionRestart | .slicerRestart | .loadOpen | .loadOpenPrepared | .loadRecords | .loadCommit | .loadAbort
  | .loadStatus | .loadIdleTimeout | .probe | .probeTimeout | .readCounters | .clearCounters | .readLog | .clearLog
  | .submissionByte _ _ _ => true

end Sys2Proof
end

