-- ==== Sys2Proof/Tests/Slice0.lean ====
section
/-! SUPPORT. Tests on fixed values: ill-formed operands, values worked out from the spec, one-step checks, and for each
statement with hypotheses a state that meets them. -/

namespace Sys2Proof.Tests

set_option Elab.async false

open Sys2Proof Sys2Proof.Machine

/-! ## Ill-formed operands -/

theorem test_illformed_hold_expiry : Instr.wellFormed (.holdExpiry 4095) = false := by decide
theorem test_illformed_slice_taken : Instr.wellFormed (.reassemblySliceTaken 4095) = false := by decide
theorem test_illformed_assembly_deadline : Instr.wellFormed (.assemblyDeadline 4096) = false := by decide
theorem test_illformed_abandon_request : Instr.wellFormed (.abandonRequestTaken 4095) = false := by decide
theorem test_wellformed_operands :
    Instr.wellFormed (.upBlock .a []) = true ∧ Instr.wellFormed (.holdExpiry 4094) = true := by decide

/-! ## Values the spec works out -/

/-- R187: the check over 0xFF, 0xF0 and five zero bytes is 0x7B. -/
theorem test_idle_header_check : crc8 [0xFF, 0xF0, 0, 0, 0, 0, 0] = 0x7B := by decide +kernel

/-- R187: the idle block passes, is an idle block and is 64 bytes. -/
theorem test_idle_block : blockPasses idleBlock = true ∧ blockIdle idleBlock = true ∧ idleBlock.length = 64 := by
  decide +kernel

/-- R187: for the nine bytes 0x31 to 0x39 the message check is 0x29B1. -/
theorem test_message_check_nine :
    crc16 [0x31, 0x32, 0x33, 0x34, 0x35, 0x36, 0x37, 0x38, 0x39] = 0x29B1 := by decide +kernel

/-- R187: for a single byte 0x00 it is 0xE1F0. -/
theorem test_message_check_zero : crc16 [0x00] = 0xE1F0 := by decide +kernel

/-- R187: the message check is carried over slices in order. -/
theorem test_message_check_carried :
    crc16From (crc16 [0x31, 0x32, 0x33, 0x34, 0x35]) [0x36, 0x37, 0x38, 0x39] = 0x29B1 := by decide +kernel

/-- R188: a submission stream field of 0x1FA5 names stream 4005. -/
theorem test_submission_stream : subStream [0, 0, 0x1F, 0xA5, 0, 1, 0, 0] = 4005 := by decide

/-- R191: a QUEUE record for DQ2 with capacity 128 has the image check 0x02020080, and 0x02020081 with byte 15 at 1. -/
theorem test_queue_record_check :
    recordCheck [2, 2, 0, 128, 0, 0, 0, 0, 0, 0, 0, 0, 0, 0, 0, 0] = 0x02020080
      ∧ recordCheck [2, 2, 0, 128, 0, 0, 0, 0, 0, 0, 0, 0, 0, 0, 0, 1] = 0x02020081 := by decide

/-- R191: both records write capacity 128 to DQ2. -/
theorem test_queue_record_write :
    judgeBatch 0
        [[2, 2, 0, 128, 0, 0, 0, 0, 0, 0, 0, 0, 0, 0, 0, 0], [2, 2, 0, 128, 0, 0, 0, 0, 0, 0, 0, 0, 0, 0, 0, 1]]
      = .ok [.queue .dq2 128, .queue .dq2 128] := by rfl

/-- R191: a STREAM record naming stream 4095 is reported as 2, a kind of 4 as 0, a policy lockout as 10. -/
theorem test_bad_records :
    judgeRecord [1, 0, 0x0F, 0xFF, 0, 3, 3, 8, 0, 200, 50, 1, 0x10, 0, 0, 0] = .error 2
      ∧ judgeRecord [4, 0, 0, 0, 0, 0, 0, 0, 0, 0, 0, 0, 0, 0, 0, 0] = .error 0
      ∧ judgeRecord [3, 0, 0x0E, 0, 16, 1, 1, 1, 1, 20, 1, 1, 0, 0, 0, 0] = .error 10 := ⟨rfl, rfl, rfl⟩

/-- R187, bits by hand: stream 0x123, position 01 FIRST, sequence 0xABC, fill 56 (111000), aux 0x0102, zero 0: the word
is 0001 0010 0011 01 10 1010 1111 00 11 1000 then 01 02 00. -/
theorem test_slice_header_fields :
    let b : List Byte := [0x12, 0x36, 0xAF, 0x38, 0x01, 0x02, 0x00]
    hdrStream (headerWord b) = 0x123 ∧ hdrPos (headerWord b) = .first ∧ hdrSeq (headerWord b) = 0xABC
      ∧ hdrFill (headerWord b) = 56 ∧ hdrAux (headerWord b) = 0x0102 ∧ hdrZero (headerWord b) = 0 := by decide

/-- The same header as sent. -/
theorem test_slice_header_sent :
    headerBytes ⟨0x123, .first, 0xABC, 0x0102, List.replicate 56 0x41⟩ = [0x12, 0x36, 0xAF, 0x38, 0x01, 0x02, 0x00] := by
  decide

/-- R2: 56 bytes take one slice, 57 take two, 4096 take 74. -/
theorem test_slice_count : sliceCount 56 = 1 ∧ sliceCount 57 = 2 ∧ sliceCount 4096 = 74 := by decide

/-- R21: the default entries of streams 0, 1 and 4094. -/
theorem test_default_entries :
    (Entry.dflt 0).rxEnable = true ∧ (Entry.dflt 1).rxEnable = false ∧ (Entry.dflt 1).maxLen = 4096
      ∧ (Entry.dflt 4094).maxLen = 1024 := by decide

/-- R44: a deadline is reached across the wrap of the timebase. -/
theorem test_deadline_wraps :
    (Deadline.after 0xFFFFFFFF 2).reached 0 = false ∧ (Deadline.after 0xFFFFFFFF 2).reached 1 = true := by decide

/-- R178: a counter at its largest value stays there. -/
theorem test_counter_saturates : satInc 0xFFFFFFFF = 0xFFFFFFFF ∧ satInc 0xFFFFFFFE = 0xFFFFFFFF := by decide

/-- No row of the table has bits. -/
theorem test_no_word_spells : decodeTableWord 8 0 = none := rfl

/-! ## Small states -/

/-- The 64 bytes of a slice. -/
def goodBlock : List Byte := blockOfSlice ⟨5, .only, 3, 0, [0x41]⟩

/-- A block whose header check fails. -/
def badBlock : List Byte := List.replicate 64 0x55

/-- A slice of stream 5. -/
def slice5 (pos : Position) (seq : SeqNo) (aux : Half) (n : Nat) : Slice := ⟨5, pos, seq, aux, List.replicate n 0x41⟩

/-- The part after reset with one entry of the active bank written. -/
def withEntry (k : Nat) (e : Entry) : State :=
  { State.reset with table := { State.reset.table with bank0 := { Bank.dflt with entries := [(k, e)] } } }

/-- Stream 5 enabled both ways. -/
def entry5 : Entry := { Entry.dflt 5 with rxEnable := true, txEnable := true }

/-- The part after reset with stream 5 enabled. -/
def on5 : State := withEntry 5 entry5

/-- A slice handed on by Lane A. -/
def handedA (sl : Slice) (s : State) : State := { s with laneA := { s.laneA with handed := [sl] } }

/-- Stream 5's merge record. -/
def rec5 (r : MergeRec) (s : State) : State := { s with merge := { s.merge with recs := [(5, r)] } }

/-- A held slice of stream 5. -/
def held5 (seq : SeqNo) (at_ : Time) : Held := ⟨slice5 .only seq 0 1, at_, .a⟩

/-- Stream 5 SYNCED at E = 100 with slices held and a deadline. -/
def synced5 (hs : List Held) (timer : Option Deadline) : MergeRec :=
  { sync := some 100, held := hs, timer := timer, staleRun := 0 }

/-- The mark of stream 5. -/
def mark5 : StreamMarks := BitVec.twoPow 4095 5

/-- The pending-flush mark of stream 5 set. -/
def marked5 (s : State) : State := { s with merge := { s.merge with pendingFlush := mark5 } }

/-- No block left to claim. -/
def noBlocks (s : State) : State := { s with pool := { free := 0, rx := 3584, tx := 512 } }

/-- Items sent to the engine. -/
def sent (items : List Item) (s : State) : State := { s with engine := { s.engine with items := items } }

/-- A context of stream 5 with one block. -/
def ctx5 (declared : Nat) : Ctx :=
  { stream := 5, blocks := [List.replicate 56 0x41], declared := declared, gathered := 56
    check := crc16 (List.replicate 56 0x41), lanes := ⟨true, false, false⟩, timer := ⟨0, 5000⟩, lastSeq := 9 }

/-- Contexts bound. -/
def bound (cs : List Ctx) (s : State) : State := { s with engine := { s.engine with ctxs := cs } }

/-- The executor's state. -/
def exe (x : Executor) (s : State) : State := { s with mgmt := { s.mgmt with executor := x } }

/-- A request of the local source, in the layout of R189. -/
def req (code : Half) (params : List Byte) : Request :=
  { source := .localPort, bytes := be16 code ++ [0, 7] ++ be16n params.length ++ [0, 0] ++ params, position := 0 }

/-- A request that has passed the checks, in a state. -/
def readyIn (s : State) (kind : ReqKind) (params : List Byte) : State := exe (.ready (req kind.code params) kind) s

/-- Reset with a request that has passed the checks. -/
def readyWith (kind : ReqKind) (params : List Byte) : State := readyIn State.reset kind params

/-- A restart under way in which a part has been told. -/
def telling (p : Part) (s : State) : State := exe (.restarting (req 0x0105 []) [p]) s

/-- An awaiting probe of one byte. -/
def probing : State :=
  exe (.probing (req 0x0301 [0, 1, 7, 0]) ⟨1, [7], 0, some (1, ⟨0, 20000⟩)⟩) State.reset

/-- An OPEN session of the local source. -/
def session (declared next : Nat) (check : Word32) : Session :=
  { number := 7, owner := .localPort, mode := .clean, declared := declared, declaredCheck := check, next := next
    running := 0, idle := some ⟨0, 2000000⟩ }

/-- A session in a state. -/
def inSession (x : Session) (s : State) : State := { s with mgmt := { s.mgmt with session := some x } }

/-- The submission side's state. -/
def sub (x : Submission) (s : State) : State := { s with sub := x }

/-- The slicer's state. -/
def slicing (x : SlicerState) (s : State) : State := { s with slicer := { s.slicer with state := x } }

/-- A message of stream 5 being sliced. -/
def job (kind : JobKind) (k : Nat) (pieces : List Block) : Job :=
  { kind := kind, stream := k, length := 57, pieces := pieces, cut := 1, check := 0 }

/-- The delivery side's state. -/
def delivering (d : Delivery) (s : State) : State := { s with delivery := d }

/-- A descriptor of stream 5. -/
def desc : Descriptor := { stream := 5, length := 1, lanes := ⟨true, false, false⟩, blocks := [[0x41]] }

/-- A lane's FIFO with n copies. -/
def laneWith (n : Nat) : Lane := { Lane.reset with fifo := List.replicate n (slice5 .only 0 0 1) }

/-- The next state an outcome gives, if it gives one. -/
def nextOf : Host.Outcome State Fault Refusal → Option State
  | .next t => some t
  | .fault _ => none
  | .refused _ => none

/-! ## One step -/

/-- R5: of 65 bytes the first 64 are no candidate, and the position moves on by one. -/
theorem test_hunt_moves_on :
    (nextOf (exec (.huntCandidate .a (goodBlock.drop 3))
        { State.reset with laneA := { Lane.reset with align := .hunt, rx := 0x55 :: goodBlock.take 3 } })).map
        (fun t => (t.laneA.align, t.laneA.rx))
      = some (.hunt, goodBlock) := by decide +kernel

/-- R10, R11: in UP a good block hands its slice on and is counted; the byte after it begins the next block. -/
theorem test_up_block_good :
    nextOf (exec (.upBlock .a (goodBlock.drop 63 ++ [0x99]))
        { State.reset with laneA := { Lane.reset with align := .up, failRun := 2, rx := goodBlock.take 63 } })
      = some
        { State.reset with
          laneA := { Lane.reset with align := .up, rx := [0x99], handed := [⟨5, .only, 3, 0, [0x41]⟩] }
          stats := { State.reset.stats with laneA := ⟨1, 0, 0, 0, 0, 0, 0⟩ } } := by decide +kernel

/-- R37: the first slice of a stream synchronises it, claims a block and is passed with the gap flag. -/
theorem test_slice_taken_unsynced :
    (nextOf (exec (.sliceTaken .a) (handedA (slice5 .only 4095 0 1) on5))).map
        (fun t => ((t.mrec 5).sync, t.pool, t.engine.items))
      = some (some 0, ⟨4095, 1, 0⟩, [.slice (slice5 .only 4095 0 1) .a true]) := by decide +kernel

/-- R110, R112: a two-slice message's first slice carries its length, and its copies go to both lanes. -/
theorem test_slice_cut_first :
    (nextOf (exec .sliceCut (slicing (.slicing (jobOfFrame ⟨5, 57, piecesOf (List.replicate 57 0x41)⟩)) on5))).map
        (fun t => (t.laneA.fifo, t.laneB.fifo, t.txSeq 5))
      = some ([slice5 .first 0 57 56], [slice5 .first 0 57 56], 1) := by decide +kernel

/-- R137, R190: an IDENTIFY response has 12 header bytes and 44 data bytes. -/
theorem test_identify_length :
    (nextOf (exec .identify (exe (.reading (req 0x0101 []) (.identify IdReads.none [])) State.reset))).map
        (fun t => t.delivery.mq.map List.length)
      = some [56] := by
  decide +kernel

/-- R175, R190: PASS of the probe message of one byte, by the loop path. -/
theorem test_probe_pass :
    (nextOf (exec (.reassemblySliceTaken 4094)
        (sent [.slice ⟨4094, .only, 0, crc16 [7], [7]⟩ .loop true] probing))).map
        (fun t => t.delivery.mq.map (List.drop 12))
      = some [[1, 0, 0, 1, 0, 1, 0, 0, 1, 4, 0, 0, 0, 0]] := by decide +kernel

/-- R96, R188: after the start mark comes a data delivery's queue byte; a microsecond presents it. -/
theorem test_delivery_second_byte :
    (nextOf (step (delivering
        { State.reset.delivery with
          transfer := some (.data .dq2 desc), out := (deliveryOut (.data .dq2 desc)).take 1, valid := true }
        State.reset))).map (fun t => (t.delivery.out.map (fun b => b.data), t.output, t.time))
      = some ([0, 2], some ⟨2, false, false, false⟩, 1) := by decide +kernel

/-- Stream 5's record in the worked examples of chapter 3: window 8, hold time 100 µs. -/
def record5 (e : SeqNo) (hs : List Held) (timer : Option Deadline) (run : Nat) : State :=
  rec5 { sync := some e, held := hs, timer := timer, staleRun := run } (withEntry 5 { entry5 with holdTime := 100 })

/-- Chapter 3, "loss on both lanes", 5100: 202 passes with the flag, 203 without; 205 waits until 5160. -/
theorem test_example_hold_expiry :
    (nextOf (exec (.holdExpiry 5)
        { record5 200 [held5 202 5000, held5 203 5020, held5 205 5060] (some ⟨5000, 5100⟩) 0 with time := 5100 })).map
        (fun t => (t.mrec 5, t.engine.items))
      = some (⟨some 204, [held5 205 5060], some ⟨5060, 5160⟩, 0⟩,
          [.slice (slice5 .only 202 0 1) .a true, .slice (slice5 .only 203 0 1) .a false]) := by decide +kernel

/-- The same example, 5150: 213 jumps the window of E = 204; 205, 207 and 213 pass with the flag. -/
theorem test_example_window_jump :
    (nextOf (exec (.sliceTaken .a)
        (handedA (slice5 .only 213 0 1) (record5 204 [held5 205 5060, held5 207 5120] (some ⟨5060, 5160⟩) 0)))).map
        (fun t => (t.mrec 5, t.engine.items))
      = some (⟨some 214, [], none, 0⟩,
          [.slice (slice5 .only 205 0 1) .a true, .slice (slice5 .only 207 0 1) .a true,
            .slice (slice5 .only 213 0 1) .a true]) := by decide +kernel

/-- Chapter 3, "the far end restarts": the 16th stale slice, 7 at E = 1000, resynchronises the stream. -/
theorem test_example_resynchronisation :
    (nextOf (exec (.sliceTaken .a) (handedA (slice5 .only 7 0 1) (record5 1000 [] none 15)))).map
        (fun t => (t.mrec 5, t.engine.items, t.stats.glob.resyncEvents, t.stats.glob.stale))
      = some (⟨some 8, [], none, 0⟩, [.abandon 5 .resync, .slice (slice5 .only 7 0 1) .a true], 1, 0) := by
  decide +kernel

/-- Chapter 7, step 5: the Lane A line takes a copy; the stalled slice goes to Lane A and Lane B counts an overrun. -/
theorem test_example_stall_ends :
    (nextOf (exec (.lineBlockEnd .a)
        (slicing (.stalled (job .data 5 [[1]]) (slice5 .middle 4095 0 56) ⟨true, true, false⟩)
          { on5 with laneA := laneWith 64, laneB := laneWith 64, pool := ⟨4094, 0, 2⟩ }))).map
        (fun t => (t.slicer.state, t.laneA.fifo.length, t.laneB.fifo.length, t.stats.laneB.overrun, t.pool.tx))
      = some (.slicing (job .data 5 [[1]]), 64, 64, 1, 1) := by decide +kernel

/-- Chapter 8, step 1: Q1 came first but its source has no free buffer, so B1 is taken. -/
theorem test_example_executor_passes_local :
    let b1 : Request := { req 0x0205 [] with source := .backbone, position := 2 }
    (nextOf (exec .executorTake
        { State.reset with
          mgmt :=
            { State.reset.mgmt with bbShare := [b1], lpShare := [{ req 0x0205 [] with position := 1 }], lpBufs := 2 } })).map
        (fun t => (t.mgmt.executor, t.mgmt.lpShare.length, t.mgmt.bbBufs))
      = some (.ready b1 .loadStatus, 1, 1) := by decide +kernel

/-- R99: the last byte of a DATA header of stream 21, transmit off, length 500: TX_DISABLED, absorbing (chapter 6). -/
theorem test_example_data_header_disabled :
    (nextOf (exec (.dataHeader 0 false) (sub (.header [0, 0, 0, 21, 1, 0xF4, 0]) State.reset))).map
        (fun t => (t.sub, t.stats.glob.txDisabled, t.ready))
      = some (.absorbing 500, 1, true) := by decide +kernel

/-! ## States that meet the statements' hypotheses, one theorem for each statement, one part for each clause -/

theorem witness_StepRunsTheFrontCommand :
    ({ State.reset with pending := [.transferStart, .sliceCut] }).pending = .transferStart :: [.sliceCut] := rfl

/-- The part with a delivery of 9 bytes in transfer, the first j presented. -/
def presented (j : Nat) : State :=
  delivering
    { State.reset.delivery with
      transfer := some (.mgmt [7]), out := (deliveryOut (.mgmt [7])).take j, valid := true } State.reset

/-- No transfer; 7 and 8 bytes of 9 presented. -/
theorem witness_EveryCommandCompletes :
    State.reset.pending = [] ∧ State.reset.inReset = false ∧ State.reset.delivery.transfer = none
      ∧ (presented 7).delivery.transfer = some (.mgmt [7]) ∧ (deliveryOut (.mgmt [7])).length = 9
      ∧ (presented 7).delivery.out.length = 7 ∧ (deliveryOut (.mgmt [7]))[7]? = some ⟨0, false, false, false⟩
      ∧ (presented 8).delivery.out.length = 8 := by decide +kernel

theorem witness_ResetPinStopsThePart :
    let s : State := { State.reset with inReset := true }
    s.inReset = true ∧ s.pending = [] ∧ (Instr.sliceCut ≠ .resetAssert) ∧ (Instr.sliceCut ≠ .hardReset)
      ∧ (Instr.sliceCut ≠ .powerOn) ∧ (Instr.sliceCut ≠ .holdAssert) ∧ (Instr.sliceCut ≠ .holdRelease)
      ∧ (∀ l, Instr.sliceCut ≠ .signalLoss l) ∧ ∀ l, Instr.sliceCut ≠ .signalRegain l :=
  ⟨rfl, rfl, nofun, nofun, nofun, nofun, nofun, nofun, nofun⟩

/-- Lane A in an alignment state, with bytes received. -/
def laneIn (x : Align) (confirm failRun : Nat) (rx : List Byte := []) : State :=
  { State.reset with laneA := { Lane.reset with align := x, rx := rx, confirm := confirm, failRun := failRun } }

theorem witness_SignalDetectMovesAlignment :
    (laneIn .down 0 0).inReset = false ∧ ((laneIn .disabled 0 0).lane .a).align = .disabled
      ∧ ((laneIn .down 0 0).lane .a).align = .down ∧ ((laneIn .hunt 0 0).lane .a).align = .hunt
      ∧ ((laneIn .confirm 1 0).lane .a).align = .confirm ∧ ((laneIn .up 6 0).lane .a).align = .up
      ∧ ((laneIn .up 6 0).lane .a).align ≠ .down := by decide +kernel

/-- 62 bytes received and one more, two more; a passing and a failing block; confirm counts 4 and 5. -/
theorem witness_HuntAndConfirmFindABoundary :
    let rx (b more : List Byte) : List Byte := ((laneIn .hunt 0 0 (b.take 62)).lane .a).rx ++ more
    (rx goodBlock [1]).length = 63 ∧ (rx goodBlock (goodBlock.drop 62)).length = 64
      ∧ crc8 (((rx goodBlock (goodBlock.drop 62)).take 64).take 7) = rd8 ((rx goodBlock (goodBlock.drop 62)).take 64) 7
      ∧ (rx badBlock (badBlock.drop 62)).length = 64
      ∧ crc8 (((rx badBlock (badBlock.drop 62)).take 64).take 7) ≠ rd8 ((rx badBlock (badBlock.drop 62)).take 64) 7
      ∧ (laneIn .hunt 0 0).inReset = false ∧ ((laneIn .hunt 0 0).lane .a).align = .hunt
      ∧ ((laneIn .confirm 4 0).lane .a).align = .confirm ∧ ((laneIn .confirm 4 0).lane .a).confirm < 5
      ∧ 5 ≤ ((laneIn .confirm 5 0).lane .a).confirm := by decide +kernel

theorem witness_FailingBlocksEndUp :
    ([] ++ badBlock.drop 1).length = 63 ∧ ([] ++ badBlock).length = 64
      ∧ crc8 ((([] ++ badBlock).take 64).take 7) ≠ rd8 (([] ++ badBlock).take 64) 7
      ∧ ((laneIn .up 6 2).lane .a).rx = [] ∧ (laneIn .up 6 2).inReset = false
      ∧ ((laneIn .up 6 2).lane .a).align = .up ∧ ((laneIn .up 6 2).lane .a).failRun < 3
      ∧ 3 ≤ ((laneIn .up 6 3).lane .a).failRun := by decide +kernel

/-- A passing block with 7 header bytes. -/
def blockWith (hdr : List Byte) : List Byte := hdr ++ [crc8 hdr] ++ List.replicate 56 0x41

/-- An idle block; fills 0 and 57, a zero field of 1 and a FIRST with fill 55; fills 1 and 56. -/
theorem witness_PassingBlockIsScreened :
    (laneIn .up 6 3).inReset = false ∧ ((laneIn .up 6 3).lane .a).align = .up ∧ ((laneIn .up 6 3).lane .a).rx = []
      ∧ idleBlock.take 64 = idleBlock ∧ (blockWith [0, 0x5C, 0, 1, 0, 0, 0]).take 64 = blockWith [0, 0x5C, 0, 1, 0, 0, 0]
      ∧ idleBlock.length = 64 ∧ crc8 (idleBlock.take 7) = rd8 idleBlock 7 ∧ hdrStream (headerWord idleBlock) = 4095
      ∧ (∀ hdr : List Byte, hdr ∈ ([[0, 0x5C, 0, 0, 0, 0, 0], [0, 0x5C, 0, 57, 0, 0, 0], [0, 0x5C, 0, 1, 0, 0, 1],
            [0, 0x54, 0, 55, 0, 0, 0], [0, 0x5C, 0, 1, 0, 0, 0], [0, 0x54, 0, 56, 0, 0, 0]] : List (List Byte)) →
          (blockWith hdr).length = 64 ∧ crc8 ((blockWith hdr).take 7) = rd8 (blockWith hdr) 7
            ∧ hdrStream (headerWord (blockWith hdr)) ≠ 4095)
      ∧ hdrFill (headerWord (blockWith [0, 0x5C, 0, 0, 0, 0, 0])) = 0
      ∧ 56 < hdrFill (headerWord (blockWith [0, 0x5C, 0, 57, 0, 0, 0]))
      ∧ hdrZero (headerWord (blockWith [0, 0x5C, 0, 1, 0, 0, 1])) ≠ 0
      ∧ hdrPos (headerWord (blockWith [0, 0x54, 0, 55, 0, 0, 0])) = .first
      ∧ hdrFill (headerWord (blockWith [0, 0x54, 0, 55, 0, 0, 0])) ≠ 56
      ∧ blockMalformed (blockWith [0, 0x5C, 0, 1, 0, 0, 0]) = false
      ∧ blockMalformed (blockWith [0, 0x54, 0, 56, 0, 0, 0]) = false := by decide +kernel

theorem witness_SentSliceIsReadBackWhole :
    (slice5 .only 4095 0xFFFF 1).wellFormed ∧ (slice5 .last 0 0 56).wellFormed ∧ (slice5 .first 1 57 56).wellFormed
      ∧ (⟨4094, .middle, 7, 0, List.replicate 56 0xFF⟩ : Slice).wellFormed := by
  unfold Slice.wellFormed; decide +kernel

/-- An empty FIFO; a copy waiting, with an idle slicer, a slicer stalled on the other lane and one stalled on this. -/
theorem witness_LineSendsTheHeadCopy :
    let s : State := { State.reset with laneA := laneWith 1 }
    let stalled (el : LaneSet) := slicing (.stalled (job .data 5 []) (slice5 .only 0 0 1) el) s
    State.reset.inReset = false ∧ (State.reset.lane .a).fifo = [] ∧ (s.lane .a).fifo = slice5 .only 0 0 1 :: []
      ∧ (∀ j x el, s.slicer.state = .stalled j x el → el.has .a = false)
      ∧ (∀ j x el, (stalled ⟨false, true, false⟩).slicer.state = .stalled j x el → el.has .a = false)
      ∧ (stalled ⟨true, false, false⟩).slicer.state
          = .stalled (job .data 5 []) (slice5 .only 0 0 1) ⟨true, false, false⟩
      ∧ LaneSet.has ⟨true, false, false⟩ .a = true :=
  ⟨rfl, rfl, rfl, nofun, fun _ _ _ h => by cases h; rfl, rfl, rfl⟩

/-- FIFOs with 63 and 64 copies, and jobs of each kind with and without a piece left. -/
theorem witness_OfferFollowsTheTable :
    (laneWith 63).fifo.length < 64 ∧ ¬ (laneWith 64).fifo.length < 64
      ∧ (job .data 5 [[1]]).kind = .data ∧ (job .data 5 [[1]]).pieces ≠ [] ∧ (job .data 5 []).pieces = []
      ∧ (job .response 0 [[1]]).kind ≠ .data ∧ (job .response 0 [[1]]).pieces ≠ []
      ∧ (job .response 0 []).kind = .response ∧ (job .response 0 []).pieces = []
      ∧ (job .probe 4094 []).kind = .probe ∧ (job .probe 4094 []).pieces = []
      ∧ probing.mgmt.executor
          = .probing (req 0x0301 [0, 1, 7, 0]) ⟨1, [7], 0, some (1, ⟨0, 20000⟩)⟩ := by decide +kernel

theorem witness_TransmitSidesRestart :
    (telling .laneA State.reset).awaitsRestart .laneA ∧ (telling .laneB State.reset).awaitsRestart .laneB
      ∧ (telling .slicer State.reset).awaitsRestart .slicer ∧ (telling .slicer State.reset).slicer.state = .idle
      ∧ (slicing (.slicing (job .data 5 [[1]])) (telling .slicer State.reset)).awaitsRestart .slicer
      ∧ (slicing (.slicing (job .data 5 [[1]])) (telling .slicer State.reset)).slicer.state
          = .slicing (job .data 5 [[1]])
      ∧ (slicing (.stalled (job .response 0 []) (slice5 .only 0 0 1) ⟨true, true, false⟩)
          (telling .slicer State.reset)).awaitsRestart .slicer :=
  ⟨⟨rfl, _, _, rfl, rfl⟩, ⟨rfl, _, _, rfl, rfl⟩, ⟨rfl, _, _, rfl, rfl⟩, rfl, ⟨rfl, _, _, rfl, rfl⟩, rfl,
    ⟨rfl, _, _, rfl, rfl⟩⟩

/-- A disabled stream; a mask that shuts Lane A out, and stream 4094 on a lane; a permitted slice, marked and not. -/
theorem witness_SliceIsScreened :
    (handedA (slice5 .only 0 0 1) State.reset).nextSlice .a = some (slice5 .only 0 0 1, State.reset)
      ∧ (State.reset.entry 5).rxEnable = false
      ∧ (withEntry 5 { entry5 with rxMask := .onlyB }).entry 5 = { entry5 with rxMask := .onlyB }
      ∧ (handedA ⟨4094, .only, 0, 0, [1]⟩ State.reset).nextSlice .a = some (⟨4094, .only, 0, 0, [1]⟩, State.reset)
      ∧ (State.reset.entry 4094).rxEnable = true
      ∧ (handedA (slice5 .only 0 0 1) (marked5 on5)).nextSlice .a = some (slice5 .only 0 0 1, marked5 on5)
      ∧ markOf (marked5 on5).merge.pendingFlush 5 = true ∧ (on5.entry 5).rxEnable = true
      ∧ (on5.entry 5).rxMask ≠ .onlyB ∧ on5.inReset = false := by decide +kernel

theorem witness_UnsyncedStreamSynchronises :
    (handedA (slice5 .only 0 0 1) on5).accepts .a (slice5 .only 0 0 1) on5 ∧ (on5.mrec 5).sync = none ∧ on5.mayClaimRx
      ∧ (handedA (slice5 .only 0 0 1) (noBlocks on5)).accepts .a (slice5 .only 0 0 1) (noBlocks on5)
      ∧ ((noBlocks on5).mrec 5).sync = none ∧ ¬ (noBlocks on5).mayClaimRx := by
  unfold State.accepts State.mayClaimRx; decide +kernel

/-- At E = 100 with 101 and 103 held: 101 is released; 103 stays, its deadline 200 ahead of its arrival, not yet reached
at 199 and reached at 200. -/
theorem witness_ExpectedSliceIsPassed :
    let hs := [held5 101 0, held5 103 0]
    let at_ (n : Time) (s : State) : State := { s with time := n }
    let s (n : Time) := at_ n (rec5 (synced5 hs (some ⟨0, 200⟩)) on5)
    let passed (n : Time) : State :=
      ((((s n).withRxBlock.passSlice (slice5 .only 100 0 1) .a false).passRun [held5 101 0])).setMrec 5
        { sync := some 102, held := [held5 103 0], timer := (s n).rearm 5 [held5 103 0], staleRun := 0 }
    (handedA (slice5 .only 100 0 1) (s 199)).accepts .a (slice5 .only 100 0 1) (s 199)
      ∧ ((s 199).mrec 5).sync = some 100 ∧ (s 199).mayClaimRx
      ∧ releaseRun 101 ((s 199).mrec 5).held = ([held5 101 0], 102, [held5 103 0])
      ∧ (passed 199).holdDue 5 = false ∧ (passed 200).holdDue 5 = true ∧ (s 200).mayClaimRx
      ∧ ¬ (noBlocks (s 199)).mayClaimRx ∧ ((noBlocks (s 199)).mrec 5).sync = some 100
      ∧ releaseRun 4095 [held5 4095 0, held5 0 0, held5 2 0] = ([held5 4095 0, held5 0 0], 1, [held5 2 0])
      ∧ (s 5).rearm 5 [held5 103 4294967295, held5 104 3] = some ⟨4294967295, 199⟩ ∧ ((s 5).entry 5).holdTime = 200 := by
  unfold State.accepts State.mayClaimRx; decide +kernel

/-- Distances 1 and 7 with a window of 8; a second copy; 511 and 512 entries in use; no block; slices to insert before,
between and behind two held in ascending order. -/
theorem witness_EarlySliceIsHeld :
    let s := rec5 (synced5 [held5 107 0] (some ⟨0, 200⟩)) on5
    let full (n : Nat) : State :=
      { s with merge := { s.merge with recs := [(5, synced5 (List.replicate n (held5 107 0)) none)] } }
    (handedA (slice5 .only 101 0 1) s).accepts .a (slice5 .only 101 0 1) s ∧ (s.mrec 5).sync = some 100
      ∧ ((slice5 .only 101 0 1).seq - 100).toNat = 1 ∧ ((slice5 .only 107 0 1).seq - 100).toNat = 7
      ∧ (s.entry 5).window = 8 ∧ (∃ h ∈ (s.mrec 5).held, h.slice.seq = 107)
      ∧ (∀ h ∈ (s.mrec 5).held, h.slice.seq ≠ 101) ∧ s.heldInUse < 512 ∧ s.mayClaimRx
      ∧ (full 511).heldInUse < 512 ∧ 512 ≤ (full 512).heldInUse
      ∧ (∀ h ∈ ((full 512).mrec 5).held, h.slice.seq ≠ 101) ∧ ¬ (noBlocks s).mayClaimRx
      ∧ ([held5 103 0, held5 107 0].map (fun x => (x.slice.seq - 100).toNat)).Pairwise (· < ·)
      ∧ ∀ q ∈ ([101, 105, 109] : List SeqNo), ∀ x ∈ [held5 103 0, held5 107 0], x.slice.seq ≠ (held5 q 0).slice.seq := by
  unfold State.accepts State.mayClaimRx; decide +kernel

/-- Distances 8, the window, and 2046. -/
theorem witness_WindowJumpPassesEverything :
    let s := rec5 (synced5 [held5 107 0] (some ⟨0, 200⟩)) on5
    (handedA (slice5 .only 108 0 1) s).accepts .a (slice5 .only 108 0 1) s ∧ (s.mrec 5).sync = some 100
      ∧ ((slice5 .only 108 0 1).seq - 100).toNat = 8 ∧ (s.entry 5).window = 8
      ∧ ((slice5 .only 2146 0 1).seq - 100).toNat = 2046 ∧ s.mayClaimRx ∧ ¬ (noBlocks s).mayClaimRx := by
  unfold State.accepts State.mayClaimRx; decide +kernel

/-- Distances 4032 (64 behind), 2047 and 4031; stale runs 15 and 16 against the threshold 16. -/
theorem witness_StaleAndLateSlices :
    let s (run : Nat) := rec5 { synced5 [held5 107 0] (some ⟨0, 200⟩) with staleRun := run } on5
    (handedA (slice5 .only 36 0 1) (s 15)).accepts .a (slice5 .only 36 0 1) (s 15) ∧ ((s 15).mrec 5).sync = some 100
      ∧ ((s 15).entry 5).window ≤ 32 ∧ ((slice5 .only 36 0 1).seq - 100).toNat = 4032
      ∧ ((slice5 .only 35 0 1).seq - 100).toNat = 4031 ∧ ((slice5 .only 2147 0 1).seq - 100).toNat = 2047
      ∧ ((s 14).mrec 5).staleRun + 1 < (s 14).glob.staleThreshold
      ∧ (s 15).glob.staleThreshold ≤ ((s 15).mrec 5).staleRun + 1
      ∧ ((s 15).returnRx ((s 15).mrec 5).held.length).mayClaimRx
      ∧ ¬ (State.returnRx { s 15 with pool := ⟨0, 3585, 511⟩ } 1).mayClaimRx := by
  unfold State.accepts State.mayClaimRx; decide +kernel

/-- The deadline reached exactly; the stream marked and not; 101 and 102 released, 104 left with a deadline ahead, and one
already reached. -/
theorem witness_HoldExpiryReleasesTheLowestRun :
    let s (late : Time) : State :=
      { rec5 (synced5 [held5 101 0, held5 102 0, held5 104 late] (some ⟨0, 200⟩)) on5 with time := 200 }
    let t (late : Time) : State :=
      (((s late).passSlice (slice5 .only 101 0 1) .a true).passRun [held5 102 0]).setMrec 5
        { sync := some 103, held := [held5 104 late], timer := (s late).rearm 5 [held5 104 late], staleRun := 0 }
    (s 0).inReset = false ∧ ((s 0).mrec 5).held = held5 101 0 :: [held5 102 0, held5 104 0]
      ∧ ((s 0).mrec 5).timer = some ⟨0, 200⟩ ∧ ((200 : Time) - 0).toNat ≤ ((s 0).time - 0).toNat
      ∧ markOf (s 0).merge.pendingFlush 5 = false ∧ markOf (marked5 (s 0)).merge.pendingFlush 5 = true
      ∧ releaseRun 102 [held5 102 0, held5 104 0] = ([held5 102 0], 103, [held5 104 0])
      ∧ releaseRun 102 [held5 102 0] = ([held5 102 0], 103, [])
      ∧ (t 0).holdDue 5 = true ∧ (t 1).holdDue 5 = false := by decide +kernel

/-- Stream 4094, the last with a record, and 4095; a SYNCED and an UNSYNCED record. -/
theorem witness_StreamFlushClearsTheStream :
    (4094 : Nat) < 4095
      ∧ (readyWith .flushStream [0x0F, 0xFF]).executes (req 0x0104 [0x0F, 0xFF]) .flushStream
      ∧ 4094 < (rd16 (reqParams (req 0x0104 [0x0F, 0xFF]).bytes) 0).toNat
      ∧ (rd16 (reqParams (req 0x0104 [0x0F, 0xFE]).bytes) 0).toNat = 4094
      ∧ (readyIn (rec5 (synced5 [held5 101 0] none) on5) .flushStream [0, 5]).executes (req 0x0104 [0, 5]) .flushStream
      ∧ ((readyIn (rec5 (synced5 [held5 101 0] none) on5) .flushStream [0, 5]).mrec 5).sync = some 100
      ∧ ((readyWith .flushStream [0x0F, 0xFE]).mrec 4094).sync = none := by
  unfold State.executes; decide +kernel

theorem witness_CommitSweepVisitsAndEnds :
    let r := req 0x0202 []
    (exe (.sweeping r [5] 1) on5).inReset = false ∧ (exe (.sweeping r [5] 1) on5).mgmt.executor = .sweeping r (5 :: []) 1
      ∧ markOf (marked5 (exe (.sweeping r [5] 1) on5)).merge.pendingFlush 5 = true
      ∧ markOf (exe (.sweeping r [5] 1) on5).merge.pendingFlush 5 = false
      ∧ (exe (.sweeping r [] 1) on5).mgmt.executor = .sweeping r [] 1 := by decide +kernel

theorem witness_ReceiveEnginesRestart :
    (telling .merge (rec5 (synced5 [held5 101 0] none) on5)).awaitsRestart .merge
      ∧ (telling .reassembly (bound [ctx5 113] on5)).awaitsRestart .reassembly :=
  ⟨⟨rfl, _, _, rfl, rfl⟩, ⟨rfl, _, _, rfl, rfl⟩⟩

theorem witness_OpenMessageIsAbandonedFirst :
    let s (pos : Position) (gap : Bool) := sent [.slice (slice5 pos 10 57 56) .b gap] (bound [ctx5 113] on5)
    (s .middle true).inReset = false ∧ (s .middle true).oneContextEach
      ∧ (s .middle true).nextItem 5 = some (.slice (slice5 .middle 10 57 56) .b true)
      ∧ (s .middle true).ctxOf 5 = some (ctx5 113)
      ∧ (s .first false).nextItem 5 = some (.slice (slice5 .first 10 57 56) .b false)
      ∧ (s .only false).nextItem 5 = some (.slice (slice5 .only 10 57 56) .b false) := by
  unfold State.oneContextEach; decide +kernel

/-- Declared lengths 56, 57, 4096 and 4097 against a limit of 4096; 63 and 64 contexts bound. -/
theorem witness_FirstSliceBindsOrIsRejected :
    let s (aux : Half) (n : Nat) :=
      sent [.slice (slice5 .first 10 aux 56) .a true] (bound (List.replicate n { ctx5 113 with stream := 6 }) on5)
    (s 56 0).inReset = false ∧ (s 56 0).nextItem 5 = some (.slice (slice5 .first 10 56 56) .a true)
      ∧ (s 56 0).ctxOf 5 = none ∧ (s 57 64).ctxOf 5 = none ∧ (s 57 63).ctxOf 5 = none
      ∧ (56 : Half).toNat < 57 ∧ 57 ≤ (57 : Half).toNat ∧ (on5.entry 5).maxLen = 4096
      ∧ 4096 < (4097 : Half).toNat ∧ (4096 : Half).toNat ≤ 4096
      ∧ (s 57 64).engine.ctxs.length = 64 ∧ (s 57 63).engine.ctxs.length < 64 := by decide +kernel

/-- No message open; 56 gathered of 112 and of 113. -/
theorem witness_MiddleSliceContinuesAMessage :
    let s (cs : List Ctx) (gap : Bool) := sent [.slice (slice5 .middle 10 0 56) .a gap] (bound cs on5)
    (s [] true).inReset = false ∧ (slice5 .middle 10 0 56).pos = .middle
      ∧ (s [] true).nextItem 5 = some (.slice (slice5 .middle 10 0 56) .a true) ∧ (s [] true).ctxOf 5 = none
      ∧ (s [ctx5 112] false).nextItem 5 = some (.slice (slice5 .middle 10 0 56) .a false)
      ∧ (s [ctx5 112] false).ctxOf 5 = some (ctx5 112) ∧ (ctx5 112).declared ≤ (ctx5 112).gathered + 56
      ∧ (ctx5 113).gathered + 56 < (ctx5 113).declared := by decide +kernel

/-- No message open; a total one short; the whole length with a wrong and with the right message check. -/
theorem witness_LastSliceEndsAMessage :
    let s (cs : List Ctx) (aux : Half) := sent [.slice (slice5 .last 10 aux 1) .a false] (bound cs on5)
    let ok := crc16 (List.replicate 57 0x41)
    (s [] 0).inReset = false ∧ (slice5 .last 10 0 1).pos = .last
      ∧ (s [] 0).nextItem 5 = some (.slice (slice5 .last 10 0 1) .a false) ∧ (s [] 0).ctxOf 5 = none
      ∧ (s [ctx5 58] 0).ctxOf 5 = some (ctx5 58) ∧ (ctx5 58).gathered + (slice5 .last 10 0 1).payload.length ≠ 58
      ∧ (ctx5 57).gathered + (slice5 .last 10 0 1).payload.length = 57 ∧ (on5.entry 5).checkEnable = true
      ∧ crc16From (ctx5 57).check (slice5 .last 10 0 1).payload ≠ 0
      ∧ crc16From (ctx5 57).check (slice5 .last 10 ok 1).payload = ok := by decide +kernel

/-- A maximum length of 1 with fills 2 and 1; a wrong and the right message check. -/
theorem witness_OnlySliceIsAWholeMessage :
    let s (n : Nat) (aux : Half) :=
      sent [.slice (slice5 .only 10 aux n) .a true] (withEntry 5 { entry5 with maxLen := 1 })
    (s 2 0).inReset = false ∧ (s 2 0).nextItem 5 = some (.slice (slice5 .only 10 0 2) .a true) ∧ (s 2 0).ctxOf 5 = none
      ∧ ((s 2 0).entry 5).maxLen = 1 ∧ (slice5 .only 10 0 2).payload.length = 2
      ∧ (slice5 .only 10 0 1).payload.length = 1 ∧ ((s 1 0).entry 5).checkEnable = true
      ∧ crc16 (slice5 .only 10 0 1).payload ≠ 0 := by decide +kernel

theorem witness_AbandonRequestIsTaken :
    let s (cs : List Ctx) := sent [.abandon 5 .flushed] (bound cs on5)
    (s []).inReset = false ∧ (s []).nextItem 5 = some (.abandon 5 .flushed) ∧ (s []).ctxOf 5 = none
      ∧ (s [ctx5 113]).ctxOf 5 = some (ctx5 113) := by decide +kernel

/-- One microsecond before the deadline, and at it. -/
theorem witness_AssemblyDeadlineStalls :
    let s (now : Time) : State := { bound [ctx5 113] on5 with time := now }
    (s 4999).inReset = false ∧ (s 4999).ctxOf 5 = some (ctx5 113) ∧ ((s 4999).time - 0).toNat < ((5000 : Time) - 0).toNat
      ∧ ((5000 : Time) - 0).toNat ≤ ((s 5000).time - 0).toNat := by decide +kernel

/-- A log with 31 entries and a full one. -/
theorem witness_AbandonIsCountedAndLogged :
    let e : LogEntry := { time := 0, stream := 5, reason := .gap, seq := 0, gathered := 0, laneA := .up, laneB := .up }
    (List.replicate 31 e).length < 32 ∧ ¬ (List.replicate 32 e).length < 32 ∧ ((5 : Nat) ≠ 4094) ∧ State.reset.probeAwaiting = false
      ∧ probing.mgmt.executor
          = .probing (req 0x0301 [0, 1, 7, 0]) ⟨1, [7], 0, some (1, ⟨0, 20000⟩)⟩ := by decide +kernel

/-- Three and four requests in the share; no probe; an equal message, one that differs and one cut short; a queue one below
its capacity and at it. -/
theorem witness_CompletedMessageIsRouted :
    let d (k : Nat) (bytes : List Byte) : Descriptor := { desc with stream := k, blocks := [bytes] }
    let queue (n : Nat) : State :=
      { on5 with delivery := { State.reset.delivery with dqs := ⟨List.replicate n desc, [], [], []⟩ } }
    (d 0 [1]).stream = 0 ∧ (List.replicate 3 (req 0 [])).length < 4 ∧ 4 ≤ (List.replicate 4 (req 0 [])).length
      ∧ (d 4094 [7]).stream = 4094 ∧ State.reset.probeAwaiting = false ∧ probing.probeAwaiting = true
      ∧ (d 4094 [7]).blocks.flatten = [7] ∧ (d 4094 [8]).blocks.flatten[0]? ≠ ([7] : List Byte)[0]?
      ∧ (d 4094 [7, 8]).blocks.flatten.take 1 = ([7] : List Byte).take 1
      ∧ (d 4094 [7, 8]).blocks.flatten[1]? ≠ ([7] : List Byte)[1]?
      ∧ desc.stream ≠ 0 ∧ desc.stream ≠ 4094
      ∧ (queue 63).occupancy .dq0 < (queue 63).activeBank.capacities.get .dq0
      ∧ (queue 64).activeBank.capacities.get .dq0 ≤ (queue 64).occupancy .dq0 := by decide +kernel

/-- A receive-held count one below the ceiling and at it; a transmit claim that just fits and one block more. -/
theorem witness_PoolGrantsClaimsWhole :
    let s (rx tx : Nat) : State := { State.reset with pool := ⟨4096 - rx - tx, rx, tx⟩ }
    (s 3583 512).pool.rx < (s 3583 512).glob.ceiling ∧ 0 < (s 3583 512).pool.free
      ∧ (s 3584 0).glob.ceiling ≤ (s 3584 0).pool.rx ∧ (s 0 438).pool.tx + 74 ≤ 4096 - (s 0 438).glob.ceiling
      ∧ 74 ≤ (s 0 438).pool.free ∧ 4096 - (s 0 439).glob.ceiling < (s 0 439).pool.tx + 74
      ∧ (s 3583 512).pool.free + 3583 + 512 = 4096 ∧ (s 3583 512).glob.ceiling ≤ 4096 := by decide +kernel

/-- Hold active; a transfer in progress; a response and a message of DQ3 waiting; nothing waiting. -/
theorem witness_TransferStartsInStrictOrder :
    let d := State.reset.delivery
    State.reset.inReset = false ∧ (delivering { d with hold := true } State.reset).delivery.hold = true
      ∧ (delivering { d with transfer := some (.mgmt [1]) } State.reset).delivery.transfer ≠ none
      ∧ d.hold = false ∧ d.transfer = none ∧ (delivering { d with mq := [[1]] } State.reset).delivery.mq = [1] :: []
      ∧ (delivering { d with dqs := ⟨[], [], [], [desc]⟩ } State.reset).delivery.dqs.get .dq3 = desc :: []
      ∧ (delivering { d with dqs := ⟨[], [], [], [desc]⟩ } State.reset).delivery.dqs.get .dq0 = []
      ∧ d.mq = [] ∧ d.dqs.get .dq0 = [] ∧ d.dqs.get .dq1 = [] ∧ d.dqs.get .dq2 = [] ∧ d.dqs.get .dq3 = [] := by
  decide +kernel

/-- A data and a management transfer; the first of 9 bytes presented, 7 and 8 of them. -/
theorem witness_TransferEndReturnsBlocks :
    let d := State.reset.delivery
    State.reset.inReset = false
      ∧ (delivering { d with transfer := some (.data .dq2 desc) } State.reset).delivery.transfer = some (.data .dq2 desc)
      ∧ (delivering { d with transfer := some (.mgmt [1]) } State.reset).delivery.transfer = some (.mgmt [1])
      ∧ (presented 1).delivery.out = (deliveryOut (.mgmt [7])).take 1
      ∧ (presented 7).delivery.out = (deliveryOut (.mgmt [7])).take 7 ∧ 7 + 1 < (deliveryOut (.mgmt [7])).length
      ∧ (presented 8).delivery.out = (deliveryOut (.mgmt [7])).take 8 ∧ (presented 7).pending = [] := by
  decide +kernel

theorem witness_LocalPortRestarts :
    let d := State.reset.delivery
    (telling .delivery State.reset).awaitsRestart .delivery
      ∧ (∀ q x, (telling .delivery State.reset).delivery.transfer ≠ some (.data q x))
      ∧ (delivering { d with transfer := some (.data .dq0 desc) } (telling .delivery State.reset)).awaitsRestart .delivery
      ∧ (sub .idle (telling .submission State.reset)).awaitsRestart .submission
      ∧ (sub (.header [0]) (telling .submission State.reset)).awaitsRestart .submission
      ∧ (sub (.loadingData 5 57 []) (telling .submission State.reset)).awaitsRestart .submission
      ∧ (sub (.absorbing 3) (telling .submission State.reset)).awaitsRestart .submission :=
  ⟨⟨rfl, _, _, rfl, rfl⟩, nofun, ⟨rfl, _, _, rfl, rfl⟩, ⟨rfl, _, _, rfl, rfl⟩, ⟨rfl, _, _, rfl, rfl⟩,
    ⟨rfl, _, _, rfl, rfl⟩, ⟨rfl, _, _, rfl, rfl⟩⟩

/-- A header one byte short and complete; a payload two bytes short and one; each event a byte can be. -/
theorem witness_SubmissionTakesBytes :
    let got : List Byte := [0, 0, 0, 5, 0, 2, 0]
    (sub (.header (got.take 6)) State.reset).inReset = false ∧ (got.take 6).length < 7
      ∧ ([0x41] : List Byte).length + 1 < 3
      ∧ byteEvent (.header got) 0 false = .dataHeader ∧ byteEvent (.header (1 :: got.drop 1)) 0 false = .mgmtHeader
      ∧ byteEvent (.header got) 0 true = .fault ∧ byteEvent (.loadingData 5 2 [1]) 0 true = .dataComplete
      ∧ byteEvent (.loadingMgmt 2 [1]) 0 true = .mgmtComplete ∧ byteEvent (.absorbing 0) 0 true = .absorbingEnd := by
  decide +kernel

/-- Headers of streams 0, 4094 and 4095; a disabled stream; lengths 0, 1, 4096 and 4097; a frame waiting. -/
theorem witness_DataHeaderIsJudged :
    let hdr (k n : Half) : List Byte := [0, 0] ++ be16 k ++ be16 n ++ [0]
    (sub (.header (hdr 5 1)) on5).inReset = false ∧ (hdr 5 1).length = 7
      ∧ (rd8 (hdr 5 1 ++ [0]) 0).toNat % 2 = 0
      ∧ (rd16 (hdr 0 1 ++ [0]) 2).toNat % 4096 = 0 ∧ (rd16 (hdr 0x1FFE 1 ++ [0]) 2).toNat % 4096 = 4094
      ∧ (rd16 (hdr 4095 1 ++ [0]) 2).toNat % 4096 = 4095 ∧ (State.reset.entry 5).txEnable = false
      ∧ (on5.entry 5).txEnable = true ∧ (on5.entry 5).maxLen = 4096
      ∧ (rd16 (hdr 5 0 ++ [0]) 4).toNat = 0 ∧ (rd16 (hdr 5 1 ++ [0]) 4).toNat = 1
      ∧ (rd16 (hdr 5 4096 ++ [0]) 4).toNat = 4096 ∧ (rd16 (hdr 5 4097 ++ [0]) 4).toNat = 4097
      ∧ (sub (.waitingData 5 1) on5).sub = .waitingData 5 1 := by decide +kernel

/-- Lengths 0, 1, 1024 and 1025; three and four requests in the local share. -/
theorem witness_MgmtHeaderIsJudged :
    let hdr (n : Half) : List Byte := [1, 0, 0, 0] ++ be16 n ++ [0]
    let s (m : Nat) : State :=
      sub (.header (hdr 1)) { State.reset with mgmt := { State.reset.mgmt with lpShare := List.replicate m (req 0 []) } }
    (s 3).inReset = false ∧ (s 3).sub = .header (hdr 1) ∧ (hdr 1).length = 7 ∧ (rd8 (hdr 1 ++ [0]) 0).toNat % 2 = 1
      ∧ (rd16 (hdr 0 ++ [0]) 4).toNat = 0 ∧ (rd16 (hdr 1 ++ [0]) 4).toNat = 1 ∧ (rd16 (hdr 1024 ++ [0]) 4).toNat = 1024
      ∧ (rd16 (hdr 1025 ++ [0]) 4).toNat = 1025 ∧ (s 3).mgmt.lpShare.length < 4 ∧ 4 ≤ (s 4).mgmt.lpShare.length := by
  decide +kernel

theorem witness_CompleteFramesAreTaken :
    State.reset.inReset = false ∧ (sub (.loadingData 5 2 [1]) on5).sub = .loadingData 5 2 [1]
      ∧ (sub (.loadingMgmt 2 [1]) on5).sub = .loadingMgmt 2 [1] ∧ ([1] : List Byte).length + 1 = 2 := by decide +kernel

/-- An end mark on a header of length 1; a payload of 3 with one byte taken and with two. -/
theorem witness_LengthFaultsAreCountedOnce :
    let got : List Byte := [0, 0, 0, 5, 0, 1, 0]
    (sub (.header got) on5).inReset = false ∧ (sub (.header got) on5).sub = .header got ∧ got.length = 7
      ∧ 0 < (rd16 (got ++ [0]) 4).toNat ∧ (sub (.loadingData 5 3 [1]) on5).sub = .loadingData 5 3 [1]
      ∧ ([1] : List Byte).length + 1 < 3 ∧ ([1, 2] : List Byte).length + 1 = 3
      ∧ (sub (.loadingMgmt 3 [1]) on5).sub = .loadingMgmt 3 [1]
      ∧ (sub (.absorbing 9) on5).sub = .absorbing 9 := by decide +kernel

theorem witness_SlicerTakesOutputsFirst :
    let s (outs : List Output) (fs : List Frame) : State :=
      { State.reset with slicer := { State.reset.slicer with outputs := outs, fifo := fs } }
    (s [] []).inReset = false ∧ (s [] []).slicer.state = .idle
      ∧ (s [.response [1]] []).slicer.outputs = .response [1] :: []
      ∧ (s [.probe [1]] []).slicer.outputs = .probe [1] :: [] ∧ (s [] [⟨5, 1, [[1]]⟩]).slicer.outputs = []
      ∧ (s [] [⟨5, 1, [[1]]⟩]).slicer.fifo = ⟨5, 1, [[1]]⟩ :: [] := by decide +kernel

theorem witness_SliceIsCutAndNumbered :
    let s (k : Nat) := slicing (.slicing (job .data k [[1], [2]])) on5
    (s 5).inReset = false ∧ (s 5).slicer.state = .slicing (job .data 5 [[1], [2]])
      ∧ (slicing (.stalled (job .data 5 []) (slice5 .only 0 0 1) ⟨true, true, false⟩) on5).slicer.state
          = .stalled (job .data 5 []) (slice5 .only 0 0 1) ⟨true, true, false⟩
      ∧ (job .data 5 [[1], [2]]).pieces = [1] :: [[2]] ∧ (job .data 5 [[1], [2]]).stream ≠ 4094
      ∧ (job .probe 4094 [[1], [2]]).stream = 4094 := by decide +kernel

/-- A backbone request, alone and against a later local one; a local request, alone and against a later backbone one;
requests that pass and fail each check. -/
theorem witness_ExecutorTakesEarliestEligible :
    let b (n : Nat) : Request := { req 0x0101 [] with source := .backbone, position := n }
    let l (n : Nat) : Request := { req 0x0101 [] with position := n }
    let s (bs ls : List Request) : State :=
      { State.reset with mgmt := { State.reset.mgmt with bbShare := bs, lpShare := ls } }
    (s [b 0] []).inReset = false ∧ (s [b 0] []).mgmt.executor = .idle ∧ (s [b 0] []).mgmt.bbShare = b 0 :: []
      ∧ (s [b 0] []).mgmt.bbBufs < 2 ∧ (b 0).position ≤ (l 1).position
      ∧ (s [] [l 0]).mgmt.lpShare = l 0 :: [] ∧ (s [] [l 0]).mgmt.lpBufs < 2 ∧ (l 0).position < (b 1).position
      ∧ (b 0).bytes.length = 8 ∧ (rd16 (b 0).bytes 4).toNat = (b 0).bytes.length - 8
      ∧ rd16 (b 0).bytes 0 = 0x0101 ∧ rd16 (req 0x0105 [0]).bytes 0 = 0x0105 ∧ (req 0x0105 [0]).bytes.length = 9
      ∧ (rd16 (req 0x0105 [0]).bytes 4).toNat = 1 ∧ rd16 (req 0x0202 []).bytes 0 = 0x0202
      ∧ State.judgeRequest State.reset (b 0) = .ok .identify
      ∧ State.judgeRequest State.reset (req 0x0999 []) = .error .badRequest := by
  decide +kernel

/-- Each reading request executing, two of them between their reads; selectors 0, 1 and 2, streams 4094 and 4095, counts 0,
1, 32 and 33, positions 31 and 32; a session OPEN; each assembly state. -/
theorem witness_ReadingRequestsOnlyAnswer :
    let reads (x : Reading) : State := exe (.reading (req 0x0103 [0, 5]) x) on5
    (readyWith .identify []).executes (req 0x0101 []) .identify
      ∧ (reads (.identify { IdReads.none with laneA := some .up } [])).mgmt.executor
          = .reading (req 0x0103 [0, 5]) (.identify { IdReads.none with laneA := some .up } [])
      ∧ (reads (.identify IdReads.none [.pool, .merge])).mgmt.executor
          = .reading (req 0x0103 [0, 5]) (.identify IdReads.none (.pool :: [.merge]))
      ∧ (reads (.mergeState MergeRec.fresh true)).mgmt.executor
          = .reading (req 0x0103 [0, 5]) (.mergeState MergeRec.fresh true)
      ∧ (reads (.mergeState MergeRec.fresh true)).inReset = false
      ∧ (bound [ctx5 113] (reads (.mergeState MergeRec.fresh true))).ctxOf 5 = some (ctx5 113)
      ∧ (reads (.mergeState MergeRec.fresh true)).ctxOf 5 = none ∧ markOf mark5 5 = true ∧ markOf 0 5 = false
      ∧ (rd16 (reqParams (req 0x0103 [0x0F, 0xFF]).bytes) 0).toNat = 4095
      ∧ (inSession (session 1 0 0) (readyWith .loadStatus [])).mgmt.session = some (session 1 0 0)
      ∧ (readyWith .loadStatus []).mgmt.session = none
      ∧ (readyWith .loadStatus []).executes (req 0x0205 []) .loadStatus
      ∧ (readyWith .readStream [1, 0, 0x0F, 0xFE]).executes (req 0x0102 [1, 0, 0x0F, 0xFE]) .readStream
      ∧ rd8 (reqParams (req 0x0102 [1, 0, 0x0F, 0xFE]).bytes) 0 = 1
      ∧ (rd16 (reqParams (req 0x0102 [1, 0, 0x0F, 0xFE]).bytes) 2).toNat = 4094
      ∧ (rd16 (reqParams (req 0x0102 [0, 0, 0x0F, 0xFF]).bytes) 2).toNat = 4095
      ∧ 1 < (rd8 (reqParams (req 0x0102 [2, 0, 0, 0]).bytes) 0).toNat
      ∧ (readyWith .readMergeState [0x0F, 0xFE]).executes (req 0x0103 [0x0F, 0xFE]) .readMergeState
      ∧ (readyWith .readCounters [1, 0, 0x0F, 0xDF, 0, 32]).executes (req 0x0401 [1, 0, 0x0F, 0xDF, 0, 32]) .readCounters
      ∧ (rd16 (reqParams (req 0x0401 [1, 0, 0x0F, 0xDF, 0, 32]).bytes) 2).toNat + 32 - 1 = 4094
      ∧ (rd16 (reqParams (req 0x0401 [1, 0, 0x0F, 0xE0, 0, 32]).bytes) 2).toNat + 32 - 1 = 4095
      ∧ (rd16 (reqParams (req 0x0401 [1, 0, 0, 0, 0, 33]).bytes) 4).toNat = 33
      ∧ (readyWith .readLog [0, 31]).executes (req 0x0403 [0, 31]) .readLog
      ∧ (rd16 (reqParams (req 0x0403 [0, 32]).bytes) 0).toNat = 32 := by
  unfold State.executes; decide +kernel

theorem witness_RestartTellsSevenParts :
    (readyWith .restart []).executes (req 0x0105 []) .restart
      ∧ (telling .merge State.reset).mgmt.executor = .restarting (req 0x0105 []) [.merge]
      ∧ ([.merge] : List Part).Nodup ∧ ([.merge, .slicer] : List Part).Nodup
      ∧ Part.slicer ∈ ([.merge, .slicer] : List Part) ∧ ([.merge, .slicer] : List Part) ≠ [.slicer] := by
  unfold State.executes; decide +kernel

/-- Modes 1, 2 and 3; counts 0, 1, 8192 and 8193; an open session; a preparation under way. -/
theorem witness_LoadOpenCreatesASession :
    let p (mode : Byte) (n : Half) : List Byte := [mode, 0] ++ be16 n ++ [0, 0, 0, 0]
    let s := readyWith .loadOpen (p 1 1)
    s.executes (req 0x0201 (p 1 1)) .loadOpen ∧ rd8 (reqParams (req 0x0201 (p 1 1)).bytes) 0 = 1
      ∧ rd8 (reqParams (req 0x0201 (p 3 1)).bytes) 0 ≠ 1 ∧ rd8 (reqParams (req 0x0201 (p 3 1)).bytes) 0 ≠ 2
      ∧ rd8 (reqParams (req 0x0201 (p 2 8192)).bytes) 0 = 2
      ∧ (rd16 (reqParams (req 0x0201 (p 2 8192)).bytes) 2).toNat = 8192
      ∧ (rd16 (reqParams (req 0x0201 (p 2 8193)).bytes) 2).toNat = 8193
      ∧ (rd16 (reqParams (req 0x0201 (p 1 0)).bytes) 2).toNat = 0
      ∧ (inSession (session 1 0 0) s).mgmt.session = some (session 1 0 0) ∧ (session 1 0 0).idle ≠ none
      ∧ s.mgmt.session = none
      ∧ (exe (.preparing (req 0x0201 (p 1 1)) .clean 1 0) State.reset).mgmt.executor
          = .preparing (req 0x0201 (p 1 1)) .clean 1 0 := by
  unfold State.executes; decide +kernel

/-- A QUEUE record for DQ2 with capacity 128 (R191). -/
def queueRecord : List Byte := [2, 2, 0, 128, 0, 0, 0, 0, 0, 0, 0, 0, 0, 0, 0, 0]

/-- The parameters of a batch of session 7. -/
def batch (first count : Half) (recs : List Byte) : List Byte := [0, 7] ++ be16 first ++ be16 count ++ [0, 0] ++ recs

theorem witness_LoadRecordsWritesTheShadow :
    let p := batch 0 1 queueRecord
    let s := inSession (session 1 0 0) (readyWith .loadRecords p)
    (s.executes (req 0x0202 p) .loadRecords ∧ reqParams (req 0x0202 p).bytes = p ∧ 8 ≤ p.length
      ∧ (rd16 p 4).toNat = 1 ∧ reqLength (req 0x0202 p).bytes = 8 + 16 * 1
      ∧ s.hasOpenSession .localPort (rd16 p 0) (session 1 0 0)
      ∧ (rd16 p 2).toNat = (session 1 0 0).next ∧ 0 + 1 ≤ (session 1 0 0).declared)
      ∧ judgeBatch 0 (splitRecords 1 (p.drop 8)) = .ok [.queue .dq2 128] :=
  ⟨by unfold State.executes State.hasOpenSession; decide +kernel, rfl⟩

/-- Parameters too short, counts 0 and 33; no session; another number; another owner; past the declared count; already
loaded; out of order; a bad record. A QUEUE record of capacity 256 passes every check, one of 257 fails its second, and a
STREAM record of stream 4095 its first. -/
theorem witness_LoadRecordsRefusals :
    let p (first count : Half) := batch first count queueRecord
    let s (x : Session) := inSession x (readyWith .loadRecords (p 0 1))
    ((s (session 1 0 0)).executes (req 0x0202 (p 0 1)) .loadRecords
      ∧ ¬ 8 ≤ ([0, 7] : List Byte).length ∧ ¬ 1 ≤ (rd16 (p 0 0) 4).toNat ∧ ¬ (rd16 (p 0 33) 4).toNat ≤ 32
      ∧ (readyWith .loadRecords (p 0 1)).mgmt.session = none ∧ (session 1 0 0).idle ≠ none
      ∧ (session 1 0 0).number ≠ 8 ∧ (session 1 0 0).owner ≠ .backbone
      ∧ (s (session 1 0 0)).hasOpenSession .localPort 7 (session 1 0 0)
      ∧ (session 1 1 0).declared < 1 + 1 ∧ 0 + 1 ≤ (session 1 1 0).next
      ∧ (session 3 0 0).next < 1 + 1 ∧ (1 : Nat) ≠ (session 3 0 0).next)
      ∧ judgeBatch 0 (splitRecords 1 [4, 0, 0, 0, 0, 0, 0, 0, 0, 0, 0, 0, 0, 0, 0, 0]) = .error (0, 0)
      ∧ judgeRecord [2, 2, 1, 0] = .ok (.queue .dq2 256) ∧ judgeRecord [2, 2, 1, 1] = .error 2
      ∧ judgeRecord [2, 3, 0, 1] = .ok (.queue .dq3 1) ∧ judgeRecord [1, 0, 0x0F, 0xFF] = .error 2 :=
  ⟨by unfold State.executes State.hasOpenSession; decide +kernel, rfl, rfl, rfl, rfl, rfl⟩

/-- Committed before; no session; another number; another owner; a count short; a wrong check; a commit. -/
theorem witness_LoadCommitSwapsTheBanks :
    let s := readyWith .loadCommit [0, 7]
    s.executes (req 0x0203 [0, 7]) .loadCommit ∧ rd16 (reqParams (req 0x0203 [0, 7]).bytes) 0 = 7
      ∧ s.mgmt.session = none ∧ s.table.lastCommitted ≠ 7
      ∧ ({ s with table := { s.table with lastCommitted := 7 } } : State).table.lastCommitted = 7
      ∧ (session 1 1 0).number ≠ 8 ∧ (session 1 1 0).owner ≠ .backbone
      ∧ (inSession (session 1 0 0) s).hasOpenSession .localPort 7 (session 1 0 0)
      ∧ (session 1 0 0).next ≠ (session 1 0 0).declared
      ∧ (inSession (session 1 1 5) s).hasOpenSession .localPort 7 (session 1 1 5)
      ∧ (session 1 1 5).running ≠ (session 1 1 5).declaredCheck
      ∧ (inSession (session 1 1 0) s).hasOpenSession .localPort 7 (session 1 1 0)
      ∧ (session 1 1 0).next = (session 1 1 0).declared ∧ (session 1 1 0).running = (session 1 1 0).declaredCheck
      ∧ markedStreams s.table.touched = [] ∧ markedStreams mark5 = [5]
      ∧ ({ s with table := { s.table with touched := mark5 } } : State).table.touched = mark5 := by
  unfold State.executes State.hasOpenSession; decide +kernel

/-- R158: a commit that touched no stream ends its sweep at once: the session is NONE and the response of 16 bytes waits. -/
theorem test_commit_without_streams :
    (nextOf (exec .loadCommit (inSession (session 1 1 0) (readyWith .loadCommit [0, 7])))).map
        (fun t => (t.mgmt.session.isNone, t.table.active, t.delivery.mq.map List.length))
      = some (true, true, [16]) := by
  decide +kernel

/-- The same refusals for LOAD_ABORT; the idle deadline one microsecond ahead, and reached. -/
theorem witness_SessionEndsWithoutCommit :
    let s := readyWith .loadAbort [0, 7]
    s.executes (req 0x0204 [0, 7]) .loadAbort ∧ s.mgmt.session = none
      ∧ (inSession (session 1 0 0) s).hasOpenSession .localPort 7 (session 1 0 0)
      ∧ (session 1 0 0).number ≠ 8 ∧ (session 1 0 0).owner ≠ .backbone
      ∧ (inSession (session 1 0 0) State.reset).inReset = false ∧ (session 1 0 0).idle = some ⟨0, 2000000⟩
      ∧ ((1999999 : Time) - 0).toNat < ((2000000 : Time) - 0).toNat
      ∧ ((2000000 : Time) - 0).toNat ≤ ((2000000 : Time) - 0).toNat := by
  unfold State.executes State.hasOpenSession; decide +kernel

/-- Lengths 0, 1, 1024 and 1025; stream 4094 disabled; its maximum length 1; an awaiting probe. -/
theorem witness_ProbeStartsAndTimesOut :
    let p (n : Half) : List Byte := be16 n ++ [7, 0]
    (readyWith .probe (p 1024)).executes (req 0x0301 (p 1024)) .probe ∧ (readyWith .probe (p 1024)).oneContextEach
      ∧ (rd16 (reqParams (req 0x0301 (p 0)).bytes) 0).toNat = 0
      ∧ (rd16 (reqParams (req 0x0301 (p 1)).bytes) 0).toNat = 1
      ∧ (rd16 (reqParams (req 0x0301 (p 1024)).bytes) 0).toNat = 1024
      ∧ (rd16 (reqParams (req 0x0301 (p 1025)).bytes) 0).toNat = 1025
      ∧ (State.reset.entry 4094).rxEnable = true ∧ (State.reset.entry 4094).txEnable = true
      ∧ (State.reset.entry 4094).maxLen = 1024
      ∧ ((withEntry 4094 { Entry.dflt 4094 with txEnable := false }).entry 4094).txEnable = false
      ∧ ((withEntry 4094 { Entry.dflt 4094 with maxLen := 1 }).entry 4094).maxLen < 2
      ∧ probing.inReset = false
      ∧ probing.mgmt.executor = .probing (req 0x0301 [0, 1, 7, 0]) ⟨1, [7], 0, some (1, ⟨0, 20000⟩)⟩
      ∧ ((19999 : Time) - 0).toNat < ((20000 : Time) - 0).toNat := by
  unfold State.executes State.oneContextEach; decide +kernel

theorem witness_ClearsReturnWhatTheyClear :
    (readyWith .clearCounters [1, 0, 0x0F, 0xDF, 0, 32]).executes (req 0x0402 [1, 0, 0x0F, 0xDF, 0, 32]) .clearCounters
      ∧ rd8 (reqParams (req 0x0402 [1, 0, 0x0F, 0xDF, 0, 32]).bytes) 0 = 1
      ∧ (rd16 (reqParams (req 0x0402 [1, 0, 0x0F, 0xDF, 0, 32]).bytes) 2).toNat + 32 ≤ 4095
      ∧ rd8 (reqParams (req 0x0402 [2, 0, 0, 0, 0, 0]).bytes) 0 = 2
      ∧ rd8 (reqParams (req 0x0402 [3, 0, 0, 0, 0, 0]).bytes) 0 ≠ 1
      ∧ 4094 < (rd16 (reqParams (req 0x0402 [1, 0, 0x0F, 0xFF, 0, 1]).bytes) 2).toNat
      ∧ (rd16 (reqParams (req 0x0402 [1, 0, 0, 0, 0, 33]).bytes) 4).toNat = 33
      ∧ 4095 < (rd16 (reqParams (req 0x0402 [1, 0, 0x0F, 0xE0, 0, 32]).bytes) 2).toNat + 32
      ∧ (readyWith .clearLog []).executes (req 0x0404 []) .clearLog := by
  unfold State.executes; decide +kernel

theorem witness_OnlyACommitChangesTheActiveBank :
    exec .holdAssert State.reset
        = .next { State.reset with delivery := { State.reset.delivery with hold := true } }
      ∧ Instr.holdAssert ≠ .loadCommit ∧ Instr.holdAssert ≠ .hardReset ∧ Instr.holdAssert ≠ .powerOn :=
  ⟨rfl, nofun, nofun, nofun⟩

/-- Stream 5 SYNCED with one slice held in a block of the pool, and a command waiting. -/
def running : State :=
  { rec5 (synced5 [held5 107 0] (some ⟨0, 200⟩)) on5 with
    pool := ⟨4095, 1, 0⟩
    pending := [.holdAssert] }

theorem running_steps :
    step running = .next { running with pending := [], delivery := { running.delivery with hold := true } } := rfl

theorem running_other_records (k : Nat) (h : k ≠ 5) : running.mrec k = MergeRec.fresh := by
  simp [running, rec5, State.mrec, SMap.get, SMap.find?, Ne.symm h]

theorem running_record : running.mrec 5 = synced5 [held5 107 0] (some ⟨0, 200⟩) := by decide +kernel

theorem witness_EveryStepAccountsForBlocks : running.blocksAccounted := by
  refine ⟨rfl, by decide +kernel, by decide +kernel, ⟨by decide +kernel, fun k => ?_⟩, trivial⟩
  by_cases h : k = 5
  · subst h; rw [running_record]; nofun
  · rw [running_other_records k h]; exact fun _ => rfl

theorem witness_EveryStepAccountsForBuffers : running.buffersAccounted :=
  ⟨rfl, rfl, by decide, by decide, nofun, nofun⟩

/-- With the banks in range, as witness_EveryStepKeepsTablesInRange shows, and the response buffers accounted for; 1 and 8
bytes of 9 presented. -/
theorem witness_EveryStepKeepsCapacities :
    (running.withinCapacities ∧ running.oneContextEach) ∧ (presented 1).portOnCourse ∧ (presented 8).portOnCourse := by
  refine ⟨⟨⟨by decide +kernel, by decide +kernel, by decide, by decide, by decide, by decide, by decide, by decide,
    by decide, by decide, by decide, by decide, by decide, fun q => ?_, by decide, by decide, rfl, by decide,
    fun k => ?_⟩, by unfold State.oneContextEach; decide⟩, ?_, ?_⟩
  · cases q <;> decide
  · by_cases h : k = 5
    · subst h; rw [running_record]; decide
    · rw [running_other_records k h]; decide
  · intro t ht
    cases ht
    exact ⟨1, by decide, by decide, rfl⟩
  · intro t ht
    cases ht
    exact ⟨8, by decide, by decide, rfl⟩

theorem witness_EveryStepKeepsTheWindow : running.windowsKept := by
  refine ⟨nofun, fun k _ => ?_⟩
  by_cases h : k = 5
  · subst h; rw [running_record]
    show ((∀ h ∈ [held5 107 0], 1 ≤ distanceFrom 100 h) ∧ ([held5 107 0].map (distanceFrom 100)).Pairwise (· < ·))
      ∧ (_ → (∀ h ∈ [held5 107 0], 1 ≤ distanceFrom 100 h ∧ distanceFrom 100 h ≤ (running.entry 5).window - 1)
        ∧ ([held5 107 0].map (distanceFrom 100)).Pairwise (· < ·))
    exact ⟨by decide +kernel, fun _ => by decide +kernel⟩
  · rw [running_other_records k h]; exact ⟨rfl, fun _ => rfl⟩

theorem entry_defaults_inRange (k : Nat) : (Entry.dflt k).inRange k := by
  unfold Entry.inRange Entry.dflt
  by_cases h0 : k = 0 <;> by_cases h1 : k = 4094 <;> simp_all [Config.mgmtStream, Config.probeStream]

theorem witness_EveryStepKeepsTablesInRange : running.banksInRange := by
  have glob : GlobalRec.dflt.inRange := by unfold GlobalRec.inRange; decide
  refine ⟨⟨fun k _ => ?_, fun q => by cases q <;> decide +kernel, glob⟩,
    fun k _ => entry_defaults_inRange k, fun q => by cases q <;> decide +kernel, glob⟩
  by_cases h : k = 5
  · subst h; unfold Entry.inRange; decide +kernel
  · have : running.table.bank0.entry k = Entry.dflt k := by
      simp [running, rec5, on5, withEntry, Bank.entry, SMap.get, SMap.find?, Ne.symm h]
    rw [this]; exact entry_defaults_inRange k

end Sys2Proof.Tests
end

