-- ==== Sys2Proof/Proofs/WindowJumpAndStale.lean ====
section
/-! PROOF. The merge unit's answers to a slice outside the window: the window jump of R40, and the stale and late slices of
R41 to R43. -/

namespace Sys2Proof.Machine

/-! ## Taking an accepted slice -/

/-- Out of reset the merge unit takes the slice that waits first on the path (R35). -/
theorem exec_sliceTaken_of_nextSlice {s s1 : State} {p : Path} {sl : Slice} (hrun : s.inReset = false)
    (hnext : s.nextSlice p = some (sl, s1)) : exec (.sliceTaken p) s = .next (s1.takeSlice sl p) := by
  have harm : exec (.sliceTaken p) s = execSliceTaken p s := rfl
  rw [harm, execSliceTaken, live_running hrun, hnext]

/-- A slice that passes the screening of R35 without a flush is judged by its distance (R36). -/
theorem exec_sliceTaken_of_accepts {s s1 : State} {p : Path} {sl : Slice} (h : s.accepts p sl s1) :
    exec (.sliceTaken p) s = .next (s1.judgeSlice sl p) := by
  obtain ⟨hrun, hnext, hmark, henable, hpath⟩ := h
  have htake : s1.takeSlice sl p = s1.judgeSlice sl p := by
    simp [State.takeSlice, State.screenSlice, hmark, henable, hpath]
  rw [exec_sliceTaken_of_nextSlice hrun hnext, htake]

/-! ## The zones beyond the window (R36) -/

section Zones

variable {s : State} {sl : Slice} {p : Path} {e : SeqNo}

theorem judgeSlice_jump (hsync : (s.mrec sl.stream).sync = some e) (h0 : 1 ≤ (sl.seq - e).toNat)
    (hw : (s.entry sl.stream).window ≤ (sl.seq - e).toNat) (hd : (sl.seq - e).toNat ≤ 2046) :
    s.judgeSlice sl p = s.windowJump e sl p := by
  simp only [State.judgeSlice, hsync]
  rw [if_neg (by omega), if_neg (by omega), if_pos hd]

theorem judgeSlice_stale (hsync : (s.mrec sl.stream).sync = some e)
    (hw : (s.entry sl.stream).window ≤ (sl.seq - e).toNat) (h0 : 2047 ≤ (sl.seq - e).toNat)
    (hd : (sl.seq - e).toNat ≤ 4031) : s.judgeSlice sl p = s.staleSlice sl p := by
  simp only [State.judgeSlice, hsync]
  rw [if_neg (by omega), if_neg (by omega), if_neg (by omega), if_pos hd]

theorem judgeSlice_late (hsync : (s.mrec sl.stream).sync = some e)
    (hw : (s.entry sl.stream).window ≤ (sl.seq - e).toNat) (hd : 4032 ≤ (sl.seq - e).toNat) :
    s.judgeSlice sl p = s.discardSlice sl.stream .duplicate := by
  simp only [State.judgeSlice, hsync]
  rw [if_neg (by omega), if_neg (by omega), if_neg (by omega), if_neg (by omega)]

end Zones

/-! ## The window jump (R40) -/

theorem windowJump_granted {s : State} (h : s.mayClaimRx) (e : SeqNo) (sl : Slice) (p : Path) :
    s.windowJump e sl p
      = (s.withRxBlock.passJump e
          ((s.mrec sl.stream).held ++ [{ slice := sl, arrival := s.time, path := p }])).setMrec sl.stream
        { sync := some (sl.seq + 1), held := [], timer := none, staleRun := 0 } := by
  simp only [State.windowJump, claimRx_some h]

theorem windowJump_refused {s : State} (h : ¬ s.mayClaimRx) (e : SeqNo) (sl : Slice) (p : Path) :
    s.windowJump e sl p = s.discardSlice sl.stream .noBuffer := by
  simp only [State.windowJump, claimRx_none h]

/-- A jump sends one item for each slice, behind those sent before, with the gap flag exactly when its sequence is not the
one after the slice before it. -/
theorem passJump_getElem? (s : State) (e : SeqNo) (hs : List Held) (i : Nat) (hi : i < hs.length) :
    (s.passJump e hs).engine.items.length = s.engine.items.length + hs.length
      ∧ (s.passJump e hs).engine.items[s.engine.items.length + i]?
        = some (.slice hs[i].slice hs[i].path
            (hs[i].slice.seq != (if h0 : i = 0 then e else hs[i - 1].slice.seq + 1))) := by
  obtain ⟨sent, hitems, hlength, hsent⟩ := passJump_items e hs s
  refine ⟨by rw [hitems, List.length_append, hlength], ?_⟩
  rw [hitems, List.getElem?_append_right (Nat.le_add_right _ _), Nat.add_sub_cancel_left, hsent i hi]

/-- Settles O18: the slice's zone is the window jump's, whose two answers are those of the receive claim; what it passes is
sent in order by `passJump_items`. -/
theorem windowJumpPassesEverything : Obligations.WindowJumpPassesEverything := by
  refine ⟨fun p s s1 sl e hacc hsync h0 hw hd => ?_, passJump_getElem?⟩
  rw [exec_sliceTaken_of_accepts hacc, judgeSlice_jump hsync h0 hw hd]
  exact ⟨fun hc => by rw [windowJump_granted hc], fun hc => by rw [windowJump_refused hc]⟩

/-! ## Stale slices and the resynchronisation (R41, R42) -/

/-- The state in which a resynchronisation claims a block for its trigger: the held blocks returned, the record UNSYNCED,
the engine told to abandon as RESYNC, and the event counted (R42). -/
def State.resyncCleared (s : State) (k : Nat) : State :=
  (((s.returnRx (s.mrec k).held.length).setMrec k MergeRec.fresh).send (.abandon k .resync)).report
    (fun st => { st with glob := { st.glob with resyncEvents := satInc st.glob.resyncEvents } })

/-- A resynchronisation claims the trigger's block once all is cleared. -/
theorem resynchronise_eq (s : State) (sl : Slice) (p : Path) :
    s.resynchronise sl p
      = match (s.resyncCleared sl.stream).claimRx with
        | none => (s.resyncCleared sl.stream).discardSlice sl.stream .noBuffer
        | some t => (t.passSlice sl p true).setMrec sl.stream
            { sync := some (sl.seq + 1), held := [], timer := none, staleRun := 0 } := rfl

theorem resynchronise_granted {s : State} {sl : Slice} (h : (s.resyncCleared sl.stream).mayClaimRx) (p : Path) :
    s.resynchronise sl p
      = ((s.resyncCleared sl.stream).withRxBlock.passSlice sl p true).setMrec sl.stream
        { sync := some (sl.seq + 1), held := [], timer := none, staleRun := 0 } := by
  rw [resynchronise_eq, claimRx_some h]

theorem resynchronise_refused {s : State} {sl : Slice} (h : ¬ (s.resyncCleared sl.stream).mayClaimRx) (p : Path) :
    s.resynchronise sl p = (s.resyncCleared sl.stream).discardSlice sl.stream .noBuffer := by
  rw [resynchronise_eq, claimRx_none h]

theorem staleSlice_below {s : State} {sl : Slice} (h : (s.mrec sl.stream).staleRun + 1 < s.glob.staleThreshold)
    (p : Path) :
    s.staleSlice sl p
      = (s.setMrec sl.stream
          { s.mrec sl.stream with staleRun := (s.mrec sl.stream).staleRun + 1 }).discardSlice sl.stream .stale :=
  if_pos h

theorem staleSlice_atThreshold {s : State} {sl : Slice}
    (h : s.glob.staleThreshold ≤ (s.mrec sl.stream).staleRun + 1) (p : Path) :
    s.staleSlice sl p = s.resynchronise sl p :=
  if_neg (Nat.not_lt.2 h)

/-- Settles O19: a window of at most 32 puts both zones beyond it; a late slice is discarded, and a stale one is discarded
or triggers a resynchronisation by its run against the threshold. -/
theorem staleAndLateSlices : Obligations.StaleAndLateSlices := by
  intro p s s1 sl e hacc hsync hwindow
  dsimp only
  rw [exec_sliceTaken_of_accepts hacc]
  refine ⟨fun hlate => ?late, fun h0 hd => ?stale⟩
  case late => rw [judgeSlice_late hsync (by omega) hlate]
  case stale =>
    rw [judgeSlice_stale hsync (by omega) h0 hd]
    refine ⟨fun hrun => ?_, fun hrun hc => ?_, fun hrun hc => ?_⟩
    · rw [staleSlice_below hrun]
    · rw [staleSlice_atThreshold hrun, resynchronise_granted hc]; rfl
    · rw [staleSlice_atThreshold hrun, resynchronise_refused hc]; rfl

end Sys2Proof.Machine
end

