-- ==== Sys2Proof/Proofs/ContinuedMessages.lean ====
section
/-! PROOF. The reassembly engine's answers to a slice that continues a message: MIDDLE (R63) and LAST (R64). -/

namespace Sys2Proof.Machine

/-! ## Taking a passed slice (R60, R61) -/

/-- Out of reset the engine takes the slice that is its stream's next item (R60). -/
theorem exec_reassemblySliceTaken_of_nextItem {s : State} {k : Nat} {sl : Slice} {p : Path} {gap : Bool}
    (hrun : s.inReset = false) (hnext : s.nextItem k = some (.slice sl p gap)) :
    exec (.reassemblySliceTaken k) s = .next ((s.dropItem k).engineSlice sl p gap) := by
  have harm : exec (.reassemblySliceTaken k) s = execReassemblySliceTaken k s := rfl
  rw [harm, execReassemblySliceTaken, live_running hrun, hnext]

theorem applyGap_of_noMessage {s : State} {sl : Slice} (h : s.ctxOf sl.stream = none) (gap : Bool) :
    s.applyGap sl gap = s := by
  cases gap with
  | false => rfl
  | true => simp [State.applyGap, h]

/-- The slice is dealt with by its position alone where the gap flag abandons nothing: it is not set, or no message is
open. -/
theorem engineSlice_middle {s : State} {sl : Slice} {gap : Bool} (hpos : sl.pos = .middle)
    (hgap : s.applyGap sl gap = s) (p : Path) : s.engineSlice sl p gap = s.takeMiddle sl p := by
  simp [State.engineSlice, hpos, hgap]

theorem engineSlice_last {s : State} {sl : Slice} {gap : Bool} (hpos : sl.pos = .last)
    (hgap : s.applyGap sl gap = s) (p : Path) : s.engineSlice sl p gap = s.takeLast sl p := by
  simp [State.engineSlice, hpos, hgap]

/-- An orphan's block is returned and the global ORPHAN counter counts it, no stream's counter does (R72). -/
theorem orphanSlice_eq (s : State) (k : Nat) :
    s.orphanSlice k
      = { s.returnRx 1 with
          stats := { s.stats with glob := { s.stats.glob with orphan := satInc s.stats.glob.orphan } } } := rfl

/-! ## A slice of a stream with no open message -/

section NoMessage

variable {s : State} {sl : Slice}

theorem takeMiddle_orphan (h : s.ctxOf sl.stream = none) (p : Path) :
    s.takeMiddle sl p = (s.orphanSlice sl.stream).toDiscarding sl.stream := by
  simp only [State.takeMiddle, h]

theorem takeLast_orphan (h : s.ctxOf sl.stream = none) (p : Path) :
    s.takeLast sl p = (s.orphanSlice sl.stream).notDiscarding sl.stream := by
  simp only [State.takeLast, h]

end NoMessage

/-! ## A slice of the open message -/

section OpenMessage

variable {s : State} {sl : Slice} {c : Ctx}

/-- The open message is abandoned together with the slice: its context freed, its blocks and the slice's returned. -/
theorem abandonWith_of_ctxOf {t : State} {k : Nat} (h : s.ctxOf k = some c) (reason : AbandonReason) (seq : SeqNo)
    (gathered : Nat) :
    t.abandonWith c reason seq gathered
      = (t.freeCtx k).abandonMessage k reason seq gathered (c.blocks.length + 1) := by
  rw [State.abandonWith, ctxOf_stream h]

theorem takeMiddle_mismatch (h : s.ctxOf sl.stream = some c) (hlen : c.declared ≤ c.gathered + Config.maxFill)
    (p : Path) :
    s.takeMiddle sl p
      = (s.toDiscarding sl.stream).abandonWith c .lengthMismatch sl.seq (c.gathered + Config.maxFill) := by
  simp only [State.takeMiddle, h, if_pos hlen]

theorem takeMiddle_append (h : s.ctxOf sl.stream = some c) (hlen : c.gathered + Config.maxFill < c.declared)
    (p : Path) : s.takeMiddle sl p = (s.freeCtx sl.stream).bindCtx (c.append sl p) := by
  simp only [State.takeMiddle, h, if_neg (Nat.not_le.2 hlen)]

theorem takeLast_mismatch (h : s.ctxOf sl.stream = some c) (hlen : c.gathered + sl.payload.length ≠ c.declared)
    (p : Path) :
    s.takeLast sl p
      = (s.notDiscarding sl.stream).abandonWith c .lengthMismatch sl.seq (c.gathered + sl.payload.length) := by
  simp only [State.takeLast, h, if_pos hlen]

theorem takeLast_checkFailed (h : s.ctxOf sl.stream = some c) (hlen : c.gathered + sl.payload.length = c.declared)
    (hcheck : (s.entry sl.stream).checkEnable = true ∧ crc16From c.check sl.payload ≠ sl.aux) (p : Path) :
    s.takeLast sl p = (s.notDiscarding sl.stream).abandonWith c .checkFailed sl.seq c.declared := by
  simp only [State.takeLast, h, if_neg (not_not.2 hlen), if_pos hcheck]

theorem takeLast_completes (h : s.ctxOf sl.stream = some c) (hlen : c.gathered + sl.payload.length = c.declared)
    (hcheck : ¬ ((s.entry sl.stream).checkEnable = true ∧ crc16From c.check sl.payload ≠ sl.aux)) (p : Path) :
    s.takeLast sl p
      = ((s.notDiscarding sl.stream).freeCtx sl.stream).routeMessage
        { stream := sl.stream
          length := c.declared
          lanes := c.lanes.union (LaneSet.single p)
          blocks := c.blocks ++ [sl.payload] }
        sl.seq := by
  simp only [State.takeLast, h, if_neg (not_not.2 hlen), if_neg hcheck]

end OpenMessage

/-! ## The obligations -/

/-- Settles O26: with no open message the slice is an orphan; with one, the gathered bytes against the declared length
tell the abandon from the append. -/
theorem middleSliceContinuesAMessage : Obligations.MiddleSliceContinuesAMessage := by
  intro k s sl p hrun hpos
  refine ⟨fun gap hnext hctx => ?orphan, fun c hnext hctx => ?message⟩
  case orphan =>
    obtain rfl : sl.stream = k := nextItem_stream hnext
    have hctx' : (s.dropItem sl.stream).ctxOf sl.stream = none := hctx
    rw [exec_reassemblySliceTaken_of_nextItem hrun hnext, engineSlice_middle hpos (applyGap_of_noMessage hctx' gap),
      takeMiddle_orphan hctx', orphanSlice_eq]
    rfl
  case message =>
    obtain rfl : sl.stream = k := nextItem_stream hnext
    have hctx' : (s.dropItem sl.stream).ctxOf sl.stream = some c := hctx
    rw [exec_reassemblySliceTaken_of_nextItem hrun hnext, engineSlice_middle hpos rfl]
    refine ⟨fun hlen => ?_, fun hlen => ?_⟩
    · rw [takeMiddle_mismatch hctx' hlen, abandonWith_of_ctxOf hctx']
      rfl
    · rw [takeMiddle_append hctx' hlen]
      rfl

/-- Settles O27: with no open message the slice is an orphan; with one, the total length and then the message check tell
the two abandons from completion. -/
theorem lastSliceEndsAMessage : Obligations.LastSliceEndsAMessage := by
  intro k s sl p hrun hpos
  refine ⟨fun gap hnext hctx => ?orphan, fun c hnext hctx => ?message⟩
  case orphan =>
    obtain rfl : sl.stream = k := nextItem_stream hnext
    have hctx' : (s.dropItem sl.stream).ctxOf sl.stream = none := hctx
    rw [exec_reassemblySliceTaken_of_nextItem hrun hnext, engineSlice_last hpos (applyGap_of_noMessage hctx' gap),
      takeLast_orphan hctx', orphanSlice_eq]
    rfl
  case message =>
    obtain rfl : sl.stream = k := nextItem_stream hnext
    have hctx' : (s.dropItem sl.stream).ctxOf sl.stream = some c := hctx
    rw [exec_reassemblySliceTaken_of_nextItem hrun hnext, engineSlice_last hpos rfl]
    refine ⟨fun hlen => ?_, fun hlen hcheck => ?_, fun hlen hcheck => ?_⟩
    · rw [takeLast_mismatch hctx' hlen, abandonWith_of_ctxOf hctx']
    · rw [takeLast_checkFailed hctx' hlen hcheck, abandonWith_of_ctxOf hctx']
    · rw [takeLast_completes hctx' hlen hcheck]

end Sys2Proof.Machine
end

