-- ==== Sys2Proof/Proofs/Effects.lean ====
section
/-! PROOF. What a command can do: every command answers one of the effects listed here, so that an invariant of every step
is one case for each effect. -/

namespace Sys2Proof.Machine

/-! ## Lanes and requests, as effects speak of them -/

/-- The lanes and the statistics alone change, and the lanes keep to their FIFO, confirm count and failure run (R4, R12). -/
structure LanesOnly (s t : State) : Prop where
  rest : t = { s with laneA := t.laneA, laneB := t.laneB, stats := t.stats }
  kept : CapacitiesKept s t

theorem LanesOnly.trans {s t u : State} (h : LanesOnly s t) (h' : LanesOnly t u) : LanesOnly s u :=
  ⟨by rw [h'.rest, h.rest], h.kept.trans h'.kept⟩

theorem LanesOnly.refl (s : State) : LanesOnly s s := ⟨rfl, .refl s⟩

section Fields

variable {s t : State}

theorem LanesOnly.steady (h : LanesOnly s t) : Steady s t := by
  rw [h.rest]; exact ⟨rfl, rfl, rfl, rfl⟩

theorem LanesOnly.untouched (h : LanesOnly s t) : Untouched s t := by
  rw [h.rest]; exact ⟨rfl, rfl, rfl⟩

theorem LanesOnly.merge (h : LanesOnly s t) : t.merge = s.merge := by rw [h.rest]

theorem LanesOnly.engine (h : LanesOnly s t) : t.engine = s.engine := by rw [h.rest]

theorem LanesOnly.pool (h : LanesOnly s t) : t.pool = s.pool := by rw [h.rest]

theorem LanesOnly.sub (h : LanesOnly s t) : t.sub = s.sub := by rw [h.rest]

end Fields

theorem lanesOnly_setLane (s : State) (l : LaneId) {x : Lane} (hx : capLane (s.lane l) → capLane x) :
    LanesOnly s (s.setLane l x) :=
  ⟨by cases l <;> rfl, kept_setLane s l x hx⟩

theorem lanesOnly_onLane (s : State) (l : LaneId) (f : LaneCounters → LaneCounters) :
    LanesOnly s (s.report (fun st => st.onLane l f)) :=
  ⟨rfl, kept_stat s l f⟩

theorem lanesOnly_upFailure (s : State) (l : LaneId) : LanesOnly s (s.upFailure l) := by
  refine ⟨?_, kept_upFailure s l⟩
  unfold State.upFailure
  cases l <;> dsimp only <;> split <;> rfl

theorem lanesOnly_upScreen (s : State) (l : LaneId) (b : List Byte) : LanesOnly s (s.upScreen l b) := by
  refine ⟨?_, kept_upScreen s l b⟩
  unfold State.upScreen
  cases l <;> dsimp only <;> split <;> try split
  all_goals rfl

theorem lanesOnly_countSent (s : State) (l : LaneId) : LanesOnly s (s.countSent l) := by
  unfold State.countSent
  split
  · exact lanesOnly_onLane s l _
  · exact .refl s
  · exact .refl s

theorem capLane_huntTest {l : Lane} (h : capLane l) : capLane l.huntTest := by
  obtain ⟨hfifo, hconfirm, hfail⟩ := h
  rw [Lane.huntTest_eq]
  split
  · exact ⟨hfifo, hconfirm, hfail⟩
  · split
    · exact ⟨hfifo, by simp, hfail⟩
    · exact ⟨hfifo, hconfirm, hfail⟩

theorem capLane_confirmTest {l : Lane} (h : capLane l) : capLane l.confirmTest := by
  obtain ⟨hfifo, hconfirm, hfail⟩ := h
  rw [Lane.confirmTest_eq]
  split
  · exact ⟨hfifo, hconfirm, hfail⟩
  · split
    · split
      · next h5 => exact ⟨hfifo, Nat.le_succ_of_le h5, hfail⟩
      · exact ⟨hfifo, le_refl 6, by simp⟩
    · exact ⟨hfifo, Nat.zero_le 6, hfail⟩

theorem capLane_onSignalLoss {l : Lane} (h : capLane l) : capLane l.onSignalLoss := by
  unfold Lane.onSignalLoss
  split
  all_goals first | exact h | exact ⟨h.1, Nat.zero_le 6, Nat.zero_lt_succ 3⟩

theorem capLane_onSignalRegain {l : Lane} (h : capLane l) : capLane l.onSignalRegain := by
  unfold Lane.onSignalRegain
  split
  all_goals first | exact h | exact ⟨h.1, Nat.zero_le 6, Nat.zero_lt_succ 3⟩

/-- The executor executes a request of the source of `r`, and no probe of it is SENDING. -/
def Executor.serves (x : Executor) (r : Request) : Prop :=
  (∀ src, executingFor src x = r.from src) ∧ probeSending x = 0

theorem serves_of_executes {s : State} {r : Request} {kind : ReqKind} (h : s.executes r kind) :
    s.mgmt.executor.serves r := by
  rw [h.2]; exact ⟨fun _ => rfl, rfl⟩

theorem serves_reading (r : Request) (x : Reading) : (Executor.reading r x).serves r := ⟨fun _ => rfl, rfl⟩

theorem serves_preparing (r : Request) (mode : OpenMode) (n : Nat) (c : Word32) :
    (Executor.preparing r mode n c).serves r := ⟨fun _ => rfl, rfl⟩

theorem serves_sweeping (r : Request) (left : List Nat) (n : Nat) : (Executor.sweeping r left n).serves r :=
  ⟨fun _ => rfl, rfl⟩

theorem serves_restarting (r : Request) (todo : List Part) : (Executor.restarting r todo).serves r :=
  ⟨fun _ => rfl, rfl⟩

/-- The message being sliced after its next piece has been cut (R110). -/
def Job.afterCut (j : Job) (piece : Block) (rest : List Block) : Job :=
  { j with pieces := rest, cut := j.cut + 1, check := crc16From j.check piece }

/-- The state with the executor holding what `x` says. -/
def State.withExecutor (s : State) (x : Executor) : State := { s with mgmt := { s.mgmt with executor := x } }

/-! ## The effects -/

/-- The effects of a command on a state. An effect that several commands share leaves the command open; what tells them
apart is kept where an invariant turns on it. -/
inductive Effect (s : State) : Instr → State → Prop
  | nothing {c} : Effect s c s
  | stopped : Effect s .resetAssert s.stopped
  | hardReset : Effect s .hardReset s.atRelease
  | powerOn : Effect s .powerOn s.atRelease
  | lanes {c t} (h : LanesOnly s t) : Effect s c t
  | reoffered {c t j sl el} (h : LanesOnly s t) (hj : s.slicer.state = .stalled j sl el) :
      Effect s c (t.offerSlice j sl el)
  | sliceTaken {c p sl s1} (h : s.nextSlice p = some (sl, s1)) : Effect s c (s1.takeSlice sl p)
  | expired {c k} (h : markOf s.merge.pendingFlush k = false) : Effect s c (s.expireDue k)
  | flushed {c k reason} : Effect s c (s.flush k reason)
  | held {c r x n} (h : s.mgmt.executor.serves r) (hx : x.serves r) :
      Effect s c { s with mgmt := { s.mgmt with executor := x, choices := n } }
  | visited {c r x k reason} (h : s.mgmt.executor.serves r) (hx : x.serves r) :
      Effect s c ((s.withExecutor x).flush k reason)
  | sweepEnded {c r n} (h : s.mgmt.executor.serves r) : Effect s c (s.endSweep r n)
  | engineTook {c k sl p gap} (h : s.nextItem k = some (.slice sl p gap)) :
      Effect s c ((s.dropItem k).engineSlice sl p gap)
  | engineAbandoned {c k reason} (h : s.nextItem k = some (.abandon k reason)) :
      Effect s c ((s.dropItem k).engineAbandon k reason)
  | stalled {c k x} (h : s.ctxOf k = some x) :
      Effect s c
        (((s.freeCtx k).toDiscarding k).abandonMessage k .stall x.lastSeq x.gathered x.blocks.length)
  | holdLevel {c b} : Effect s c { s with delivery := { s.delivery with hold := b } }
  | transferStarted {c b} :
      Effect s c (State.startTransfer { s with delivery := { s.delivery with hold := b } })
  | dataEnded {c q d} (h : s.delivery.transfer = some (.data q d)) (out : List OutByte) :
      Effect s c
        (State.returnRx { s with delivery := { s.delivery with transfer := none, out := out, valid := true } }
          d.blocks.length)
  | responseEnded {c r} (h : s.delivery.transfer = some (.mgmt r)) (out : List OutByte) :
      Effect s c
        (State.freeBuffer { s with delivery := { s.delivery with transfer := none, out := out, valid := true } }
          .localPort)
  | byteTaken {c b startMark endMark} : Effect s c (s.takeByte b startMark endMark)
  | retried {c k n} (h : s.sub = .waitingData k n) : Effect s c (s.tryLoadData k n)
  | outputTaken {c o rest} (hs : s.slicer.state = .idle) (ho : s.slicer.outputs = o :: rest) :
      Effect s c { s with slicer := { s.slicer with outputs := rest, state := .slicing (jobOfOutput o) } }
  | frameTaken {c f rest} (hs : s.slicer.state = .idle) (hf : s.slicer.fifo = f :: rest) :
      Effect s c { s with slicer := { s.slicer with fifo := rest, state := .slicing (jobOfFrame f) } }
  | cutToLoop {c j piece rest} (hs : s.slicer.state = .slicing j) (hp : j.pieces = piece :: rest)
      (seqs : SMap SeqNo) (loop : List Slice) :
      Effect s c
        (State.sliceDone { s with slicer := { s.slicer with seqs := seqs, loop := loop } } (j.afterCut piece rest))
  | cutToLanes {c j piece rest} (hs : s.slicer.state = .slicing j) (hp : j.pieces = piece :: rest)
      (sl : Slice) (el : LaneSet) :
      Effect s c ((s.advanceSeq j.stream).offerSlice (j.afterCut piece rest) sl el)
  | backboneTaken {c r rest} (hx : s.mgmt.executor = .idle) (hr : s.mgmt.bbShare = r :: rest)
      (hb : s.mgmt.bbBufs < Config.respBufs) :
      Effect s c
        (State.startRequest { s with mgmt := { s.mgmt with bbShare := rest, bbBufs := s.mgmt.bbBufs + 1 } } r)
  | localTaken {c r rest} (hx : s.mgmt.executor = .idle) (hr : s.mgmt.lpShare = r :: rest)
      (hb : s.mgmt.lpBufs < Config.respBufs) :
      Effect s c
        (State.startRequest
          (State.wakeMgmtHeader { s with mgmt := { s.mgmt with lpShare := rest, lpBufs := s.mgmt.lpBufs + 1 } }) r)
  | answered {c r status data} (h : s.mgmt.executor.serves r) : Effect s c (s.respond r status data)
  | flushAnswered {c r k reason status data} (h : s.mgmt.executor.serves r) :
      Effect s c ((s.flush k reason).respond r status data)
  | cleared {c r f status data} (h : s.mgmt.executor.serves r)
      (hf : (f s.stats).log.length ≤ s.stats.log.length) :
      Effect s c ((s.report f).respond r status data)
  | laneRestarted {c t p} (h : LanesOnly s t) : Effect s c (t.partDone p)
  | mergeRestarted {c p} :
      Effect s c
        (State.partDone { s.returnRx s.heldInUse with merge := { recs := [], pendingFlush := 0 } } p)
  | engineRestarted {c p} :
      Effect s c
        (State.partDone
          { s.returnRx (ctxBlocks s.engine.ctxs + itemBlocks s.engine.items) with
            engine := { discarding := 0, ctxs := [], items := [] } } p)
  | deliveryRestarted {c p} :
      Effect s c
        (State.partDone
          (State.cutTransfer
            { s.returnRx (queueBlocks s.delivery.dqs) with
              delivery := { s.delivery with dqs := ⟨[], [], [], []⟩ } }) p)
  | submissionDropped {c p n} (hn : reservedBlocks s.sub = n) (left : Nat) :
      Effect s c (State.partDone ((s.returnTx n).setSub (.absorbing left)) p)
  | slicerRestarted {c p} (h : s.awaitsRestart .slicer) :
      Effect s c
        (State.partDone
          { (if slicingResponse s.slicer.state then
              (s.returnTx (frameBlocks s.slicer.fifo + slicerBlocks s.slicer.state)).freeBuffer .backbone
            else s.returnTx (frameBlocks s.slicer.fifo + slicerBlocks s.slicer.state)) with
            slicer := { s.slicer with fifo := [], state := .idle, seqs := [] } } p)
  | prepared {r mode n check} (h : s.mgmt.executor = .preparing r mode n check) (x : Session) :
      Effect s .loadOpenPrepared
        (State.respond
          { s with
            table := s.prepared mode
            mgmt := { s.mgmt with session := some x, sessionCounter := nextNumber s.mgmt.sessionCounter } }
          r .ok (be16 (nextNumber s.mgmt.sessionCounter)))
  | sessionSet {c r x status data} (h : s.mgmt.executor.serves r)
      (hx : ∀ y, x = some y → ∃ z, s.mgmt.session = some z ∧ z.isOpen = true) :
      Effect s c ((s.setSession x).respond r status data)
  | recordsWritten {r x y data i raw recs} (h : s.mgmt.executor.serves r) (hx : s.mgmt.session = some x)
      (ho : x.isOpen = true) (hj : judgeBatch i raw = .ok recs) :
      Effect s .loadRecords
        ((State.setSession { s with table := s.table.writeRecs recs } (some y)).respond r .ok data)
  | committed {r x} (h : s.mgmt.executor.serves r) (hx : s.mgmt.session = some x) (ho : x.isOpen = true) :
      Effect s .loadCommit ((s.commitSwap x).startSweep r (markedStreams s.table.touched))
  | idleTimedOut {c} : Effect s c ((s.setSession none).report (fun st => st.event .idleTimeouts))
  | probeStarted {c r n seed} (h : s.executes r .probe) : Effect s c (s.startProbe r n seed)
  | probeEnded {c} (result reason : Byte) : Effect s c (s.endProbe result reason 0 0 LaneSet.empty)

/-! ## Every command answers one of them -/

section Lanes

variable {s t : State} {l : LaneId}

theorem effect_signalLoss (h : execSignalLoss l s = .next t) : Effect s (.signalLoss l) t := by
  unfold execSignalLoss at h
  cases h
  have hset : LanesOnly s (s.setLane l (if s.inReset then { s.lane l with signal := false }
      else ({ s.lane l with signal := false } : Lane).onSignalLoss)) := by
    refine lanesOnly_setLane s l fun hc => ?_
    split
    · exact hc
    · exact capLane_onSignalLoss hc
  split
  · exact .lanes (hset.trans (lanesOnly_onLane _ l _))
  · exact .lanes hset

theorem effect_signalRegain (h : execSignalRegain l s = .next t) : Effect s (.signalRegain l) t := by
  unfold execSignalRegain at h
  cases h
  refine .lanes (lanesOnly_setLane s l fun hc => ?_)
  split
  · exact hc
  · exact capLane_onSignalRegain hc

theorem effect_huntCandidate {bytes : List Byte} (h : execHuntCandidate l bytes s = .next t) :
    Effect s (.huntCandidate l bytes) t := by
  rcases live_cases h with rfl | ⟨-, rfl⟩
  · exact .nothing
  · split
    · exact .lanes (lanesOnly_setLane s l fun hc => capLane_huntTest hc)
    · exact .nothing

theorem effect_confirmBlock {bytes : List Byte} (h : execConfirmBlock l bytes s = .next t) :
    Effect s (.confirmBlock l bytes) t := by
  rcases live_cases h with rfl | ⟨-, rfl⟩
  · exact .nothing
  · split
    · exact .lanes (lanesOnly_setLane s l fun hc => capLane_confirmTest hc)
    · exact .nothing

theorem effect_upBlock {bytes : List Byte} (h : execUpBlock l bytes s = .next t) : Effect s (.upBlock l bytes) t := by
  rcases live_cases h with rfl | ⟨-, rfl⟩
  · exact .nothing
  · split
    · have hset : LanesOnly s (s.setLane l (((s.lane l).receive bytes).advance Config.blockBytes)) :=
        lanesOnly_setLane s l fun hc => hc
      dsimp only
      split
      · exact .lanes (lanesOnly_setLane s l fun hc => hc)
      · split
        · exact .lanes (hset.trans (lanesOnly_upScreen _ l _))
        · exact .lanes (hset.trans (lanesOnly_upFailure _ l))
    · exact .nothing

theorem effect_lineBlockEnd (h : execLineBlockEnd l s = .next t) : Effect s (.lineBlockEnd l) t := by
  rcases live_cases h with rfl | ⟨-, rfl⟩
  · exact .nothing
  · have hlane : (s.countSent l).lane l = s.lane l := by
      unfold State.countSent; cases l <;> split <;> rfl
    dsimp only
    split
    · exact .lanes ((lanesOnly_countSent s l).trans (lanesOnly_setLane _ l fun hc => hlane ▸ hc))
    · next sl rest hfifo =>
      have hsent : LanesOnly s ((s.countSent l).setLane l
          { s.lane l with fifo := rest, line := .sending (blockOfSlice sl) true }) := by
        refine (lanesOnly_countSent s l).trans (lanesOnly_setLane _ l fun hc => ?_)
        rw [hlane] at hc
        obtain ⟨hlen, hcounts⟩ := hc
        rw [hfifo, List.length_cons] at hlen
        exact ⟨Nat.le_of_succ_le hlen, hcounts⟩
      unfold State.reoffer
      split
      · next j sl' el hst =>
        split
        · exact .reoffered hsent (hsent.untouched.slicer ▸ hst)
        · exact .lanes hsent
      · exact .lanes hsent
      · exact .lanes hsent

theorem effect_laneTxRestart (h : execLaneTxRestart l s = .next t) : Effect s (.laneTxRestart l) t := by
  rcases restartPart_cases h with rfl | ⟨-, rfl⟩
  · exact .nothing
  · exact .laneRestarted (lanesOnly_setLane s l fun hc => ⟨Nat.zero_le 64, hc.2⟩)

end Lanes

section Merge

variable {s t : State} {k : Nat} {p : Path}

theorem effect_sliceTaken (h : execSliceTaken p s = .next t) : Effect s (.sliceTaken p) t := by
  rcases live_cases h with rfl | ⟨-, rfl⟩
  · exact .nothing
  · split
    · exact .nothing
    · next hnext => exact .sliceTaken hnext

theorem effect_holdExpiry (h : execHoldExpiry k s = .next t) : Effect s (.holdExpiry k) t := by
  rcases live_cases h with rfl | ⟨-, rfl⟩
  · exact .nothing
  · split
    · split
      · exact .flushed
      · next hmark => exact .expired (by simpa using hmark)
    · exact .nothing

theorem effect_sweepVisit (h : execSweepVisit s = .next t) : Effect s .sweepVisit t := by
  rcases live_cases h with rfl | ⟨-, rfl⟩
  · exact .nothing
  · split
    · next r k left total hx =>
      have hserves : s.mgmt.executor.serves r := by rw [hx]; exact serves_sweeping ..
      dsimp only
      split
      · exact .visited hserves (serves_sweeping r left total)
      · exact .held hserves (serves_sweeping r left total)
    all_goals exact .nothing

theorem effect_commitSweepEnd (h : execCommitSweepEnd s = .next t) : Effect s .commitSweepEnd t := by
  rcases live_cases h with rfl | ⟨-, rfl⟩
  · exact .nothing
  · split
    · next r total hx => exact .sweepEnded (by rw [hx]; exact serves_sweeping ..)
    all_goals exact .nothing

theorem effect_mergeRestart (h : execMergeRestart s = .next t) : Effect s .mergeRestart t := by
  rcases restartPart_cases h with rfl | ⟨-, rfl⟩
  · exact .nothing
  · exact .mergeRestarted

end Merge

section Engine

variable {s t : State} {k : Nat}

theorem effect_reassemblySliceTaken (h : execReassemblySliceTaken k s = .next t) :
    Effect s (.reassemblySliceTaken k) t := by
  rcases live_cases h with rfl | ⟨-, rfl⟩
  · exact .nothing
  · split
    · next hnext => exact .engineTook hnext
    all_goals exact .nothing

theorem effect_abandonRequestTaken (h : execAbandonRequestTaken k s = .next t) :
    Effect s (.abandonRequestTaken k) t := by
  rcases live_cases h with rfl | ⟨-, rfl⟩
  · exact .nothing
  · split
    · next k' reason hnext =>
      obtain rfl : k' = k := nextItem_stream hnext
      exact .engineAbandoned hnext
    all_goals exact .nothing

theorem effect_assemblyDeadline (h : execAssemblyDeadline k s = .next t) : Effect s (.assemblyDeadline k) t := by
  rcases live_cases h with rfl | ⟨-, rfl⟩
  · exact .nothing
  · split
    · next hctx =>
      split
      · exact .stalled hctx
      · exact .nothing
    · exact .nothing

theorem effect_reassemblyRestart (h : execReassemblyRestart s = .next t) : Effect s .reassemblyRestart t := by
  rcases restartPart_cases h with rfl | ⟨-, rfl⟩
  · exact .nothing
  · exact .engineRestarted

end Engine

section Port

variable {s t : State} {c : Instr}

theorem effect_transferStart (h : execTransferStart s = .next t) : Effect s .transferStart t := by
  rcases live_cases h with rfl | ⟨-, rfl⟩
  · exact .nothing
  · exact .transferStarted (b := s.delivery.hold)

theorem effect_transferEnd (h : execTransferEnd s = .next t) : Effect s .transferEnd t := by
  rcases live_cases h with rfl | ⟨-, rfl⟩
  · exact .nothing
  · split
    · exact .nothing
    · next tr htr =>
      cases tr with
      | data q d => exact .dataEnded htr _
      | mgmt r => exact .responseEnded htr _

theorem effect_holdRelease (h : execHoldRelease s = .next t) : Effect s .holdRelease t := by
  unfold execHoldRelease at h
  cases h
  split
  · exact .holdLevel
  · exact .transferStarted

theorem effect_deliveryRestart (h : execDeliveryRestart s = .next t) : Effect s .deliveryRestart t := by
  rcases restartPart_cases h with rfl | ⟨-, rfl⟩
  · exact .nothing
  · exact .deliveryRestarted

theorem effect_byteAs {e : ByteEvent} {b : Byte} {endMark : Bool} (h : byteAs e b endMark s = .next t) :
    Effect s c t := by
  rcases byteAs_cases h with rfl | ⟨-, -, rfl⟩
  · exact .nothing
  · exact .byteTaken

theorem effect_submissionByte {b : Byte} {startMark endMark : Bool}
    (h : execSubmissionByte b startMark endMark s = .next t) : Effect s c t := by
  rcases live_cases h with rfl | ⟨-, rfl⟩
  · exact .nothing
  · exact .byteTaken

theorem effect_waitingRetry (h : execWaitingRetry s = .next t) : Effect s .waitingRetry t := by
  rcases live_cases h with rfl | ⟨-, rfl⟩
  · exact .nothing
  · split
    · next hsub => exact .retried hsub
    all_goals exact .nothing

theorem effect_submissionRestart (h : execSubmissionRestart s = .next t) : Effect s .submissionRestart t := by
  rcases restartPart_cases h with rfl | ⟨-, rfl⟩
  · exact .nothing
  · split
    · exact .laneRestarted (.refl s)
    all_goals next hsub => exact .submissionDropped (congrArg reservedBlocks hsub) _

end Port

section Slicer

variable {s t : State}

theorem effect_slicerTakeMessage (h : execSlicerTakeMessage s = .next t) : Effect s .slicerTakeMessage t := by
  rcases live_cases h with rfl | ⟨-, rfl⟩
  · exact .nothing
  · split
    · next hst =>
      split
      · next hout => exact .outputTaken hst hout
      · split
        · next hfifo => exact .frameTaken hst hfifo
        · exact .nothing
    all_goals exact .nothing

theorem effect_sliceCut (h : execSliceCut s = .next t) : Effect s .sliceCut t := by
  rcases live_cases h with rfl | ⟨-, rfl⟩
  · exact .nothing
  · split
    · next j hst =>
      split
      · exact .nothing
      · next hp =>
        dsimp only
        split
        · exact .cutToLoop hst hp _ _
        · exact .cutToLanes hst hp _ _
    · next hst => exact .reoffered (.refl s) hst
    · exact .nothing

theorem effect_slicerRestart (h : execSlicerRestart s = .next t) : Effect s .slicerRestart t := by
  rcases restartPart_cases h with rfl | ⟨htold, rfl⟩
  · exact .nothing
  · have hsl : (if slicingResponse s.slicer.state then
          (s.returnTx (frameBlocks s.slicer.fifo + slicerBlocks s.slicer.state)).freeBuffer .backbone
        else s.returnTx (frameBlocks s.slicer.fifo + slicerBlocks s.slicer.state)).slicer = s.slicer := by
      split <;> rfl
    dsimp only
    rw [hsl]
    exact .slicerRestarted htold

end Slicer

/-- A request command does nothing but when the executor has a request of its kind ready. -/
theorem effect_onReady {s t : State} {c : Instr} {kind : ReqKind} {f : State → Request → State}
    (h : onReady s kind f = .next t) (hf : ∀ r, s.executes r kind → Effect s c (f s r)) : Effect s c t := by
  rcases onReady_cases h with rfl | ⟨r, hr, rfl⟩
  · exact .nothing
  · exact hf r hr

/-- A source whose request is taken has a response buffer free (R127). -/
theorem chooseSource_backbone {m : Mgmt} (h : m.chooseSource = some .backbone) : m.bbBufs < Config.respBufs := by
  unfold Mgmt.chooseSource at h
  grind

theorem chooseSource_localPort {m : Mgmt} (h : m.chooseSource = some .localPort) : m.lpBufs < Config.respBufs := by
  unfold Mgmt.chooseSource at h
  grind

section Requests

variable {s t : State}

theorem effect_executorTake (h : execExecutorTake s = .next t) : Effect s .executorTake t := by
  rcases live_cases h with rfl | ⟨-, rfl⟩
  · exact .nothing
  · split
    · next hx =>
      split
      · next hchoice hbb => exact .backboneTaken hx hbb (chooseSource_backbone hchoice)
      · next hchoice hlp => exact .localTaken hx hlp (chooseSource_localPort hchoice)
      all_goals exact .nothing
    all_goals exact .nothing

theorem effect_identify (h : execIdentify s = .next t) : Effect s .identify t := by
  rcases onReading_cases h with rfl | ⟨r, hr, rfl⟩ | ⟨r, x, -, hx, rfl⟩
  · exact .nothing
  · exact .held (serves_of_executes hr) (serves_reading ..)
  · have hserves : s.mgmt.executor.serves r := by rw [hx]; exact serves_reading ..
    cases x with
    | identify x plan =>
      cases plan with
      | nil => exact .answered hserves
      | cons b plan => exact .held (n := s.mgmt.choices) hserves (serves_reading ..)
    | mergeState _ _ => exact .nothing

theorem effect_readMergeState (h : execReadMergeState s = .next t) : Effect s .readMergeState t := by
  rcases onReading_cases h with rfl | ⟨r, hr, rfl⟩ | ⟨r, x, -, hx, rfl⟩
  · exact .nothing
  · dsimp only
    split
    · exact .answered (serves_of_executes hr)
    · exact .held (n := s.mgmt.choices) (serves_of_executes hr) (serves_reading ..)
  · have hserves : s.mgmt.executor.serves r := by rw [hx]; exact serves_reading ..
    cases x with
    | identify _ _ => exact .nothing
    | mergeState _ _ => exact .answered hserves

theorem effect_readStream (h : execReadStream s = .next t) : Effect s .readStream t :=
  effect_onReady h fun r hr => by
    dsimp only
    split
    · exact .answered (serves_of_executes hr)
    · split
      all_goals exact .answered (serves_of_executes hr)

theorem effect_readCounters (h : execReadCounters s = .next t) : Effect s .readCounters t :=
  effect_onReady h fun r hr => by
    split
    all_goals exact .answered (serves_of_executes hr)

theorem effect_readLog (h : execReadLog s = .next t) : Effect s .readLog t :=
  effect_onReady h fun r hr => by
    dsimp only
    split
    all_goals exact .answered (serves_of_executes hr)

theorem effect_loadStatus (h : execLoadStatus s = .next t) : Effect s .loadStatus t :=
  effect_onReady h fun _ hr => .answered (serves_of_executes hr)

theorem effect_flushStream (h : execFlushStream s = .next t) : Effect s .flushStream t :=
  effect_onReady h fun r hr => by
    dsimp only
    split
    · exact .answered (serves_of_executes hr)
    · exact .flushAnswered (serves_of_executes hr)

theorem effect_restart (h : execRestart s = .next t) : Effect s .restart t :=
  effect_onReady h fun _ hr => .held (n := s.mgmt.choices) (serves_of_executes hr) (serves_restarting ..)

theorem clearScope_log (st : Stats) (scope : CounterScope) : (st.clearScope scope).log = st.log := by
  cases scope with
  | streams first count =>
    rw [show st.clearScope (.streams first count) = _ from (clearStreams_spec (rangeStreams first count) st).1]
  | lanesGlobal => rfl

theorem effect_clearCounters (h : execClearCounters s = .next t) : Effect s .clearCounters t :=
  effect_onReady h fun r hr => by
    split
    · exact .answered (serves_of_executes hr)
    · exact .cleared (serves_of_executes hr) (by rw [clearScope_log])

theorem effect_clearLog (h : execClearLog s = .next t) : Effect s .clearLog t :=
  effect_onReady h fun _ hr => .cleared (serves_of_executes hr) (Nat.zero_le _)

theorem effect_probe (h : execProbe s = .next t) : Effect s .probe t :=
  effect_onReady h fun r hr => by
    dsimp only
    split
    · exact .answered (serves_of_executes hr)
    · split
      · exact .answered (serves_of_executes hr)
      · split
        · exact .answered (serves_of_executes hr)
        · exact .probeStarted hr

theorem effect_probeTimeout (h : execProbeTimeout s = .next t) : Effect s .probeTimeout t := by
  rcases live_cases h with rfl | ⟨-, rfl⟩
  · exact .nothing
  · split
    · split
      · split
        · exact .probeEnded 3 13
        · exact .nothing
      · exact .nothing
    all_goals exact .nothing

end Requests

section Load

variable {s t : State}

/-- The session checks let only the OPEN session of its owner through (R150). -/
theorem sessionChecks_ok {src : Source} {number : Half} {x : Session} (h : s.sessionChecks src number = .ok x) :
    s.mgmt.session = some x ∧ x.isOpen = true := by
  unfold State.sessionChecks at h
  split at h
  · cases h
  · next y hy =>
    split at h
    · cases h
    · next hopen =>
      split at h
      · cases h
      · split at h
        · cases h
        · cases h
          exact ⟨hy, by simpa using hopen⟩

theorem effect_loadOpen (h : execLoadOpen s = .next t) : Effect s .loadOpen t :=
  effect_onReady h fun r hr => by
    dsimp only
    split
    · exact .answered (serves_of_executes hr)
    · split
      · exact .answered (serves_of_executes hr)
      · split
        · exact .answered (serves_of_executes hr)
        · exact .held (n := s.mgmt.choices) (serves_of_executes hr) (serves_preparing ..)

theorem effect_loadOpenPrepared (h : execLoadOpenPrepared s = .next t) : Effect s .loadOpenPrepared t := by
  rcases live_cases h with rfl | ⟨-, rfl⟩
  · exact .nothing
  · split
    · next hx => exact .prepared hx _
    all_goals exact .nothing

theorem effect_loadRecords (h : execLoadRecords s = .next t) : Effect s .loadRecords t :=
  effect_onReady h fun r hr => by
    have hs := serves_of_executes hr
    dsimp only
    split
    · exact .answered hs
    · split
      · exact .answered hs
      · split
        · exact .answered hs
        · next x hcheck =>
          obtain ⟨hx, hopen⟩ := sessionChecks_ok hcheck
          split
          · exact .answered hs
          · split
            · exact .sessionSet hs fun _ _ => ⟨x, hx, hopen⟩
            · split
              · exact .answered hs
              · split
                · exact .answered hs
                · next hrecs => exact .recordsWritten hs hx hopen hrecs

theorem effect_loadCommit (h : execLoadCommit s = .next t) : Effect s .loadCommit t :=
  effect_onReady h fun r hr => by
    have hs := serves_of_executes hr
    dsimp only
    split
    · exact .answered hs
    · split
      · exact .answered hs
      · next x hcheck =>
        obtain ⟨hx, hopen⟩ := sessionChecks_ok hcheck
        split
        · exact .answered hs
        · split
          · exact .sessionSet hs fun _ hy => nomatch hy
          · exact .committed hs hx hopen

theorem effect_loadAbort (h : execLoadAbort s = .next t) : Effect s .loadAbort t :=
  effect_onReady h fun r hr => by
    split
    · exact .answered (serves_of_executes hr)
    · exact .sessionSet (serves_of_executes hr) fun _ hy => nomatch hy

theorem effect_loadIdleTimeout (h : execLoadIdleTimeout s = .next t) : Effect s .loadIdleTimeout t := by
  rcases live_cases h with rfl | ⟨-, rfl⟩
  · exact .nothing
  · split
    · split
      · split
        · exact .idleTimedOut
        · exact .nothing
      · exact .nothing
    · exact .nothing

end Load

/-- What a command can do. -/
theorem exec_effect {s t : State} {c : Instr} (h : exec c s = .next t) : Effect s c t := by
  cases c with
  | resetAssert => cases h; exact .stopped
  | hardReset => cases h; exact .hardReset
  | powerOn => cases h; exact .powerOn
  | signalLoss l => exact effect_signalLoss h
  | signalRegain l => exact effect_signalRegain h
  | huntCandidate l bytes => exact effect_huntCandidate h
  | confirmBlock l bytes => exact effect_confirmBlock h
  | upBlock l bytes => exact effect_upBlock h
  | lineBlockEnd l => exact effect_lineBlockEnd h
  | sliceTaken p => exact effect_sliceTaken h
  | holdExpiry k => exact effect_holdExpiry h
  | sweepVisit => exact effect_sweepVisit h
  | commitSweepEnd => exact effect_commitSweepEnd h
  | reassemblySliceTaken k => exact effect_reassemblySliceTaken h
  | assemblyDeadline k => exact effect_assemblyDeadline h
  | abandonRequestTaken k => exact effect_abandonRequestTaken h
  | transferStart => exact effect_transferStart h
  | transferEnd => exact effect_transferEnd h
  | holdAssert => cases h; exact .holdLevel
  | holdRelease => exact effect_holdRelease h
  | dataHeader b endMark => exact effect_byteAs h
  | waitingRetry => exact effect_waitingRetry h
  | mgmtHeader b endMark => exact effect_byteAs h
  | dataFrameComplete b => exact effect_byteAs h
  | mgmtFrameComplete b => exact effect_byteAs h
  | lengthFault b endMark => exact effect_byteAs h
  | absorbingEnd b => exact effect_byteAs h
  | slicerTakeMessage => exact effect_slicerTakeMessage h
  | sliceCut => exact effect_sliceCut h
  | executorTake => exact effect_executorTake h
  | identify => exact effect_identify h
  | readStream => exact effect_readStream h
  | readMergeState => exact effect_readMergeState h
  | flushStream => exact effect_flushStream h
  | restart => exact effect_restart h
  | laneTxRestart l => exact effect_laneTxRestart h
  | mergeRestart => exact effect_mergeRestart h
  | reassemblyRestart => exact effect_reassemblyRestart h
  | deliveryRestart => exact effect_deliveryRestart h
  | submissionRestart => exact effect_submissionRestart h
  | slicerRestart => exact effect_slicerRestart h
  | loadOpen => exact effect_loadOpen h
  | loadOpenPrepared => exact effect_loadOpenPrepared h
  | loadRecords => exact effect_loadRecords h
  | loadCommit => exact effect_loadCommit h
  | loadAbort => exact effect_loadAbort h
  | loadStatus => exact effect_loadStatus h
  | loadIdleTimeout => exact effect_loadIdleTimeout h
  | probe => exact effect_probe h
  | probeTimeout => exact effect_probeTimeout h
  | readCounters => exact effect_readCounters h
  | clearCounters => exact effect_clearCounters h
  | readLog => exact effect_readLog h
  | clearLog => exact effect_clearLog h
  | submissionByte b startMark endMark => exact effect_submissionByte h

/-- An invariant of every step: it does not turn on the commands that wait, a microsecond keeps it, and so does every
effect of a command. -/
theorem step_keeps {P : State → Prop} (hpending : ∀ s q, P s → P { s with pending := q })
    (htick : ∀ s, P s → P s.tick) (heffect : ∀ s c t, Effect s c t → P s → P t) {s t : State} (hs : P s)
    (h : step s = .next t) : P t := by
  unfold step at h
  split at h
  · cases h; exact htick s hs
  · next rest _ => exact heffect _ _ t (exec_effect h) (hpending s rest hs)

end Sys2Proof.Machine
end

