-- ==== Sys2Proof/Proofs/TableSteps.lean ====
section
/-! PROOF. What a step does to the stream table, the timebase and the queue of commands: completion, the active bank, and the
ranges of both banks. -/

namespace Sys2Proof.Machine

/-! ## The effects on the stream table -/

/-- What an effect does to the stream table: nothing, in most; a release puts it at its defaults, the end of a sweep clears
marks, an opened session prepares the shadow bank, a batch writes it, and a commit swaps the banks. -/
inductive TableEffect (s : State) : Instr → State → Prop
  | steady {c t} (h : Steady s t) : TableEffect s c t
  | stopped : TableEffect s .resetAssert s.stopped
  | released {c} (hc : c = .hardReset ∨ c = .powerOn) : TableEffect s c s.atRelease
  | swept {c r n} : TableEffect s c (s.endSweep r n)
  | prepared {c t mode} (h : Steady { s with table := s.prepared mode } t) : TableEffect s c t
  | written {c t i raw recs} (hj : judgeBatch i raw = .ok recs)
      (h : Steady { s with table := s.table.writeRecs recs } t) : TableEffect s c t
  | committed {x r l} : TableEffect s .loadCommit ((s.commitSwap x).startSweep r l)

theorem steady_withExecutor (s : State) (x : Executor) : Steady s (s.withExecutor x) := ⟨rfl, rfl, rfl, rfl⟩

theorem Effect.tableEffect {s t : State} {c : Instr} (h : Effect s c t) : TableEffect s c t := by
  cases h with
  | nothing => exact .steady (.refl s)
  | stopped => exact .stopped
  | hardReset => exact .released (.inl rfl)
  | powerOn => exact .released (.inr rfl)
  | lanes h => exact .steady h.steady
  | reoffered h hj => exact .steady (h.steady.trans (steady_offerSlice ..))
  | sliceTaken h => exact .steady ((steady_nextSlice h).trans (steady_takeSlice ..))
  | expired h => exact .steady (steady_expireDue ..)
  | flushed => exact .steady (steady_flush ..)
  | held h hx => exact .steady ⟨rfl, rfl, rfl, rfl⟩
  | visited h hx => exact .steady ((steady_withExecutor ..).trans (steady_flush ..))
  | sweepEnded h => exact .swept
  | engineTook h => exact .steady ((steady_dropItem ..).trans (steady_engineSlice ..))
  | engineAbandoned h => exact .steady ((steady_dropItem ..).trans (steady_engineAbandon ..))
  | stalled h =>
    exact .steady (((steady_freeCtx ..).trans (steady_toDiscarding ..)).trans (steady_abandonMessage ..))
  | holdLevel => exact .steady ⟨rfl, rfl, rfl, rfl⟩
  | transferStarted => exact .steady ((steady_startTransfer _).after rfl rfl rfl rfl)
  | dataEnded h out => exact .steady ((steady_returnRx ..).after rfl rfl rfl rfl)
  | responseEnded h out => exact .steady ((steady_freeBuffer ..).after rfl rfl rfl rfl)
  | byteTaken => exact .steady (steady_takeByte ..)
  | retried h => exact .steady (steady_tryLoadData ..)
  | outputTaken hs ho => exact .steady ⟨rfl, rfl, rfl, rfl⟩
  | frameTaken hs hf => exact .steady ⟨rfl, rfl, rfl, rfl⟩
  | cutToLoop hs hp seqs loop => exact .steady ((steady_sliceDone ..).after rfl rfl rfl rfl)
  | cutToLanes hs hp sl el => exact .steady ((steady_advanceSeq ..).trans (steady_offerSlice ..))
  | backboneTaken hx hr hb => exact .steady ((steady_startRequest ..).after rfl rfl rfl rfl)
  | localTaken hx hr hb =>
    exact .steady (((steady_wakeMgmtHeader _).trans (steady_startRequest ..)).after rfl rfl rfl rfl)
  | answered h => exact .steady (steady_respond ..)
  | flushAnswered h => exact .steady ((steady_flush ..).trans (steady_respond ..))
  | cleared h hf => exact .steady ((steady_report ..).trans (steady_respond ..))
  | laneRestarted h => exact .steady (h.steady.trans (steady_partDone ..))
  | mergeRestarted => exact .steady ((steady_partDone ..).after rfl rfl rfl rfl)
  | engineRestarted => exact .steady ((steady_partDone ..).after rfl rfl rfl rfl)
  | deliveryRestarted =>
    exact .steady (((steady_cutTransfer _).trans (steady_partDone ..)).after rfl rfl rfl rfl)
  | submissionDropped hn left =>
    exact .steady (((steady_returnTx ..).trans (steady_setSub ..)).trans (steady_partDone ..))
  | slicerRestarted h => refine .steady ((steady_partDone ..).after ?_ ?_ ?_ ?_) <;> dsimp only <;> split <;> rfl
  | prepared h x => exact .prepared ((steady_respond ..).after rfl rfl rfl rfl)
  | sessionSet h hx => exact .steady ((steady_setSession ..).trans (steady_respond ..))
  | recordsWritten h hx ho hj => exact .written hj ((steady_setSession ..).trans (steady_respond ..))
  | committed h hx ho => exact .committed
  | idleTimedOut => exact .steady ((steady_setSession ..).trans (steady_report ..))
  | probeStarted h => exact .steady (steady_startProbe ..)
  | probeEnded result reason => exact .steady (steady_endProbe ..)

/-! ## Completion (O2) -/

/-- The start of a sweep leaves the queue of commands and the timebase. -/
theorem startSweep_pending_time (s : State) (r : Request) (l : List Nat) :
    (s.startSweep r l).pending = s.pending ∧ (s.startSweep r l).time = s.time := by
  rcases startSweep_cases s r l with ⟨-, hsweep⟩ | ⟨-, hsweep⟩ <;> rw [hsweep]
  · exact ⟨State.endSweep_pending .., State.endSweep_time ..⟩
  · exact ⟨rfl, rfl⟩

theorem TableEffect.pending {s t : State} {c : Instr} (h : TableEffect s c t) : t.pending = s.pending := by
  cases h with
  | steady h => exact h.pending
  | stopped => rfl
  | released hc => rfl
  | swept => exact State.endSweep_pending ..
  | prepared h => exact h.pending
  | written hj h => exact h.pending
  | committed => exact (startSweep_pending_time ..).1

theorem TableEffect.time {s t : State} {c : Instr} (h : TableEffect s c t) (hhard : c ≠ .hardReset)
    (hpower : c ≠ .powerOn) : t.time = s.time := by
  cases h with
  | steady h => exact h.time
  | stopped => rfl
  | released hc => exact absurd hc (not_or.2 ⟨hhard, hpower⟩)
  | swept => exact State.endSweep_time ..
  | prepared h => exact h.time
  | written hj h => exact h.time
  | committed => exact (startSweep_pending_time ..).2

/-- No command faults and none is refused. -/
theorem exec_completes (c : Instr) (s : State) : ∃ t, exec c s = .next t := by
  cases c <;> exact ⟨_, rfl⟩

/-- A step with no command waiting and the pin released is a microsecond of the timebase and of the port (log 1). -/
theorem step_microsecond {s : State} (hpending : s.pending = []) (hrun : s.inReset = false) :
    step s = .next { s with time := s.time + 1, delivery := s.delivery.present } := by
  simp [step, hpending, State.tick, hrun]

/-- Settles O2: every effect leaves the queue of commands and, but for a release, the timebase; a microsecond is what the
port presents in it. -/
theorem everyCommandCompletes : Obligations.EveryCommandCompletes := by
  refine ⟨fun c s => ?command, fun s hpending hrun => ?microsecond⟩
  case command =>
    obtain ⟨t, ht⟩ := exec_completes c s
    have heffect := (exec_effect ht).tableEffect
    exact ⟨t, ht, heffect.pending, heffect.time⟩
  case microsecond =>
    dsimp only
    rw [step_microsecond hpending hrun]
    refine ⟨fun htr => ?_, fun t htr => ⟨fun b hn hb => ?_, fun hn => ?_⟩⟩
    · rw [Delivery.present_none htr]
    · rw [Delivery.present_some htr, if_pos hn, hb]
      rfl
    · rw [Delivery.present_some htr, if_neg (by omega)]

/-! ## The active bank (O54) -/

theorem ShadowOnly.refl (t : Table) : ShadowOnly t t := ⟨rfl, rfl, rfl, rfl⟩

theorem ShadowOnly.setShadow (t : Table) (b : Bank) : ShadowOnly t (t.setShadow b) := by
  unfold Table.setShadow
  cases hactive : t.active <;> simp [ShadowOnly, hactive]

theorem ShadowOnly.marks {t u : Table} (h : ShadowOnly t u) (m : StreamMarks) (q g : Bool) :
    ShadowOnly t { u with touched := m, queuesTouched := q, globalTouched := g } := h

theorem shadowOnly_prepared (s : State) (mode : OpenMode) : ShadowOnly s.table (s.prepared mode) := by
  cases mode with
  | clean => exact (ShadowOnly.setShadow s.table Bank.dflt).marks ..
  | copy => exact (ShadowOnly.setShadow s.table s.activeBank).marks ..

theorem endSweep_table (s : State) (r : Request) (n : Nat) :
    (s.endSweep r n).table = { s.table with touched := 0, queuesTouched := false, globalTouched := false } := by
  simp only [State.endSweep, State.respond_table]
  rfl

/-- Settles O54: but for a commit and a release, an effect on the table is one on the shadow bank and the marks. -/
theorem onlyACommitChangesTheActiveBank : Obligations.OnlyACommitChangesTheActiveBank := by
  intro c s t h hcommit hhard hpower
  have hshadow : ShadowOnly s.table t.table := by
    cases (exec_effect h).tableEffect with
    | steady h => rw [h.table]; exact .refl _
    | stopped => exact .refl _
    | released hc => exact absurd hc (not_or.2 ⟨hhard, hpower⟩)
    | swept => rw [endSweep_table]; exact ⟨rfl, rfl, rfl, rfl⟩
    | prepared h => rw [h.table]; exact shadowOnly_prepared s _
    | written hj h => rw [h.table]; exact ShadowOnly.writeRecs _ _
    | committed => exact absurd rfl hcommit
  obtain ⟨hactive, hgeneration, hlast, hbank⟩ := hshadow
  exact ⟨hactive, hgeneration, hlast, hbank⟩

/-! ## Records in range (R153) -/

/-- What a record writes lies in its range. -/
def LoadRec.inRange : LoadRec → Prop
  | .stream k e => e.inRange k
  | .queue _ capacity => 1 ≤ capacity ∧ capacity ≤ 256
  | .glob g => g.inRange

theorem firstFailing_eq_none {checks : List (Bool × Nat)} (h : firstFailing checks = none) :
    ∀ c ∈ checks, c.1 = false := by
  unfold firstFailing at h
  rw [Option.map_eq_none_iff, List.find?_eq_none] at h
  exact fun c hc => Bool.eq_false_iff.2 (h c hc)

theorem recEntry_inRange {r : List Byte} (h : firstFailing (streamRecChecks r) = none) :
    (recEntry r).inRange (recStream r) := by
  have hchecks := firstFailing_eq_none h
  rw [(recordChecks_eq r).1, ← recStream_eq] at hchecks
  simp only [List.mem_cons, List.not_mem_nil, or_false, forall_eq_or_imp, forall_eq, decide_eq_false_iff_not]
    at hchecks
  obtain ⟨-, hon, -, -, -, -, hwindow, hhold, hasm, hlen, -, henable, hmgmt, hprobe⟩ := hchecks
  have hrx : recStream r = 0 → (recEntry r).rxEnable = true := by
    intro hk
    show (rd8 r 1 == 1) = true
    rw [show (rd8 r 1 == 1) = decide ((rd8 r 1).toNat = 1) from byte_beq (rd8 r 1) (by decide), decide_eq_true_eq]
    omega
  have hlens : (recEntry r).maxLen = (rd16 r 12).toNat := rfl
  refine ⟨by show 1 ≤ (rd8 r 7).toNat; omega, by show (rd8 r 7).toNat ≤ 32; omega,
    by show 1 ≤ (rd16 r 8).toNat; omega, by show (rd16 r 8).toNat ≤ 1023; omega,
    by show 1 ≤ (rd8 r 10).toNat; omega, by show (rd8 r 10).toNat ≤ 255; omega, by omega, by omega, ?_, ?_⟩
  · intro hk
    exact ⟨hrx hk, by unfold Config.mgmtStream at hk; omega, by unfold Config.mgmtStream at hk; omega⟩
  · intro hk
    unfold Config.probeStream at hk
    omega

theorem policy_full_of_ne_one {b : Byte} (h1 : ¬ 1 < b.toNat) (h : b.toNat ≠ 1) : Policy.ofByte b = .full := by
  have hb : b = 0 := (byte_eq_iff b (n := 0) (by decide)).2 (by omega)
  rw [hb]; rfl

theorem recGlobal_inRange {r : List Byte} (h : firstFailing (globalRecChecks r) = none) : (recGlobal r).inRange := by
  have hchecks := firstFailing_eq_none h
  rw [(recordChecks_eq r).2.2] at hchecks
  simp only [List.mem_cons, List.not_mem_nil, or_false, forall_eq_or_imp, forall_eq, decide_eq_false_iff_not]
    at hchecks
  obtain ⟨hceiling, hstale, -, -, -, -, hidle, hbackbone, hlocal, hboth⟩ := hchecks
  refine ⟨by show 512 ≤ (rd16 r 2).toNat; omega, by show (rd16 r 2).toNat ≤ 4032; omega,
    by show 4 ≤ (rd8 r 4).toNat; omega, by show (rd8 r 4).toNat ≤ 64; omega,
    by show 1 ≤ (rd8 r 9).toNat; omega, by show (rd8 r 9).toNat ≤ 100; omega, ?_⟩
  by_cases h10 : (rd8 r 10).toNat = 1
  · exact .inr (policy_full_of_ne_one hlocal fun h11 => hboth ⟨h10, h11⟩)
  · exact .inl (policy_full_of_ne_one hbackbone h10)

theorem judgeRecord_inRange {r : List Byte} {x : LoadRec} (h : judgeRecord r = .ok x) : x.inRange := by
  unfold judgeRecord at h
  split at h
  · split at h
    · cases h
    · next hnone => cases h; exact recEntry_inRange hnone
  · split at h
    · split at h
      · cases h
      · next hnone =>
        cases h
        have hchecks := firstFailing_eq_none hnone
        simp only [queueRecChecks, outside_eq, List.mem_cons, List.not_mem_nil, or_false, forall_eq_or_imp, forall_eq,
          decide_eq_false_iff_not] at hchecks
        exact ⟨by omega, by omega⟩
    · split at h
      · split at h
        · cases h
        · next hnone => cases h; exact recGlobal_inRange hnone
      · cases h

theorem judgeBatch_cons (i : Nat) (r : List Byte) (rs : List (List Byte)) :
    judgeBatch i (r :: rs)
      = match judgeRecord r with
        | .error off => .error (i, off)
        | .ok x =>
          match judgeBatch (i + 1) rs with
          | .error e => .error e
          | .ok xs => .ok (x :: xs) := rfl

theorem judgeBatch_inRange : ∀ {raw : List (List Byte)} {i : Nat} {recs : List LoadRec},
    judgeBatch i raw = .ok recs → ∀ x ∈ recs, x.inRange
  | [], _, _, h => by cases h; simp
  | r :: rs, i, _, h => by
    rw [judgeBatch_cons] at h
    split at h
    · cases h
    · next x hx =>
      split at h
      · cases h
      · next xs hxs =>
        cases h
        exact List.forall_mem_cons.2 ⟨judgeRecord_inRange hx, judgeBatch_inRange hxs⟩

/-! ## Banks in range (O60) -/

theorem entry_dflt_inRange (k : Nat) : (Entry.dflt k).inRange k := by
  refine ⟨by simp [Entry.dflt], by simp [Entry.dflt], by simp [Entry.dflt], by simp [Entry.dflt], by simp [Entry.dflt],
    by simp [Entry.dflt], ?_, ?_, fun hk => ?_, fun hk => ?_⟩
  · simp only [Entry.dflt]; split <;> decide
  · simp only [Entry.dflt]; split <;> decide
  · subst hk; decide
  · subst hk; decide

theorem bank_dflt_inRange : Bank.dflt.inRange :=
  ⟨fun k _ => entry_dflt_inRange k, fun q => by cases q <;> decide, by unfold GlobalRec.inRange; decide⟩

/-- Both banks of a table lie in range. -/
def Table.inRange (t : Table) : Prop := t.bank0.inRange ∧ t.bank1.inRange

theorem Table.inRange_marks {t : Table} (h : t.inRange) (m : StreamMarks) (q g : Bool) :
    Table.inRange { t with touched := m, queuesTouched := q, globalTouched := g } := h

theorem Table.inRange_setShadow {t : Table} {b : Bank} (h : t.inRange) (hb : b.inRange) : (t.setShadow b).inRange := by
  obtain ⟨h0, h1⟩ := h
  unfold Table.setShadow
  split
  · exact ⟨hb, h1⟩
  · exact ⟨h0, hb⟩

theorem Table.inRange_shadow {t : Table} (h : t.inRange) : t.shadow.inRange := by
  unfold Table.shadow
  split
  · exact h.1
  · exact h.2

/-- A bank stays in range when a record in range is written to it. -/
theorem Table.inRange_writeRec {t : Table} {x : LoadRec} (h : t.inRange) (hx : x.inRange) :
    (t.writeRec t.shadow x).inRange := by
  obtain ⟨hentries, hcapacities, hglob⟩ := Table.inRange_shadow h
  cases x with
  | stream k e =>
    refine Table.inRange_setShadow h (b := { t.shadow with entries := SMap.set Entry.dflt t.shadow.entries k e })
      ⟨fun j hj => ?_, hcapacities, hglob⟩
    show (SMap.get Entry.dflt (SMap.set Entry.dflt t.shadow.entries k e) j).inRange j
    rw [SMap.get_set]
    split
    · next hjk => exact hjk ▸ hx
    · exact hentries j hj
  | queue q capacity =>
    refine Table.inRange_setShadow h (b := { t.shadow with capacities := t.shadow.capacities.set q capacity })
      ⟨hentries, fun q' => ?_, hglob⟩
    show 1 ≤ (t.shadow.capacities.set q capacity).get q' ∧ (t.shadow.capacities.set q capacity).get q' ≤ 256
    rw [PerQueue.get_set]
    split
    · exact hx
    · exact hcapacities q'
  | glob g => exact Table.inRange_setShadow h (b := { t.shadow with glob := g }) ⟨hentries, hcapacities, hx⟩

theorem Table.inRange_writeRecs : ∀ {recs : List LoadRec} {t : Table}, t.inRange → (∀ x ∈ recs, x.inRange) →
    (t.writeRecs recs).inRange
  | [], _, h, _ => h
  | x :: xs, t, h, hrecs =>
    have ⟨hx, hxs⟩ := List.forall_mem_cons.1 hrecs
    show ((t.writeRec t.shadow x).writeRecs xs).inRange from Table.inRange_writeRecs (Table.inRange_writeRec h hx) hxs

theorem activeBank_inRange {s : State} (h : s.banksInRange) : s.activeBank.inRange := by
  unfold State.activeBank State.bank
  split
  · exact h.2
  · exact h.1

theorem banksInRange_prepared {s : State} (h : s.banksInRange) (mode : OpenMode) : (s.prepared mode).inRange := by
  cases mode with
  | clean => exact Table.inRange_marks (Table.inRange_setShadow (t := s.table) h bank_dflt_inRange) ..
  | copy => exact Table.inRange_marks (Table.inRange_setShadow (t := s.table) h (activeBank_inRange h)) ..

theorem banksInRange_endSweep {s : State} (h : s.banksInRange) (r : Request) (n : Nat) :
    (s.endSweep r n).banksInRange := by
  unfold State.banksInRange
  rw [endSweep_table]
  exact h

theorem Effect.banksInRange {s t : State} {c : Instr} (h : Effect s c t) (hs : s.banksInRange) : t.banksInRange := by
  cases h.tableEffect with
  | steady h => exact h.banksInRange hs
  | stopped => exact hs
  | released hc => exact ⟨bank_dflt_inRange, bank_dflt_inRange⟩
  | swept => exact banksInRange_endSweep hs _ _
  | prepared h => exact h.banksInRange (banksInRange_prepared hs _)
  | written hj h => exact h.banksInRange (Table.inRange_writeRecs (t := s.table) hs (judgeBatch_inRange hj))
  | committed =>
    rename_i x r l
    rcases startSweep_cases (s.commitSwap x) r l with ⟨-, hsweep⟩ | ⟨-, hsweep⟩ <;> rw [hsweep]
    · exact banksInRange_endSweep (s := s.commitSwap x) hs _ _
    · exact hs

theorem tick_table (s : State) : s.tick.table = s.table := by
  unfold State.tick
  split <;> rfl

/-- Settles O60: what a batch writes has passed the checks of R153, and every other write of a bank copies the defaults or
the other bank. -/
theorem everyStepKeepsTablesInRange : Obligations.EveryStepKeepsTablesInRange := fun _ _ hs h =>
  step_keeps (P := State.banksInRange) (fun _ _ hs => hs)
    (fun s hs => by unfold State.banksInRange; rw [tick_table]; exact hs)
    (fun _ _ _ heffect hs => heffect.banksInRange hs) hs h

end Sys2Proof.Machine
end

