-- ==== Sys2Proof/Proofs/BlockSteps.lean ====
section
/-! PROOF. Every step accounts for every block of the pool (R80, R84, R86): each effect moves a block from one holder to
another, claims it or returns it, and keeps the balance of counts and holders. -/

namespace Sys2Proof.Machine

theorem blocksAccounted_iff (s : State) : s.blocksAccounted ↔ s.balanced 0 0 := by
  simp only [State.blocksAccounted, State.balanced, Int.add_zero, Nat.cast_inj]

section Balance

variable {s t : State} {er et : Int}

/-- A part that holds nothing is in balance with the whole pool free. -/
theorem balanced_of_empty (hp : s.pool = ⟨Config.poolBlocks, 0, 0⟩) (hm : s.merge.recs = []) (hi : s.engine.items = [])
    (hc : s.engine.ctxs = []) (hq : s.delivery.dqs = ⟨[], [], [], []⟩) (hx : s.delivery.transfer = none)
    (hs : s.sub = .idle) (hf : s.slicer.fifo = []) (hj : s.slicer.state = .idle) : s.balanced 0 0 := by
  have hrx : s.rxHolders = 0 := by
    unfold State.rxHolders State.heldInUse
    rw [hm, hi, hc, hq, hx]
    rfl
  have htx : s.txHolders = 0 := by
    unfold State.txHolders
    rw [hs, hf, hj]
    rfl
  have hrecs : s.recsSound := by
    unfold State.recsSound State.mrec
    rw [hm]
    exact ⟨⟨List.Pairwise.nil, fun e he => by simp at he⟩, fun k _ => rfl⟩
  exact ⟨by rw [hp]; rfl, by rw [hp, hrx]; rfl, by rw [hp, htx]; rfl, hrecs, by rw [hs]; exact trivial⟩

theorem balanced_lanesOnly (h : s.balanced er et) (hl : LanesOnly s t) : t.balanced er et := by
  rw [hl.rest]
  exact h.congr rfl rfl rfl rfl rfl rfl rfl rfl rfl

theorem balanced_nextSlice {p : Path} {sl : Slice} (h : s.balanced er et) (hn : s.nextSlice p = some (sl, t)) :
    t.balanced er et := by
  cases p <;> unfold State.nextSlice at hn <;> dsimp only at hn <;> split at hn <;> cases hn
  all_goals exact h.congr rfl rfl rfl rfl rfl rfl rfl rfl rfl

/-- The delivery queues and the transfer hold as much after a change to them as `d` says. -/
theorem balanced_delivery {n : Nat} {d : Delivery} (h : s.balanced er et)
    (hd : queueBlocks d.dqs + transferBlocks d.transfer + n
      = queueBlocks s.delivery.dqs + transferBlocks s.delivery.transfer) :
    State.balanced { s with delivery := d } (er + n) et := by
  obtain ⟨hsum, hrx, htx, hrecs, hsub⟩ := h
  have hholders : (State.rxHolders { s with delivery := d } : Int) + n = s.rxHolders := by
    have hd' : (queueBlocks d.dqs + transferBlocks d.transfer + n : Int)
        = queueBlocks s.delivery.dqs + transferBlocks s.delivery.transfer := by exact_mod_cast hd
    unfold State.rxHolders State.heldInUse
    push_cast
    omega
  exact ⟨hsum, by rw [hrx]; omega, htx, hrecs, hsub⟩

/-- The arbiter moves the head of a queue into the transfer (R95). -/
theorem choose_blocks {d d' : Delivery} {t : Transfer} (h : d.choose = some (t, d')) :
    queueBlocks d'.dqs + transferBlocks (some t) = queueBlocks d.dqs := by
  unfold Delivery.choose at h
  split at h
  · cases h; rfl
  · split at h
    · next hq => cases h; simp [queueBlocks, transferBlocks, hq, descBlocks]; omega
    · split at h
      · next hq => cases h; simp [queueBlocks, transferBlocks, hq, descBlocks]; omega
      · split at h
        · next hq => cases h; simp [queueBlocks, transferBlocks, hq, descBlocks]; omega
        · split at h
          · next hq => cases h; simp [queueBlocks, transferBlocks, hq, descBlocks]; omega
          · cases h

/-- What a start of a transfer can do: nothing, or the arbiter's choice is in transfer (R95). -/
theorem startTransfer_cases (s : State) :
    s.startTransfer = s
      ∨ s.delivery.transfer = none ∧ ∃ t d, s.delivery.choose = some (t, d)
        ∧ s.startTransfer
          = { s with delivery := { d with transfer := some t, out := (deliveryOut t).take 1, valid := true } } := by
  unfold State.startTransfer
  split
  · next hidle =>
    split
    · next t d hc =>
      have hnone : s.delivery.transfer = none := by
        rw [Bool.and_eq_true, Option.isNone_iff_eq_none] at hidle
        exact hidle.1
      exact .inr ⟨hnone, t, d, hc, rfl⟩
    · exact .inl rfl
  · exact .inl rfl

theorem balanced_startTransfer (h : s.balanced er et) : s.startTransfer.balanced er et := by
  rcases startTransfer_cases s with hs | ⟨hnone, t, d, hc, hs⟩ <;> rw [hs]
  · exact h
  · refine (balanced_delivery (n := 0) h ?_).to (by simp) rfl
    rw [hnone]
    show queueBlocks d.dqs + transferBlocks (some t) = queueBlocks s.delivery.dqs
    exact choose_blocks hc

theorem balanced_cutTransfer (h : s.balanced er et) (he : 0 ≤ er) : s.cutTransfer.balanced er et := by
  unfold State.cutTransfer
  split
  · next q d htr =>
    have hcut : State.balanced
        { s with delivery := { s.delivery with transfer := none, out := s.delivery.out ++ [cutByte], valid := true } }
        (er + d.blocks.length) et :=
      balanced_delivery h (by rw [htr]; rfl)
    exact (balanced_returnRx _ hcut (by omega)).to (by omega) rfl
  · exact h
  · exact h

theorem balanced_startRequest (r : Request) (h : s.balanced er et) : (s.startRequest r).balanced er et := by
  unfold State.startRequest
  split
  · exact balanced_respond _ _ _ h
  · exact h.congr rfl rfl rfl rfl rfl rfl rfl rfl rfl

theorem balanced_wakeMgmtHeader (h : s.balanced er et) : s.wakeMgmtHeader.balanced er et := by
  unfold State.wakeMgmtHeader
  split
  · next n hsub =>
    have hn : 0 < n := by
      obtain ⟨-, -, -, -, hincomplete⟩ := h
      rw [hsub] at hincomplete
      exact hincomplete
    exact (balanced_setSub (x := .loadingMgmt n []) h hn).to rfl (by rw [hsub]; simp [reservedBlocks])
  all_goals exact h

theorem balanced_endSweep (r : Request) (n : Nat) (h : s.balanced er et) : (s.endSweep r n).balanced er et :=
  balanced_respond _ _ _ (h.congr rfl rfl rfl rfl rfl rfl rfl rfl rfl)

theorem balanced_startSweep (r : Request) (l : List Nat) (h : s.balanced er et) : (s.startSweep r l).balanced er et := by
  rcases startSweep_cases s r l with ⟨-, hsweep⟩ | ⟨-, hsweep⟩ <;> rw [hsweep]
  · exact balanced_endSweep r 0 h
  · exact h.congr rfl rfl rfl rfl rfl rfl rfl rfl rfl

theorem balanced_startProbe (r : Request) (n : Nat) (seed : Byte) (h : s.balanced er et) (he : 0 ≤ er) :
    (s.startProbe r n seed).balanced er et :=
  State.balanced.congr (balanced_drainItems _ _ (balanced_flush _ _ h he) he) rfl rfl rfl rfl rfl rfl rfl rfl rfl

theorem balanced_setSession (x : Option Session) (h : s.balanced er et) : (s.setSession x).balanced er et :=
  h.congr rfl rfl rfl rfl rfl rfl rfl rfl rfl

end Balance

/-! ## The restarts -/

section Restarts

variable {s : State}

theorem balanced_mergeRestart (h : s.balanced 0 0) :
    State.balanced { s.returnRx s.heldInUse with merge := { recs := [], pendingFlush := 0 } } 0 0 := by
  obtain ⟨hsum, hrx, htx, hrecs, hsub⟩ := h
  have hnone : State.heldInUse { s.returnRx s.heldInUse with merge := { recs := [], pendingFlush := 0 } } = 0 := rfl
  refine ⟨?_, ?_, htx, ⟨⟨List.Pairwise.nil, fun e he => by simp at he⟩, fun k _ => rfl⟩, hsub⟩
  · show s.pool.free + s.heldInUse + (s.pool.rx - s.heldInUse) + s.pool.tx = Config.poolBlocks
    unfold State.rxHolders at hrx
    omega
  · show ((s.pool.rx - s.heldInUse : Nat) : Int)
      = (State.heldInUse { s.returnRx s.heldInUse with merge := { recs := [], pendingFlush := 0 } }
          + itemBlocks s.engine.items + ctxBlocks s.engine.ctxs + queueBlocks s.delivery.dqs
          + transferBlocks s.delivery.transfer : Nat) + 0
    unfold State.rxHolders at hrx
    omega

theorem balanced_engineRestart (h : s.balanced 0 0) :
    State.balanced
      { s.returnRx (ctxBlocks s.engine.ctxs + itemBlocks s.engine.items) with
        engine := { discarding := 0, ctxs := [], items := [] } } 0 0 := by
  obtain ⟨hsum, hrx, htx, hrecs, hsub⟩ := h
  unfold State.rxHolders at hrx
  refine ⟨?_, ?_, htx, hrecs, hsub⟩
  · show s.pool.free + (ctxBlocks s.engine.ctxs + itemBlocks s.engine.items)
        + (s.pool.rx - (ctxBlocks s.engine.ctxs + itemBlocks s.engine.items)) + s.pool.tx = Config.poolBlocks
    omega
  · show ((s.pool.rx - (ctxBlocks s.engine.ctxs + itemBlocks s.engine.items) : Nat) : Int)
      = (s.heldInUse + 0 + 0 + queueBlocks s.delivery.dqs + transferBlocks s.delivery.transfer : Nat) + 0
    omega

theorem balanced_deliveryRestart (h : s.balanced 0 0) :
    State.balanced
      (State.cutTransfer
        { s.returnRx (queueBlocks s.delivery.dqs) with delivery := { s.delivery with dqs := ⟨[], [], [], []⟩ } })
      0 0 := by
  refine balanced_cutTransfer ?_ (le_refl 0)
  have hempty : State.balanced { s with delivery := { s.delivery with dqs := ⟨[], [], [], []⟩ } }
      (0 + queueBlocks s.delivery.dqs) 0 :=
    balanced_delivery h (by
      show 0 + transferBlocks s.delivery.transfer + queueBlocks s.delivery.dqs
        = queueBlocks s.delivery.dqs + transferBlocks s.delivery.transfer
      omega)
  exact (balanced_returnRx (queueBlocks s.delivery.dqs) hempty (by omega)).to (by omega) rfl

theorem balanced_submissionRestart (h : s.balanced 0 0) {n : Nat} (hn : reservedBlocks s.sub = n) (left : Nat) :
    ((s.returnTx n).setSub (.absorbing left)).balanced 0 0 := by
  have hle : (n : Int) ≤ s.txHolders + 0 := by
    unfold State.txHolders
    omega
  refine (balanced_setSub (x := .absorbing left) (balanced_returnTx n h hle) trivial).to rfl ?_
  show (0 : Int) - n + reservedBlocks s.sub - 0 = 0
  omega

theorem balanced_slicerRestart (h : s.balanced 0 0) :
    State.balanced
      { (if slicingResponse s.slicer.state then
          (s.returnTx (frameBlocks s.slicer.fifo + slicerBlocks s.slicer.state)).freeBuffer .backbone
        else s.returnTx (frameBlocks s.slicer.fifo + slicerBlocks s.slicer.state)) with
        slicer := { s.slicer with fifo := [], state := .idle, seqs := [] } } 0 0 := by
  obtain ⟨hsum, hrx, htx, hrecs, hsub⟩ := h
  unfold State.txHolders at htx
  have hreturned : State.balanced
      { s.returnTx (frameBlocks s.slicer.fifo + slicerBlocks s.slicer.state) with
        slicer := { s.slicer with fifo := [], state := .idle, seqs := [] } } 0 0 := by
    refine ⟨?_, hrx, ?_, hrecs, hsub⟩
    · show s.pool.free + (frameBlocks s.slicer.fifo + slicerBlocks s.slicer.state) + s.pool.rx
        + (s.pool.tx - (frameBlocks s.slicer.fifo + slicerBlocks s.slicer.state)) = Config.poolBlocks
      omega
    · show ((s.pool.tx - (frameBlocks s.slicer.fifo + slicerBlocks s.slicer.state) : Nat) : Int)
        = (reservedBlocks s.sub + 0 + 0 : Nat) + 0
      omega
  split
  · exact hreturned.congr rfl rfl rfl rfl rfl rfl rfl rfl rfl
  · exact hreturned

end Restarts

/-! ## The slicer -/

section Slicer

variable {s : State}

theorem balanced_outputTaken (h : s.balanced 0 0) (hs : s.slicer.state = .idle) (o : Output) (rest : List Output) :
    State.balanced { s with slicer := { s.slicer with outputs := rest, state := .slicing (jobOfOutput o) } } 0 0 := by
  have hkind : (jobOfOutput o).blocks = 0 := by cases o <;> rfl
  have hset := balanced_setSlicer (.slicing (jobOfOutput o)) h
  rw [hs, slicerBlocks_slicing, hkind] at hset
  exact State.balanced.congr hset rfl rfl rfl rfl rfl rfl rfl rfl rfl

theorem balanced_frameTaken (h : s.balanced 0 0) (hs : s.slicer.state = .idle) {f : Frame} {rest : List Frame}
    (hf : s.slicer.fifo = f :: rest) :
    State.balanced { s with slicer := { s.slicer with fifo := rest, state := .slicing (jobOfFrame f) } } 0 0 := by
  obtain ⟨hsum, hrx, htx, hrecs, hsub⟩ := h
  refine ⟨hsum, hrx, ?_, hrecs, hsub⟩
  rw [State.txHolders, hs, hf] at htx
  show (s.pool.tx : Int) = (reservedBlocks s.sub + frameBlocks rest + f.blocks.length : Nat) + 0
  simp only [frameBlocks, List.map_cons, List.sum_cons, slicerBlocks] at htx ⊢
  omega

/-- A cut leaves one block of a DATA message with the slice that is cut (R115). -/
theorem slicerBlocks_afterCut {j : Job} {piece : Block} {rest : List Block} (hs : s.slicer.state = .slicing j)
    (hp : j.pieces = piece :: rest) :
    slicerBlocks s.slicer.state
      = (j.afterCut piece rest).blocks + if (j.afterCut piece rest).kind = .data then 1 else 0 := by
  rw [hs, slicerBlocks_slicing]
  by_cases hk : j.kind = .data <;> simp [Job.blocks, Job.afterCut, hp, hk]

end Slicer

/-! ## Every step -/

theorem Effect.balanced {s t : State} {c : Instr} (h : Effect s c t) (hs : s.balanced 0 0) : t.balanced 0 0 := by
  cases h with
  | nothing => exact hs
  | stopped => exact balanced_of_empty rfl rfl rfl rfl rfl rfl rfl rfl rfl
  | hardReset => exact balanced_of_empty rfl rfl rfl rfl rfl rfl rfl rfl rfl
  | powerOn => exact balanced_of_empty rfl rfl rfl rfl rfl rfl rfl rfl rfl
  | lanes h => exact balanced_lanesOnly hs h
  | reoffered h hj =>
    exact balanced_offerSlice _ _ _ (balanced_lanesOnly hs h) (le_refl 0)
      (by rw [h.untouched.slicer, hj, slicerBlocks_stalled])
  | sliceTaken h => exact balanced_takeSlice _ _ (balanced_nextSlice hs h) (le_refl 0)
  | expired h => exact balanced_expireDue _ hs
  | flushed => exact balanced_flush _ _ hs (le_refl 0)
  | held h hx => exact hs.congr rfl rfl rfl rfl rfl rfl rfl rfl rfl
  | visited h hx => exact balanced_flush _ _ (hs.congr rfl rfl rfl rfl rfl rfl rfl rfl rfl) (le_refl 0)
  | sweepEnded h => exact balanced_endSweep _ _ hs
  | engineTook h => exact balanced_engineSlice _ _ _ (balanced_dropItem h hs) (le_refl 0)
  | engineAbandoned h => exact balanced_engineAbandon _ _ ((balanced_dropItem h hs).to rfl rfl) (le_refl 0)
  | stalled h => exact balanced_abandonMessage _ _ _ _ _ (balanced_toDiscarding _ (balanced_freeCtx h hs)) (le_refl 0)
  | holdLevel => exact hs.congr rfl rfl rfl rfl rfl rfl rfl rfl rfl
  | transferStarted => exact balanced_startTransfer (hs.congr rfl rfl rfl rfl rfl rfl rfl rfl rfl)
  | @dataEnded _ _ d h out =>
    have hended := balanced_delivery (n := d.blocks.length)
      (d := { s.delivery with transfer := none, out := out, valid := true }) hs (by rw [h]; rfl)
    exact (balanced_returnRx _ hended (by omega)).to (by omega) rfl
  | responseEnded h out =>
    exact balanced_freeBuffer _
      ((balanced_delivery (n := 0) (d := { s.delivery with transfer := none, out := out, valid := true }) hs
        (by rw [h]; rfl)).to rfl rfl)
  | byteTaken => exact balanced_takeByte _ _ _ hs (le_refl 0)
  | retried h =>
    obtain ⟨-, -, -, -, hincomplete⟩ := id hs
    rw [h] at hincomplete
    exact balanced_tryLoadData _ _ hs (by rw [h]; rfl) hincomplete
  | outputTaken hi ho => exact balanced_outputTaken hs hi _ _
  | frameTaken hi hf => exact balanced_frameTaken hs hi hf
  | cutToLoop hi hp seqs loop =>
    exact balanced_sliceDone _ (hs.congr rfl rfl rfl rfl rfl rfl rfl rfl rfl) (le_refl 0) (slicerBlocks_afterCut hi hp)
  | cutToLanes hi hp sl el =>
    exact balanced_offerSlice _ _ _ (hs.congr rfl rfl rfl rfl rfl rfl rfl rfl rfl) (le_refl 0)
      (slicerBlocks_afterCut hi hp)
  | backboneTaken hx hr hb => exact balanced_startRequest _ (hs.congr rfl rfl rfl rfl rfl rfl rfl rfl rfl)
  | localTaken hx hr hb =>
    exact balanced_startRequest _ (balanced_wakeMgmtHeader (hs.congr rfl rfl rfl rfl rfl rfl rfl rfl rfl))
  | answered h => exact balanced_respond _ _ _ hs
  | flushAnswered h => exact balanced_respond _ _ _ (balanced_flush _ _ hs (le_refl 0))
  | cleared h hf => exact balanced_respond _ _ _ (balanced_report _ hs)
  | laneRestarted h => exact balanced_partDone _ (balanced_lanesOnly hs h)
  | mergeRestarted => exact balanced_partDone _ (balanced_mergeRestart hs)
  | engineRestarted => exact balanced_partDone _ (balanced_engineRestart hs)
  | deliveryRestarted => exact balanced_partDone _ (balanced_deliveryRestart hs)
  | submissionDropped hn left => exact balanced_partDone _ (balanced_submissionRestart hs hn left)
  | slicerRestarted h => exact balanced_partDone _ (balanced_slicerRestart hs)
  | prepared h x => exact balanced_respond _ _ _ (hs.congr rfl rfl rfl rfl rfl rfl rfl rfl rfl)
  | sessionSet h hx => exact balanced_respond _ _ _ (balanced_setSession _ hs)
  | recordsWritten h hx ho hj => exact balanced_respond _ _ _ (hs.congr rfl rfl rfl rfl rfl rfl rfl rfl rfl)
  | committed h hx ho => exact balanced_startSweep _ _ (hs.congr rfl rfl rfl rfl rfl rfl rfl rfl rfl)
  | idleTimedOut => exact balanced_report _ (balanced_setSession _ hs)
  | probeStarted h => exact balanced_startProbe _ _ _ hs (le_refl 0)
  | probeEnded result reason => exact balanced_endProbe _ _ _ _ _ hs

theorem balanced_tick {s : State} (h : s.balanced 0 0) : s.tick.balanced 0 0 := by
  unfold State.tick
  split
  · exact h
  · exact h.congr rfl rfl rfl rfl (Delivery.present_dqs _) (Delivery.present_transfer _) rfl rfl rfl

/-- Settles O56, by the balance of counts and holders that every effect keeps. -/
theorem everyStepAccountsForBlocks : Obligations.EveryStepAccountsForBlocks := fun s t hs h =>
  (blocksAccounted_iff t).2
    (step_keeps (P := fun s => s.balanced 0 0) (fun _ _ hs => hs) (fun _ => balanced_tick)
      (fun _ _ _ heffect => heffect.balanced) ((blocksAccounted_iff s).1 hs) h)

end Sys2Proof.Machine
end

