-- ==== Sys2Proof/Proofs/ProbeStreamDrained.lean ====
section
/-! PROOF. The engine takes what stream 4094 has waiting while no probe is AWAITING (R169, log 9): only the engine, the pool
and the statistics change. -/

namespace Sys2Proof.Machine

/-- The engine, the pool and the statistics alone change. -/
structure EngineOnly (s t : State) : Prop where
  rest : t = { s with engine := t.engine, pool := t.pool, stats := t.stats }

theorem EngineOnly.refl (s : State) : EngineOnly s s := ⟨rfl⟩

theorem EngineOnly.trans {s t u : State} (h : EngineOnly s t) (h' : EngineOnly t u) : EngineOnly s u :=
  ⟨by rw [h'.rest, h.rest]⟩

theorem EngineOnly.ite {s t u : State} {p : Prop} [Decidable p] (h : EngineOnly s t) (h' : EngineOnly s u) :
    EngineOnly s (if p then t else u) := by
  split <;> assumption

theorem EngineOnly.mgmt {s t : State} (h : EngineOnly s t) : t.mgmt = s.mgmt := by rw [h.rest]

theorem EngineOnly.slicer {s t : State} (h : EngineOnly s t) : t.slicer = s.slicer := by rw [h.rest]

theorem EngineOnly.merge {s t : State} (h : EngineOnly s t) : t.merge = s.merge := by rw [h.rest]

theorem EngineOnly.probeAwaiting {s t : State} (h : EngineOnly s t) : t.probeAwaiting = s.probeAwaiting := by
  unfold State.probeAwaiting
  rw [h.mgmt]

theorem engineOnly_returnRx (s : State) (n : Nat) : EngineOnly s (s.returnRx n) := ⟨rfl⟩

theorem engineOnly_report (s : State) (f : Stats → Stats) : EngineOnly s (s.report f) := ⟨rfl⟩

theorem engineOnly_freeCtx (s : State) (k : Nat) : EngineOnly s (s.freeCtx k) := ⟨rfl⟩

theorem engineOnly_bindCtx (s : State) (c : Ctx) : EngineOnly s (s.bindCtx c) := ⟨rfl⟩

theorem engineOnly_toDiscarding (s : State) (k : Nat) : EngineOnly s (s.toDiscarding k) := ⟨rfl⟩

theorem engineOnly_notDiscarding (s : State) (k : Nat) : EngineOnly s (s.notDiscarding k) := ⟨rfl⟩

theorem engineOnly_dropItem (s : State) (k : Nat) : EngineOnly s (s.dropItem k) := ⟨rfl⟩

theorem engineOnly_orphanSlice (s : State) (k : Nat) : EngineOnly s (s.orphanSlice k) := ⟨rfl⟩

/-- Only an AWAITING probe can be ended (R171 to R173). -/
theorem endProbe_of_not_awaiting {s : State} (h : s.probeAwaiting = false) (result reason : Byte) (n off : Nat)
    (l : LaneSet) : s.endProbe result reason n off l = s := by
  unfold State.probeAwaiting at h
  unfold State.endProbe
  split
  · next r p hx =>
    rw [hx] at h
    split
    · next ha => simp [ha] at h
    · rfl
  all_goals rfl

section NotAwaiting

variable {s : State} (h : s.probeAwaiting = false)
include h

theorem engineOnly_abandonMessage (k : Nat) (reason : AbandonReason) (seq : SeqNo) (gathered n : Nat) :
    EngineOnly s (s.abandonMessage k reason seq gathered n) := by
  unfold State.abandonMessage State.informProbe
  refine EngineOnly.ite ?_ ((engineOnly_returnRx s n).trans (engineOnly_report ..))
  rw [endProbe_of_not_awaiting]
  · exact (engineOnly_returnRx s n).trans (engineOnly_report ..)
  · exact h

theorem engineOnly_abandonOpen (c : Ctx) (reason : AbandonReason) (seq : SeqNo) :
    EngineOnly s (s.abandonOpen c reason seq) :=
  ((engineOnly_freeCtx ..).trans (engineOnly_notDiscarding ..)).trans
    (engineOnly_abandonMessage (s := (s.freeCtx c.stream).notDiscarding c.stream) h ..)

theorem engineOnly_abandonWith (c : Ctx) (reason : AbandonReason) (seq : SeqNo) (gathered : Nat) :
    EngineOnly s (s.abandonWith c reason seq gathered) :=
  (engineOnly_freeCtx ..).trans (engineOnly_abandonMessage (s := s.freeCtx c.stream) h ..)

/-- With no probe AWAITING a message of stream 4094 is a stray (R76). -/
theorem engineOnly_routeMessage {d : Descriptor} (hd : d.stream = Config.probeStream) (seq : SeqNo) :
    EngineOnly s (s.routeMessage d seq) := by
  unfold State.routeMessage State.offerToProbe
  rw [if_neg (by rw [hd]; decide), if_pos hd]
  simp only [h, Bool.false_eq_true, if_false]
  exact (engineOnly_returnRx ..).trans (engineOnly_report ..)

theorem engineOnly_truncateOpen (sl : Slice) : EngineOnly s (s.truncateOpen sl) := by
  unfold State.truncateOpen
  split
  · exact engineOnly_abandonOpen h ..
  · exact .refl s

theorem engineOnly_applyGap (sl : Slice) (gap : Bool) : EngineOnly s (s.applyGap sl gap) := by
  unfold State.applyGap
  split
  · split
    · exact engineOnly_abandonOpen h ..
    · exact .refl s
  · exact .refl s

theorem engineOnly_rejectFirst (sl : Slice) (reason : AbandonReason) : EngineOnly s (s.rejectFirst sl reason) :=
  (engineOnly_toDiscarding ..).trans (engineOnly_abandonMessage (s := s.toDiscarding sl.stream) h ..)

theorem engineOnly_takeFirst (sl : Slice) (p : Path) : EngineOnly s (s.takeFirst sl p) := by
  have hopen := engineOnly_truncateOpen h sl
  have h' : (s.truncateOpen sl).probeAwaiting = false := hopen.probeAwaiting.trans h
  refine hopen.trans (EngineOnly.ite ?_ (EngineOnly.ite ?_ (EngineOnly.ite ?_ ?_)))
  · exact engineOnly_rejectFirst h' ..
  · exact engineOnly_rejectFirst h' ..
  · exact engineOnly_rejectFirst h' ..
  · exact (engineOnly_notDiscarding ..).trans (engineOnly_bindCtx ..)

theorem engineOnly_takeMiddle (sl : Slice) (p : Path) : EngineOnly s (s.takeMiddle sl p) := by
  unfold State.takeMiddle
  split
  · exact (engineOnly_orphanSlice ..).trans (engineOnly_toDiscarding ..)
  · split
    · exact (engineOnly_toDiscarding ..).trans (engineOnly_abandonWith (s := s.toDiscarding sl.stream) h ..)
    · exact (engineOnly_freeCtx ..).trans (engineOnly_bindCtx ..)

theorem engineOnly_takeLast {sl : Slice} (hk : sl.stream = Config.probeStream) (p : Path) :
    EngineOnly s (s.takeLast sl p) := by
  unfold State.takeLast
  split
  · exact (engineOnly_orphanSlice ..).trans (engineOnly_notDiscarding ..)
  · refine (engineOnly_notDiscarding s sl.stream).trans (EngineOnly.ite ?_ (EngineOnly.ite ?_ ?_))
    · exact engineOnly_abandonWith (s := s.notDiscarding sl.stream) h ..
    · exact engineOnly_abandonWith (s := s.notDiscarding sl.stream) h ..
    · exact (engineOnly_freeCtx ..).trans
        (engineOnly_routeMessage (s := (s.notDiscarding sl.stream).freeCtx sl.stream) h hk _)

theorem engineOnly_takeOnly {sl : Slice} (hk : sl.stream = Config.probeStream) (p : Path) :
    EngineOnly s (s.takeOnly sl p) := by
  have hopen := (engineOnly_truncateOpen h sl).trans (engineOnly_notDiscarding _ sl.stream)
  have h' : ((s.truncateOpen sl).notDiscarding sl.stream).probeAwaiting = false := hopen.probeAwaiting.trans h
  refine hopen.trans (EngineOnly.ite ?_ (EngineOnly.ite ?_ ?_))
  · exact engineOnly_abandonMessage h' ..
  · exact engineOnly_abandonMessage h' ..
  · exact engineOnly_routeMessage h' hk _

theorem engineOnly_engineSlice {sl : Slice} (hk : sl.stream = Config.probeStream) (p : Path) (gap : Bool) :
    EngineOnly s (s.engineSlice sl p gap) := by
  have hgap := engineOnly_applyGap h sl gap
  have h' : (s.applyGap sl gap).probeAwaiting = false := hgap.probeAwaiting.trans h
  unfold State.engineSlice
  cases sl.pos with
  | first => exact hgap.trans (engineOnly_takeFirst h' ..)
  | middle => exact hgap.trans (engineOnly_takeMiddle h' ..)
  | last => exact hgap.trans (engineOnly_takeLast h' hk _)
  | only => exact hgap.trans (engineOnly_takeOnly h' hk _)

theorem engineOnly_engineAbandon (k : Nat) (reason : AbandonReason) : EngineOnly s (s.engineAbandon k reason) := by
  unfold State.engineAbandon
  split
  · exact engineOnly_abandonOpen h ..
  · exact engineOnly_notDiscarding ..

theorem engineOnly_engineItem {it : Item} (hk : it.stream = Config.probeStream) : EngineOnly s (s.engineItem it) := by
  cases it with
  | slice sl p gap => exact engineOnly_engineSlice h hk p gap
  | abandon k reason => exact engineOnly_engineAbandon h k reason

end NotAwaiting

theorem engineOnly_drainItems : ∀ (fuel : Nat) {s : State}, s.probeAwaiting = false →
    EngineOnly s (State.drainItems Config.probeStream fuel s)
  | 0, s, _ => .refl s
  | fuel + 1, s, h => by
    unfold State.drainItems
    split
    · next it hit =>
      have htaken : EngineOnly s ((s.dropItem Config.probeStream).engineItem it) :=
        (engineOnly_dropItem ..).trans
          (engineOnly_engineItem (s := s.dropItem Config.probeStream) h (nextItem_stream hit))
      exact htaken.trans (engineOnly_drainItems fuel (htaken.probeAwaiting.trans h))
    · exact .refl s

/-- While a request waits to be carried out no probe runs. -/
theorem probeAwaiting_of_executes {s : State} {r : Request} {kind : ReqKind} (h : s.executes r kind) :
    s.probeAwaiting = false := by
  unfold State.probeAwaiting
  rw [h.2]

end Sys2Proof.Machine
end

