-- ==== Sys2Proof/Proofs/CapacitySteps.lean ====
section
/-! PROOF. Every effect keeps the contexts, lanes, transmit FIFO, shares and log within their sizes, and each share to its
source's requests. -/

namespace Sys2Proof.Machine

section Kept

variable {s t u : State}

/-- The change made last is named first: what leads up to it is read off the states. -/
theorem CapacitiesKept.after (h : CapacitiesKept t u) (h' : CapacitiesKept s t) : CapacitiesKept s u := h'.trans h

theorem kept_withExecutor (s : State) (x : Executor) : CapacitiesKept s (s.withExecutor x) :=
  ⟨id, id, id, id, id, id⟩

theorem kept_stopped (s : State) : CapacitiesKept s s.stopped where
  ctxs _ := Nat.zero_le _
  lanes h := ⟨⟨Nat.zero_le _, h.1.2⟩, ⟨Nat.zero_le _, h.2.2⟩⟩
  tx _ := Nat.zero_le _
  shares _ := ⟨Nat.zero_le _, Nat.zero_le _⟩
  log h := h
  sources _ := ⟨fun _ hr => by simp [State.stopped, State.reset] at hr,
    fun _ hr => by simp [State.stopped, State.reset] at hr⟩

theorem kept_atRelease (s : State) : CapacitiesKept s s.atRelease where
  ctxs _ := Nat.zero_le _
  lanes _ := ⟨⟨Nat.zero_le _, Nat.zero_le _, Nat.zero_lt_succ _⟩, ⟨Nat.zero_le _, Nat.zero_le _, Nat.zero_lt_succ _⟩⟩
  tx _ := Nat.zero_le _
  shares _ := ⟨Nat.zero_le _, Nat.zero_le _⟩
  log _ := Nat.zero_le _
  sources _ := ⟨fun _ hr => by simp [State.atRelease, State.reset] at hr,
    fun _ hr => by simp [State.atRelease, State.reset] at hr⟩

theorem kept_endSweep (s : State) (r : Request) (n : Nat) : CapacitiesKept s (s.endSweep r n) :=
  (kept_respond ..).after ⟨id, id, id, id, id, id⟩

theorem kept_startSweep (s : State) (r : Request) (l : List Nat) : CapacitiesKept s (s.startSweep r l) := by
  rcases startSweep_cases s r l with ⟨-, hsweep⟩ | ⟨-, hsweep⟩ <;> rw [hsweep]
  · exact kept_endSweep ..
  · exact ⟨id, id, id, id, id, id⟩

theorem capLane_atSwap {l : Lane} (h : capLane l) (before after : Bool) : capLane (l.atSwap before after) := by
  obtain ⟨hfifo, hcounts⟩ := h
  unfold Lane.atSwap
  split
  · exact ⟨hfifo, Nat.zero_le 6, Nat.zero_lt_succ 3⟩
  · split
    · exact ⟨hfifo, Nat.zero_le 6, Nat.zero_lt_succ 3⟩
    · exact ⟨hfifo, hcounts⟩

theorem kept_commitSwap (s : State) (x : Session) : CapacitiesKept s (s.commitSwap x) :=
  ⟨id, fun h => ⟨capLane_atSwap h.1 .., capLane_atSwap h.2 ..⟩, id, id, id, id⟩

/-- A transmit FIFO that does not grow, with the rest of the slicer as it may be. -/
theorem kept_slicer (s : State) {x : Slicer} (h : x.fifo.length ≤ s.slicer.fifo.length) :
    CapacitiesKept s { s with slicer := x } :=
  ⟨id, id, fun hs => by dsimp only at hs ⊢; omega, id, id, id⟩

theorem kept_backboneTake {r : Request} {rest : List Request} {n : Nat} (hr : s.mgmt.bbShare = r :: rest) :
    CapacitiesKept s { s with mgmt := { s.mgmt with bbShare := rest, bbBufs := n } } where
  ctxs := id
  lanes := id
  tx := id
  shares h := by
    rw [hr, List.length_cons] at h
    exact ⟨Nat.le_of_succ_le h.1, h.2⟩
  log := id
  sources h := ⟨fun x hx => h.1 x (hr ▸ List.mem_cons_of_mem r hx), h.2⟩

/-- A local take frees the place that a waiting MGMT header reserves (R102). -/
theorem kept_localTake {r : Request} {rest : List Request} {n : Nat} (hr : s.mgmt.lpShare = r :: rest) :
    CapacitiesKept s
      (State.wakeMgmtHeader { s with mgmt := { s.mgmt with lpShare := rest, lpBufs := n } }) := by
  have hsources : s.sharesSorted → (∀ x ∈ s.mgmt.bbShare, x.source = .backbone) ∧ ∀ x ∈ rest, x.source = .localPort :=
    fun h => ⟨h.1, fun x hx => h.2 x (hr ▸ List.mem_cons_of_mem r hx)⟩
  have hshares : s.mgmt.lpShare.length = rest.length + 1 := by rw [hr, List.length_cons]
  unfold State.wakeMgmtHeader
  split
  · next hsub =>
    refine ⟨id, id, fun h => ?_, fun h => ⟨h.1, ?_⟩, id, hsources⟩
    · have hentry : reservedEntry s.sub = 0 := congrArg reservedEntry hsub
      rw [hentry] at h
      exact h
    · show rest.length + 1 ≤ 4
      omega
  all_goals exact ⟨id, id, id, fun h => ⟨h.1, by show rest.length + reservedPlace s.sub ≤ 4; omega⟩, id, hsources⟩

end Kept

theorem Effect.kept {s t : State} {c : Instr} (h : Effect s c t) : CapacitiesKept s t := by
  cases h with
  | nothing => exact .refl s
  | stopped => exact kept_stopped s
  | hardReset => exact kept_atRelease s
  | powerOn => exact kept_atRelease s
  | lanes h => exact h.kept
  | reoffered h hj => exact h.kept.trans (kept_offerSlice ..)
  | sliceTaken h => exact (kept_nextSlice h).trans (kept_takeSlice ..)
  | expired h => exact kept_expireDue ..
  | flushed => exact kept_flush ..
  | held h hx => exact ⟨id, id, id, id, id, id⟩
  | visited h hx => exact (kept_withExecutor ..).trans (kept_flush ..)
  | sweepEnded h => exact kept_endSweep ..
  | engineTook h => exact (kept_dropItem ..).trans (kept_engineSlice ..)
  | engineAbandoned h => exact (kept_dropItem ..).trans (kept_engineAbandon ..)
  | stalled h => exact ((kept_freeCtx ..).trans (kept_toDiscarding ..)).trans (kept_abandonMessage ..)
  | holdLevel => exact ⟨id, id, id, id, id, id⟩
  | transferStarted => exact (kept_startTransfer _).after ⟨id, id, id, id, id, id⟩
  | dataEnded h out => exact (kept_returnRx ..).after ⟨id, id, id, id, id, id⟩
  | responseEnded h out => exact (kept_freeBuffer ..).after ⟨id, id, id, id, id, id⟩
  | byteTaken => exact kept_takeByte ..
  | retried h => exact kept_tryLoadData s _ _ (by rw [h]; rfl)
  | outputTaken hs ho => exact kept_slicer s (le_refl _)
  | frameTaken hs hf => exact kept_slicer s (by rw [hf]; simp)
  | cutToLoop hs hp seqs loop => exact (kept_sliceDone ..).after (kept_slicer s (le_refl _))
  | cutToLanes hs hp sl el => exact (kept_advanceSeq ..).trans (kept_offerSlice ..)
  | backboneTaken hx hr hb => exact (kept_backboneTake hr).trans (kept_startRequest ..)
  | localTaken hx hr hb => exact (kept_localTake hr).trans (kept_startRequest ..)
  | answered h => exact kept_respond ..
  | flushAnswered h => exact (kept_flush ..).trans (kept_respond ..)
  | cleared h hf => exact (kept_respond ..).after ⟨id, id, id, id, fun hlog => hf.trans hlog, id⟩
  | laneRestarted h => exact h.kept.trans (kept_partDone ..)
  | mergeRestarted => exact (kept_partDone ..).after ⟨id, id, id, id, id, id⟩
  | engineRestarted => exact (kept_partDone ..).after ⟨fun _ => Nat.zero_le _, id, id, id, id, id⟩
  | deliveryRestarted =>
    exact ((kept_partDone ..).after (kept_cutTransfer _)).after ⟨id, id, id, id, id, id⟩
  | submissionDropped hn left =>
    exact ((kept_returnTx ..).trans (kept_setSub_free _ _ rfl rfl)).trans (kept_partDone ..)
  | slicerRestarted h =>
    refine CapacitiesKept.trans ?_ (kept_partDone ..)
    refine CapacitiesKept.trans ?_ (kept_slicer _ (Nat.zero_le _))
    split
    · exact (kept_returnTx ..).trans (kept_freeBuffer ..)
    · exact kept_returnTx ..
  | prepared h x => exact (kept_respond ..).after ⟨id, id, id, id, id, id⟩
  | sessionSet h hx => exact (kept_setSession ..).trans (kept_respond ..)
  | recordsWritten h hx ho hj => exact (kept_respond ..).after ⟨id, id, id, id, id, id⟩
  | committed h hx ho => exact (kept_commitSwap ..).trans (kept_startSweep ..)
  | idleTimedOut => exact (kept_setSession ..).trans (kept_report _ _ fun _ => rfl)
  | probeStarted h => exact kept_startProbe ..
  | probeEnded result reason => exact kept_endProbe ..

end Sys2Proof.Machine
end

