-- ==== Sys2Proof/Proofs/BufferSteps.lean ====
section
/-! PROOF. Every step accounts for every response buffer (R94, R108, R126): a take brings one into use, and it stays with the
executing request, with its response while that waits, and with the response that leaves. -/

namespace Sys2Proof.Machine

theorem buffersAccounted_iff (s : State) : s.buffersAccounted ↔ s.buffered 0 0 ∧ s.sharesSorted := by
  simp only [State.buffersAccounted, State.buffered, and_assoc]
  constructor
  · rintro ⟨hb, hl, hmaxb, hmaxl, hsorted⟩
    exact ⟨by omega, by omega, hmaxb, hmaxl, hsorted⟩
  · rintro ⟨hb, hl, hmaxb, hmaxl, hsorted⟩
    exact ⟨by omega, by omega, hmaxb, hmaxl, hsorted⟩

section Balance

variable {s t : State} {eb el : Int}

/-- What the account of buffers turns on. -/
theorem buffered_of_fields (h : s.buffered eb el) (hb : t.mgmt.bbBufs = s.mgmt.bbBufs)
    (hl : t.mgmt.lpBufs = s.mgmt.lpBufs)
    (hx : ∀ src, executingFor src t.mgmt.executor = executingFor src s.mgmt.executor)
    (ho : t.slicer.outputs = s.slicer.outputs) (hj : t.slicer.state = s.slicer.state)
    (hq : t.delivery.mq = s.delivery.mq) (htr : t.delivery.transfer = s.delivery.transfer) : t.buffered eb el := by
  unfold State.buffered
  rw [hb, hl, hx, hx, ho, hj, hq, htr]
  exact h

/-- With no request executing and no response anywhere no buffer is in use. -/
theorem buffered_of_empty (hb : s.mgmt.bbBufs = 0) (hl : s.mgmt.lpBufs = 0) (hx : s.mgmt.executor = .idle)
    (ho : s.slicer.outputs = []) (hj : s.slicer.state = .idle) (hq : s.delivery.mq = [])
    (htr : s.delivery.transfer = none) : s.buffered 0 0 := by
  unfold State.buffered
  rw [hb, hl, hx, ho, hj, hq, htr]
  exact ⟨rfl, rfl, Nat.zero_le _, Nat.zero_le _⟩

theorem Untouched.buffered (hu : Untouched s t) (h : s.buffered eb el) : t.buffered eb el :=
  h.congr hu.mgmt hu.slicer hu.delivery

theorem untouched_nextSlice_buffered {p : Path} {sl : Slice} (h : s.buffered eb el)
    (hn : s.nextSlice p = some (sl, t)) : t.buffered eb el := by
  unfold State.nextSlice at hn
  cases p <;> dsimp only at hn <;> split at hn <;> cases hn
  all_goals exact buffered_of_fields h rfl rfl (fun _ => rfl) rfl rfl rfl rfl

theorem buffered_serves_respond {r : Request} (h : s.buffered eb el) (hr : s.mgmt.executor.serves r) (status : Status)
    (data : List Byte) : (s.respond r status data).buffered eb el :=
  buffered_respond_executing status data h hr.1

/-- The executor goes on to hold the same request in another way. -/
theorem buffered_withExecutor {r : Request} {x : Executor} {n : Nat} (h : s.buffered eb el)
    (hr : s.mgmt.executor.serves r) (hx : x.serves r) :
    State.buffered { s with mgmt := { s.mgmt with executor := x, choices := n } } eb el :=
  buffered_of_fields h rfl rfl (fun src => (hx.1 src).trans (hr.1 src).symm) rfl rfl rfl rfl

theorem buffered_setSession (x : Option Session) (h : s.buffered eb el) : (s.setSession x).buffered eb el :=
  buffered_of_fields h rfl rfl (fun _ => rfl) rfl rfl rfl rfl

theorem buffered_endSweep {r : Request} (n : Nat) (h : s.buffered eb el) (hr : s.mgmt.executor.serves r) :
    (s.endSweep r n).buffered eb el :=
  buffered_respond_executing _ _ (buffered_of_fields h rfl rfl (fun _ => rfl) rfl rfl rfl rfl) hr.1

theorem buffered_startSweep {r : Request} (l : List Nat) (h : s.buffered eb el) (hr : s.mgmt.executor.serves r) :
    (s.startSweep r l).buffered eb el := by
  rcases startSweep_cases s r l with ⟨-, hsweep⟩ | ⟨-, hsweep⟩ <;> rw [hsweep]
  · exact buffered_endSweep 0 h hr
  · exact buffered_withExecutor (n := s.mgmt.choices) h hr (serves_sweeping ..)

/-! ## Transfers -/

/-- The arbiter moves the head of MQ into the transfer, or leaves MQ as it is (R95). -/
theorem choose_responses {d d' : Delivery} {t : Transfer} (h : d.choose = some (t, d')) :
    d'.mq.length + transferringResponse (some t) = d.mq.length := by
  unfold Delivery.choose at h
  split at h
  · next hmq => cases h; rw [hmq]; rfl
  · split at h
    · cases h; rfl
    · split at h
      · cases h; rfl
      · split at h
        · cases h; rfl
        · split at h
          · cases h; rfl
          · cases h

theorem buffered_startTransfer (h : s.buffered eb el) : s.startTransfer.buffered eb el := by
  rcases startTransfer_cases s with hs | ⟨hnone, t, d, hc, hs⟩ <;> rw [hs]
  · exact h
  · obtain ⟨hb, hl, hmax⟩ := h
    refine ⟨hb, ?_, hmax⟩
    have hmq := choose_responses hc
    rw [hnone] at hl
    show (s.mgmt.lpBufs : Int)
      = executingFor .localPort s.mgmt.executor + d.mq.length + transferringResponse (some t) + el
    rw [hl, ← hmq]
    simp only [transferringResponse]
    push_cast
    omega

/-- The end of a local response's transfer frees its buffer (R96). -/
theorem buffered_responseEnded {r : List Byte} (h : s.buffered 0 0) (htr : s.delivery.transfer = some (.mgmt r))
    (out : List OutByte) :
    (State.freeBuffer { s with delivery := { s.delivery with transfer := none, out := out, valid := true } }
      .localPort).buffered 0 0 := by
  obtain ⟨hb, hl, hmaxb, hmaxl⟩ := h
  rw [htr] at hl
  refine ⟨hb, ?_, hmaxb, le_trans (Nat.sub_le _ 1) hmaxl⟩
  show ((s.mgmt.lpBufs - 1 : Nat) : Int)
    = executingFor .localPort s.mgmt.executor + s.delivery.mq.length + (0 : Nat) + 0
  simp only [transferringResponse] at hl
  omega

theorem buffered_dataEnded {q : QueueId} {d : Descriptor} (h : s.buffered eb el)
    (htr : s.delivery.transfer = some (.data q d)) (out : List OutByte) (n : Nat) :
    (State.returnRx { s with delivery := { s.delivery with transfer := none, out := out, valid := true } }
      n).buffered eb el := by
  unfold State.buffered at h
  rw [htr] at h
  exact h

theorem buffered_cutTransfer (h : s.buffered eb el) : s.cutTransfer.buffered eb el := by
  unfold State.cutTransfer
  split
  · next htr => exact buffered_dataEnded h htr _ _
  · exact h
  · exact h

/-! ## The slicer -/

/-- An output taken by the slicer keeps its buffer while it is sliced (R108). -/
theorem buffered_outputTaken {o : Output} {rest : List Output} (h : s.buffered eb el) (hs : s.slicer.state = .idle)
    (ho : s.slicer.outputs = o :: rest) :
    State.buffered { s with slicer := { s.slicer with outputs := rest, state := .slicing (jobOfOutput o) } } eb el := by
  obtain ⟨hb, hrest⟩ := h
  rw [hs, ho] at hb
  refine ⟨?_, hrest⟩
  rw [hb]
  cases o with
  | response bytes => simp [waitingResponses, slicingResponse, jobOfOutput, newJob]; omega
  | probe bytes => simp [waitingResponses, slicingResponse, jobOfOutput, newJob]

theorem buffered_frameTaken {f : Frame} {rest : List Frame} (h : s.buffered eb el) (hs : s.slicer.state = .idle) :
    State.buffered { s with slicer := { s.slicer with fifo := rest, state := .slicing (jobOfFrame f) } } eb el := by
  unfold State.buffered at h
  rw [hs] at h
  exact h

/-- The slicer's restart frees the buffer of a response being sliced (R118). -/
theorem buffered_slicerRestart (h : s.buffered 0 0) (n : Nat) :
    State.buffered
      { (if slicingResponse s.slicer.state then (s.returnTx n).freeBuffer .backbone else s.returnTx n) with
        slicer := { s.slicer with fifo := [], state := .idle, seqs := [] } } 0 0 := by
  obtain ⟨hb, hl, hmaxb, hmaxl⟩ := h
  cases hresp : slicingResponse s.slicer.state with
  | true =>
    rw [hresp] at hb
    refine ⟨?_, hl, le_trans (Nat.sub_le _ 1) hmaxb, hmaxl⟩
    show ((s.mgmt.bbBufs - 1 : Nat) : Int)
      = executingFor .backbone s.mgmt.executor + waitingResponses s.slicer.outputs + (0 : Nat) + 0
    simp only [if_true] at hb
    omega
  | false =>
    rw [hresp] at hb
    exact ⟨hb, hl, hmaxb, hmaxl⟩

/-! ## Requests -/

theorem executingFor_idle (src : Source) : executingFor src .idle = 0 := rfl

/-- The buffer a take brings into use is that of the request taken. -/
theorem buffered_startRequest {r : Request} (h : s.buffered (r.from .backbone) (r.from .localPort))
    (hx : s.mgmt.executor = .idle) : (s.startRequest r).buffered 0 0 := by
  unfold State.startRequest
  split
  · refine (buffered_respond r _ _ h).to ?_ ?_ <;> rw [hx, executingFor_idle] <;> omega
  · obtain ⟨hb, hl, hmax⟩ := h
    rw [hx, executingFor_idle] at hb hl
    refine ⟨?_, ?_, hmax⟩
    · show (s.mgmt.bbBufs : Int) = r.from .backbone + waitingResponses s.slicer.outputs
        + (if slicingResponse s.slicer.state then 1 else 0 : Nat) + 0
      omega
    · show (s.mgmt.lpBufs : Int) = r.from .localPort + s.delivery.mq.length
        + transferringResponse s.delivery.transfer + 0
      omega

theorem buffered_wakeMgmtHeader (h : s.buffered eb el) : s.wakeMgmtHeader.buffered eb el := by
  unfold State.wakeMgmtHeader
  split
  · exact h.congr rfl rfl rfl
  all_goals exact h

theorem buffered_backboneTake {r : Request} {rest : List Request} (h : s.buffered 0 0)
    (hb : s.mgmt.bbBufs < Config.respBufs) (hr : r.source = .backbone) :
    State.buffered { s with mgmt := { s.mgmt with bbShare := rest, bbBufs := s.mgmt.bbBufs + 1 } }
      (r.from .backbone) (r.from .localPort) := by
  obtain ⟨hbb, hlp, -, hmaxl⟩ := h
  have hone : r.from .backbone = 1 ∧ r.from .localPort = 0 := by simp [Request.from, hr]
  rw [hone.1, hone.2]
  refine ⟨?_, hlp, hb, hmaxl⟩
  show ((s.mgmt.bbBufs + 1 : Nat) : Int)
    = executingFor .backbone s.mgmt.executor + waitingResponses s.slicer.outputs
      + (if slicingResponse s.slicer.state then 1 else 0 : Nat) + (1 : Nat)
  omega

theorem buffered_localTake {r : Request} {rest : List Request} (h : s.buffered 0 0)
    (hb : s.mgmt.lpBufs < Config.respBufs) (hr : r.source = .localPort) :
    State.buffered { s with mgmt := { s.mgmt with lpShare := rest, lpBufs := s.mgmt.lpBufs + 1 } }
      (r.from .backbone) (r.from .localPort) := by
  obtain ⟨hbb, hlp, hmaxb, -⟩ := h
  have hone : r.from .backbone = 0 ∧ r.from .localPort = 1 := by simp [Request.from, hr]
  rw [hone.1, hone.2]
  refine ⟨hbb, ?_, hmaxb, hb⟩
  show ((s.mgmt.lpBufs + 1 : Nat) : Int)
    = executingFor .localPort s.mgmt.executor + s.delivery.mq.length + transferringResponse s.delivery.transfer
      + (1 : Nat)
  omega

/-- While the engine takes what stream 4094 has waiting, the PROBE request stays the one executing (log 9). -/
theorem buffered_startProbe {r : Request} (n : Nat) (seed : Byte) (h : s.buffered 0 0) (hr : s.executes r .probe) :
    (s.startProbe r n seed).buffered 0 0 := by
  have hdrained : EngineOnly (s.flush Config.probeStream .flushed)
      (State.drainItems Config.probeStream (s.flush Config.probeStream .flushed).engine.items.length
        (s.flush Config.probeStream .flushed)) :=
    engineOnly_drainItems _ (probeAwaiting_of_executes hr)
  have hbuffered : (State.drainItems Config.probeStream (s.flush Config.probeStream .flushed).engine.items.length
      (s.flush Config.probeStream .flushed)).buffered 0 0 :=
    buffered_drainItems _ _ ((untouched_flush ..).buffered h)
  obtain ⟨hbb, hlp, hmax⟩ := hbuffered
  rw [hdrained.mgmt, State.flush_mgmt, hr.2] at hbb hlp
  refine ⟨?_, ?_, hmax⟩
  · unfold State.startProbe
    simp only [waitingResponses_append]
    rw [hdrained.mgmt, State.flush_mgmt, hbb]
    rfl
  · unfold State.startProbe
    simp only
    rw [hdrained.mgmt, State.flush_mgmt, hlp]
    rfl

end Balance

/-! ## Every step -/

theorem Effect.buffered {s t : State} {c : Instr} (h : Effect s c t) (hs : s.buffered 0 0) (hsorted : s.sharesSorted) :
    t.buffered 0 0 := by
  cases h with
  | nothing => exact hs
  | stopped => exact buffered_of_empty rfl rfl rfl rfl rfl rfl rfl
  | hardReset => exact buffered_of_empty rfl rfl rfl rfl rfl rfl rfl
  | powerOn => exact buffered_of_empty rfl rfl rfl rfl rfl rfl rfl
  | lanes h => exact h.untouched.buffered hs
  | reoffered h hj =>
    exact buffered_offerSlice _ _ _ (h.untouched.buffered hs) (le_refl 0) (by rw [h.untouched.slicer, hj]; rfl)
  | sliceTaken h => exact (untouched_takeSlice ..).buffered (untouched_nextSlice_buffered hs h)
  | expired h => exact (untouched_expireDue ..).buffered hs
  | flushed => exact (untouched_flush ..).buffered hs
  | held h hx => exact buffered_withExecutor hs h hx
  | visited h hx =>
    exact (untouched_flush ..).buffered (buffered_withExecutor (n := s.mgmt.choices) hs h hx)
  | sweepEnded h => exact buffered_endSweep _ hs h
  | engineTook h => exact buffered_engineSlice _ _ _ (hs.congr rfl rfl rfl)
  | engineAbandoned h => exact buffered_engineAbandon _ _ (hs.congr rfl rfl rfl)
  | stalled h => exact buffered_abandonMessage _ _ _ _ _ (hs.congr rfl rfl rfl)
  | holdLevel => exact buffered_of_fields hs rfl rfl (fun _ => rfl) rfl rfl rfl rfl
  | transferStarted => exact buffered_startTransfer (buffered_of_fields hs rfl rfl (fun _ => rfl) rfl rfl rfl rfl)
  | dataEnded h out => exact buffered_dataEnded hs h out _
  | responseEnded h out => exact buffered_responseEnded hs h out
  | byteTaken => exact buffered_takeByte _ _ _ hs
  | retried h =>
    rw [tryLoadData_eq]
    split
    · exact hs.congr rfl rfl rfl
    · exact hs.congr rfl rfl rfl
  | outputTaken hi ho => exact buffered_outputTaken hs hi ho
  | frameTaken hi hf => exact buffered_frameTaken hs hi
  | cutToLoop hi hp seqs loop =>
    exact buffered_sliceDone _ (buffered_of_fields hs rfl rfl (fun _ => rfl) rfl rfl rfl rfl) (le_refl 0)
      (congrArg slicingResponse hi)
  | cutToLanes hi hp sl el =>
    exact buffered_offerSlice _ _ _ (buffered_of_fields hs rfl rfl (fun _ => rfl) rfl rfl rfl rfl) (le_refl 0)
      (congrArg slicingResponse hi)
  | backboneTaken hx hr hb =>
    exact buffered_startRequest (buffered_backboneTake hs hb (hsorted.1 _ (hr ▸ List.mem_cons_self))) hx
  | localTaken hx hr hb =>
    refine buffered_startRequest
      (buffered_wakeMgmtHeader (buffered_localTake hs hb (hsorted.2 _ (hr ▸ List.mem_cons_self)))) ?_
    unfold State.wakeMgmtHeader
    split <;> exact hx
  | answered h => exact buffered_serves_respond hs h _ _
  | flushAnswered h => exact buffered_serves_respond ((untouched_flush ..).buffered hs) h _ _
  | cleared h hf => exact buffered_serves_respond (s := s.report _) (hs.congr rfl rfl rfl) h _ _
  | laneRestarted h => exact buffered_partDone _ (h.untouched.buffered hs)
  | mergeRestarted => exact buffered_partDone _ (hs.congr rfl rfl rfl)
  | engineRestarted => exact buffered_partDone _ (hs.congr rfl rfl rfl)
  | deliveryRestarted =>
    exact buffered_partDone _
      (buffered_cutTransfer (buffered_of_fields hs rfl rfl (fun _ => rfl) rfl rfl rfl rfl))
  | submissionDropped hn left => exact buffered_partDone _ (hs.congr rfl rfl rfl)
  | slicerRestarted h => exact buffered_partDone _ (buffered_slicerRestart hs _)
  | @prepared r mode _ _ h x =>
    have hserves : s.mgmt.executor.serves r := by rw [h]; exact serves_preparing ..
    have hset : State.buffered
        { s with
          table := s.prepared mode
          mgmt := { s.mgmt with session := some x, sessionCounter := nextNumber s.mgmt.sessionCounter } } 0 0 :=
      buffered_of_fields hs rfl rfl (fun _ => rfl) rfl rfl rfl rfl
    exact buffered_serves_respond hset hserves _ _
  | @sessionSet _ _ x _ _ h hx => exact buffered_serves_respond (buffered_setSession x hs) h _ _
  | @recordsWritten _ _ y _ _ _ recs h hx ho hj =>
    have hwritten : State.buffered (State.setSession { s with table := s.table.writeRecs recs } (some y)) 0 0 :=
      buffered_of_fields hs rfl rfl (fun _ => rfl) rfl rfl rfl rfl
    exact buffered_serves_respond hwritten h _ _
  | @committed _ x h hx ho =>
    have hswapped : (s.commitSwap x).buffered 0 0 := buffered_of_fields hs rfl rfl (fun _ => rfl) rfl rfl rfl rfl
    exact buffered_startSweep _ hswapped h
  | idleTimedOut => exact buffered_of_fields hs rfl rfl (fun _ => rfl) rfl rfl rfl rfl
  | probeStarted h => exact buffered_startProbe _ _ hs h
  | probeEnded result reason => exact buffered_endProbe _ _ _ _ _ hs

theorem Effect.buffersAccounted {s t : State} {c : Instr} (h : Effect s c t) (hs : s.buffersAccounted) :
    t.buffersAccounted := by
  obtain ⟨hbuffered, hsorted⟩ := (buffersAccounted_iff s).1 hs
  exact (buffersAccounted_iff t).2 ⟨h.buffered hbuffered hsorted, h.kept.sources hsorted⟩

theorem tick_mgmt (s : State) : s.tick.mgmt = s.mgmt := by
  unfold State.tick
  split <;> rfl

theorem buffersAccounted_tick {s : State} (h : s.buffersAccounted) : s.tick.buffersAccounted := by
  obtain ⟨hbuffered, hsorted⟩ := (buffersAccounted_iff s).1 h
  refine (buffersAccounted_iff _).2 ⟨?_, by unfold State.sharesSorted; rw [tick_mgmt]; exact hsorted⟩
  unfold State.tick
  split
  · exact hbuffered
  · exact buffered_of_fields hbuffered rfl rfl (fun _ => rfl) rfl rfl (Delivery.present_mq _)
      (Delivery.present_transfer _)

/-- Settles O57, by the balance of buffers in use and responses that every effect keeps. -/
theorem everyStepAccountsForBuffers : Obligations.EveryStepAccountsForBuffers := fun _ _ hs h =>
  step_keeps (P := State.buffersAccounted) (fun _ _ hs => hs) (fun _ => buffersAccounted_tick)
    (fun _ _ _ heffect => heffect.buffersAccounted) hs h

end Sys2Proof.Machine
end

