-- ==== Sys2Proof/Proofs/Asides.lean ====
section
/-! PROOF. Which of the stream table, the merge unit, the engine and the load session each shared operation leaves as they were. -/

namespace Sys2Proof.Machine

/-! ## Operations of the engine leave the table, the merge unit and the load session -/

/-- The stream table, the merge unit and the load session are as they were. -/
structure MergeAside (s t : State) : Prop where
  table : t.table = s.table
  merge : t.merge = s.merge
  session : t.mgmt.session = s.mgmt.session

theorem MergeAside.refl (s : State) : MergeAside s s := ⟨rfl, rfl, rfl⟩

theorem MergeAside.trans {s t u : State} (h : MergeAside s t) (h' : MergeAside t u) : MergeAside s u :=
  ⟨h'.table.trans h.table, h'.merge.trans h.merge, h'.session.trans h.session⟩

theorem MergeAside.after {s t u : State} (h : MergeAside t u) (h' : MergeAside s t) : MergeAside s u := h'.trans h

theorem MergeAside.ite {s t u : State} {p : Prop} [Decidable p] (h : MergeAside s t) (h' : MergeAside s u) :
    MergeAside s (if p then t else u) := by
  split <;> assumption

/-- The engine is as it was too. -/
structure Aside (s t : State) : Prop extends MergeAside s t where
  engine : t.engine = s.engine

theorem Aside.refl (s : State) : Aside s s := ⟨.refl s, rfl⟩

theorem Aside.trans {s t u : State} (h : Aside s t) (h' : Aside t u) : Aside s u :=
  ⟨h.toMergeAside.trans h'.toMergeAside, h'.engine.trans h.engine⟩

theorem Aside.after {s t u : State} (h : Aside t u) (h' : Aside s t) : Aside s u := h'.trans h

theorem Aside.ite {s t u : State} {p : Prop} [Decidable p] (h : Aside s t) (h' : Aside s u) :
    Aside s (if p then t else u) := by
  split <;> assumption

theorem aside_report (s : State) (f : Stats → Stats) : Aside s (s.report f) := ⟨⟨rfl, rfl, rfl⟩, rfl⟩

theorem aside_returnRx (s : State) (n : Nat) : Aside s (s.returnRx n) := ⟨⟨rfl, rfl, rfl⟩, rfl⟩

theorem aside_returnTx (s : State) (n : Nat) : Aside s (s.returnTx n) := ⟨⟨rfl, rfl, rfl⟩, rfl⟩

theorem aside_setSub (s : State) (x : Submission) : Aside s (s.setSub x) := ⟨⟨rfl, rfl, rfl⟩, rfl⟩

theorem aside_setSlicer (s : State) (x : SlicerState) : Aside s (s.setSlicer x) := ⟨⟨rfl, rfl, rfl⟩, rfl⟩

theorem aside_lanesOnly {s t : State} (h : LanesOnly s t) : Aside s t := by
  rw [h.rest]; exact ⟨⟨rfl, rfl, rfl⟩, rfl⟩

theorem aside_freeBuffer (s : State) (src : Source) : Aside s (s.freeBuffer src) := by
  cases src <;> exact ⟨⟨rfl, rfl, rfl⟩, rfl⟩

theorem aside_respond (s : State) (r : Request) (status : Status) (data : List Byte) :
    Aside s (s.respond r status data) :=
  ⟨⟨State.respond_table .., State.respond_merge .., by rw [State.respond_mgmt]⟩, State.respond_engine ..⟩

theorem aside_endProbe (s : State) (result reason : Byte) (n off : Nat) (l : LaneSet) :
    Aside s (s.endProbe result reason n off l) := by
  unfold State.endProbe
  split
  · split
    · exact aside_respond ..
    · exact .refl s
  all_goals exact .refl s

theorem aside_abandonMessage (s : State) (k : Nat) (reason : AbandonReason) (seq : SeqNo) (gathered n : Nat) :
    Aside s (s.abandonMessage k reason seq gathered n) := by
  unfold State.abandonMessage State.informProbe
  refine Aside.ite ?_ ((aside_returnRx s n).trans (aside_report ..))
  exact ((aside_returnRx s n).trans (aside_report ..)).trans (aside_endProbe ..)

theorem aside_partDone (s : State) (p : Part) : Aside s (s.partDone p) := by
  unfold State.partDone
  split
  · split
    · exact aside_respond ..
    · exact ⟨⟨rfl, rfl, rfl⟩, rfl⟩
  all_goals exact .refl s

theorem aside_startTransfer (s : State) : Aside s s.startTransfer := by
  rcases startTransfer_cases s with hs | ⟨-, t, d, -, hs⟩ <;> rw [hs]
  · exact .refl s
  · exact ⟨⟨rfl, rfl, rfl⟩, rfl⟩

theorem aside_cutTransfer (s : State) : Aside s s.cutTransfer := by
  unfold State.cutTransfer
  split
  · exact ⟨⟨rfl, rfl, rfl⟩, rfl⟩
  · exact .refl s
  · exact .refl s

theorem aside_probeSent (s : State) (n : Nat) : Aside s (s.probeSent n) := by
  unfold State.probeSent
  split
  · exact ⟨⟨rfl, rfl, rfl⟩, rfl⟩
  all_goals exact .refl s

theorem aside_messageSliced (s : State) (j : Job) : Aside s (s.messageSliced j) := by
  unfold State.messageSliced
  split
  · exact .refl s
  · exact aside_freeBuffer ..
  · exact aside_probeSent ..

theorem aside_sliceDone (s : State) (j : Job) : Aside s (s.sliceDone j) := by
  have hreturned : Aside s (if j.kind = .data then s.returnTx 1 else s) := Aside.ite (aside_returnTx s 1) (.refl s)
  exact Aside.ite ((hreturned.trans (aside_messageSliced ..)).trans (aside_setSlicer ..))
    (hreturned.trans (aside_setSlicer ..))

theorem aside_offerSlice (s : State) (j : Job) (sl : Slice) (el : LaneSet) : Aside s (s.offerSlice j sl el) := by
  rcases offerSlice_cases s j sl el with hs | ⟨A, B, st, hs, -⟩ <;> rw [hs]
  · exact aside_setSlicer ..
  · exact (aside_sliceDone ..).after ⟨⟨rfl, rfl, rfl⟩, rfl⟩

theorem aside_tryLoadData (s : State) (k n : Nat) : Aside s (s.tryLoadData k n) := by
  rw [tryLoadData_eq]
  exact Aside.ite ⟨⟨rfl, rfl, rfl⟩, rfl⟩ ⟨⟨rfl, rfl, rfl⟩, rfl⟩

theorem aside_headerDone (s : State) (hdr : List Byte) (e : Bool) : Aside s (s.headerDone hdr e) := by
  refine Aside.ite ⟨⟨rfl, rfl, rfl⟩, rfl⟩ (Aside.ite ?_ ?_)
  · exact Aside.ite ⟨⟨rfl, rfl, rfl⟩, rfl⟩ (Aside.ite ⟨⟨rfl, rfl, rfl⟩, rfl⟩ ⟨⟨rfl, rfl, rfl⟩, rfl⟩)
  · unfold State.judgeDataHeader
    dsimp only
    split
    · exact ⟨⟨rfl, rfl, rfl⟩, rfl⟩
    · exact aside_tryLoadData ..

theorem aside_takeByte (s : State) (b : Byte) (st e : Bool) : Aside s (s.takeByte b st e) := by
  have hput : ∀ x, Aside s (s.setSub x) := aside_setSub s
  unfold State.takeByte
  split
  · exact Aside.ite (hput _) (.refl s)
  · exact Aside.ite (hput _) (aside_headerDone ..)
  · exact .refl s
  · exact .refl s
  · exact Aside.ite (Aside.ite ⟨⟨rfl, rfl, rfl⟩, rfl⟩ (hput _)) (Aside.ite ⟨⟨rfl, rfl, rfl⟩, rfl⟩ ⟨⟨rfl, rfl, rfl⟩, rfl⟩)
  · exact Aside.ite (Aside.ite ⟨⟨rfl, rfl, rfl⟩, rfl⟩ (hput _)) (Aside.ite ⟨⟨rfl, rfl, rfl⟩, rfl⟩ ⟨⟨rfl, rfl, rfl⟩, rfl⟩)
  · exact hput _

theorem aside_wakeMgmtHeader (s : State) : Aside s s.wakeMgmtHeader := by
  unfold State.wakeMgmtHeader
  split
  · exact ⟨⟨rfl, rfl, rfl⟩, rfl⟩
  all_goals exact .refl s

theorem aside_startRequest (s : State) (r : Request) : Aside s (s.startRequest r) := by
  unfold State.startRequest
  split
  · exact aside_respond ..
  · exact ⟨⟨rfl, rfl, rfl⟩, rfl⟩

/-! ## The engine's own operations -/

theorem mergeAside_routeMessage (s : State) (d : Descriptor) (seq : SeqNo) : MergeAside s (s.routeMessage d seq) := by
  unfold State.routeMessage
  refine MergeAside.ite ?_ (MergeAside.ite ?_ ?_)
  · exact MergeAside.ite ⟨rfl, rfl, rfl⟩ ⟨rfl, rfl, rfl⟩
  · refine MergeAside.ite ?_ ⟨rfl, rfl, rfl⟩
    split
    · exact (aside_endProbe ..).toMergeAside.after ⟨rfl, rfl, rfl⟩
    · exact (aside_endProbe ..).toMergeAside.after ⟨rfl, rfl, rfl⟩
  · exact MergeAside.ite ⟨rfl, rfl, rfl⟩ (aside_abandonMessage ..).toMergeAside

theorem mergeAside_abandonOpen (s : State) (c : Ctx) (reason : AbandonReason) (seq : SeqNo) :
    MergeAside s (s.abandonOpen c reason seq) :=
  (aside_abandonMessage ..).toMergeAside.after ⟨rfl, rfl, rfl⟩

theorem mergeAside_abandonWith (s : State) (c : Ctx) (reason : AbandonReason) (seq : SeqNo) (gathered : Nat) :
    MergeAside s (s.abandonWith c reason seq gathered) :=
  (aside_abandonMessage ..).toMergeAside.after ⟨rfl, rfl, rfl⟩

theorem mergeAside_truncateOpen (s : State) (sl : Slice) : MergeAside s (s.truncateOpen sl) := by
  unfold State.truncateOpen
  split
  · exact mergeAside_abandonOpen ..
  · exact .refl s

theorem mergeAside_takeFirst (s : State) (sl : Slice) (p : Path) : MergeAside s (s.takeFirst sl p) := by
  refine (mergeAside_truncateOpen s sl).trans (MergeAside.ite ?_ (MergeAside.ite ?_ (MergeAside.ite ?_ ⟨rfl, rfl, rfl⟩)))
  all_goals exact (aside_abandonMessage ..).toMergeAside.after ⟨rfl, rfl, rfl⟩

theorem mergeAside_takeMiddle (s : State) (sl : Slice) (p : Path) : MergeAside s (s.takeMiddle sl p) := by
  unfold State.takeMiddle
  split
  · exact ⟨rfl, rfl, rfl⟩
  · exact MergeAside.ite ((mergeAside_abandonWith ..).after ⟨rfl, rfl, rfl⟩) ⟨rfl, rfl, rfl⟩

theorem mergeAside_takeLast (s : State) (sl : Slice) (p : Path) : MergeAside s (s.takeLast sl p) := by
  unfold State.takeLast
  split
  · exact ⟨rfl, rfl, rfl⟩
  · refine MergeAside.ite ?_ (MergeAside.ite ?_ ?_)
    · exact (mergeAside_abandonWith ..).after ⟨rfl, rfl, rfl⟩
    · exact (mergeAside_abandonWith ..).after ⟨rfl, rfl, rfl⟩
    · exact (mergeAside_routeMessage ..).after ⟨rfl, rfl, rfl⟩

theorem mergeAside_takeOnly (s : State) (sl : Slice) (p : Path) : MergeAside s (s.takeOnly sl p) := by
  have hidle : MergeAside s ((s.truncateOpen sl).notDiscarding sl.stream) :=
    (mergeAside_truncateOpen s sl).trans ⟨rfl, rfl, rfl⟩
  exact hidle.trans (MergeAside.ite (aside_abandonMessage ..).toMergeAside
    (MergeAside.ite (aside_abandonMessage ..).toMergeAside (mergeAside_routeMessage ..)))

theorem mergeAside_engineSlice (s : State) (sl : Slice) (p : Path) (gap : Bool) :
    MergeAside s (s.engineSlice sl p gap) := by
  have hgap : MergeAside s (s.applyGap sl gap) := by
    unfold State.applyGap
    refine MergeAside.ite ?_ (.refl s)
    split
    · exact mergeAside_abandonOpen ..
    · exact .refl s
  unfold State.engineSlice
  cases sl.pos with
  | first => exact hgap.trans (mergeAside_takeFirst ..)
  | middle => exact hgap.trans (mergeAside_takeMiddle ..)
  | last => exact hgap.trans (mergeAside_takeLast ..)
  | only => exact hgap.trans (mergeAside_takeOnly ..)

theorem mergeAside_engineAbandon (s : State) (k : Nat) (reason : AbandonReason) :
    MergeAside s (s.engineAbandon k reason) := by
  unfold State.engineAbandon
  split
  · exact mergeAside_abandonOpen ..
  · exact ⟨rfl, rfl, rfl⟩

theorem mergeAside_engineItem (s : State) (it : Item) : MergeAside s (s.engineItem it) := by
  cases it with
  | slice sl p gap => exact mergeAside_engineSlice ..
  | abandon k reason => exact mergeAside_engineAbandon ..

theorem mergeAside_drainItems (k : Nat) : ∀ (fuel : Nat) (s : State), MergeAside s (State.drainItems k fuel s)
  | 0, s => .refl s
  | fuel + 1, s => by
    unfold State.drainItems
    split
    · next it _ =>
      have htaken : MergeAside s ((s.dropItem k).engineItem it) := (mergeAside_engineItem ..).after ⟨rfl, rfl, rfl⟩
      exact htaken.trans (mergeAside_drainItems k fuel _)
    · exact .refl s

/-! ## Operations of the merge unit leave the contexts and the load session -/

/-- The contexts bound and the streams DISCARDING are as they were. -/
structure ContextsSame (s t : State) : Prop where
  ctxs : t.engine.ctxs = s.engine.ctxs
  discarding : t.engine.discarding = s.engine.discarding

theorem ContextsSame.refl (s : State) : ContextsSame s s := ⟨rfl, rfl⟩

theorem ContextsSame.trans {s t u : State} (h : ContextsSame s t) (h' : ContextsSame t u) : ContextsSame s u :=
  ⟨h'.ctxs.trans h.ctxs, h'.discarding.trans h.discarding⟩

theorem ContextsSame.after {s t u : State} (h : ContextsSame t u) (h' : ContextsSame s t) : ContextsSame s u := h'.trans h

theorem ContextsSame.ite {s t u : State} {p : Prop} [Decidable p] (h : ContextsSame s t) (h' : ContextsSame s u) :
    ContextsSame s (if p then t else u) := by
  split <;> assumption

theorem ContextsSame.oneContextEach {s t : State} (h : ContextsSame s t) (hs : s.oneContextEach) :
    t.oneContextEach := by
  unfold State.oneContextEach
  rw [h.ctxs]
  exact hs

theorem contextsSame_passRun : ∀ (hs : List Held) (s : State), ContextsSame s (s.passRun hs)
  | [], s => .refl s
  | h :: hs, s => ContextsSame.trans (t := s.passSlice h.slice h.path false) ⟨rfl, rfl⟩ (contextsSame_passRun hs _)

theorem contextsSame_passJump : ∀ (hs : List Held) (s : State) (e : SeqNo), ContextsSame s (s.passJump e hs)
  | [], s, _ => .refl s
  | h :: hs, s, e =>
    ContextsSame.trans (t := s.passSlice h.slice h.path (h.slice.seq != e)) ⟨rfl, rfl⟩ (contextsSame_passJump hs _ _)

theorem contextsSame_expireOnce (s : State) (k : Nat) : ContextsSame s (s.expireOnce k) := by
  unfold State.expireOnce
  split
  · exact .refl s
  · obtain ⟨hctxs, hdiscarding⟩ := contextsSame_passRun _ (s.passSlice _ _ true)
    exact ⟨hctxs, hdiscarding⟩

theorem contextsSame_expireLoop (k : Nat) : ∀ (fuel : Nat) (s : State), ContextsSame s (State.expireLoop k fuel s)
  | 0, s => .refl s
  | fuel + 1, s =>
    ContextsSame.ite ((contextsSame_expireOnce s k).trans (contextsSame_expireLoop k fuel _)) (.refl s)

theorem contextsSame_judgeSlice (s : State) (sl : Slice) (p : Path) : ContextsSame s (s.judgeSlice sl p) := by
  have hdiscard : ∀ reason, ContextsSame s (s.discardSlice sl.stream reason) := fun _ => ⟨rfl, rfl⟩
  unfold State.judgeSlice
  split
  · unfold State.synchronise
    rcases claimRx_cases s with ⟨-, hclaim⟩ | hclaim <;> rw [hclaim]
    · exact ⟨rfl, rfl⟩
    · exact hdiscard _
  · refine ContextsSame.ite ?atE (ContextsSame.ite ?early (ContextsSame.ite ?jump (ContextsSame.ite ?stale (hdiscard _))))
    case atE =>
      unfold State.passAtE
      rcases claimRx_cases s with ⟨-, hclaim⟩ | hclaim <;> rw [hclaim]
      · obtain ⟨hctxs, hdiscarding⟩ := contextsSame_passRun
          (releaseRun (sl.seq + 1) (s.mrec sl.stream).held).1 (s.withRxBlock.passSlice sl p false)
        exact (contextsSame_expireLoop ..).after ⟨hctxs, hdiscarding⟩
      · exact hdiscard _
    case early =>
      unfold State.holdSlice
      refine ContextsSame.ite (hdiscard _) (ContextsSame.ite (hdiscard _) ?_)
      rcases claimRx_cases s with ⟨-, hclaim⟩ | hclaim <;> rw [hclaim]
      · exact ⟨rfl, rfl⟩
      · exact hdiscard _
    case jump =>
      by_cases hclaim : s.mayClaimRx
      · rw [windowJump_granted hclaim]
        obtain ⟨hctxs, hdiscarding⟩ := contextsSame_passJump
          ((s.mrec sl.stream).held ++ [{ slice := sl, arrival := s.time, path := p }]) s.withRxBlock _
        exact ⟨hctxs, hdiscarding⟩
      · rw [windowJump_refused hclaim]
        exact hdiscard _
    case stale =>
      refine ContextsSame.ite ⟨rfl, rfl⟩ ?_
      by_cases hclaim : (s.resyncCleared sl.stream).mayClaimRx
      · rw [resynchronise_granted hclaim]
        exact ⟨rfl, rfl⟩
      · rw [resynchronise_refused hclaim]
        exact ⟨rfl, rfl⟩

theorem contextsSame_takeSlice (s : State) (sl : Slice) (p : Path) : ContextsSame s (s.takeSlice sl p) := by
  have hscreen : ∀ t : State, ContextsSame t (t.screenSlice sl p) := fun t =>
    ContextsSame.ite ⟨rfl, rfl⟩ (ContextsSame.ite ⟨rfl, rfl⟩ (contextsSame_judgeSlice ..))
  exact ContextsSame.ite (ContextsSame.trans (t := s.flush sl.stream .reconfigured) ⟨rfl, rfl⟩ (hscreen _)) (hscreen s)

/-- A slice taken off its path leaves all but the path. -/
theorem aside_nextSlice {s t : State} {p : Path} {sl : Slice} (h : s.nextSlice p = some (sl, t)) : Aside s t := by
  unfold State.nextSlice at h
  cases p <;> dsimp only at h <;> split at h <;> cases h
  all_goals exact ⟨⟨rfl, rfl, rfl⟩, rfl⟩

end Sys2Proof.Machine
end

