-- ==== Sys2Proof/Proofs/WindowSteps.lean ====
section
/-! PROOF. Every step keeps the held slices in order and within the window (R34, R51), and the agreement of the banks on
untouched streams that a commit needs for it (R29). -/

namespace Sys2Proof.Machine

/-! ## The effects on the merge unit -/

/-- What an effect does to the merge unit, the stream table and the load session. -/
inductive MergeEffect (s : State) : State → Prop
  | aside {t} (h : MergeAside s t) : MergeEffect s t
  | took {s1 sl p} (h : MergeAside s s1) : MergeEffect s (s1.takeSlice sl p)
  | expired {k} (h : markOf s.merge.pendingFlush k = false) : MergeEffect s (s.expireDue k)
  | flushed {t k reason} (h : MergeAside (s.flush k reason) t) : MergeEffect s t
  | restarted {t} (h : MergeAside { s with merge := { recs := [], pendingFlush := 0 } } t) : MergeEffect s t
  | reset {t} (hm : t.merge.recs = []) (hs : t.mgmt.session = none) : MergeEffect s t
  | sessionMoved {t} (hm : t.merge = s.merge) (ht : t.table = s.table)
      (hs : ∀ x, t.mgmt.session = some x → ∃ y, s.mgmt.session = some y ∧ y.isOpen = true) : MergeEffect s t
  | swept {r n} : MergeEffect s (s.endSweep r n)
  | prepared {t mode} (hm : t.merge = s.merge) (ht : t.table = s.prepared mode) : MergeEffect s t
  | written {t x} {recs : List LoadRec} (hm : t.merge = s.merge) (ht : t.table = s.table.writeRecs recs)
      (hx : s.mgmt.session = some x) (ho : x.isOpen = true) : MergeEffect s t
  | committed {r x l} (hx : s.mgmt.session = some x) (ho : x.isOpen = true) :
      MergeEffect s ((s.commitSwap x).startSweep r l)

theorem Effect.mergeEffect {s t : State} {c : Instr} (h : Effect s c t) : MergeEffect s t := by
  cases h with
  | nothing => exact .aside (.refl s)
  | stopped => exact .reset rfl rfl
  | hardReset => exact .reset rfl rfl
  | powerOn => exact .reset rfl rfl
  | lanes h => exact .aside (aside_lanesOnly h).toMergeAside
  | reoffered h hj => exact .aside ((aside_lanesOnly h).trans (aside_offerSlice ..)).toMergeAside
  | sliceTaken h => exact .took (aside_nextSlice h).toMergeAside
  | expired h => exact .expired h
  | @flushed _ k reason => exact .flushed (.refl (s.flush k reason))
  | held h hx => exact .aside ⟨rfl, rfl, rfl⟩
  | @visited _ _ x k reason h hx => exact .flushed (k := k) (reason := reason) ⟨rfl, rfl, rfl⟩
  | sweepEnded h => exact .swept
  | engineTook h => exact .aside ((mergeAside_engineSlice ..).after ⟨rfl, rfl, rfl⟩)
  | engineAbandoned h => exact .aside ((mergeAside_engineAbandon ..).after ⟨rfl, rfl, rfl⟩)
  | stalled h => exact .aside ((aside_abandonMessage ..).toMergeAside.after ⟨rfl, rfl, rfl⟩)
  | holdLevel => exact .aside ⟨rfl, rfl, rfl⟩
  | transferStarted => exact .aside ((aside_startTransfer _).toMergeAside.after ⟨rfl, rfl, rfl⟩)
  | dataEnded h out => exact .aside ⟨rfl, rfl, rfl⟩
  | responseEnded h out => exact .aside ⟨rfl, rfl, rfl⟩
  | byteTaken => exact .aside (aside_takeByte ..).toMergeAside
  | retried h => exact .aside (aside_tryLoadData ..).toMergeAside
  | outputTaken hs ho => exact .aside ⟨rfl, rfl, rfl⟩
  | frameTaken hs hf => exact .aside ⟨rfl, rfl, rfl⟩
  | cutToLoop hs hp seqs loop => exact .aside ((aside_sliceDone ..).toMergeAside.after ⟨rfl, rfl, rfl⟩)
  | cutToLanes hs hp sl el => exact .aside ((aside_offerSlice ..).toMergeAside.after ⟨rfl, rfl, rfl⟩)
  | backboneTaken hx hr hb => exact .aside ((aside_startRequest ..).toMergeAside.after ⟨rfl, rfl, rfl⟩)
  | localTaken hx hr hb =>
    exact .aside (((aside_startRequest ..).after (aside_wakeMgmtHeader _)).toMergeAside.after ⟨rfl, rfl, rfl⟩)
  | answered h => exact .aside (aside_respond ..).toMergeAside
  | @flushAnswered _ _ k reason _ _ h => exact .flushed (k := k) (reason := reason) (aside_respond ..).toMergeAside
  | cleared h hf => exact .aside ((aside_respond ..).toMergeAside.after ⟨rfl, rfl, rfl⟩)
  | laneRestarted h => exact .aside ((aside_lanesOnly h).trans (aside_partDone ..)).toMergeAside
  | mergeRestarted => exact .restarted ((aside_partDone ..).toMergeAside.after ⟨rfl, rfl, rfl⟩)
  | engineRestarted => exact .aside ((aside_partDone ..).toMergeAside.after ⟨rfl, rfl, rfl⟩)
  | deliveryRestarted =>
    exact .aside (((aside_partDone ..).after (aside_cutTransfer _)).toMergeAside.after ⟨rfl, rfl, rfl⟩)
  | submissionDropped hn left => exact .aside ((aside_partDone ..).toMergeAside.after ⟨rfl, rfl, rfl⟩)
  | slicerRestarted h =>
    refine .aside ((aside_partDone ..).toMergeAside.after ?_)
    cases slicingResponse s.slicer.state <;> exact ⟨rfl, rfl, rfl⟩
  | prepared h x => exact .prepared (State.respond_merge ..) (State.respond_table ..)
  | sessionSet h hx =>
    exact .sessionMoved (State.respond_merge ..) (State.respond_table ..)
      fun y hy => hx y (by rw [State.respond_mgmt] at hy; exact hy)
  | recordsWritten h hx ho hj => exact .written (State.respond_merge ..) (State.respond_table ..) hx ho
  | committed h hx ho => exact .committed hx ho
  | idleTimedOut => exact .sessionMoved rfl rfl fun _ hy => nomatch hy
  | probeStarted h =>
    exact .flushed (k := Config.probeStream) (reason := .flushed)
      ((mergeAside_drainItems _ _ _).trans ⟨rfl, rfl, rfl⟩)
  | probeEnded result reason => exact .aside (aside_endProbe ..).toMergeAside

/-! ## The banks agree on untouched streams (R29) -/

theorem shadowTracksMarks_of_closed {s : State} (h : ∀ x, s.mgmt.session = some x → x.isOpen = false) :
    s.shadowTracksMarks := fun x hx ho => absurd (h x hx) (by rw [ho]; decide)

theorem MergeAside.shadowTracksMarks {s t : State} (h : MergeAside s t) (hs : s.shadowTracksMarks) :
    t.shadowTracksMarks := by
  unfold State.shadowTracksMarks
  rw [h.session, h.table]
  exact hs

/-- A prepared table tracks the marks: every stream is marked, or the banks are the same (R149). -/
theorem tracksMarks_prepared (s : State) (mode : OpenMode) : (s.prepared mode).tracksMarks := by
  intro k hk hmark
  cases mode with
  | clean =>
    have htouched : (s.prepared .clean).touched = BitVec.allOnes 4095 := rfl
    rw [htouched, markOf_allOnes hk] at hmark
    cases hmark
  | copy =>
    unfold State.prepared State.activeBank State.bank Table.setShadow
    cases hactive : s.table.active <;> simp

theorem endSweep_session (s : State) (r : Request) (n : Nat) : (s.endSweep r n).mgmt.session = none := by
  simp only [State.endSweep, State.respond_mgmt]
  rfl

theorem startSweep_session {s : State} (h : ∀ x, s.mgmt.session = some x → x.isOpen = false) (r : Request)
    (l : List Nat) : ∀ x, (s.startSweep r l).mgmt.session = some x → x.isOpen = false := by
  rcases startSweep_cases s r l with ⟨-, hsweep⟩ | ⟨-, hsweep⟩ <;> rw [hsweep]
  · intro x hx
    rw [endSweep_session] at hx
    cases hx
  · exact h

theorem untouched_session {s t : State} (h : Untouched s t) : t.mgmt.session = s.mgmt.session := by rw [h.mgmt]

theorem MergeEffect.shadowTracksMarks {s t : State} (h : MergeEffect s t) (hs : s.shadowTracksMarks) :
    t.shadowTracksMarks := by
  cases h with
  | aside h => exact h.shadowTracksMarks hs
  | took h =>
    have htaken := h.shadowTracksMarks hs
    unfold State.shadowTracksMarks
    rw [untouched_session (untouched_takeSlice ..), (steady_takeSlice ..).table]
    exact htaken
  | expired h =>
    unfold State.shadowTracksMarks
    rw [untouched_session (untouched_expireDue ..), (steady_expireDue ..).table]
    exact hs
  | flushed h => exact h.shadowTracksMarks hs
  | restarted h => exact h.shadowTracksMarks hs
  | reset hm hn => exact shadowTracksMarks_of_closed fun x hx => by rw [hn] at hx; cases hx
  | sessionMoved hm ht hx =>
    intro x hsession _
    obtain ⟨y, hy, ho⟩ := hx x hsession
    rw [ht]
    exact hs y hy ho
  | swept => exact shadowTracksMarks_of_closed fun x hx => by rw [endSweep_session] at hx; cases hx
  | prepared hm ht =>
    intro _ _ _
    rw [ht]
    exact tracksMarks_prepared s _
  | written hm ht hx ho =>
    intro _ _ _
    rw [ht]
    exact tracksMarks_writeRecs _ (hs _ hx ho)
  | committed hx ho =>
    exact shadowTracksMarks_of_closed (startSweep_session (fun x hx => by cases hx; rfl) _ _)

/-! ## Held slices in order and in the window (R34) -/

/-- The records are as they were, and so are the entries of the active bank. -/
theorem recordsKept_of_entries {s t : State} (h : recordsKept s) (hm : t.merge = s.merge)
    (he : ∀ k, t.entry k = s.entry k) : recordsKept t := by
  intro k hk
  rw [he k, hm, mrec_congr hm k]
  exact h k hk

theorem entry_of_shadowOnly {s t : State} (h : ShadowOnly s.table t.table) (k : Nat) : t.entry k = s.entry k := by
  obtain ⟨-, -, -, hbank⟩ := h
  have hactive : t.activeBank = s.activeBank := hbank
  unfold State.entry
  rw [hactive]

/-- After a swap the unmarked streams are those that had no mark of either kind, on which the banks agree (R29, R51). -/
theorem recordsKept_commitSwap {s : State} {x : Session} (h : recordsKept s) (hs : s.shadowTracksMarks)
    (hx : s.mgmt.session = some x) (ho : x.isOpen = true) : recordsKept (s.commitSwap x) := by
  intro k hk
  obtain ⟨horder, hwindow⟩ := h k hk
  refine ⟨horder, fun hmark => ?_⟩
  have hmarks : markOf s.merge.pendingFlush k = false ∧ markOf s.table.touched k = false := by
    have hor : markOf (s.merge.pendingFlush ||| s.table.touched) k = false := hmark
    unfold markOf at hor ⊢
    rw [BitVec.getLsbD_or, Bool.or_eq_false_iff] at hor
    exact hor
  have hbanks : s.table.bank0.entry k = s.table.bank1.entry k := hs x hx ho k hk hmarks.2
  have hentry : (s.commitSwap x).entry k = s.entry k := by
    have hswap : (s.commitSwap x).entry k = (if !s.table.active then s.table.bank1 else s.table.bank0).entry k := rfl
    have hold : s.entry k = (if s.table.active then s.table.bank1 else s.table.bank0).entry k := rfl
    rw [hswap, hold]
    cases s.table.active
    · exact hbanks.symm
    · exact hbanks
  rw [hentry]
  exact hwindow hmarks.1

theorem endSweep_shadowOnly (s : State) (r : Request) (n : Nat) : ShadowOnly s.table (s.endSweep r n).table := by
  rw [endSweep_table]
  exact (ShadowOnly.refl s.table).marks ..

theorem recordsKept_endSweep {s : State} (h : recordsKept s) (r : Request) (n : Nat) : recordsKept (s.endSweep r n) :=
  recordsKept_of_entries h (State.endSweep_merge ..) (entry_of_shadowOnly (endSweep_shadowOnly ..))

theorem recordsKept_startSweep {s : State} (h : recordsKept s) (r : Request) (l : List Nat) :
    recordsKept (s.startSweep r l) := by
  rcases startSweep_cases s r l with ⟨-, hsweep⟩ | ⟨-, hsweep⟩ <;> rw [hsweep]
  · exact recordsKept_endSweep h r 0
  · exact recordsKept_congr h rfl rfl

theorem MergeEffect.recordsKept {s t : State} (h : MergeEffect s t) (hs : recordsKept s) (hm : s.shadowTracksMarks) :
    recordsKept t := by
  cases h with
  | aside h => exact recordsKept_congr hs h.table h.merge
  | took h => exact recordsKept_takeSlice _ _ (recordsKept_congr hs h.table h.merge)
  | expired h => exact recordsKept_change (change_expireLoop ..) hs fun _ => h
  | flushed h => exact recordsKept_congr (recordsKept_flush _ _ hs) h.table h.merge
  | restarted h => exact recordsKept_fresh (by rw [h.merge])
  | reset hr hn => exact recordsKept_fresh hr
  | sessionMoved hr ht hx => exact recordsKept_congr hs ht hr
  | swept => exact recordsKept_endSweep hs _ _
  | prepared hr ht =>
    exact recordsKept_of_entries hs hr (entry_of_shadowOnly (by rw [ht]; exact shadowOnly_prepared s _))
  | written hr ht hx ho =>
    exact recordsKept_of_entries hs hr (entry_of_shadowOnly (by rw [ht]; exact ShadowOnly.writeRecs _ _))
  | committed hx ho => exact recordsKept_startSweep (recordsKept_commitSwap hs hm hx ho) _ _

theorem Effect.windowsKept {s t : State} {c : Instr} (h : Effect s c t) (hs : s.windowsKept) : t.windowsKept := by
  obtain ⟨hmarks, hrecords⟩ := (windowsKept_iff s).1 hs
  exact (windowsKept_iff t).2
    ⟨h.mergeEffect.shadowTracksMarks hmarks, h.mergeEffect.recordsKept hrecords hmarks⟩

theorem aside_tick (s : State) : Aside s s.tick := by
  unfold State.tick
  split
  · exact .refl s
  · exact ⟨⟨rfl, rfl, rfl⟩, rfl⟩

theorem windowsKept_tick {s : State} (h : s.windowsKept) : s.tick.windowsKept := by
  obtain ⟨hmarks, hrecords⟩ := (windowsKept_iff s).1 h
  have haside := (aside_tick s).toMergeAside
  exact (windowsKept_iff _).2
    ⟨haside.shadowTracksMarks hmarks, recordsKept_congr hrecords haside.table haside.merge⟩

/-- Settles O59: an effect on the merge unit keeps every record ahead of its E, and a commit marks each stream whose window
it can change. -/
theorem everyStepKeepsTheWindow : Obligations.EveryStepKeepsTheWindow := fun _ _ hs h =>
  step_keeps (P := State.windowsKept) (fun _ _ hs => hs) (fun _ => windowsKept_tick)
    (fun _ _ _ heffect => heffect.windowsKept) hs h

end Sys2Proof.Machine
end

