-- ==== Sys2Proof/Proofs/OutputSteps.lean ====
section
/-! PROOF. Every effect keeps the delivery queues within 256 (R91), the probe message that waits or is being sliced that of a
SENDING probe (R108), and a delivery in transfer on its course (R96, log 18). -/

namespace Sys2Proof.Machine

/-- What an effect keeps of the part's outputs. -/
structure OutputsSound (s t : State) : Prop where
  probe : s.probeBalanced → t.probeBalanced
  occupancy : (∀ q, s.activeBank.capacities.get q ≤ 256) → (∀ q, s.occupancy q ≤ 256) → ∀ q, t.occupancy q ≤ 256
  port : s.portOnCourse → t.portOnCourse

section Outputs

variable {s t u : State}

theorem portOnCourse_of_none (h : s.delivery.transfer = none) : s.portOnCourse := fun t ht => by rw [h] at ht; cases ht

theorem portOnCourse_congr (htr : t.delivery.transfer = s.delivery.transfer) (hout : t.delivery.out = s.delivery.out)
    (h : s.portOnCourse) : t.portOnCourse := by
  unfold State.portOnCourse
  rw [htr, hout]
  exact h

theorem OutputsKept.sound (h : OutputsKept s t) : OutputsSound s t :=
  ⟨h.probe, h.occ, portOnCourse_congr h.transfer h.out⟩

/-- What the outputs rest on: counts of probe messages, and the delivery but for MQ. -/
theorem OutputsSound.of_fields (hx : probeSending t.mgmt.executor = probeSending s.mgmt.executor)
    (ho : waitingProbes t.slicer.outputs = waitingProbes s.slicer.outputs)
    (hj : slicingProbe t.slicer.state = slicingProbe s.slicer.state) (hq : t.delivery.dqs = s.delivery.dqs)
    (htr : t.delivery.transfer = s.delivery.transfer) (hout : t.delivery.out = s.delivery.out) : OutputsSound s t where
  probe h := by
    unfold State.probeBalanced at *
    rw [hx, ho, hj]
    exact h
  occupancy _ h q := by
    have := h q
    unfold State.occupancy at *
    rw [hq, htr]
    exact this
  port := portOnCourse_congr htr hout

/-- A change of the port alone. -/
theorem OutputsSound.of_port (hm : t.mgmt.executor = s.mgmt.executor) (hs : t.slicer = s.slicer)
    (hocc : ∀ q, t.occupancy q ≤ s.occupancy q) (hport : t.portOnCourse) : OutputsSound s t where
  probe h := by
    unfold State.probeBalanced at *
    rw [hm, hs]
    exact h
  occupancy _ h q := (hocc q).trans (h q)
  port _ := hport

/-- With nothing waiting, being sliced or in transfer, and no probe SENDING. -/
theorem OutputsSound.of_empty (hx : probeSending t.mgmt.executor = 0) (ho : t.slicer.outputs = [])
    (hj : t.slicer.state = .idle) (hq : t.delivery.dqs = ⟨[], [], [], []⟩) (htr : t.delivery.transfer = none) :
    OutputsSound s t where
  probe _ := by
    unfold State.probeBalanced
    rw [hx, ho, hj]
    rfl
  occupancy _ _ q := by
    unfold State.occupancy
    rw [hq, htr]
    cases q <;> exact Nat.zero_le _
  port _ := portOnCourse_of_none htr

/-- A response to a request that no probe of is SENDING, whatever else than the outputs changed before it. -/
theorem OutputsSound.respond {r : Request} (h : s.mgmt.executor.serves r) (hs : t.slicer = s.slicer)
    (hd : t.delivery = s.delivery) (status : Status) (data : List Byte) : OutputsSound s (t.respond r status data) := by
  unfold State.respond
  cases r.source
  · refine OutputsSound.of_fields h.2.symm ?_ (by rw [← hs]) (by rw [← hd]) (by rw [← hd]) (by rw [← hd])
    simp only [waitingProbes_append, hs]
    rfl
  · exact OutputsSound.of_fields h.2.symm (by rw [← hs]) (by rw [← hs]) (by rw [← hd]) (by rw [← hd]) (by rw [← hd])

theorem outputs_takeByte (s : State) (b : Byte) (st e : Bool) : OutputsKept s (s.takeByte b st e) := by
  have hput : ∀ x, OutputsKept s (s.setSub x) := fun _ => .of_fields rfl rfl rfl rfl rfl
  unfold State.takeByte
  split
  · exact OutputsKept.ite (hput _) (.refl s)
  · refine OutputsKept.ite (hput _) ?_
    obtain ⟨hslicer, hdelivery, hmgmt⟩ := untouched_takeByte_mgmt s _ e
    exact .of_fields (by rw [hmgmt]) (by rw [hslicer]) (by rw [hslicer]) hdelivery (aside_headerDone ..).table
  · exact .refl s
  · exact .refl s
  · exact OutputsKept.ite (OutputsKept.ite (.of_fields rfl rfl rfl rfl rfl) (hput _))
      (OutputsKept.ite (.of_fields rfl rfl rfl rfl rfl) (.of_fields rfl rfl rfl rfl rfl))
  · exact OutputsKept.ite (OutputsKept.ite (.of_fields rfl rfl rfl rfl rfl) (hput _))
      (OutputsKept.ite (.of_fields rfl rfl rfl rfl rfl) (.of_fields rfl rfl rfl rfl rfl))
  · exact hput _

theorem outputs_tryLoadData (s : State) (k n : Nat) : OutputsKept s (s.tryLoadData k n) := by
  rw [tryLoadData_eq]
  exact OutputsKept.ite (.of_fields rfl rfl rfl rfl rfl) (.of_fields rfl rfl rfl rfl rfl)

theorem outputs_wakeMgmtHeader (s : State) : OutputsKept s s.wakeMgmtHeader := by
  unfold State.wakeMgmtHeader
  split
  · exact .of_fields rfl rfl rfl rfl rfl
  all_goals exact .refl s

theorem outputs_flush (s : State) (k : Nat) (reason : AbandonReason) : OutputsKept s (s.flush k reason) :=
  (untouched_flush ..).outputsKept (steady_flush ..).table

theorem sound_startRequest {r : Request} (h : s.mgmt.executor = .idle) : OutputsSound s (s.startRequest r) := by
  unfold State.startRequest
  split
  · exact (outputs_respond _ _ _ (by rw [h]; rfl)).sound
  · exact .of_fields (by rw [h]; rfl) rfl rfl rfl rfl rfl

theorem sound_withExecutor {r : Request} {x : Executor} {n : Nat} (h : s.mgmt.executor.serves r)
    (hx : x.serves r) : OutputsSound s { s with mgmt := { s.mgmt with executor := x, choices := n } } :=
  .of_fields (hx.2.trans h.2.symm) rfl rfl rfl rfl rfl

theorem sound_endSweep {r : Request} (h : s.mgmt.executor.serves r) (hs : t.slicer = s.slicer)
    (hd : t.delivery = s.delivery) (n : Nat) : OutputsSound s (t.endSweep r n) :=
  OutputsSound.respond (t := State.setSession
    { t with table := { t.table with touched := 0, queuesTouched := false, globalTouched := false } } none)
    h hs hd _ _

theorem sound_committed {r : Request} (h : s.mgmt.executor.serves r) (x : Session) (l : List Nat) :
    OutputsSound s ((s.commitSwap x).startSweep r l) := by
  rcases startSweep_cases (s.commitSwap x) r l with ⟨-, hsweep⟩ | ⟨-, hsweep⟩ <;> rw [hsweep]
  · exact sound_endSweep (t := s.commitSwap x) h rfl rfl 0
  · exact .of_fields h.2.symm rfl rfl rfl rfl rfl

/-! ## The port -/

/-- A delivery begins with its first byte presented, and has more than one (R188). -/
theorem portOnCourse_started {d : Delivery} {tr : Transfer} :
    State.portOnCourse
      { s with delivery := { d with transfer := some tr, out := (deliveryOut tr).take 1, valid := true } } := by
  rintro _ ⟨rfl⟩
  refine ⟨1, le_refl 1, ?_, rfl⟩
  rw [deliveryOut_length]
  have := deliveryBytes_length tr
  omega

theorem sound_startTransfer (s : State) : OutputsSound s s.startTransfer := by
  have hocc : ∀ q, s.startTransfer.occupancy q ≤ s.occupancy q := fun q => (occupancy_startTransfer s q).le
  rcases startTransfer_cases s with hs | ⟨-, tr, d, -, hs⟩ <;> rw [hs] at hocc ⊢
  · exact (OutputsKept.refl s).sound
  · exact .of_port rfl rfl hocc portOnCourse_started

/-- The end of a transfer takes it out of its queue's occupancy (R96). -/
theorem occupancy_of_ended {d : Delivery} (htr : d.transfer = none) (hq : d.dqs = s.delivery.dqs) (q : QueueId) :
    State.occupancy { s with delivery := d } q ≤ s.occupancy q := by
  unfold State.occupancy
  simp only [htr, hq]
  exact Nat.le_add_right ..

theorem sound_cutTransfer (s : State) : OutputsSound s s.cutTransfer := by
  unfold State.cutTransfer
  split
  · exact .of_port rfl rfl (occupancy_of_ended rfl rfl) (portOnCourse_of_none rfl)
  · exact (OutputsKept.refl s).sound
  · exact (OutputsKept.refl s).sound

theorem sound_deliveryEmptied (s : State) (n : Nat) :
    OutputsSound s { s.returnRx n with delivery := { s.delivery with dqs := ⟨[], [], [], []⟩ } } where
  probe := id
  occupancy _ h q := by
    have := h q
    unfold State.occupancy at *
    cases q <;> exact (Nat.add_le_add_right (Nat.zero_le _) _).trans this
  port := id

theorem OutputsSound.trans (h : OutputsSound s t) (h' : OutputsSound t u) (ht : t.table = s.table) :
    OutputsSound s u where
  probe := h'.probe ∘ h.probe
  occupancy hc ho := h'.occupancy (by unfold State.activeBank State.bank at *; rw [ht]; exact hc) (h.occupancy hc ho)
  port := h'.port ∘ h.port

/-- The change made last is named first: what leads up to it is read off the states. -/
theorem OutputsSound.after (h' : OutputsSound t u) (h : OutputsSound s t) (ht : t.table = s.table) :
    OutputsSound s u := h.trans h' ht

/-! ## The slicer and the probe -/

theorem slicingProbe_jobOfOutput (o : Output) (rest : List Output) :
    waitingProbes rest + slicingProbe (.slicing (jobOfOutput o)) = waitingProbes (o :: rest) := by
  cases o <;> simp [waitingProbes, slicingProbe, jobOfOutput, newJob, Nat.add_comm]

theorem sound_outputTaken {o : Output} {rest : List Output} (hs : s.slicer.state = .idle)
    (ho : s.slicer.outputs = o :: rest) :
    OutputsSound s { s with slicer := { s.slicer with outputs := rest, state := .slicing (jobOfOutput o) } } where
  probe h := by
    unfold State.probeBalanced at *
    rw [hs, ho] at h
    show waitingProbes rest + slicingProbe (.slicing (jobOfOutput o)) = _
    rw [slicingProbe_jobOfOutput]
    exact h
  occupancy _ h := h
  port := id

/-- A PROBE that starts is SENDING, and its message waits (R168, R169); none waited before it. -/
theorem sound_probeQueued {p : ProbeRec} (hx : probeSending s.mgmt.executor = 0) (hp : p.await = none) (r : Request)
    (msg : List Byte) :
    OutputsSound s
      { s with
        slicer := { s.slicer with outputs := s.slicer.outputs ++ [.probe msg] }
        mgmt := { s.mgmt with executor := .probing r p } } where
  probe h := by
    unfold State.probeBalanced at *
    rw [hx] at h
    simp only [waitingProbes_append, probeSending, hp]
    rw [Nat.add_right_comm, h]
    rfl
  occupancy _ h := h
  port := id

theorem sound_startProbe {r : Request} (h : s.executes r .probe) (n : Nat) (seed : Byte) :
    OutputsSound s (s.startProbe r n seed) := by
  have hflushed := outputs_flush s Config.probeStream .flushed
  have hdrained := hflushed.trans (outputs_drainItems Config.probeStream
    (s.flush Config.probeStream .flushed).engine.items.length (s.flush Config.probeStream .flushed))
  have hengine := engineOnly_drainItems (s := s.flush Config.probeStream .flushed)
    (s.flush Config.probeStream .flushed).engine.items.length (probeAwaiting_of_executes h)
  exact hdrained.sound.trans
    (sound_probeQueued (by rw [hengine.mgmt, State.flush_mgmt, h.2]; rfl) rfl r _) hdrained.table

/-- While RESTART waits no probe is SENDING, so no probe message is being sliced (R145, R167). -/
theorem sound_slicerRestart (h : s.awaitsRestart .slicer) (hx : t.mgmt.executor = s.mgmt.executor)
    (hd : t.delivery = s.delivery) :
    OutputsSound s { t with slicer := { s.slicer with fifo := [], state := .idle, seqs := [] } } where
  probe hp := by
    obtain ⟨-, r, todo, hrestart, -⟩ := h
    unfold State.probeBalanced at *
    simp only [hx]
    rw [hrestart] at hp ⊢
    exact Nat.eq_zero_of_add_eq_zero_right hp
  occupancy _ ho q := by
    unfold State.occupancy at *
    simp only [hd]
    exact ho q
  port := portOnCourse_congr (by rw [← hd]) (by rw [← hd])

theorem outputs_nextSlice {p : Path} {sl : Slice} (h : s.nextSlice p = some (sl, t)) : OutputsKept s t := by
  unfold State.nextSlice at h
  cases p with
  | a | b =>
    dsimp only at h
    split at h
    · cases h
    · cases h; exact .of_fields rfl rfl rfl rfl rfl
  | loop =>
    dsimp only at h
    split at h
    · cases h
    · cases h; exact .of_fields rfl rfl rfl rfl rfl

end Outputs

theorem Effect.outputsSound {s t : State} {c : Instr} (h : Effect s c t) : OutputsSound s t := by
  cases h with
  | nothing => exact (OutputsKept.refl s).sound
  | stopped => exact .of_empty rfl rfl rfl rfl rfl
  | hardReset => exact .of_empty rfl rfl rfl rfl rfl
  | powerOn => exact .of_empty rfl rfl rfl rfl rfl
  | lanes h => exact (h.untouched.outputsKept h.steady.table).sound
  | reoffered h hj =>
    exact ((h.untouched.outputsKept h.steady.table).trans
      (outputs_offerSlice _ _ _ (by rw [h.untouched.slicer, hj]; rfl))).sound
  | @sliceTaken _ p sl s1 h =>
    have htaken : OutputsKept s1 (s1.takeSlice sl p) := (untouched_takeSlice ..).outputsKept (steady_takeSlice ..).table
    exact ((outputs_nextSlice h).trans htaken).sound
  | expired h => exact ((untouched_expireDue ..).outputsKept (steady_expireDue ..).table).sound
  | flushed => exact (outputs_flush ..).sound
  | held h hx => exact sound_withExecutor h hx
  | visited h hx =>
    exact (sound_withExecutor (n := s.mgmt.choices) h hx).trans (outputs_flush ..).sound rfl
  | sweepEnded h => exact sound_endSweep h rfl rfl _
  | @engineTook _ k sl p gap h =>
    exact (OutputsKept.after (s := s) (t := s.dropItem k) (outputs_engineSlice _ sl p gap) rfl rfl rfl rfl).sound
  | @engineAbandoned _ k reason h =>
    exact (OutputsKept.after (s := s) (t := s.dropItem k) (outputs_engineAbandon _ k reason) rfl rfl rfl rfl).sound
  | @stalled _ k x h =>
    exact (OutputsKept.after (s := s) (t := (s.freeCtx k).toDiscarding k)
      (outputs_abandonMessage _ k .stall x.lastSeq x.gathered x.blocks.length) rfl rfl rfl rfl).sound
  | holdLevel => exact .of_fields rfl rfl rfl rfl rfl rfl
  | transferStarted => exact .after (sound_startTransfer _) (.of_fields rfl rfl rfl rfl rfl rfl) rfl
  | dataEnded h out => exact .of_port rfl rfl (occupancy_of_ended rfl rfl) (portOnCourse_of_none rfl)
  | responseEnded h out => exact .of_port rfl rfl (occupancy_of_ended rfl rfl) (portOnCourse_of_none rfl)
  | byteTaken => exact (outputs_takeByte ..).sound
  | retried h => exact (outputs_tryLoadData ..).sound
  | outputTaken hs ho => exact sound_outputTaken hs ho
  | frameTaken hs hf => exact .of_fields rfl rfl (by rw [hs]; rfl) rfl rfl rfl
  | @cutToLoop _ j piece rest hs hp seqs loop =>
    refine .after (OutputsKept.sound (outputs_sliceDone (j.afterCut piece rest) ?_)) (.of_fields rfl rfl rfl rfl rfl rfl) rfl
    exact congrArg slicingProbe hs
  | @cutToLanes _ j piece rest hs hp sl el =>
    refine .after (OutputsKept.sound (outputs_offerSlice (j.afterCut piece rest) sl el ?_)) (.of_fields rfl rfl rfl rfl rfl rfl) rfl
    exact congrArg slicingProbe hs
  | backboneTaken hx hr hb => exact .after (sound_startRequest hx) (.of_fields rfl rfl rfl rfl rfl rfl) rfl
  | @localTaken _ r rest hx hr hb =>
    have hwoken := (outputs_wakeMgmtHeader
      { s with mgmt := { s.mgmt with lpShare := rest, lpBufs := s.mgmt.lpBufs + 1 } })
    refine .after (sound_startRequest ?_) (.after hwoken.sound (.of_fields rfl rfl rfl rfl rfl rfl) rfl) hwoken.table
    unfold State.wakeMgmtHeader
    split <;> exact hx
  | answered h => exact .respond h rfl rfl _ _
  | flushAnswered h => exact .respond h (untouched_flush ..).slicer (untouched_flush ..).delivery _ _
  | cleared h hf => exact .respond (t := s.report _) h rfl rfl _ _
  | laneRestarted h =>
    exact ((h.untouched.outputsKept h.steady.table).trans (outputs_partDone ..)).sound
  | mergeRestarted => exact .after (outputs_partDone ..).sound (.of_fields rfl rfl rfl rfl rfl rfl) rfl
  | engineRestarted => exact .after (outputs_partDone ..).sound (.of_fields rfl rfl rfl rfl rfl rfl) rfl
  | deliveryRestarted =>
    have hcut := sound_cutTransfer { s.returnRx (queueBlocks s.delivery.dqs) with
      delivery := { s.delivery with dqs := ⟨[], [], [], []⟩ } }
    have htable := (aside_cutTransfer { s.returnRx (queueBlocks s.delivery.dqs) with
      delivery := { s.delivery with dqs := ⟨[], [], [], []⟩ } }).table
    exact ((sound_deliveryEmptied s _).trans hcut rfl).trans (outputs_partDone ..).sound htable
  | submissionDropped hn left => exact .after (outputs_partDone ..).sound (.of_fields rfl rfl rfl rfl rfl rfl) rfl
  | slicerRestarted h =>
    refine .trans (sound_slicerRestart h ?_ ?_) (outputs_partDone ..).sound ?_
    all_goals cases slicingResponse s.slicer.state <;> rfl
  | @prepared r _ _ _ h x =>
    have hserves : s.mgmt.executor.serves r := by rw [h]; exact serves_preparing ..
    refine .respond hserves ?_ ?_ _ _
    · rfl
    · rfl
  | @sessionSet _ _ x _ _ h hx => exact .respond (t := s.setSession x) h rfl rfl _ _
  | @recordsWritten _ _ y _ _ _ recs h hx ho hj =>
    exact .respond (t := State.setSession { s with table := s.table.writeRecs recs } (some y)) h rfl rfl _ _
  | @committed _ x h hx ho =>
    exact sound_committed h _ _
  | idleTimedOut => exact .of_fields rfl rfl rfl rfl rfl rfl
  | probeStarted h => exact sound_startProbe h _ _
  | probeEnded result reason => exact (outputs_endProbe ..).sound

end Sys2Proof.Machine
end

