-- ==== Sys2Proof/Proofs/CapacityInvariants.lean ====
section
/-! PROOF. Every step keeps every table and queue of fixed size within it, one context a stream, and a delivery on its
course. -/

namespace Sys2Proof.Machine

/-! ## Held slices and stale runs (R32, R33) -/

theorem capMerge_of_empty {s : State} (h : s.merge.recs = []) : capMerge s := by
  unfold capMerge State.heldInUse State.mrec
  rw [h]
  exact ⟨by simp [SMap.wf], Nat.zero_le _, fun _ => Nat.zero_le _⟩

theorem staleThreshold_le {s : State} (h : s.banksInRange) : s.glob.staleThreshold ≤ 64 := by
  obtain ⟨-, -, -, -, -, hstale, -⟩ := activeBank_inRange h
  exact hstale

theorem capacity_le {s : State} (h : s.banksInRange) (q : QueueId) : s.activeBank.capacities.get q ≤ 256 := by
  obtain ⟨-, hcap, -⟩ := activeBank_inRange h
  exact (hcap q).2

theorem startSweep_merge (s : State) (r : Request) (l : List Nat) : (s.startSweep r l).merge = s.merge := by
  rcases startSweep_cases s r l with ⟨-, hsweep⟩ | ⟨-, hsweep⟩ <;> rw [hsweep]
  exact State.endSweep_merge ..

theorem MergeEffect.capMerge {s t : State} (h : MergeEffect s t) (hs : capMerge s) (hbanks : s.banksInRange) :
    capMerge t := by
  cases h with
  | aside h => exact cap_congr hs (by rw [h.merge])
  | @took s1 sl p h =>
    have hglob : s1.glob = s.glob := by
      unfold State.glob State.activeBank State.bank
      rw [h.table]
    exact cap_takeSlice sl p (hglob ▸ staleThreshold_le hbanks) (cap_congr hs (by rw [h.merge]))
  | expired h => exact cap_expireLoop _ _ hs
  | @flushed _ k reason h => exact cap_congr (cap_flush k reason hs) (by rw [h.merge])
  | restarted h => exact capMerge_of_empty (by rw [h.merge])
  | reset hm hn => exact capMerge_of_empty hm
  | sessionMoved hm ht hx => exact cap_congr hs (by rw [hm])
  | swept => exact cap_congr hs (by rw [State.endSweep_merge])
  | prepared hm ht => exact cap_congr hs (by rw [hm])
  | written hm ht hx ho => exact cap_congr hs (by rw [hm])
  | committed hx ho => exact cap_congr hs (by rw [startSweep_merge]; rfl)

/-! ## Contexts (R59) -/

theorem contextsSame_of_aside {s t : State} (h : Aside s t) : ContextsSame s t := ⟨by rw [h.engine], by rw [h.engine]⟩

theorem contextsSame_flush (s : State) (k : Nat) (reason : AbandonReason) : ContextsSame s (s.flush k reason) :=
  ⟨rfl, rfl⟩

theorem oneContextEach_of_empty {s : State} (h : s.engine.ctxs = []) : s.oneContextEach := by
  unfold State.oneContextEach
  rw [h]
  exact List.nodup_nil

theorem oneContextEach_engineAbandon {s : State} (h : s.oneContextEach) (k : Nat) (reason : AbandonReason) :
    (s.engineAbandon k reason).oneContextEach :=
  (contexts_engineItem s h (.abandon k reason)).2

theorem oneContextEach_drainItems (k : Nat) : ∀ (fuel : Nat) {s : State}, s.oneContextEach →
    (State.drainItems k fuel s).oneContextEach
  | 0, _, h => h
  | fuel + 1, s, h => by
    unfold State.drainItems
    split
    · next it _ => exact oneContextEach_drainItems k fuel (contexts_engineItem (s.dropItem k) h it).2
    · exact h

theorem Effect.oneContextEach {s t : State} {c : Instr} (h : Effect s c t) (hs : s.oneContextEach) :
    t.oneContextEach := by
  have aside {u : State} (h : Aside s u) : u.oneContextEach := (contextsSame_of_aside h).oneContextEach hs
  cases h with
  | nothing => exact hs
  | stopped => exact oneContextEach_of_empty rfl
  | hardReset => exact oneContextEach_of_empty rfl
  | powerOn => exact oneContextEach_of_empty rfl
  | lanes h => exact aside (aside_lanesOnly h)
  | reoffered h hj => exact aside ((aside_lanesOnly h).trans (aside_offerSlice ..))
  | sliceTaken h =>
    exact ((contextsSame_of_aside (aside_nextSlice h)).trans (contextsSame_takeSlice ..)).oneContextEach hs
  | expired h => exact (contextsSame_expireLoop ..).oneContextEach hs
  | @flushed _ k reason => exact (contextsSame_flush s k reason).oneContextEach hs
  | held h hx => exact hs
  | visited h hx => exact hs
  | sweepEnded h => exact ((contextsSame_of_aside (aside_respond ..)).after ⟨rfl, rfl⟩).oneContextEach hs
  | @engineTook _ k _ _ _ h => exact (contexts_engineSlice (s.dropItem k) hs _ _ _).2
  | @engineAbandoned _ k _ h => exact oneContextEach_engineAbandon (s := s.dropItem k) hs _ _
  | @stalled _ k _ h =>
    exact (contexts_abandonMessage ((s.freeCtx k).toDiscarding k) (oneContextEach_freeCtx hs k) _ _ _ _ _).2
  | holdLevel => exact hs
  | transferStarted => exact aside ((aside_startTransfer _).after ⟨⟨rfl, rfl, rfl⟩, rfl⟩)
  | dataEnded h out => exact hs
  | responseEnded h out => exact hs
  | byteTaken => exact aside (aside_takeByte ..)
  | retried h => exact aside (aside_tryLoadData ..)
  | outputTaken hs ho => assumption
  | frameTaken hs hf => assumption
  | cutToLoop hs hp seqs loop => exact aside ((aside_sliceDone ..).after ⟨⟨rfl, rfl, rfl⟩, rfl⟩)
  | cutToLanes hs hp sl el => exact aside ((aside_offerSlice ..).after ⟨⟨rfl, rfl, rfl⟩, rfl⟩)
  | backboneTaken hx hr hb => exact aside ((aside_startRequest ..).after ⟨⟨rfl, rfl, rfl⟩, rfl⟩)
  | localTaken hx hr hb =>
    exact aside (((aside_startRequest ..).after (aside_wakeMgmtHeader _)).after ⟨⟨rfl, rfl, rfl⟩, rfl⟩)
  | answered h => exact aside (aside_respond ..)
  | flushAnswered h =>
    exact ((contextsSame_flush ..).trans (contextsSame_of_aside (aside_respond ..))).oneContextEach hs
  | cleared h hf => exact aside ((aside_respond ..).after ⟨⟨rfl, rfl, rfl⟩, rfl⟩)
  | laneRestarted h => exact aside ((aside_lanesOnly h).trans (aside_partDone ..))
  | mergeRestarted => exact ((contextsSame_of_aside (aside_partDone ..)).after ⟨rfl, rfl⟩).oneContextEach hs
  | engineRestarted =>
    refine (contextsSame_of_aside (aside_partDone ..)).oneContextEach (oneContextEach_of_empty rfl)
  | deliveryRestarted => exact aside (((aside_partDone ..).after (aside_cutTransfer _)).after ⟨⟨rfl, rfl, rfl⟩, rfl⟩)
  | submissionDropped hn left => exact aside ((aside_partDone ..).after ⟨⟨rfl, rfl, rfl⟩, rfl⟩)
  | slicerRestarted h =>
    refine aside ((aside_partDone ..).after ?_)
    cases slicingResponse s.slicer.state <;> exact ⟨⟨rfl, rfl, rfl⟩, rfl⟩
  | prepared h x => exact ((contextsSame_of_aside (aside_respond ..)).after ⟨rfl, rfl⟩).oneContextEach hs
  | sessionSet h hx => exact ((contextsSame_of_aside (aside_respond ..)).after ⟨rfl, rfl⟩).oneContextEach hs
  | recordsWritten h hx ho hj => exact ((contextsSame_of_aside (aside_respond ..)).after ⟨rfl, rfl⟩).oneContextEach hs
  | @committed r x h hx ho =>
    rcases startSweep_cases (s.commitSwap x) r (markedStreams s.table.touched) with ⟨-, ht⟩ | ⟨-, ht⟩ <;> rw [ht]
    · exact ((contextsSame_of_aside (aside_respond ..)).after ⟨rfl, rfl⟩).oneContextEach hs
    · exact hs
  | idleTimedOut => exact hs
  | probeStarted h =>
    exact oneContextEach_drainItems Config.probeStream _ (s := s.flush Config.probeStream .flushed) hs
  | probeEnded result reason => exact aside (aside_endProbe ..)

/-! ## All capacities -/

theorem probeSending_le_one (x : Executor) : probeSending x ≤ 1 := by
  unfold probeSending
  split
  · split
    · exact Nat.zero_le 1
    · exact le_refl 1
  all_goals exact Nat.zero_le 1

/-- The capacities, by what keeps them. -/
theorem withinCapacities_iff (s : State) (hb : s.buffersAccounted) :
    s.withinCapacities ↔ capMerge s ∧ s.probeBalanced ∧ (∀ q, s.occupancy q ≤ 256)
      ∧ s.engine.ctxs.length ≤ 64 ∧ (capLane s.laneA ∧ capLane s.laneB)
      ∧ s.slicer.fifo.length + reservedEntry s.sub ≤ 32
      ∧ (s.mgmt.bbShare.length ≤ 4 ∧ s.mgmt.lpShare.length + reservedPlace s.sub ≤ 4) ∧ s.stats.log.length ≤ 32 := by
  obtain ⟨hbb, hlp, hbbmax, hlpmax, -⟩ := hb
  have hmq : s.delivery.mq.length + transferringResponse s.delivery.transfer ≤ Config.respBufs := by omega
  have hout : waitingResponses s.slicer.outputs + (if slicingResponse s.slicer.state then 1 else 0)
      ≤ Config.respBufs := by omega
  constructor
  · rintro ⟨hwf, hheld, hctxs, hfifoA, hfifoB, htx, hbbs, hlps, hlog, hconfA, hconfB, hfailA, hfailB, hocc, -, -, hprobe,
      -, hstale⟩
    exact ⟨⟨hwf, hheld, hstale⟩, hprobe, hocc, hctxs, ⟨⟨hfifoA, hconfA, hfailA⟩, ⟨hfifoB, hconfB, hfailB⟩⟩, htx,
      ⟨hbbs, hlps⟩, hlog⟩
  · rintro ⟨⟨hwf, hheld, hstale⟩, hprobe, hocc, hctxs, ⟨⟨hfifoA, hconfA, hfailA⟩, ⟨hfifoB, hconfB, hfailB⟩⟩, htx,
      ⟨hbbs, hlps⟩, hlog⟩
    exact ⟨hwf, hheld, hctxs, hfifoA, hfifoB, htx, hbbs, hlps, hlog, hconfA, hconfB, hfailA, hfailB, hocc, hmq, hout,
      hprobe, probeSending_le_one _, hstale⟩

/-- Within the capacities, with the invariants of their own that they rest on. -/
def State.bounded (s : State) : Prop := s.banksInRange ∧ s.buffersAccounted ∧ s.withinCapacities

theorem Effect.bounded {s t : State} {c : Instr} (h : Effect s c t) (hs : s.bounded) : t.bounded := by
  obtain ⟨hbanks, hbuffers, hcaps⟩ := hs
  obtain ⟨hmerge, hprobe, hocc, hctxs, hlanes, htx, hshares, hlog⟩ := (withinCapacities_iff s hbuffers).1 hcaps
  have hbuffers' := h.buffersAccounted hbuffers
  refine ⟨h.banksInRange hbanks, hbuffers', (withinCapacities_iff t hbuffers').2 ?_⟩
  exact ⟨h.mergeEffect.capMerge hmerge hbanks, h.outputsSound.probe hprobe,
    h.outputsSound.occupancy (capacity_le hbanks) hocc, h.kept.ctxs hctxs, h.kept.lanes hlanes, h.kept.tx htx,
    h.kept.shares hshares, h.kept.log hlog⟩

/-! ## A microsecond -/

theorem portOnCourse_tick {s : State} (h : s.portOnCourse) : s.tick.portOnCourse := by
  unfold State.tick
  split
  · exact h
  · intro tr htr
    rw [Delivery.present_transfer] at htr
    obtain ⟨j, hj, hlast, hout⟩ := h tr htr
    by_cases hnext : j + 1 < (deliveryOut tr).length
    · refine ⟨j + 1, Nat.le_add_left 1 j, hnext, ?_⟩
      dsimp only
      rw [Delivery.present_next htr hout hnext]
    · have hlength : s.delivery.out.length = j := by rw [hout, List.length_take]; omega
      refine ⟨j, hj, hlast, ?_⟩
      dsimp only
      rw [Delivery.present_some htr, hlength, if_neg hnext]
      exact hout

theorem bounded_tick {s : State} (h : s.bounded) : s.tick.bounded := by
  obtain ⟨hbanks, hbuffers, hcaps⟩ := h
  refine ⟨by unfold State.banksInRange; rw [tick_table]; exact hbanks, buffersAccounted_tick hbuffers, ?_⟩
  unfold State.tick
  split
  · exact hcaps
  · unfold State.withinCapacities State.occupancy at *
    simp only [Delivery.present_dqs, Delivery.present_mq, Delivery.present_transfer]
    exact hcaps

/-- Settles O58: the capacities are an invariant with the banks in range and the buffers accounted for; the other two stand
alone. -/
theorem everyStepKeepsCapacities : Obligations.EveryStepKeepsCapacities := by
  intro s t h
  refine ⟨fun hbanks hbuffers hcaps => ?_, fun hs => ?_, fun hs => ?_⟩
  · exact (step_keeps (P := State.bounded) (fun _ _ hs => hs) (fun _ => bounded_tick)
      (fun _ _ _ heffect => heffect.bounded) ⟨hbanks, hbuffers, hcaps⟩ h).2.2
  · exact step_keeps (P := State.oneContextEach) (fun _ _ hs => hs)
      (fun _ hs => (contextsSame_of_aside (aside_tick _)).oneContextEach hs)
      (fun _ _ _ heffect => heffect.oneContextEach) hs h
  · exact step_keeps (P := State.portOnCourse) (fun _ _ hs => hs) (fun _ => portOnCourse_tick)
      (fun _ _ _ heffect => heffect.outputsSound.port) hs h

end Sys2Proof.Machine
end

