-- ==== Sys2Proof/Proofs/LaneReceive.lean ====
section
/-! PROOF. The receive side of a lane: signal loss and regain, the search for a block boundary, and the blocks of an aligned
lane (R4 to R11). -/

namespace Sys2Proof.Machine

section Commands

variable {s : State} (hrun : s.inReset = false) (l : LaneId) (bytes : List Byte)
include hrun

theorem exec_signalLoss :
    exec (.signalLoss l) s = .next
      (if (s.lane l).align = .up then
        (s.setLane l ({ s.lane l with signal := false } : Lane).onSignalLoss).report
          fun st => st.onLane l LaneCounters.addAlignLoss
      else s.setLane l ({ s.lane l with signal := false } : Lane).onSignalLoss) := by
  show execSignalLoss l s = _
  unfold execSignalLoss
  simp [hrun]

theorem exec_signalRegain :
    exec (.signalRegain l) s = .next (s.setLane l ({ s.lane l with signal := true } : Lane).onSignalRegain) := by
  show execSignalRegain l s = _
  unfold execSignalRegain
  simp [hrun]

theorem exec_huntCandidate :
    exec (.huntCandidate l bytes) s = .next
      (if (s.lane l).align = .hunt then s.setLane l ((s.lane l).receive bytes).huntTest else s) :=
  live_running hrun _

theorem exec_confirmBlock :
    exec (.confirmBlock l bytes) s = .next
      (if (s.lane l).align = .confirm then s.setLane l ((s.lane l).receive bytes).confirmTest else s) :=
  live_running hrun _

theorem exec_upBlock_of_not_up (h : (s.lane l).align ≠ .up) : exec (.upBlock l bytes) s = .next s :=
  (live_running hrun _).trans (by rw [if_neg h])

theorem exec_upBlock_up (h : (s.lane l).align = .up) :
    exec (.upBlock l bytes) s = .next
      (let rx := (s.lane l).rx ++ bytes
       let s1 := s.setLane l { s.lane l with rx := rx.drop 64 }
       if rx.length < 64 then s.setLane l { s.lane l with rx := rx }
       else if crc8 ((rx.take 64).take 7) = rd8 (rx.take 64) 7 then s1.upScreen l (rx.take 64)
       else s1.upFailure l) :=
  execUpBlock_up bytes hrun h

end Commands

/-! ## Signal-detect (R8) -/

theorem Lane.onSignalLoss_eq (l : Lane) :
    l.onSignalLoss = if l.align = .disabled ∨ l.align = .down then l else l.enterAfresh .down := by
  unfold Lane.onSignalLoss
  cases l.align <;> rfl

theorem Lane.onSignalRegain_eq (l : Lane) : l.onSignalRegain = if l.align = .down then l.enterAfresh .hunt else l := by
  unfold Lane.onSignalRegain
  cases l.align <;> rfl

/-- Settles O5, by the alignment state the lane is in. -/
theorem signalDetectMovesAlignment : Obligations.SignalDetectMovesAlignment := by
  intro l s hrun
  refine ⟨fun h => ?_, fun h => ?_, fun h => ?_, fun h => ?_, fun h => ?_⟩
  · rw [exec_signalLoss hrun, Lane.onSignalLoss_eq, if_pos h, if_neg (by rcases h with h | h <;> rw [h] <;> decide)]
  · rw [exec_signalLoss hrun, Lane.onSignalLoss_eq, if_neg (by rcases h with h | h <;> simp [h]),
      if_neg (by rcases h with h | h <;> rw [h] <;> decide)]
    rfl
  · rw [exec_signalLoss hrun, if_pos h, Lane.onSignalLoss_eq, if_neg (by simp [h])]
    cases l <;> rfl
  · rw [exec_signalRegain hrun, Lane.onSignalRegain_eq, if_pos h]
    rfl
  · rw [exec_signalRegain hrun, Lane.onSignalRegain_eq, if_neg h]

/-! ## Hunting and confirming (R5, R6) -/

/-- Settles O6: one test of the 64 bytes at the position, by the alignment state. -/
theorem huntAndConfirmFindABoundary : Obligations.HuntAndConfirmFindABoundary := by
  intro l bytes s hrun rx b
  have hrx : ((s.lane l).receive bytes).rx = rx := rfl
  refine ⟨fun halign => ?_, fun halign => ?_, fun halign => ?_, fun halign => ?_⟩
  · rw [exec_huntCandidate hrun, if_pos halign, Lane.huntTest_eq, hrx]
    refine ⟨fun hshort => ?_, fun hwhole hpass => ?_, fun hwhole hfail => ?_⟩
    · rw [if_pos hshort]; rfl
    · rw [if_neg (Nat.not_lt.2 hwhole), if_pos hpass]; rfl
    · rw [if_neg (Nat.not_lt.2 hwhole), if_neg hfail]; rfl
  · rw [exec_confirmBlock hrun, if_pos halign, Lane.confirmTest_eq, hrx, Lane.receive_confirm]
    refine ⟨fun hshort => ?_, fun hwhole hpass hcount => ?_, fun hwhole hpass hcount => ?_, fun hwhole hfail => ?_⟩
    · rw [if_pos hshort]; rfl
    · rw [if_neg (Nat.not_lt.2 hwhole), if_pos hpass, if_pos hcount]; rfl
    · rw [if_neg (Nat.not_lt.2 hwhole), if_pos hpass, if_neg (Nat.not_lt.2 hcount)]; rfl
    · rw [if_neg (Nat.not_lt.2 hwhole), if_neg hfail]; rfl
  · rw [exec_huntCandidate hrun, if_neg halign]
  · rw [exec_confirmBlock hrun, if_neg halign]

/-! ## Blocks of an aligned lane (R7, R10) -/

theorem upFailure_setLane (s : State) (l : LaneId) (x : Lane) :
    (s.setLane l x).upFailure l =
      if x.failRun < 3 then
        { s.setLane l { x with failRun := x.failRun + 1 } with
          stats := s.stats.setLane l { s.stats.lane l with badHeader := satInc (s.stats.lane l).badHeader } }
      else
        { s.setLane l { x with align := .hunt, confirm := 0, failRun := 0 } with
          stats := s.stats.setLane l
            { s.stats.lane l with
              badHeader := satInc (s.stats.lane l).badHeader, alignLoss := satInc (s.stats.lane l).alignLoss } } := by
  have hfourth : (x.failRun + 1 < Config.failuresEndUp) = (x.failRun < 3) := by
    simp [Config.failuresEndUp, Nat.succ_lt_succ_iff]
  unfold State.upFailure
  simp only [State.setLane_lane, hfourth]
  cases l <;> split <;> rfl

theorem upScreen_setLane (s : State) (l : LaneId) (x : Lane) (block : List Byte) :
    (s.setLane l x).upScreen l block =
      if blockIdle block then s.setLane l { x with failRun := 0 }
      else if blockMalformed block then
        { s.setLane l { x with failRun := 0 } with
          stats := s.stats.setLane l { s.stats.lane l with malformed := satInc (s.stats.lane l).malformed } }
      else
        { s.setLane l { x with failRun := 0, handed := x.handed ++ [sliceOfBlock block] } with
          stats := s.stats.setLane l { s.stats.lane l with good := satInc (s.stats.lane l).good } } := by
  unfold State.upScreen
  simp only [State.setLane_lane]
  cases l <;> split <;> rfl

theorem blockIdle_iff (block : List Byte) : blockIdle block = true ↔ hdrStream (headerWord block) = 4095 := beq_iff_eq

theorem blockMalformed_iff (block : List Byte) :
    blockMalformed block = true ↔ hdrZero (headerWord block) ≠ 0 ∨ hdrFill (headerWord block) = 0
      ∨ 56 < hdrFill (headerWord block)
      ∨ ((hdrPos (headerWord block) = .first ∨ hdrPos (headerWord block) = .middle) ∧ hdrFill (headerWord block) ≠ 56) := by
  unfold blockMalformed
  simp only [Bool.or_eq_true, Bool.and_eq_true, bne_iff_ne, beq_iff_eq, decide_eq_true_eq, or_assoc]
  rfl

/-- Settles O7, by the failure run the block finds. -/
theorem failingBlocksEndUp : Obligations.FailingBlocksEndUp := by
  intro l bytes s hrun rx b
  refine ⟨exec_upBlock_of_not_up hrun l bytes, fun hup => ?_⟩
  rw [exec_upBlock_up hrun l bytes hup]
  dsimp only
  refine ⟨fun hshort => ?_, fun hwhole hfail hrun3 => ?_, fun hwhole hfail hrun3 => ?_⟩
  · rw [if_pos hshort]
  · rw [if_neg (Nat.not_lt.2 hwhole), if_neg hfail, upFailure_setLane, if_pos hrun3]
  · rw [if_neg (Nat.not_lt.2 hwhole), if_neg hfail, upFailure_setLane, if_neg (Nat.not_lt.2 hrun3)]

/-- Settles O8, by the fields of the block's header. -/
theorem passingBlockIsScreened : Obligations.PassingBlockIsScreened := by
  intro l bytes s hrun hup rx b hwhole hpass h malformed
  have hidle : blockIdle b = true ↔ hdrStream h = 4095 := blockIdle_iff b
  have hbad : blockMalformed b = true ↔ malformed := blockMalformed_iff b
  rw [exec_upBlock_up hrun l bytes hup]
  dsimp only
  rw [if_neg (Nat.not_lt.2 hwhole), if_pos hpass, upScreen_setLane]
  refine ⟨fun hmark => ?_, fun hmark hmal => ?_, fun hmark hgood => ?_⟩
  · rw [if_pos (hidle.2 hmark)]
  · rw [if_neg (hidle.not.2 hmark), if_pos (hbad.2 hmal)]
  · rw [if_neg (hidle.not.2 hmark), if_neg (hbad.not.2 hgood)]
    rfl

/-! ## A slice sent is read back (R1, R187) -/

/-- The fields of a header's first word. -/
theorem firstWordOf_fields (sl : Slice) :
    (firstWordOf sl).extractLsb' 20 12 = BitVec.ofNat 12 sl.stream ∧ (firstWordOf sl).extractLsb' 18 2 = sl.pos.code
      ∧ (firstWordOf sl).extractLsb' 6 12 = sl.seq
      ∧ (firstWordOf sl).extractLsb' 0 6 = BitVec.ofNat 6 sl.payload.length := by
  unfold firstWordOf
  refine ⟨?_, ?_, ?_, ?_⟩
  · exact (extractLsb_append_high _ _ 14 12).trans ((extractLsb_append_high _ _ 2 12).trans
      ((extractLsb_append_high _ _ 0 12).trans (extractLsb_self _)))
  · exact (extractLsb_append_high _ _ 12 2).trans ((extractLsb_append_high _ _ 0 2).trans
      ((extractLsb_append_low _ _ 0 2 (by decide)).trans (extractLsb_self _)))
  · exact (extractLsb_append_high _ _ 0 12).trans ((extractLsb_append_low _ _ 0 12 (by decide)).trans (extractLsb_self _))
  · exact (extractLsb_append_low _ _ 0 6 (by decide)).trans (extractLsb_self _)

/-- A header is read back field by field. -/
theorem hdrFields_of_firstWord (sl : Slice) (aux : Half) (zero check : Byte) :
    let h : BitVec 64 := firstWordOf sl ++ (aux ++ (zero ++ check : BitVec 16) : BitVec 32)
    hdrStream h = sl.stream % 4096 ∧ hdrPos h = sl.pos ∧ hdrSeq h = sl.seq ∧ hdrFill h = sl.payload.length % 64
      ∧ hdrAux h = aux ∧ hdrZero h = zero := by
  intro h
  obtain ⟨hstream, hpos, hseq, hfill⟩ := firstWordOf_fields sl
  have high (i n : Nat) : h.extractLsb' (32 + i) n = (firstWordOf sl).extractLsb' i n := extractLsb_append_high ..
  refine ⟨?_, ?_, ?_, ?_, ?_, ?_⟩
  · exact (congrArg BitVec.toNat ((high 20 12).trans hstream)).trans (BitVec.toNat_ofNat ..)
  · exact (congrArg Position.ofCode ((high 18 2).trans hpos)).trans (Position.ofCode_code _)
  · exact (high 6 12).trans hseq
  · exact (congrArg BitVec.toNat ((high 0 6).trans hfill)).trans (BitVec.toNat_ofNat ..)
  · exact (extractLsb_append_low _ _ 16 16 (by decide)).trans ((extractLsb_append_high _ _ 0 16).trans (extractLsb_self _))
  · exact (extractLsb_append_low _ _ 8 8 (by decide)).trans ((extractLsb_append_low _ _ 8 8 (by decide)).trans
      ((extractLsb_append_high _ _ 0 8).trans (extractLsb_self _)))

theorem blockOfSlice_length {sl : Slice} (h : sl.payload.length ≤ 56) : (blockOfSlice sl).length = 64 := by
  have hmax : Config.maxFill = 56 := rfl
  simp [blockOfSlice, headerBytes, be32, be16, hmax]
  omega

theorem blockOfSlice_passes (sl : Slice) : blockPasses (blockOfSlice sl) = true := by
  have htake : (blockOfSlice sl).take 7 = headerBytes sl := rfl
  unfold blockPasses
  rw [htake]
  exact beq_iff_eq.2 rfl

theorem blockOfSlice_payload (sl : Slice) : ((blockOfSlice sl).drop 8).take sl.payload.length = sl.payload := by
  have hdrop : (blockOfSlice sl).drop 8 = sl.payload ++ List.replicate (Config.maxFill - sl.payload.length) 0 := rfl
  rw [hdrop, List.take_left]

/-- Settles O9: the header word of the block sent carries the slice's fields. -/
theorem sentSliceIsReadBackWhole : Obligations.SentSliceIsReadBackWhole := by
  intro sl hwf
  obtain ⟨hstream, hnonempty, hfits, hfull⟩ := hwf
  obtain ⟨check, hword⟩ := headerWord_blockOfSlice sl
  obtain ⟨hk, hpos, hseq, hfill, haux, hzero⟩ := hdrFields_of_firstWord sl sl.aux 0 check
  rw [← hword] at hk hpos hseq hfill haux hzero
  have hnum : Config.numStreams = 4095 := rfl
  have hmax : Config.maxFill = 56 := rfl
  rw [Nat.mod_eq_of_lt (by omega)] at hk hfill
  refine ⟨blockOfSlice_length hfits, blockOfSlice_passes sl, ?_, ?_, ?_⟩
  · rw [Bool.eq_false_iff, Ne, blockIdle_iff, hk]
    omega
  · rw [Bool.eq_false_iff, Ne, blockMalformed_iff, hzero, hfill, hpos]
    rintro (h | h | h | ⟨h, h'⟩)
    · exact h rfl
    · omega
    · omega
    · exact h' (hfull h)
  · unfold sliceOfBlock
    simp only [hk, hpos, hseq, hfill, haux, blockOfSlice_payload]

end Sys2Proof.Machine
end

