-- ==== Sys2Proof/Proofs/LaneTransmit.lean ====
section
/-! PROOF. The transmit side of the lanes: what a line sends, what becomes of an offered slice, and the restarts (R12, R13,
R16, R114, R115, R118). -/

namespace Sys2Proof.Machine

/-! ## The line (R13) -/

theorem exec_lineBlockEnd_empty {s : State} (hrun : s.inReset = false) {l : LaneId} (h : (s.lane l).fifo = []) :
    exec (.lineBlockEnd l) s
      = .next ((s.countSent l).setLane l { s.lane l with line := .sending idleBlock false }) :=
  by
  show execLineBlockEnd l s = _
  unfold execLineBlockEnd
  rw [live_running hrun, h]

theorem exec_lineBlockEnd_head {s : State} (hrun : s.inReset = false) {l : LaneId} {sl : Slice} {rest : List Slice}
    (h : (s.lane l).fifo = sl :: rest) :
    exec (.lineBlockEnd l) s
      = .next (((s.countSent l).setLane l
          { s.lane l with fifo := rest, line := .sending (blockOfSlice sl) true }).reoffer l) :=
  by
  show execLineBlockEnd l s = _
  unfold execLineBlockEnd
  rw [live_running hrun, h]

theorem setLane_stats_comm (s : State) (l : LaneId) (x : Lane) (st : Stats) :
    State.setLane { s with stats := st } l x = { s.setLane l x with stats := st } := by
  cases l <;> rfl

theorem reoffer_of_stalled {s : State} {l : LaneId} {j : Job} {sl : Slice} {el : LaneSet}
    (h : s.slicer.state = .stalled j sl el) (hel : el.has l = true) : s.reoffer l = s.offerSlice j sl el := by
  unfold State.reoffer
  rw [h]
  exact if_pos hel

theorem reoffer_of_not_stalled {s : State} {l : LaneId}
    (h : ∀ j sl el, s.slicer.state = .stalled j sl el → el.has l = false) : s.reoffer l = s := by
  unfold State.reoffer
  split
  · next j sl el hst => rw [h j sl el hst]; rfl
  · rfl
  · rfl

/-- Settles O10: the copy just sent is counted first, then the FIFO's head goes on the line. -/
theorem lineSendsTheHeadCopy : Obligations.LineSendsTheHeadCopy := by
  intro l s hrun counted
  have hcounted : s.countSent l = { s with stats := counted } := by
    simp only [counted]
    unfold State.countSent
    cases (s.lane l).line with
    | silent => rfl
    | sending block sent => cases sent <;> cases l <;> rfl
  refine ⟨fun hempty => ?_, fun sl rest hfifo => ?_⟩
  · rw [exec_lineBlockEnd_empty hrun hempty, hcounted, setLane_stats_comm]
  · have hstate : (State.setLane { s with stats := counted } l
        { s.lane l with fifo := rest, line := .sending (blockOfSlice sl) true }).slicer.state = s.slicer.state := by
      rw [State.setLane_slicer]
    rw [exec_lineBlockEnd_head hrun hfifo, hcounted]
    refine ⟨fun hnot => ?_, fun j x el hst hel => ?_⟩
    · rw [reoffer_of_not_stalled fun j x el hst => hnot j x el (hstate.symm.trans hst), setLane_stats_comm]
    · rw [reoffer_of_stalled (hstate.trans hst) hel, setLane_stats_comm]

/-! ## Offers (R114, R115) -/

theorem room_iff (l : Lane) : l.room = true ↔ l.fifo.length < 64 := decide_eq_true_iff

theorem room_false_iff (l : Lane) : l.room = false ↔ ¬ l.fifo.length < 64 := by rw [← room_iff, Bool.not_eq_true]

theorem sliceDone_goesOn {s : State} {j : Job} (h : j.pieces ≠ []) :
    s.sliceDone j = (if j.kind = .data then s.returnTx 1 else s).setSlicer (.slicing j) := by
  unfold State.sliceDone
  rw [if_neg (by rw [List.isEmpty_iff]; exact h)]

theorem sliceDone_ends {s : State} {j : Job} (h : j.pieces = []) :
    s.sliceDone j = ((if j.kind = .data then s.returnTx 1 else s).messageSliced j).setSlicer .idle := by
  unfold State.sliceDone
  rw [h]
  rfl

/-- Settles O11, by which lanes are eligible and which of them have room. -/
theorem offerFollowsTheTable : Obligations.OfferFollowsTheTable := by
  intro s j sl el placeA placeB roomA roomB
  have hroomA : s.laneA.room = true ↔ roomA := room_iff _
  have hroomB : s.laneB.room = true ↔ roomB := room_iff _
  refine ⟨fun ha hb => ?_, fun ha hra hb => ?_, fun ha hb hrb => ?_, fun ha hra hb hrb => ?_, fun ha hra hb hrb => ?_,
    fun ha hra hb hrb => ?_, fun hsome hra hrb => ?_, fun hk hp => ?_, fun hk hp => ?_, fun hk hp => ?_, fun hk hp => ?_,
    fun hk hp r p hx => ?_⟩
  · simp [State.offerSlice, ha, hb]
  · have := hroomA.2 hra
    simp [State.offerSlice, ha, hb, this]
    rfl
  · have := hroomB.2 hrb
    simp [State.offerSlice, ha, hb, this]
    rfl
  · have hA := hroomA.2 hra
    have hB := hroomB.2 hrb
    simp [State.offerSlice, ha, hb, hA, hB]
    rfl
  · have hA := hroomA.2 hra
    have hB := (room_false_iff _).2 hrb
    simp [State.offerSlice, ha, hb, hA, hB]
    rfl
  · have hA := (room_false_iff _).2 hra
    have hB := hroomB.2 hrb
    simp [State.offerSlice, ha, hb, hA, hB]
    rfl
  · have hA : (el.a && s.laneA.room) = false := by
      cases ha : el.a
      · rfl
      · exact (room_false_iff _).2 (hra ha)
    have hB : (el.b && s.laneB.room) = false := by
      cases hb : el.b
      · rfl
      · exact (room_false_iff _).2 (hrb hb)
    have hany : (el.a || el.b) = true := by simpa using hsome
    unfold State.offerSlice
    simp only [hA, hB, hany]
    rfl
  · rw [sliceDone_goesOn hp, if_pos hk]; rfl
  · rw [sliceDone_ends hp, if_pos hk]
    unfold State.messageSliced
    rw [hk]
    rfl
  · rw [sliceDone_goesOn hp, if_neg hk]; rfl
  · rw [sliceDone_ends hp, if_neg (by rw [hk]; decide)]
    unfold State.messageSliced
    rw [hk]
    rfl
  · rw [sliceDone_ends hp, if_neg (by rw [hk]; decide)]
    unfold State.messageSliced State.probeSent
    rw [hk]
    dsimp only
    rw [hx]
    rfl

/-! ## The restarts (R16, R118) -/

theorem exec_laneTxRestart {l : LaneId} {s : State} (h : s.awaitsRestart (partOfLane l)) :
    exec (.laneTxRestart l) s = .next ((s.setLane l { s.lane l with fifo := [] }).partDone (partOfLane l)) := by
  show execLaneTxRestart l s = _
  unfold execLaneTxRestart
  rw [restartPart_awaits h]

theorem exec_slicerRestart {s : State} (h : s.awaitsRestart .slicer) :
    exec .slicerRestart s = .next (State.partDone
      { (if slicingResponse s.slicer.state then
          (s.returnTx (frameBlocks s.slicer.fifo + slicerBlocks s.slicer.state)).freeBuffer .backbone
        else s.returnTx (frameBlocks s.slicer.fifo + slicerBlocks s.slicer.state)) with
        slicer := { s.slicer with fifo := [], state := .idle, seqs := [] } } .slicer) := by
  show execSlicerRestart s = _
  unfold execSlicerRestart
  rw [restartPart_awaits h]
  cases slicingResponse s.slicer.state <;> rfl

/-- Settles O12: what a STALLED slicer offers counts among what it returns. -/
theorem transmitSidesRestart : Obligations.TransmitSidesRestart := by
  refine ⟨fun l s h => ?_, fun s h => ?_⟩
  · cases l with
    | a => exact exec_laneTxRestart (l := .a) h
    | b => exact exec_laneTxRestart (l := .b) h
  · rw [exec_slicerRestart h]
    refine ⟨fun hidle => ?_, fun j hj => ?_⟩
    · rw [hidle]; rfl
    · have hmessage : slicerBlocks s.slicer.state
            = (if j.kind = .data then j.pieces.length + (if s.slicer.state = .slicing j then 0 else 1) else 0)
          ∧ slicingResponse s.slicer.state = (j.kind == .response) := by
        rcases hj with hj | ⟨sl, el, hj⟩ <;> rw [hj] <;> simp [slicerBlocks, slicingResponse]
      rw [hmessage.1, hmessage.2]
      cases j.kind <;> rfl

end Sys2Proof.Machine
end

