-- ==== Sys2Proof/Proofs/MergeAnswers.lean ====
section
/-! PROOF. The merge unit's answers: screening, the zones within the window, hold expiries, flushes, the commit sweep, and
the restarts of the receive engines (R35 to R52, R56, R79). -/

namespace Sys2Proof.Machine

/-! ## Counting (R47 to R49, R178) -/

theorem passedSlice_stream (st : Stats) (k j : Nat) (p : Path) :
    (st.passedSlice k p).stream j
      = if j = k then { st.stream j with passed := satInc (st.stream j).passed } else st.stream j := by
  have hset : (st.passedSlice k p).stream j
      = (st.setStream k { st.stream k with passed := satInc (st.stream k).passed }).stream j := by
    cases p <;> rfl
  rw [hset, stream_setStream]
  split
  · next h => rw [h]
  · rfl

theorem discardedSlice_stream (st : Stats) (k j : Nat) (r : DiscardReason) :
    (st.discardedSlice k r).stream j
      = if j = k ∧ (r = .duplicate ∨ r = .stale) then
          { st.stream j with duplicates := satInc (st.stream j).duplicates }
        else st.stream j := by
  cases r with
  | duplicate | stale =>
    refine (stream_setStream ..).trans ?_
    by_cases h : j = k
    · subst h
      rw [if_pos rfl, if_pos ⟨rfl, by simp⟩]
      rfl
    · rw [if_neg h, if_neg fun hc => h hc.1]
      rfl
  | streamDisabled | laneFiltered | noHoldEntry | noBuffer | orphan => simp; rfl

/-- Settles O13, counter by counter. -/
theorem passesAndDiscardsAreCounted : Obligations.PassesAndDiscardsAreCounted := by
  refine ⟨satInc_toNat, fun s sl p gap => ⟨rfl, fun k => passedSlice_stream .., ?_, ?_, ?_, ?_, ?_⟩,
    fun s k r => ⟨rfl, fun j => discardedSlice_stream .., ?_, ?_, ?_, ?_, ?_⟩⟩
  · cases p <;> rfl
  · cases p <;> rfl
  · cases p <;> rfl
  · cases p <;> rfl
  · cases p <;> rfl
  · cases r <;> rfl
  · cases r <;> rfl
  · cases r <;> rfl
  · cases r <;> rfl
  · cases r <;> rfl

/-! ## Screening (R35) -/

theorem pathPermitted_iff (k : Nat) (mask : LaneMask) (p : Path) :
    pathPermitted k mask p = true ↔
      if k = 4094 then p = .loop else (p = .a ∧ mask ≠ .onlyB) ∨ (p = .b ∧ mask ≠ .onlyA) := by
  have hprobe : Config.probeStream = 4094 := rfl
  unfold pathPermitted
  by_cases hk : k = 4094
  · cases p <;> simp [hk, hprobe]
  · cases p <;> cases mask <;> simp [hk, hprobe, LaneMask.names]

theorem takeSlice_eq (s : State) (sl : Slice) (p : Path) :
    s.takeSlice sl p
      = (if markOf s.merge.pendingFlush sl.stream then s.flush sl.stream .reconfigured else s).screenSlice sl p := by
  unfold State.takeSlice
  split <;> rfl

section Screen

variable {s : State} {sl : Slice} {p : Path}

theorem screenSlice_disabled (h : (s.entry sl.stream).rxEnable = false) :
    s.screenSlice sl p = s.discardSlice sl.stream .streamDisabled := by
  simp [State.screenSlice, h]

theorem screenSlice_filtered (h : (s.entry sl.stream).rxEnable = true)
    (hp : pathPermitted sl.stream (s.entry sl.stream).rxMask p = false) :
    s.screenSlice sl p = s.discardSlice sl.stream .laneFiltered := by
  simp [State.screenSlice, h, hp]

theorem screenSlice_judged (h : (s.entry sl.stream).rxEnable = true)
    (hp : pathPermitted sl.stream (s.entry sl.stream).rxMask p = true) : s.screenSlice sl p = s.judgeSlice sl p := by
  simp [State.screenSlice, h, hp]

end Screen

/-- Settles O14: the flush of a marked stream leaves the entry that the screening looks up. -/
theorem sliceIsScreened : Obligations.SliceIsScreened := by
  intro p s s1 sl hrun hnext s2 e permitted
  have hentry : s2.entry sl.stream = e := by
    simp only [s2]
    split
    · exact (steady_flush ..).entry _
    · rfl
  have hpath : pathPermitted sl.stream (s2.entry sl.stream).rxMask p = true ↔ permitted := by
    rw [hentry]
    exact pathPermitted_iff ..
  have htake : s1.takeSlice sl p = s2.screenSlice sl p := takeSlice_eq ..
  rw [exec_sliceTaken_of_nextSlice hrun hnext, htake]
  refine ⟨fun hoff => ?_, fun hon hnot => ?_, fun hon hyes => ?_⟩
  · rw [screenSlice_disabled (by rw [hentry]; exact hoff)]
  · rw [screenSlice_filtered (by rw [hentry]; exact hon) (by rw [← Bool.not_eq_true, hpath]; exact hnot)]
  · rw [screenSlice_judged (by rw [hentry]; exact hon) (hpath.2 hyes)]

/-! ## An UNSYNCED stream, and the slice at E (R37, R38) -/

section Judge

variable {s : State} {sl : Slice} {p : Path} {e : SeqNo}

theorem judgeSlice_unsynced (h : (s.mrec sl.stream).sync = none) : s.judgeSlice sl p = s.synchronise sl p := by
  simp only [State.judgeSlice, h]

theorem judgeSlice_expected (h : (s.mrec sl.stream).sync = some sl.seq) : s.judgeSlice sl p = s.passAtE sl p := by
  simp [State.judgeSlice, h]

theorem judgeSlice_early (h : (s.mrec sl.stream).sync = some e) (h0 : 1 ≤ (sl.seq - e).toNat)
    (hw : (sl.seq - e).toNat < (s.entry sl.stream).window) : s.judgeSlice sl p = s.holdSlice e sl p := by
  simp only [State.judgeSlice, h]
  rw [if_neg (by omega), if_pos hw]

theorem synchronise_granted (h : s.mayClaimRx) :
    s.synchronise sl p
      = (s.withRxBlock.passSlice sl p true).setMrec sl.stream
        { sync := some (sl.seq + 1), held := [], timer := none, staleRun := 0 } := by
  simp only [State.synchronise, claimRx_some h]

theorem synchronise_refused (h : ¬ s.mayClaimRx) : s.synchronise sl p = s.discardSlice sl.stream .noBuffer := by
  simp only [State.synchronise, claimRx_none h]

theorem passAtE_refused (h : ¬ s.mayClaimRx) : s.passAtE sl p = s.discardSlice sl.stream .noBuffer := by
  simp only [State.passAtE, claimRx_none h]

theorem passAtE_granted (h : s.mayClaimRx) {run left : List Held}
    (hrun : releaseRun (sl.seq + 1) (s.mrec sl.stream).held = (run, e, left)) :
    s.passAtE sl p
      = State.expireDue
        (((s.withRxBlock.passSlice sl p false).passRun run).setMrec sl.stream
          { sync := some e, held := left, timer := s.rearm sl.stream left, staleRun := 0 }) sl.stream := by
  simp only [State.passAtE, claimRx_some h, hrun]

end Judge

/-- Settles O15, by the answer to the receive claim. -/
theorem unsyncedStreamSynchronises : Obligations.UnsyncedStreamSynchronises := by
  intro p s s1 sl hacc hsync
  rw [exec_sliceTaken_of_accepts hacc, judgeSlice_unsynced hsync]
  exact ⟨fun hc => by rw [synchronise_granted hc], fun hc => by rw [synchronise_refused hc]⟩

/-! ## Hold expiries (R45, R51) -/

section Expiry

variable {s : State} {k : Nat} (hrun : s.inReset = false)
include hrun

theorem exec_holdExpiry_unmarked (hmark : markOf s.merge.pendingFlush k = false) :
    exec (.holdExpiry k) s = .next (s.expireDue k) := by
  show execHoldExpiry k s = _
  unfold execHoldExpiry
  rw [live_running hrun]
  cases hdue : s.holdDue k
  · rw [expireDue_not hdue]; rfl
  · simp [hmark]

theorem exec_holdExpiry_marked (hdue : s.holdDue k = true) (hmark : markOf s.merge.pendingFlush k = true) :
    exec (.holdExpiry k) s = .next (s.flush k .reconfigured) := by
  show execHoldExpiry k s = _
  unfold execHoldExpiry
  rw [live_running hrun, if_pos hdue, if_pos hmark]

/-- An expiry at once falls within the command that set the deadline anew (log 8). -/
theorem expireDue_cases (hmark : markOf s.merge.pendingFlush k = false) :
    (s.holdDue k = false → s.expireDue k = s)
      ∧ (s.holdDue k = true → .next (s.expireDue k) = exec (.holdExpiry k) s) :=
  ⟨expireDue_not, fun _ => (exec_holdExpiry_unmarked hrun hmark).symm⟩

end Expiry

theorem nextSlice_inReset {s s1 : State} {p : Path} {sl : Slice} (h : s.nextSlice p = some (sl, s1)) :
    s1.inReset = s.inReset := (steady_nextSlice h).inReset

/-- Settles O16: what is left held after the run gets its deadline anew, and an expiry already due follows. -/
theorem expectedSliceIsPassed : Obligations.ExpectedSliceIsPassed := by
  refine ⟨fun p s s1 sl hacc hsync => ?_, releaseRun_spec, rearm_spec⟩
  have haccepted := hacc
  obtain ⟨hrun, hnext, hmark, -, -⟩ := haccepted
  rw [exec_sliceTaken_of_accepts hacc, judgeSlice_expected hsync]
  refine ⟨fun hc run e left hrelease => ?_, fun hc => by rw [passAtE_refused hc]⟩
  intro t
  have hreset : t.inReset = false := by
    have hpassed := (steady_passRun run (s1.withRxBlock.passSlice sl p false)).inReset
    exact hpassed.trans ((nextSlice_inReset hnext).trans hrun)
  have htmark : markOf t.merge.pendingFlush sl.stream = false := by
    have hpassed := (passRun_merge run (s1.withRxBlock.passSlice sl p false)).1
    have : t.merge.pendingFlush = s1.merge.pendingFlush := by
      simp only [t, State.setMrec_pendingFlush, hpassed]
      rfl
    rw [this]
    exact hmark
  rw [passAtE_granted hc hrelease]
  obtain ⟨hnot, hdue⟩ := expireDue_cases hreset htmark
  exact ⟨fun h => congrArg _ (hnot h), hdue⟩

theorem expireOnce_eq {s : State} {k : Nat} {h : Held} {hs run left : List Held} {e : SeqNo}
    (hheld : (s.mrec k).held = h :: hs) (hrun : releaseRun (h.slice.seq + 1) hs = (run, e, left)) :
    s.expireOnce k = ((s.passSlice h.slice h.path true).passRun run).setMrec k
      { sync := some e, held := left, timer := s.rearm k left, staleRun := 0 } := by
  unfold State.expireOnce
  rw [hheld]
  dsimp only
  rw [hrun]

/-- Settles O20: each expiry passes the lowest held slice and the run behind it, and the loop of them ends with none due. -/
theorem holdExpiryReleasesTheLowestRun : Obligations.HoldExpiryReleasesTheLowestRun := by
  intro k s h hs d hrun hheld htimer hreached
  have hdue : s.holdDue k = true := by
    unfold State.holdDue
    rw [hheld, htimer]
    exact decide_eq_true hreached
  refine ⟨exec_holdExpiry_marked hrun hdue, fun hmark => ⟨fun run e left hrelease => ?_, ?_⟩⟩
  · intro t
    have honce : s.expireDue k = t.expireDue k := by rw [expireDue_once hdue, expireOnce_eq hheld hrelease]
    have hreset : t.inReset = false := by
      have hpassed := (steady_passRun run (s.passSlice h.slice h.path true)).inReset
      exact hpassed.trans hrun
    have htmark : markOf t.merge.pendingFlush k = false := by
      have hpassed := (passRun_merge run (s.passSlice h.slice h.path true)).1
      have : t.merge.pendingFlush = s.merge.pendingFlush := by
        simp only [t, State.setMrec_pendingFlush, hpassed]
        rfl
      rw [this]
      exact hmark
    rw [exec_holdExpiry_unmarked hrun hmark, honce]
    obtain ⟨hnot, hagain⟩ := expireDue_cases hreset htmark
    obtain ⟨hnone, hearliest⟩ := rearm_spec s k
    exact ⟨fun h => congrArg _ (hnot h), hagain, fun hleft => hleft ▸ hnone, hearliest left⟩
  · exact ⟨_, exec_holdExpiry_unmarked hrun hmark, expireDue_done k _ s (le_refl _)⟩

/-! ## Held slices (R32, R39) -/

theorem insertHeld_perm (e : SeqNo) (h : Held) : ∀ held : List Held, (insertHeld e h held).Perm (h :: held)
  | [] => .refl _
  | x :: xs => by
    unfold insertHeld
    split
    · exact .refl _
    · exact ((insertHeld_perm e h xs).cons x).trans (.swap h x xs)

theorem distance_inj {e a b : SeqNo} (h : (a - e).toNat = (b - e).toNat) : a = b := by bv_omega

theorem ascending_insertHeld (e : SeqNo) (h : Held) : ∀ held : List Held,
    (held.map fun x => (x.slice.seq - e).toNat).Pairwise (· < ·) → (∀ x ∈ held, x.slice.seq ≠ h.slice.seq) →
    ((insertHeld e h held).map fun x => (x.slice.seq - e).toNat).Pairwise (· < ·)
  | [], _, _ => List.pairwise_singleton ..
  | x :: xs, hasc, hne => by
    rw [List.map_cons, List.pairwise_cons] at hasc
    obtain ⟨hbelow, hrest⟩ := hasc
    unfold insertHeld
    split
    · next hlt =>
      simp only [List.map_cons, List.pairwise_cons]
      refine ⟨fun d hd => ?_, hbelow, hrest⟩
      rcases List.mem_cons.1 hd with rfl | hd
      · exact hlt
      · exact hlt.trans (hbelow d hd)
    · next hge =>
      rw [List.map_cons, List.pairwise_cons]
      refine ⟨fun d hd => ?_, ascending_insertHeld e h xs hrest fun y hy => hne y (List.mem_cons_of_mem x hy)⟩
      obtain ⟨y, hy, rfl⟩ := List.mem_map.1 hd
      rcases (mem_insertHeld e h y xs).1 hy with rfl | hy
      · exact lt_of_le_of_ne (not_lt.1 hge) fun heq => hne x List.mem_cons_self (distance_inj heq)
      · exact hbelow _ (List.mem_map_of_mem hy)

section Hold

variable {s : State} {sl : Slice} {p : Path} {e : SeqNo}

theorem heldCopy_iff (held : List Held) (seq : SeqNo) :
    (held.any fun h => h.slice.seq == seq) = true ↔ ∃ h ∈ held, h.slice.seq = seq := by
  simp

theorem holdSlice_duplicate (h : ∃ x ∈ (s.mrec sl.stream).held, x.slice.seq = sl.seq) :
    s.holdSlice e sl p = s.discardSlice sl.stream .duplicate := by
  unfold State.holdSlice
  dsimp only
  rw [if_pos ((heldCopy_iff ..).2 h)]

section NewCopy

variable (h : ∀ x ∈ (s.mrec sl.stream).held, x.slice.seq ≠ sl.seq)
include h

theorem not_heldCopy : ¬ ((s.mrec sl.stream).held.any fun x => x.slice.seq == sl.seq) = true := by
  rw [heldCopy_iff]
  rintro ⟨x, hx, heq⟩
  exact h x hx heq

theorem holdSlice_noEntry (hfull : 512 ≤ s.heldInUse) :
    s.holdSlice e sl p = s.discardSlice sl.stream .noHoldEntry := by
  unfold State.holdSlice
  dsimp only
  rw [if_neg (not_heldCopy h), if_pos (show Config.heldEntries ≤ s.heldInUse from hfull)]

theorem holdSlice_refused (hroom : s.heldInUse < 512) (hc : ¬ s.mayClaimRx) :
    s.holdSlice e sl p = s.discardSlice sl.stream .noBuffer := by
  unfold State.holdSlice
  dsimp only
  rw [if_neg (not_heldCopy h), if_neg (show ¬ Config.heldEntries ≤ s.heldInUse from Nat.not_le.2 hroom),
    claimRx_none hc]

theorem holdSlice_granted (hroom : s.heldInUse < 512) (hc : s.mayClaimRx) :
    s.holdSlice e sl p
      = s.withRxBlock.setMrec sl.stream
        { sync := some e
          held := insertHeld e { slice := sl, arrival := s.time, path := p } (s.mrec sl.stream).held
          timer :=
            if (s.mrec sl.stream).held = [] then
              some ⟨s.time, s.time + BitVec.ofNat 32 (s.entry sl.stream).holdTime⟩
            else (s.mrec sl.stream).timer
          staleRun := 0 } := by
  unfold State.holdSlice
  dsimp only
  rw [if_neg (not_heldCopy h), if_neg (show ¬ Config.heldEntries ≤ s.heldInUse from Nat.not_le.2 hroom),
    claimRx_some hc]
  cases (s.mrec sl.stream).held <;> rfl

end NewCopy

end Hold

/-- Settles O17, by the four outcomes of a slice within the window in their order. -/
theorem earlySliceIsHeld : Obligations.EarlySliceIsHeld := by
  refine ⟨fun p s s1 sl e hacc hsync h0 hw => ?_, fun e h held => ⟨insertHeld_perm e h held, ascending_insertHeld e h held⟩⟩
  dsimp only
  rw [exec_sliceTaken_of_accepts hacc, judgeSlice_early hsync h0 hw]
  refine ⟨fun hcopy => ?_, fun hnew hfull => ?_, fun hnew hroom hc => ?_, fun hnew hroom hc => ?_⟩
  · rw [holdSlice_duplicate hcopy]
  · rw [holdSlice_noEntry hnew hfull]
  · rw [holdSlice_refused hnew hroom hc]
  · rw [holdSlice_granted hnew hroom hc]

/-! ## Flushes and the commit sweep (R50, R52, R140, R158) -/

theorem onOff_eq (b : Bool) : onOff b = if b = true then 1 else 0 := rfl

theorem exec_flushStream {s : State} {r : Request} (h : s.executes r .flushStream) :
    exec .flushStream s = .next
      (let k := (rd16 (reqParams r.bytes) 0).toNat
       if 4095 ≤ k then s.respond r .badStream [] else (s.flush k .flushed).respond r .ok (s.mrec k).flushData) := by
  show execFlushStream s = _
  exact onReady_executes h _

theorem flushData_synced {r : MergeRec} {e : SeqNo} (h : r.sync = some e) :
    r.flushData = [1, byteOf r.held.length] ++ be16n e.toNat := by
  simp [MergeRec.flushData, MergeRec.reportedE, h, onOff]

theorem flushData_unsynced {r : MergeRec} (h : r.sync = none) : r.flushData = [0, byteOf r.held.length] ++ [0, 0] := by
  simp [MergeRec.flushData, MergeRec.reportedE, h, onOff, be16n, be16]

/-- Settles O21: a flush writes one record and clears one mark; FLUSH_STREAM answers the record as it stood. -/
theorem streamFlushClearsTheStream : Obligations.StreamFlushClearsTheStream := by
  refine ⟨fun s k reason _ => ⟨rfl, fun j => ?_, markOf_clearMark _ k⟩, fun s r h => ?_⟩
  · exact setMrec_mrec (s.returnRx (s.mrec k).held.length) k j MergeRec.fresh
  · intro k
    rw [exec_flushStream h]
    refine ⟨fun hk => ?_, fun hk e hsync => ?_, fun hk hsync => ?_⟩
    · exact congrArg _ (if_pos (Nat.succ_le_of_lt hk))
    · rw [← flushData_synced hsync]
      exact congrArg _ (if_neg (Nat.not_le.2 (Nat.lt_succ_of_le hk)))
    · rw [← flushData_unsynced hsync]
      exact congrArg _ (if_neg (Nat.not_le.2 (Nat.lt_succ_of_le hk)))

/-- Settles O22: a visit flushes by the mark; the end answers with no stream left. -/
theorem commitSweepVisitsAndEnds : Obligations.CommitSweepVisitsAndEnds := by
  refine ⟨fun s r k left total hrun hx => ?_, fun s r total hrun hx => ?_⟩
  · intro s1
    have hvisit : exec .sweepVisit s
        = .next (if markOf s.merge.pendingFlush k then s1.flush k .reconfigured else s1) := by
      show execSweepVisit s = _
      unfold execSweepVisit
      rw [live_running hrun, hx]
    rw [hvisit]
    exact ⟨fun h => by rw [if_pos h], fun h => by rw [if_neg (by rw [h]; decide)]⟩
  · show execCommitSweepEnd s = _
    unfold execCommitSweepEnd
    rw [live_running hrun, hx]
    dsimp only
    unfold State.endSweep
    rw [onOff_eq]
    rfl

/-! ## The restarts (R56, R79) -/

theorem itemBlocks_filter (items : List Item) :
    itemBlocks items
      = (items.filter fun it => match it with | .slice _ _ _ => true | .abandon _ _ => false).length := by
  induction items with
  | nil => rfl
  | cons it items ih =>
    cases it <;> simp [itemBlocks] at ih ⊢ <;> omega

/-- Settles O23: each restart returns what its part holds, and is reported done. -/
theorem receiveEnginesRestart : Obligations.ReceiveEnginesRestart := by
  refine ⟨fun s h => ?_, fun s h => ?_⟩
  · show execMergeRestart s = _
    unfold execMergeRestart
    rw [restartPart_awaits h]
    rfl
  · intro n
    have hn : ctxBlocks s.engine.ctxs + itemBlocks s.engine.items = n := by rw [itemBlocks_filter]; rfl
    show execReassemblyRestart s = _
    unfold execReassemblyRestart
    rw [restartPart_awaits h, hn]
    rfl

end Sys2Proof.Machine
end

