-- ==== Sys2Proof/Proofs/EngineAnswers.lean ====
section
/-! PROOF. The reassembly engine's answers: an open message abandoned first, FIRST and ONLY slices, abandon requests and
deadlines, what an abandon counts and logs, and where a completed message goes (R61 to R76, R123, R171, R172, R183). -/

namespace Sys2Proof.Machine

/-! ## An open message (R61, R62 step 1, R65 step 1) -/

theorem engineSlice_gap (s : State) (sl : Slice) (p : Path) :
    s.engineSlice sl p true = (s.applyGap sl true).engineSlice sl p false := rfl

section OpenMessage

variable {s : State} {sl : Slice} {c : Ctx}

theorem abandonOpen_of_ctxOf {k : Nat} (h : s.ctxOf k = some c) (reason : AbandonReason) (seq : SeqNo) :
    s.abandonOpen c reason seq
      = ((s.freeCtx k).notDiscarding k).abandonMessage k reason seq c.gathered c.blocks.length := by
  unfold State.abandonOpen
  rw [ctxOf_stream h]

theorem applyGap_of_ctxOf (h : s.ctxOf sl.stream = some c) : s.applyGap sl true = s.abandonOpen c .gap sl.seq := by
  simp [State.applyGap, h]

theorem truncateOpen_of_ctxOf (h : s.ctxOf sl.stream = some c) :
    s.truncateOpen sl = s.abandonOpen c .truncated sl.seq := by
  simp [State.truncateOpen, h]

theorem truncateOpen_of_noMessage (h : s.ctxOf sl.stream = none) : s.truncateOpen sl = s := by
  simp [State.truncateOpen, h]

/-- Once it has truncated the open message the engine deals with the slice as one of an IDLE stream. -/
theorem engineSlice_truncates (hone : s.oneContextEach) (hpos : sl.pos = .first ∨ sl.pos = .only) (p : Path) :
    s.engineSlice sl p false = (s.truncateOpen sl).engineSlice sl p false := by
  have hclosed := truncateOpen_of_noMessage (contexts_truncateOpen hone sl).2
  have hnogap (t : State) : t.applyGap sl false = t := rfl
  unfold State.engineSlice
  rcases hpos with hpos | hpos <;> simp only [hpos, hnogap, State.takeFirst, State.takeOnly, hclosed]

theorem asmState_abandonOpen (hone : s.oneContextEach) (reason : AbandonReason) (seq : SeqNo) :
    (s.abandonOpen c reason seq).asmState c.stream = .idle := by
  refine asmState_idle _ _ (ctxOf_abandonOpen hone c reason seq) ?_
  unfold State.abandonOpen
  rw [abandonMessage_engine]
  exact (markOf_clearMark ..).trans (if_pos rfl)

end OpenMessage

/-- Settles O24: either abandon leaves the stream with no context, and the slice is dealt with from there. -/
theorem openMessageIsAbandonedFirst : Obligations.OpenMessageIsAbandonedFirst := by
  intro k s sl p gap c hrun hone hnext hctx base
  obtain rfl : sl.stream = k := nextItem_stream hnext
  have hctx' : (s.dropItem sl.stream).ctxOf sl.stream = some c := hctx
  have hone' : (s.dropItem sl.stream).oneContextEach := hone
  have hopen := abandonOpen_of_ctxOf hctx'
  have hidle (reason : AbandonReason) (seq : SeqNo) := asmState_abandonOpen (c := c) hone' reason seq
  rw [ctxOf_stream hctx] at hidle
  rw [exec_reassemblySliceTaken_of_nextItem hrun hnext]
  refine ⟨fun hgap => ?_, fun hgap hpos => ?_⟩
  · rw [hgap, engineSlice_gap, applyGap_of_ctxOf hctx', ← hopen]
    exact ⟨rfl, hidle ..⟩
  · rw [hgap, engineSlice_truncates hone' hpos, truncateOpen_of_ctxOf hctx', ← hopen]
    exact ⟨rfl, hidle ..⟩

/-! ## FIRST and ONLY (R62, R65) -/

section NoMessage

variable {s : State} {sl : Slice} (h : s.ctxOf sl.stream = none)
include h

theorem engineSlice_first (hpos : sl.pos = .first) (p : Path) (gap : Bool) :
    s.engineSlice sl p gap =
      (if sl.aux.toNat < 57 then s.rejectFirst sl .badDeclared
      else if (s.entry sl.stream).maxLen < sl.aux.toNat then s.rejectFirst sl .oversize
      else if 64 ≤ s.engine.ctxs.length then s.rejectFirst sl .noContext
      else (s.notDiscarding sl.stream).bindCtx
        { stream := sl.stream
          blocks := [sl.payload]
          declared := sl.aux.toNat
          gathered := 56
          check := crc16 sl.payload
          lanes := LaneSet.single p
          timer := ⟨s.time, s.time + BitVec.ofNat 32 ((s.entry sl.stream).asmLimit * 100)⟩
          lastSeq := sl.seq }) := by
  unfold State.engineSlice
  rw [applyGap_of_noMessage h, hpos]
  dsimp only
  unfold State.takeFirst
  rw [truncateOpen_of_noMessage h]
  rfl

theorem engineSlice_only (hpos : sl.pos = .only) (p : Path) (gap : Bool) :
    s.engineSlice sl p gap =
      (let s1 := s.notDiscarding sl.stream
       if (s.entry sl.stream).maxLen < sl.payload.length then
         s1.abandonMessage sl.stream .oversize sl.seq sl.payload.length 1
       else if (s.entry sl.stream).checkEnable = true ∧ crc16 sl.payload ≠ sl.aux then
         s1.abandonMessage sl.stream .checkFailed sl.seq sl.payload.length 1
       else
         s1.routeMessage
           { stream := sl.stream, length := sl.payload.length, lanes := LaneSet.single p, blocks := [sl.payload] }
           sl.seq) := by
  unfold State.engineSlice
  rw [applyGap_of_noMessage h, hpos]
  dsimp only
  unfold State.takeOnly
  rw [truncateOpen_of_noMessage h]
  rfl

end NoMessage

/-- Settles O25, by the checks of R62 in their order. -/
theorem firstSliceBindsOrIsRejected : Obligations.FirstSliceBindsOrIsRejected := by
  intro k s sl p gap hrun hnext hctx hpos
  obtain rfl : sl.stream = k := nextItem_stream hnext
  have hctx' : (s.dropItem sl.stream).ctxOf sl.stream = none := hctx
  intro s1 limit
  have hlimit : (s1.entry sl.stream).maxLen = limit := rfl
  have hctxs : s1.engine.ctxs = s.engine.ctxs := rfl
  rw [exec_reassemblySliceTaken_of_nextItem hrun hnext, engineSlice_first hctx' hpos, hlimit, hctxs]
  refine ⟨fun hshort => ?_, fun hlong hover => ?_, fun hlong hfits hfull => ?_, fun hlong hfits hroom => ?_⟩
  · rw [if_pos hshort]; rfl
  · rw [if_neg (Nat.not_lt.2 hlong), if_pos hover]; rfl
  · rw [if_neg (Nat.not_lt.2 hlong), if_neg (Nat.not_lt.2 hfits), if_pos hfull]; rfl
  · rw [if_neg (Nat.not_lt.2 hlong), if_neg (Nat.not_lt.2 hfits), if_neg (Nat.not_le.2 hroom)]; rfl

/-- Settles O28, by the checks of R65 in their order. -/
theorem onlySliceIsAWholeMessage : Obligations.OnlySliceIsAWholeMessage := by
  intro k s sl p gap hrun hnext hctx hpos
  obtain rfl : sl.stream = k := nextItem_stream hnext
  have hctx' : (s.dropItem sl.stream).ctxOf sl.stream = none := hctx
  intro s1 fill mismatch
  have hentry : (s.dropItem sl.stream).entry sl.stream = s.entry sl.stream := rfl
  rw [exec_reassemblySliceTaken_of_nextItem hrun hnext, engineSlice_only hctx' hpos, hentry]
  dsimp only
  refine ⟨fun hover => ?_, fun hfits hbad => ?_, fun hfits hgood => ?_⟩
  · rw [if_pos hover]
  · rw [if_neg (Nat.not_lt.2 hfits), if_pos hbad]
  · rw [if_neg (Nat.not_lt.2 hfits), if_neg hgood]

/-! ## Abandon requests and deadlines (R67, R69) -/

theorem exec_abandonRequestTaken {s : State} {k : Nat} {reason : AbandonReason} (hrun : s.inReset = false)
    (hnext : s.nextItem k = some (.abandon k reason)) :
    exec (.abandonRequestTaken k) s = .next ((s.dropItem k).engineAbandon k reason) := by
  show execAbandonRequestTaken k s = _
  unfold execAbandonRequestTaken
  rw [live_running hrun, hnext]

/-- Settles O29, by whether a message is open. -/
theorem abandonRequestIsTaken : Obligations.AbandonRequestIsTaken := by
  intro k s reason hrun hnext s1
  rw [exec_abandonRequestTaken hrun hnext]
  refine ⟨fun c hctx => ?_, fun hctx => ?_⟩
  · have hctx' : (s.dropItem k).ctxOf k = some c := hctx
    unfold State.engineAbandon
    rw [hctx']
    dsimp only
    rw [abandonOpen_of_ctxOf hctx']
    rfl
  · have hctx' : (s.dropItem k).ctxOf k = none := hctx
    unfold State.engineAbandon
    rw [hctx']
    exact ⟨rfl, asmState_idle _ _ hctx ((markOf_clearMark ..).trans (if_pos rfl))⟩

theorem exec_assemblyDeadline {s : State} {k : Nat} {c : Ctx} (hrun : s.inReset = false) (hctx : s.ctxOf k = some c) :
    exec (.assemblyDeadline k) s = .next
      (if c.timer.reached s.time = true then
        ((s.freeCtx k).toDiscarding k).abandonMessage k .stall c.lastSeq c.gathered c.blocks.length
      else s) := by
  show execAssemblyDeadline k s = _
  unfold execAssemblyDeadline
  rw [live_running hrun, hctx]

/-- A deadline is reached by the age of its start, modulo 2^32 (R194). -/
theorem Deadline.reached_iff (d : Deadline) (now : Time) :
    d.reached now = true ↔ (d.due - d.since).toNat ≤ (now - d.since).toNat := decide_eq_true_iff

/-- Settles O30, by the deadline. -/
theorem assemblyDeadlineStalls : Obligations.AssemblyDeadlineStalls := by
  intro k s c hrun hctx
  rw [exec_assemblyDeadline hrun hctx]
  refine ⟨fun h => ?_, fun h => ?_⟩
  · rw [if_pos ((Deadline.reached_iff ..).2 h)]
  · rw [if_neg (by rw [Deadline.reached_iff]; exact Nat.not_le.2 h)]

/-! ## What an abandon does (R70, R71, R172, R183) -/

theorem endProbe_of_awaiting {s : State} {r : Request} {p : ProbeRec} {slices : Nat} {d : Deadline}
    (hx : s.mgmt.executor = .probing r p) (ha : p.await = some (slices, d)) (result reason : Byte) (n off : Nat)
    (l : LaneSet) :
    s.endProbe result reason n off l = s.respond r .ok (probeData p slices s.time result reason n off l) := by
  unfold State.endProbe
  rw [hx]
  dsimp only
  rw [ha]

theorem abandonMessage_unasked {s : State} {k : Nat} (h : k ≠ 4094 ∨ s.probeAwaiting = false) (reason : AbandonReason)
    (seq : SeqNo) (gathered n : Nat) :
    s.abandonMessage k reason seq gathered n
      = (s.returnRx n).report fun st => st.abandonedMessage
          { time := s.time, stream := k, reason := reason, seq := seq, gathered := gathered
            laneA := s.laneA.align, laneB := s.laneB.align } := by
  unfold State.abandonMessage State.informProbe
  dsimp only
  split
  · next hk =>
    have hwait : s.probeAwaiting = false := h.resolve_left (not_not.2 hk)
    rw [endProbe_of_not_awaiting]
    exact hwait
  · rfl

theorem abandonedMessage_eq (st : Stats) (e : LogEntry) :
    st.abandonedMessage e
      = { streams :=
            (st.setStream e.stream { st.stream e.stream with abandoned := satInc (st.stream e.stream).abandoned }).streams
          laneA := st.laneA
          laneB := st.laneB
          glob := st.glob.addAbandon e.reason
          log := if st.log.length < 32 then st.log ++ [e] else st.log.tail ++ [e]
          overwrites :=
            if st.log.length < 32 then st.overwrites
            else if st.overwrites = 65535 then 65535 else st.overwrites + 1 } :=
  writeLog_spec _ e

/-- Settles O31: the statistics are the same with and without a probe to inform. -/
theorem abandonIsCountedAndLogged : Obligations.AbandonIsCountedAndLogged := by
  intro s k reason seq gathered n st g number entry stats t
  have hstats : st.abandonedMessage entry = stats := by
    rw [abandonedMessage_eq]
    cases reason <;> rfl
  have hnumber : reason.code = number := by cases reason <;> rfl
  have ht : (s.returnRx n).report (fun st => st.abandonedMessage entry) = t :=
     congrArg (fun x : Stats => ({ s.returnRx n with stats := x } : State)) hstats
  refine ⟨fun h => (abandonMessage_unasked h ..).trans ht, fun r p slices d hk hx ha => ?_, fun j => ?_⟩
  · have hprobe : s.abandonMessage k reason seq gathered n = t.endProbe 3 reason.code 0 0 LaneSet.empty := by
      rw [← ht]
      exact if_pos hk
    rw [hprobe, endProbe_of_awaiting (s := t) hx ha, hnumber]
    rfl
  · refine (stream_setStream ..).trans ?_
    split
    · next h => rw [h]
    · rfl

/-! ## Where a completed message goes (R73 to R76, R92, R123, R171) -/

theorem probeAwaiting_of_await {s : State} {r : Request} {p : ProbeRec} {slices : Nat} {d : Deadline}
    (hx : s.mgmt.executor = .probing r p) (ha : p.await = some (slices, d)) :
    s.probeAwaiting = true ∧ s.probeBuffer = p.buffer := by
  unfold State.probeAwaiting State.probeBuffer
  rw [hx]
  exact ⟨by simp [ha], rfl⟩

theorem routeMessage_queue {s : State} {d : Descriptor} (h0 : d.stream ≠ 0) (h1 : d.stream ≠ 4094) (seq : SeqNo) :
    s.routeMessage d seq = s.offerToQueue d seq := by
  unfold State.routeMessage
  rw [if_neg (show d.stream ≠ Config.mgmtStream from h0), if_neg (show d.stream ≠ Config.probeStream from h1)]

theorem routeMessage_share {s : State} {d : Descriptor} (h : d.stream = 0) (seq : SeqNo) :
    s.routeMessage d seq = s.offerToShare d :=
  if_pos h

theorem routeMessage_probe {s : State} {d : Descriptor} (h : d.stream = 4094) (seq : SeqNo) :
    s.routeMessage d seq = s.offerToProbe d := by
  unfold State.routeMessage
  rw [if_neg (by rw [h]; decide), if_pos (show d.stream = Config.probeStream from h)]

section Probe

variable {s : State} {d : Descriptor} {r : Request} {p : ProbeRec} {slices : Nat} {dl : Deadline}

/-- The probe's message as it comes back, before the comparison: its blocks returned and the message counted (R76). -/
def State.probeReturned (s : State) (d : Descriptor) : State :=
  (s.returnRx d.blocks.length).report fun st => st.deliveredMessage Config.probeStream

theorem offerToProbe_stray (h : s.probeAwaiting = false) :
    s.offerToProbe d = (s.returnRx d.blocks.length).report fun st => st.event .probeStray := by
  unfold State.offerToProbe
  simp [h]

variable (hx : s.mgmt.executor = .probing r p) (ha : p.await = some (slices, dl))
include hx ha

theorem offerToProbe_same (h : d.blocks.flatten = p.buffer) :
    s.offerToProbe d
      = (s.probeReturned d).respond r .ok (probeData p slices s.time 1 0 d.length 0 d.lanes) := by
  obtain ⟨hawait, hbuffer⟩ := probeAwaiting_of_await hx ha
  unfold State.offerToProbe
  rw [if_pos hawait, hbuffer, h, firstDiff_self]
  exact endProbe_of_awaiting (s := s.probeReturned d) hx ha ..

theorem offerToProbe_differs {off : Nat} (heq : d.blocks.flatten.take off = p.buffer.take off)
    (hd : off ≤ d.blocks.flatten.length) (hp : off ≤ p.buffer.length) (hne : d.blocks.flatten[off]? ≠ p.buffer[off]?) :
    s.offerToProbe d
      = (s.probeReturned d).respond r .ok (probeData p slices s.time 2 0 d.length off d.lanes) := by
  obtain ⟨hawait, hbuffer⟩ := probeAwaiting_of_await hx ha
  unfold State.offerToProbe
  rw [if_pos hawait, hbuffer, firstDiff_spec _ _ 0 off heq hd hp hne, Nat.zero_add]
  exact endProbe_of_awaiting (s := s.probeReturned d) hx ha ..

end Probe

/-- Settles O32, by the message's stream and the room where it goes. -/
theorem completedMessageIsRouted : Obligations.CompletedMessageIsRouted := by
  intro s d seq n freed delivered g q
  refine ⟨fun h0 hroom => ?_, fun h0 hfull => ?_, fun hk hidle => ?_, fun r p slices dl hk hx ha => ?_,
    fun h0 h1 hroom => ?_, fun h0 h1 hfull => ?_⟩
  · rw [routeMessage_share h0]
    simp only [delivered, h0]
    exact if_pos hroom
  · rw [routeMessage_share h0]
    exact if_neg (Nat.not_lt.2 hfull)
  · rw [routeMessage_probe hk, offerToProbe_stray hidle]
    rfl
  · intro answer
    have hreturned : s.probeReturned d = { freed with stats := delivered } := by
      simp only [delivered, hk]
      rfl
    rw [routeMessage_probe hk]
    refine ⟨fun hsame => ?_, fun off heq hd hp hne => ?_⟩
    · rw [offerToProbe_same hx ha hsame, hreturned]
      rfl
    · rw [offerToProbe_differs hx ha heq hd hp hne, hreturned]
      rfl
  · rw [routeMessage_queue h0 h1]
    exact if_pos hroom
  · rw [routeMessage_queue h0 h1]
    exact if_neg (Nat.not_lt.2 hfull)

end Sys2Proof.Machine
end

