-- ==== Sys2Proof/Proofs/DeliverySide.lean ====
section
/-! PROOF. The buffer pool's claims and the delivery side of the local port: starts, ends, bytes presented, and the restarts
of both sides (R80 to R82, R95 to R97, R104, R105, R188). -/

namespace Sys2Proof.Machine

/-! ## Claims (R81, R82) -/

theorem claimTx_granted {s : State} {n : Nat} (h : s.pool.tx + n ≤ 4096 - s.glob.ceiling) (hf : n ≤ s.pool.free) :
    s.claimTx n = some { s with pool := { s.pool with free := s.pool.free - n, tx := s.pool.tx + n } } :=
  if_pos ⟨h, hf⟩

theorem claimTx_refused {s : State} {n : Nat} (h : 4096 - s.glob.ceiling < s.pool.tx + n ∨ s.pool.free < n) :
    s.claimTx n = none :=
  if_neg fun hc => h.elim (fun h => Nat.not_le.2 h hc.1) fun h => Nat.not_le.2 h hc.2

/-- Settles O33: a claim's two conditions; within the shares the counts leave a block free for it. -/
theorem poolGrantsClaimsWhole : Obligations.PoolGrantsClaimsWhole := by
  intro s n
  refine ⟨fun hroom hfree => claimRx_some ⟨hroom, hfree⟩, fun h => claimRx_none fun hc => ?_, claimTx_granted,
    claimTx_refused, fun hsum hrx htx hceiling => ?_⟩
  · obtain ⟨hroom, hfree⟩ := hc
    omega
  · omega

/-! ## Starts (R95, R97) -/

theorem startTransfer_stays {s : State} (h : s.delivery.hold = true ∨ s.delivery.transfer ≠ none) :
    s.startTransfer = s := by
  unfold State.startTransfer
  refine if_neg fun hc => ?_
  rw [Bool.and_eq_true, Option.isNone_iff_eq_none, Bool.not_eq_true'] at hc
  rcases h with h | h
  · rw [h] at hc; exact Bool.noConfusion hc.2
  · exact h hc.1

section Free

variable {s : State} (hhold : s.delivery.hold = false) (htr : s.delivery.transfer = none)
include hhold htr

theorem startTransfer_free :
    (∀ t d, s.delivery.choose = some (t, d) → s.startTransfer
        = { s with delivery := { d with transfer := some t, out := (deliveryOut t).take 1, valid := true } })
      ∧ (s.delivery.choose = none → s.startTransfer = s) := by
  unfold State.startTransfer
  rw [if_pos (by rw [hhold, htr]; rfl)]
  exact ⟨fun t d h => by rw [h], fun h => by rw [h]⟩

end Free

theorem choose_mq {d : Delivery} {r : List Byte} {rest : List (List Byte)} (h : d.mq = r :: rest) :
    d.choose = some (.mgmt r, { d with mq := rest }) := by
  unfold Delivery.choose
  rw [h]

/-- With MQ empty the lowest non-empty queue is served. -/
theorem choose_queue {d : Delivery} {q : QueueId} {x : Descriptor} {rest : List Descriptor} (hmq : d.mq = [])
    (hlow : ∀ q', q'.num < q.num → d.dqs.get q' = []) (h : d.dqs.get q = x :: rest) :
    d.choose = some (.data q x, { d with dqs := d.dqs.set q rest }) := by
  obtain ⟨⟨q0, q1, q2, q3⟩, mq, transfer, hold, out, valid⟩ := d
  obtain rfl : mq = [] := hmq
  cases q with
  | dq0 =>
    obtain rfl : q0 = x :: rest := h
    rfl
  | dq1 =>
    obtain rfl : q0 = [] := hlow .dq0 (by decide)
    obtain rfl : q1 = x :: rest := h
    rfl
  | dq2 =>
    obtain rfl : q0 = [] := hlow .dq0 (by decide)
    obtain rfl : q1 = [] := hlow .dq1 (by decide)
    obtain rfl : q2 = x :: rest := h
    rfl
  | dq3 =>
    obtain rfl : q0 = [] := hlow .dq0 (by decide)
    obtain rfl : q1 = [] := hlow .dq1 (by decide)
    obtain rfl : q2 = [] := hlow .dq2 (by decide)
    obtain rfl : q3 = x :: rest := h
    rfl

theorem choose_none {d : Delivery} (hmq : d.mq = []) (h : ∀ q, d.dqs.get q = []) : d.choose = none := by
  unfold Delivery.choose
  rw [hmq]
  dsimp only
  rw [show d.dqs.q0 = [] from h .dq0, show d.dqs.q1 = [] from h .dq1, show d.dqs.q2 = [] from h .dq2,
    show d.dqs.q3 = [] from h .dq3]

theorem exec_transferStart {s : State} (hrun : s.inReset = false) : exec .transferStart s = .next s.startTransfer := by
  show execTransferStart s = _
  unfold execTransferStart
  rw [live_running hrun]

/-- Settles O34: what TRANSFER_START does follows the arbiter's choice, and a release of hold does the same. -/
theorem transferStartsInStrictOrder : Obligations.TransferStartsInStrictOrder := by
  intro s hrun started
  refine ⟨rfl, ⟨_, ?_, exec_transferStart hrun⟩, fun h => ?_, fun hhold htr => ?_⟩
  · show execHoldRelease s = _
    unfold execHoldRelease
    simp [hrun]
  · rw [exec_transferStart hrun, startTransfer_stays h]
  · obtain ⟨hsome, hnone⟩ := startTransfer_free hhold htr
    rw [exec_transferStart hrun]
    refine ⟨fun r rest hmq => ?_, fun q d rest hmq hlow hq => ?_, fun hmq hq => ?_⟩
    · rw [hsome _ _ (choose_mq hmq), deliveryOut_first]
    · rw [hsome _ _ (choose_queue hmq hlow hq), deliveryOut_first]
    · rw [hnone (choose_none hmq hq)]

/-! ## Ends (R96, R188) -/

section End

variable {s : State}

/-- The port after a transfer's end: every byte presented. -/
def Delivery.ended (d : Delivery) (t : Transfer) : Delivery :=
  { d with transfer := none, out := d.out ++ (deliveryOut t).drop d.out.length, valid := true }

theorem exec_transferEnd_data (hrun : s.inReset = false) {q : QueueId} {d : Descriptor}
    (ht : s.delivery.transfer = some (.data q d)) :
    exec .transferEnd s
      = .next (State.returnRx { s with delivery := s.delivery.ended (.data q d) } d.blocks.length) := by
  show execTransferEnd s = _
  unfold execTransferEnd
  rw [live_running hrun, ht]
  rfl

theorem exec_transferEnd_mgmt (hrun : s.inReset = false) {r : List Byte} (ht : s.delivery.transfer = some (.mgmt r)) :
    exec .transferEnd s = .next (State.freeBuffer { s with delivery := s.delivery.ended (.mgmt r) } .localPort) := by
  show execTransferEnd s = _
  unfold execTransferEnd
  rw [live_running hrun, ht]
  rfl

theorem occupancy_ended {q : QueueId} {d : Descriptor} (ht : s.delivery.transfer = some (.data q d)) (n : Nat)
    (q' : QueueId) :
    (State.returnRx { s with delivery := s.delivery.ended (.data q d) } n).occupancy q'
      = s.occupancy q' - (if q' = q then 1 else 0) := by
  unfold State.occupancy
  rw [ht]
  cases q <;> cases q' <;> rfl

theorem step_tick (h : s.pending = []) : step s = .next s.tick := by
  unfold step
  rw [h]

end End

theorem ended_out {d : Delivery} {t : Transfer} {j : Nat} (h : d.out = (deliveryOut t).take j) :
    (d.ended t).out = deliveryOut t := by
  show d.out ++ (deliveryOut t).drop d.out.length = _
  rw [h, List.length_take]
  rcases Nat.le_total j (deliveryOut t).length with hj | hj
  · rw [Nat.min_eq_left hj, List.take_append_drop]
  · rw [Nat.min_eq_right hj, List.take_of_length_le hj, List.drop_length, List.append_nil]

/-- Settles O35: the bytes and marks of a delivery, its end, and the bytes presented before it. -/
theorem transferEndReturnsBlocks : Obligations.TransferEndReturnsBlocks := by
  refine ⟨fun t => ?_, fun s hrun t ht => ?_⟩
  · intro bytes
    have hbytes : deliveryBytes t = bytes := by cases t <;> rfl
    rw [← hbytes]
    exact ⟨deliveryOut_length t, fun i b => deliveryOut_get t⟩
  · intro ended
    refine ⟨fun q d hd => ?_, fun r hr => ?_, fun j hj => ⟨ended_out hj, fun u hp hnext hu => ?_⟩⟩
    · subst hd
      exact ⟨_, exec_transferEnd_data hrun ht, rfl, occupancy_ended ht _⟩
    · subst hr
      rw [exec_transferEnd_mgmt hrun ht]
      rfl
    · rw [step_tick hp] at hu
      cases hu
      unfold State.tick
      rw [if_neg (by rw [hrun]; decide)]
      dsimp only
      rw [Delivery.present_next ht hj hnext]
      exact ⟨ht, rfl⟩

/-! ## The restarts (R104, R105) -/

theorem exec_deliveryRestart {s : State} (h : s.awaitsRestart .delivery) :
    exec .deliveryRestart s = .next (State.partDone
      (State.cutTransfer
        { s.returnRx (queueBlocks s.delivery.dqs) with delivery := { s.delivery with dqs := ⟨[], [], [], []⟩ } })
      .delivery) := by
  show execDeliveryRestart s = _
  unfold execDeliveryRestart
  rw [restartPart_awaits h]
  rfl

theorem cutTransfer_data {s : State} {q : QueueId} {d : Descriptor} (h : s.delivery.transfer = some (.data q d)) :
    s.cutTransfer
      = State.returnRx
        { s with
          delivery := { s.delivery with transfer := none, out := s.delivery.out ++ [cutByte], valid := true } }
        d.blocks.length := by
  unfold State.cutTransfer
  rw [h]

theorem cutTransfer_stays {s : State} (h : ∀ q d, s.delivery.transfer ≠ some (.data q d)) : s.cutTransfer = s := by
  unfold State.cutTransfer
  split
  · next q d ht => exact absurd ht (h q d)
  · rfl
  · rfl

/-- What a restart of the submission side leaves it absorbing (R105). -/
def Submission.restarted : Submission → Submission
  | .idle => .idle
  | .header _ | .waitingData _ _ | .waitingMgmt _ | .loadingMgmt _ _ | .loadingData _ _ _ => .absorbing 0
  | .absorbing left => .absorbing left

theorem exec_submissionRestart {s : State} {x : Submission} (h : s.awaitsRestart .submission) (hx : s.sub = x) :
    exec .submissionRestart s
      = .next (State.partDone ((s.returnTx (reservedBlocks x)).setSub x.restarted) .submission) := by
  show execSubmissionRestart s = _
  unfold execSubmissionRestart
  rw [restartPart_awaits h, hx]
  cases x with
  | idle => rw [show Submission.restarted .idle = s.sub from hx.symm]; rfl
  | header | waitingData | waitingMgmt | loadingMgmt | loadingData | absorbing => rfl

theorem setSub_self {s : State} {x : Submission} (hx : s.sub = x) : (s.returnTx 0).setSub x = s := by
  rw [← hx]
  rfl

/-- Settles O36: a data transfer is cut, and a frame in progress dropped with what it reserved. -/
theorem localPortRestarts : Obligations.LocalPortRestarts := by
  refine ⟨fun s h => ?_, fun s h => ?_⟩
  · intro n
    have hn : queueBlocks s.delivery.dqs = n := by
      simp [n, queueBlocks, descBlocks, PerQueue.get, Nat.add_assoc]
    rw [exec_deliveryRestart h, hn]
    refine ⟨fun hnone => ?_, fun q d ht => ?_⟩
    · rw [cutTransfer_stays (s := { s.returnRx n with delivery := { s.delivery with dqs := ⟨[], [], [], []⟩ } }) hnone]
      rfl
    · intro n1
      rw [cutTransfer_data (s := { s.returnRx n with delivery := { s.delivery with dqs := ⟨[], [], [], []⟩ } }) ht]
      simp only [n1, State.returnRx, Nat.add_assoc, Nat.sub_sub]
      rfl
  · refine ⟨fun hidle => ?_, fun hbusy => ?_, fun k len got hload => ?_, fun left habsorb => ?_⟩
    · rw [exec_submissionRestart h hidle]
      exact congrArg (fun t : State => Host.Outcome.next (t.partDone .submission)) (setSub_self hidle)
    · rcases hbusy with ⟨got, hx⟩ | ⟨k, len, hx⟩ | ⟨len, hx⟩ | ⟨len, got, hx⟩ <;>
        exact exec_submissionRestart h hx
    · exact exec_submissionRestart h hload
    · rw [exec_submissionRestart h habsorb]
      exact congrArg (fun t : State => Host.Outcome.next (t.partDone .submission)) (setSub_self habsorb)

end Sys2Proof.Machine
end

