-- ==== Sys2Proof/Proofs/SubmissionSide.lean ====
section
/-! PROOF. The submission side of the local port: what a byte does in each state, the judgement of headers, complete frames
and length faults (R98 to R103). -/

namespace Sys2Proof.Machine

/-! ## What a byte does, by the state (R98) -/

section Byte

variable {s : State} (b : Byte) (st e : Bool)

theorem takeByte_idle (h : s.sub = .idle) :
    s.takeByte b st e = if st = true then s.setSub (if e then .idle else .header [b]) else s := by
  unfold State.takeByte
  rw [h]

theorem takeByte_header {got : List Byte} (h : s.sub = .header got) (hlen : got.length < 7) :
    s.takeByte b st e = s.setSub (if e then .idle else .header (got ++ [b])) := by
  unfold State.takeByte
  rw [h]
  exact if_pos (Nat.succ_lt_succ hlen)

theorem takeByte_wholeHeader {got : List Byte} (h : s.sub = .header got) (hlen : got.length = 7) :
    s.takeByte b st e = s.headerDone (got ++ [b]) e := by
  unfold State.takeByte
  rw [h]
  exact if_neg (by rw [hlen]; decide)

theorem takeByte_waiting (h : (∃ k n, s.sub = .waitingData k n) ∨ ∃ n, s.sub = .waitingMgmt n) :
    s.takeByte b st e = s := by
  unfold State.takeByte
  rcases h with ⟨k, n, h⟩ | ⟨n, h⟩ <;> rw [h]

theorem takeByte_absorbing {n : Nat} (h : s.sub = .absorbing n) :
    s.takeByte b st e = s.setSub (if e then .idle else .absorbing (n - 1)) := by
  unfold State.takeByte
  rw [h]

theorem takeByte_loadingData {k n : Nat} {got : List Byte} (h : s.sub = .loadingData k n got) :
    s.takeByte b st e =
      if got.length + 1 < n then
        if e then s.loadFault (sliceCount n) false .idle else s.setSub (.loadingData k n (got ++ [b]))
      else if e then s.dataComplete k n (got ++ [b]) else s.loadFault (sliceCount n) false (.absorbing 0) := by
  unfold State.takeByte
  rw [h]

theorem takeByte_loadingMgmt {n : Nat} {got : List Byte} (h : s.sub = .loadingMgmt n got) :
    s.takeByte b st e =
      if got.length + 1 < n then
        if e then s.loadFault 0 true .idle else s.setSub (.loadingMgmt n (got ++ [b]))
      else if e then s.mgmtComplete (got ++ [b]) else s.loadFault 0 true (.absorbing 0) := by
  unfold State.takeByte
  rw [h]

/-- The start mark matters in IDLE alone, where every byte is a plain one. -/
theorem takeByte_startMark (h : byteEvent s.sub b e ≠ .plain) : s.takeByte b st e = s.takeByte b false e := by
  unfold State.takeByte
  cases hs : s.sub with
  | idle => rw [hs] at h; exact absurd rfl h
  | header | waitingData | waitingMgmt | loadingData | loadingMgmt | absorbing => rfl

end Byte

theorem exec_submissionByte {s : State} (hrun : s.inReset = false) (b : Byte) (st e : Bool) :
    exec (.submissionByte b st e) s = .next (s.takeByte b st e) := by
  show execSubmissionByte b st e s = _
  unfold execSubmissionByte
  rw [live_running hrun]

theorem exec_submissionByte_event {s : State} (hrun : s.inReset = false) {b : Byte} {e : Bool} {x : ByteEvent}
    (hx : x ≠ .plain) (h : byteEvent s.sub b e = x) (st : Bool) :
    exec (.submissionByte b st e) s = byteAs x b e s := by
  rw [exec_submissionByte hrun, byteAs_event hrun h, takeByte_startMark b st e (by rw [h]; exact hx)]

theorem setSub_same {s : State} {x : Submission} (h : s.sub = x) : s.setSub x = s := by
  rw [← h]
  rfl

/-- Settles O37, by the state of the submission side, and for the special bytes by the row that names them. -/
theorem submissionTakesBytes : Obligations.SubmissionTakesBytes := by
  intro s b st e hrun put
  have hput (x : Submission) : s.setSub x = put x := rfl
  refine ⟨fun h => ?_, fun got h hlen => ?_, fun k n h => ?_, fun n h => ?_, fun k n got h hlen => ?_,
    fun n got h hlen => ?_, fun n h => ?_, fun h => ?_, fun h => ?_, fun h => ?_, fun h => ?_, fun h => ?_, fun h => ?_⟩
  · rw [exec_submissionByte hrun, takeByte_idle b st e h]
    cases st
    · rfl
    · cases e
      · rfl
      · exact congrArg _ (setSub_same h)
  · rw [exec_submissionByte hrun, takeByte_header b st e h hlen, hput]
  · refine ⟨?_, by rw [exec_submissionByte hrun, takeByte_waiting b st e (.inl ⟨k, n, h⟩)]⟩
    unfold State.ready
    rw [h]
    simp
  · refine ⟨?_, by rw [exec_submissionByte hrun, takeByte_waiting b st e (.inr ⟨n, h⟩)]⟩
    unfold State.ready
    rw [h]
    simp
  · rw [exec_submissionByte hrun, takeByte_loadingData b st false h, if_pos hlen]
    rfl
  · rw [exec_submissionByte hrun, takeByte_loadingMgmt b st false h, if_pos hlen]
    rfl
  · rw [exec_submissionByte hrun, takeByte_absorbing b st false h]
    rfl
  · exact exec_submissionByte_event hrun (by decide) h st
  · exact exec_submissionByte_event hrun (by decide) h st
  · exact exec_submissionByte_event hrun (by decide) h st
  · exact exec_submissionByte_event hrun (by decide) h st
  · exact exec_submissionByte_event hrun (by decide) h st
  · exact exec_submissionByte_event hrun (by decide) h st

/-! ## Headers (R99, R100, R102, R103) -/

theorem byteEvent_wholeHeader {got : List Byte} (hlen : got.length = 7) (b : Byte) (e : Bool) :
    byteEvent (.header got) b e =
      if e = true ∧ 0 < subLength (got ++ [b]) then .fault
      else if subIsMgmt (got ++ [b]) = true then .mgmtHeader else .dataHeader := by
  unfold byteEvent
  dsimp only
  rw [if_neg (by simp [hlen])]

/-- A header that ends no frame before its length is judged by its kind. -/
theorem header_unfaulted {hdr : List Byte} {e : Bool} (h : e = true → subLength hdr = 0) :
    ¬ (e = true ∧ 0 < subLength hdr) := by
  rintro ⟨he, hpos⟩
  rw [h he] at hpos
  exact Nat.lt_irrefl 0 hpos

section Header

variable {s : State} {got : List Byte} {b : Byte} {e : Bool} (hrun : s.inReset = false) (hsub : s.sub = .header got)
  (hlen : got.length = 7) (hend : e = true → subLength (got ++ [b]) = 0)
include hrun hsub hlen hend

theorem exec_dataHeader (heven : (rd8 (got ++ [b]) 0).toNat % 2 = 0) :
    exec (.dataHeader b e) s = .next (s.judgeDataHeader (got ++ [b]) e) := by
  have hkind := subIsMgmt_of_even heven
  have hwhole := header_unfaulted hend
  have hevent : byteEvent s.sub b e = .dataHeader := by
    rw [hsub, byteEvent_wholeHeader hlen, if_neg hwhole, if_neg (by rw [hkind]; decide)]
  refine (byteAs_event hrun hevent).trans ?_
  rw [takeByte_wholeHeader b false e hsub hlen]
  unfold State.headerDone
  rw [if_neg hwhole, if_neg (by rw [hkind]; decide)]

theorem exec_mgmtHeader (hodd : (rd8 (got ++ [b]) 0).toNat % 2 = 1) :
    exec (.mgmtHeader b e) s = .next (s.judgeMgmtHeader (got ++ [b]) e) := by
  have hkind := subIsMgmt_of_odd hodd
  have hwhole := header_unfaulted hend
  have hevent : byteEvent s.sub b e = .mgmtHeader := by
    rw [hsub, byteEvent_wholeHeader hlen, if_neg hwhole, if_pos hkind]
  refine (byteAs_event hrun hevent).trans ?_
  rw [takeByte_wholeHeader b false e hsub hlen]
  unfold State.headerDone
  rw [if_neg hwhole, if_pos hkind]

end Header

section Reject

variable {s : State} {k n : Nat}

theorem dataReject_stream (h : k = 0 ∨ k = 4094 ∨ k = 4095) : s.dataReject k n = some .txBadStream := if_pos h

theorem dataReject_disabled (h : ¬ (k = 0 ∨ k = 4094 ∨ k = 4095)) (he : (s.entry k).txEnable = false) :
    s.dataReject k n = some .txDisabled :=
  (if_neg h).trans (if_pos he)

theorem dataReject_length (h : ¬ (k = 0 ∨ k = 4094 ∨ k = 4095)) (he : (s.entry k).txEnable = true)
    (hn : n = 0 ∨ (s.entry k).maxLen < n) : s.dataReject k n = some .txOversize :=
  (if_neg h).trans ((if_neg (by rw [he]; decide)).trans (if_pos hn))

theorem dataReject_none (h : ¬ (k = 0 ∨ k = 4094 ∨ k = 4095)) (he : (s.entry k).txEnable = true)
    (hn : ¬ (n = 0 ∨ (s.entry k).maxLen < n)) : s.dataReject k n = none :=
  (if_neg h).trans ((if_neg (by rw [he]; decide)).trans (if_neg hn))

theorem judgeDataHeader_rejected {hdr : List Byte} {reason : EventCounter}
    (h : s.dataReject (subStream hdr) (subLength hdr) = some reason) (e : Bool) :
    s.judgeDataHeader hdr e
      = (s.report fun st => st.event reason).setSub (if e = true then .idle else .absorbing (subLength hdr)) := by
  unfold State.judgeDataHeader
  dsimp only
  rw [h]
  rfl

theorem judgeDataHeader_valid {hdr : List Byte} (h : s.dataReject (subStream hdr) (subLength hdr) = none) (e : Bool) :
    s.judgeDataHeader hdr e = s.tryLoadData (subStream hdr) (subLength hdr) := by
  unfold State.judgeDataHeader
  dsimp only
  rw [h]

end Reject

theorem exec_waitingRetry {s : State} (hrun : s.inReset = false) {k n : Nat} (h : s.sub = .waitingData k n) :
    exec .waitingRetry s = .next (s.tryLoadData k n) := by
  show execWaitingRetry s = _
  unfold execWaitingRetry
  rw [live_running hrun, h]

/-- Settles O38, by the first check that fails. -/
theorem dataHeaderIsJudged : Obligations.DataHeaderIsJudged := by
  intro s hrun wait
  have hwait (k n : Nat) : s.tryLoadData k n = wait k n := tryLoadData_eq s k n
  refine ⟨fun k n h => by rw [exec_waitingRetry hrun h, hwait], fun got b e hsub hlen => ?_⟩
  intro hdr k n heven hend after g
  have hk : subStream hdr = k := subStream_eq hdr
  have hn : subLength hdr = n := rfl
  rw [exec_dataHeader hrun hsub hlen hend heven]
  refine ⟨fun hbad => ?_, fun h0 h1 h2 hoff => ?_, fun h0 h1 h2 hon hlength => ?_, fun h0 h1 h2 hon hpos hfits => ?_⟩
  · rw [judgeDataHeader_rejected (by rw [hk, hn]; exact dataReject_stream hbad)]
    rfl
  · rw [judgeDataHeader_rejected (by
      rw [hk, hn]; exact dataReject_disabled (fun h => h.elim h0 fun h => h.elim h1 h2) hoff)]
    rfl
  · rw [judgeDataHeader_rejected (by
      rw [hk, hn]; exact dataReject_length (fun h => h.elim h0 fun h => h.elim h1 h2) hon hlength)]
    rfl
  · rw [judgeDataHeader_valid (by
      rw [hk, hn]
      exact dataReject_none (fun h => h.elim h0 fun h => h.elim h1 h2) hon (by omega)), hk, hn, hwait]

/-- Settles O39, by the length and the room in the local share. -/
theorem mgmtHeaderIsJudged : Obligations.MgmtHeaderIsJudged := by
  intro s got b e hrun hsub hlen hdr n hodd hend g
  have hplace : s.localPlace = decide (s.mgmt.lpShare.length < 4) := by
    unfold State.localPlace
    rw [hsub]
    rfl
  rw [exec_mgmtHeader hrun hsub hlen hend hodd]
  unfold State.judgeMgmtHeader
  rw [show subLength (got ++ [b]) = n from rfl, hplace]
  dsimp only
  refine ⟨fun hbad => ?_, fun h1 h2 hroom => ?_, fun h1 h2 hfull => ?_⟩
  · rw [if_pos (by omega)]
    rfl
  · rw [if_neg (by omega), if_pos (decide_eq_true hroom)]
    rfl
  · rw [if_neg (by omega), if_neg (by rw [decide_eq_true_iff]; omega)]
    rfl

/-! ## Complete frames and faults (R101 to R103) -/

section Loading

variable {s : State} {k n : Nat} {got : List Byte} (b : Byte)

theorem byteEvent_loadingData (e : Bool) :
    byteEvent (.loadingData k n got) b e =
      if got.length + 1 < n then if e then .fault else .plain else if e then .dataComplete else .fault := rfl

theorem byteEvent_loadingMgmt (e : Bool) :
    byteEvent (.loadingMgmt n got) b e =
      if got.length + 1 < n then if e then .fault else .plain else if e then .mgmtComplete else .fault := rfl

end Loading

/-- Settles O40: the byte completes the frame, and cutting loses nothing. -/
theorem completeFramesAreTaken : Obligations.CompleteFramesAreTaken := by
  refine ⟨fun s b hrun => ⟨fun k n got hsub hlen => ?_, fun n got hsub hlen => ?_⟩,
    fun bytes => cutPieces_spec _ bytes (le_refl _)⟩
  · have hlast : ¬ got.length + 1 < n := by omega
    have hevent : byteEvent s.sub b true = .dataComplete := by
      rw [hsub, byteEvent_loadingData, if_neg hlast, if_pos rfl]
    refine (byteAs_event hrun hevent).trans ?_
    rw [takeByte_loadingData b false true hsub, if_neg hlast, if_pos rfl]
    rfl
  · have hlast : ¬ got.length + 1 < n := by omega
    have hevent : byteEvent s.sub b true = .mgmtComplete := by
      rw [hsub, byteEvent_loadingMgmt, if_neg hlast, if_pos rfl]
    refine (byteAs_event hrun hevent).trans ?_
    rw [takeByte_loadingMgmt b false true hsub, if_neg hlast, if_pos rfl]
    rfl

theorem exec_lengthFault {s : State} (hrun : s.inReset = false) {b : Byte} {e : Bool}
    (h : byteEvent s.sub b e = .fault) : exec (.lengthFault b e) s = .next (s.takeByte b false e) :=
  byteAs_event hrun h

/-- Settles O41: each fault is the row's byte, and releases what its state reserved. -/
theorem lengthFaultsAreCountedOnce : Obligations.LengthFaultsAreCountedOnce := by
  intro s b hrun g data mgmt
  refine ⟨fun got hsub hlen hpos => ?_, fun k n got hsub => ?_, fun n got hsub => ?_, fun n hsub => ?_⟩
  · have hfault : true = true ∧ 0 < subLength (got ++ [b]) := ⟨rfl, hpos⟩
    rw [exec_lengthFault hrun (by rw [hsub, byteEvent_wholeHeader hlen, if_pos hfault]),
      takeByte_wholeHeader b false true hsub hlen]
    unfold State.headerDone
    rw [if_pos hfault]
    split
    · next hodd => rw [subIsMgmt_of_odd hodd]; rfl
    · next heven => rw [subIsMgmt_of_even (by omega)]; rfl
  · refine ⟨fun hshort => ?_, fun hfull => ?_⟩
    · rw [exec_lengthFault hrun (by rw [hsub, byteEvent_loadingData, if_pos hshort, if_pos rfl]),
        takeByte_loadingData b false true hsub, if_pos hshort, if_pos rfl]
      rfl
    · have hlast : ¬ got.length + 1 < n := by omega
      rw [exec_lengthFault hrun (by rw [hsub, byteEvent_loadingData, if_neg hlast, if_neg (by decide)]),
        takeByte_loadingData b false false hsub, if_neg hlast, if_neg (by decide)]
      rfl
  · refine ⟨fun hshort => ?_, fun hfull => ?_⟩
    · rw [exec_lengthFault hrun (by rw [hsub, byteEvent_loadingMgmt, if_pos hshort, if_pos rfl]),
        takeByte_loadingMgmt b false true hsub, if_pos hshort, if_pos rfl]
      rfl
    · have hlast : ¬ got.length + 1 < n := by omega
      rw [exec_lengthFault hrun (by rw [hsub, byteEvent_loadingMgmt, if_neg hlast, if_neg (by decide)]),
        takeByte_loadingMgmt b false false hsub, if_neg hlast, if_neg (by decide)]
      rfl
  · have hevent : byteEvent s.sub b true = .absorbingEnd := by rw [hsub]; rfl
    refine (byteAs_event hrun hevent).trans ?_
    rw [takeByte_absorbing b false true hsub]
    rfl

end Sys2Proof.Machine
end

