-- ==== Sys2Proof/Proofs/SlicerSide.lean ====
section
/-! PROOF. The slicer: the message it takes, and the slices it cuts (R108 to R113, R116). -/

namespace Sys2Proof.Machine

section Take

variable {s : State} (hrun : s.inReset = false) (hidle : s.slicer.state = .idle)
include hrun hidle

theorem exec_slicerTakeMessage_output {o : Output} {rest : List Output} (h : s.slicer.outputs = o :: rest) :
    exec .slicerTakeMessage s
      = .next { s with slicer := { s.slicer with outputs := rest, state := .slicing (jobOfOutput o) } } := by
  show execSlicerTakeMessage s = _
  unfold execSlicerTakeMessage
  rw [live_running hrun, hidle, h]

theorem exec_slicerTakeMessage_frame {f : Frame} {rest : List Frame} (ho : s.slicer.outputs = [])
    (h : s.slicer.fifo = f :: rest) :
    exec .slicerTakeMessage s
      = .next { s with slicer := { s.slicer with fifo := rest, state := .slicing (jobOfFrame f) } } := by
  show execSlicerTakeMessage s = _
  unfold execSlicerTakeMessage
  rw [live_running hrun, hidle, ho, h]

end Take

/-- Settles O42, by the head of what waits. -/
theorem slicerTakesOutputsFirst : Obligations.SlicerTakesOutputsFirst := by
  intro s hrun hidle
  refine ⟨fun bytes rest h => ?_, fun bytes rest h => ?_, fun f rest ho h => ?_⟩
  · exact exec_slicerTakeMessage_output hrun hidle h
  · exact exec_slicerTakeMessage_output hrun hidle h
  · exact exec_slicerTakeMessage_frame hrun hidle ho h

theorem exec_sliceCut_stalled {s : State} {j : Job} {sl : Slice} {el : LaneSet} (hrun : s.inReset = false)
    (h : s.slicer.state = .stalled j sl el) : exec .sliceCut s = .next (s.offerSlice j sl el) := by
  show execSliceCut s = _
  unfold execSliceCut
  rw [live_running hrun, h]

section Cut

variable {s : State} {j : Job} {piece : Block} {rest : List Block}

theorem exec_sliceCut_slicing (hrun : s.inReset = false) (h : s.slicer.state = .slicing j)
    (hp : j.pieces = piece :: rest) :
    exec .sliceCut s = .next
      (if j.stream = Config.probeStream then
        State.sliceDone
          { s.advanceSeq j.stream with
            slicer :=
              { (s.advanceSeq j.stream).slicer with loop := s.slicer.loop ++ [s.cutSlice j piece (!rest.isEmpty)] } }
          (j.afterCut piece rest)
      else
        (s.advanceSeq j.stream).offerSlice (j.afterCut piece rest) (s.cutSlice j piece (!rest.isEmpty))
          (s.eligibleLanes j.stream)) := by
  show execSliceCut s = _
  unfold execSliceCut
  rw [live_running hrun, h]
  dsimp only
  rw [hp]
  rfl

theorem piecePos_eq (cut : Nat) (rest : List Block) :
    piecePos cut (!rest.isEmpty)
      = if cut = 0 then if rest = [] then .only else .first else if rest = [] then .last else .middle := by
  cases rest <;> rfl

theorem pieceAux_eq (pos : Position) (length : Nat) (check : Half) :
    pieceAux pos length check
      = if pos = .first then BitVec.ofNat 16 length else if pos = .middle then 0 else check := by
  cases pos <;> rfl

end Cut

theorem LaneMask.names_eq (m : LaneMask) :
    m.names .a = decide (m ≠ .onlyB) ∧ m.names .b = decide (m ≠ .onlyA) := by
  cases m <;> exact ⟨rfl, rfl⟩

theorem advanceSeq_txSeq (s : State) (k j : Nat) :
    (s.advanceSeq k).txSeq j = if j = k then s.txSeq j + 1 else s.txSeq j := by
  refine (SMap.get_set ..).trans ?_
  split
  · next h => rw [h]
  · rfl

/-- Settles O43, by the stream of the message. -/
theorem sliceIsCutAndNumbered : Obligations.SliceIsCutAndNumbered := by
  refine ⟨fun s j sl el => exec_sliceCut_stalled, fun s j piece rest hrun hst hp => ?_⟩
  intro pos check sl j1 s1 e
  have hsl : s.cutSlice j piece (!rest.isEmpty) = sl := by
    unfold State.cutSlice
    dsimp only
    rw [piecePos_eq, pieceAux_eq]
  have hel : s.eligibleLanes j.stream
      = { a := decide (e.txMask ≠ .onlyB) && s.glob.txEnableA
          b := decide (e.txMask ≠ .onlyA) && s.glob.txEnableB
          loop := false } := by
    unfold State.eligibleLanes
    rw [(LaneMask.names_eq _).1, (LaneMask.names_eq _).2]
  rw [exec_sliceCut_slicing hrun hst hp, hsl, hel]
  refine ⟨advanceSeq_txSeq s j.stream, rfl, fun hk => ?_, fun hk => ?_⟩
  · rw [if_pos (show j.stream = Config.probeStream from hk)]
    rfl
  · rw [if_neg (show j.stream ≠ Config.probeStream from hk)]
    rfl

end Sys2Proof.Machine
end

