-- ==== Sys2Proof/Proofs/Executor.lean ====
section
/-! PROOF. The executor: which request it takes, and the checks it makes in their order (R127 to R132). -/

namespace Sys2Proof.Machine

/-! ## The choice (R127) -/

theorem chooseSource_of_backbone {m : Mgmt} {b : Request} {bs : List Request} (hb : m.bbShare = b :: bs)
    (hbufs : m.bbBufs < 2) (hfirst : ∀ l ls, m.lpShare = l :: ls → m.lpBufs < 2 → b.position ≤ l.position) :
    m.chooseSource = some .backbone := by
  have hfree : m.bbBufs < Config.respBufs := hbufs
  unfold Mgmt.chooseSource
  rw [hb]
  cases hl : m.lpShare with
  | nil => exact if_pos hfree
  | cons l ls =>
    refine (if_pos hfree).trans ?_
    split
    · next hlp => exact if_pos (hfirst l ls hl hlp)
    · rfl

theorem chooseSource_of_localPort {m : Mgmt} {l : Request} {ls : List Request} (hl : m.lpShare = l :: ls)
    (hbufs : m.lpBufs < 2) (hfirst : ∀ b bs, m.bbShare = b :: bs → m.bbBufs < 2 → l.position < b.position) :
    m.chooseSource = some .localPort := by
  have hfree : m.lpBufs < Config.respBufs := hbufs
  unfold Mgmt.chooseSource
  rw [hl]
  cases hb : m.bbShare with
  | nil => exact if_pos hfree
  | cons b bs =>
    dsimp only
    split
    · next hbb => exact if_neg (Nat.not_le.2 (hfirst b bs hb hbb))
    · rfl

section Take

variable {s : State} {r : Request} {rest : List Request} (hrun : s.inReset = false) (hidle : s.mgmt.executor = .idle)
include hrun hidle

theorem exec_executorTake_backbone (hc : s.mgmt.chooseSource = some .backbone) (hb : s.mgmt.bbShare = r :: rest) :
    exec .executorTake s
      = .next (State.startRequest { s with mgmt := { s.mgmt with bbShare := rest, bbBufs := s.mgmt.bbBufs + 1 } } r) := by
  show execExecutorTake s = _
  unfold execExecutorTake
  rw [live_running hrun, hidle, hc, hb]

theorem exec_executorTake_localPort (hc : s.mgmt.chooseSource = some .localPort) (hl : s.mgmt.lpShare = r :: rest) :
    exec .executorTake s
      = .next (State.startRequest
          (State.wakeMgmtHeader { s with mgmt := { s.mgmt with lpShare := rest, lpBufs := s.mgmt.lpBufs + 1 } }) r) := by
  show execExecutorTake s = _
  unfold execExecutorTake
  rw [live_running hrun, hidle, hc, hl]

end Take

theorem startRequest_refused {s : State} {r : Request} {status : Status} (h : s.judgeRequest r = .error status) :
    s.startRequest r = s.respond r status [] := by
  unfold State.startRequest
  rw [h]

theorem startRequest_passed {s : State} {r : Request} {kind : ReqKind} (h : s.judgeRequest r = .ok kind) :
    s.startRequest r = { s with mgmt := { s.mgmt with executor := .ready r kind } } := by
  unfold State.startRequest
  rw [h]

/-! ## The checks (R130 to R132) -/

section Judge

variable {s : State} {r : Request}

theorem judgeRequest_malformed (h : r.bytes.length < 8 ∨ reqLength r.bytes ≠ r.bytes.length - 8) :
    s.judgeRequest r = .error .badRequest := by
  unfold State.judgeRequest
  by_cases hshort : r.bytes.length < 8
  · rw [if_pos hshort]
  · rw [if_neg hshort, if_pos (h.resolve_left hshort)]

variable (hlong : 8 ≤ r.bytes.length) (hlength : reqLength r.bytes = r.bytes.length - 8)
include hlong hlength

theorem judgeRequest_unknown (h : ∀ kind : ReqKind, kind.code ≠ reqCode r.bytes) :
    s.judgeRequest r = .error .badRequest := by
  unfold State.judgeRequest
  rw [if_neg (Nat.not_lt.2 hlong), if_neg (not_not.2 hlength), ofCode?_none h]

variable {kind : ReqKind} (hcode : kind.code = reqCode r.bytes)
include hcode

theorem judgeRequest_denied (hpolicy : s.policyOf r.source = .readOnly) (hmay : kind.readOnlyMay = false) :
    s.judgeRequest r = .error .denied := by
  unfold State.judgeRequest
  rw [if_neg (Nat.not_lt.2 hlong), if_neg (not_not.2 hlength), ← hcode, ofCode?_code]
  exact if_pos ⟨hpolicy, hmay⟩

variable (hallowed : ¬ (s.policyOf r.source = .readOnly ∧ kind.readOnlyMay = false))
include hallowed

theorem judgeRequest_passes (h : kind.paramLength? = none ∨ kind.paramLength? = some (reqLength r.bytes)) :
    s.judgeRequest r = .ok kind := by
  unfold State.judgeRequest
  rw [if_neg (Nat.not_lt.2 hlong), if_neg (not_not.2 hlength), ← hcode, ofCode?_code]
  refine (if_neg hallowed).trans ?_
  rcases h with h | h <;> rw [h]
  exact if_pos rfl

theorem judgeRequest_wrongLength {n : Nat} (h : kind.paramLength? = some n) (hn : n ≠ reqLength r.bytes) :
    s.judgeRequest r = .error .badRequest := by
  unfold State.judgeRequest
  rw [if_neg (Nat.not_lt.2 hlong), if_neg (not_not.2 hlength), ← hcode, ofCode?_code]
  refine (if_neg hallowed).trans ?_
  rw [h]
  exact if_neg (Ne.symm hn)

end Judge

/-- Settles O44: the source chosen, then the checks in their order. -/
theorem executorTakesEarliestEligible : Obligations.ExecutorTakesEarliestEligible := by
  refine ⟨fun s hrun hidle => ⟨fun b bs hb hbufs hfirst => ?_, fun l ls hl hbufs hfirst => ?_⟩, fun s r => ?_⟩
  · intro t
    rw [exec_executorTake_backbone hrun hidle (chooseSource_of_backbone hb hbufs hfirst) hb]
    exact ⟨fun status h => congrArg _ (startRequest_refused h), fun kind h => congrArg _ (startRequest_passed h)⟩
  · intro t
    have ht : State.wakeMgmtHeader { s with mgmt := { s.mgmt with lpShare := ls, lpBufs := s.mgmt.lpBufs + 1 } } = t := by
      simp only [t]
      unfold State.wakeMgmtHeader
      dsimp only
      cases s.sub <;> rfl
    rw [exec_executorTake_localPort hrun hidle (chooseSource_of_localPort hl hbufs hfirst) hl, ht]
    exact ⟨fun status h => congrArg _ (startRequest_refused h), fun kind h => congrArg _ (startRequest_passed h)⟩
  · intro policy code n codeOf lengthOf
    have hpolicy : s.policyOf r.source = policy := by
      simp only [policy]
      cases r.source <;> rfl
    have hcodes (kind : ReqKind) : kind.code = codeOf kind := by cases kind <;> rfl
    have hlengths (kind : ReqKind) : kind.paramLength? = lengthOf kind := by cases kind <;> rfl
    refine ⟨judgeRequest_malformed, fun hlong hlength => ⟨fun hno => ?_, fun kind hcode => ⟨fun hro hnot => ?_, ?_⟩⟩⟩
    · exact judgeRequest_unknown hlong hlength fun kind => by rw [hcodes]; exact hno kind
    · exact judgeRequest_denied hlong hlength ((hcodes kind).trans hcode) (hpolicy.trans hro)
        (by rw [← Bool.not_eq_true, readOnlyMay_iff]; exact hnot)
    · intro hallowed
      have hpass : ¬ (s.policyOf r.source = .readOnly ∧ kind.readOnlyMay = false) := by
        rintro ⟨hro, hmay⟩
        rcases hallowed with hfull | hmem
        · rw [hpolicy, hfull] at hro
          cases hro
        · rw [(readOnlyMay_iff kind).2 hmem] at hmay
          cases hmay
      refine ⟨fun h => ?_, fun m hm hne => ?_⟩
      · exact judgeRequest_passes hlong hlength ((hcodes kind).trans hcode) hpass (by rw [hlengths]; exact h)
      · exact judgeRequest_wrongLength hlong hlength ((hcodes kind).trans hcode) hpass ((hlengths kind).trans hm) hne

end Sys2Proof.Machine
end

