-- ==== Sys2Proof/Proofs/ReadingRequests.lean ====
section
/-! PROOF. The requests that read the part, the counters and the log, and those that clear them; the restart operation
(R133, R137 to R139, R142, R163, R179, R180, R184, R185). -/

namespace Sys2Proof.Machine

/-! ## Responses (R133, R135) -/

theorem Status.code_bytes (status : Status) :
    be16 status.code
      = [0, match status with
        | .ok => 0 | .denied => 1 | .badRequest => 2 | .badStream => 3 | .notEnabled => 4 | .noSession => 5
        | .wrongSession => 6 | .sessionOwned => 7 | .sessionOpen => 8 | .outOfOrder => 9 | .alreadyLoaded => 10
        | .badRecord => 11 | .countMismatch => 12 | .checkMismatch => 13 | .alreadyCommitted => 14] := by
  cases status <;> rfl

/-! ## Counter scopes (R179) -/

section Scope

variable {p : List Byte}

theorem judgeScope_global (h : rd8 p 0 = 2) : judgeScope p = .ok .lanesGlobal := if_pos h

theorem judgeScope_badScope (h1 : rd8 p 0 ≠ 1) (h2 : rd8 p 0 ≠ 2) : judgeScope p = .error .badRequest :=
  (if_neg h2).trans (if_pos h1)

variable (h : rd8 p 0 = 1)
include h

theorem judgeScope_streamScope :
    judgeScope p =
      if 4095 ≤ (rd16 p 2).toNat then .error .badStream
      else if outside (rd16 p 4).toNat 1 32 then .error .badRequest
      else if 4095 ≤ (rd16 p 2).toNat + (rd16 p 4).toNat - 1 then .error .badStream
      else .ok (.streams (rd16 p 2).toNat (rd16 p 4).toNat) :=
  (if_neg (by rw [h]; decide)).trans (if_neg (not_not.2 h))

theorem judgeScope_badFirst (hk : 4094 < (rd16 p 2).toNat) : judgeScope p = .error .badStream := by
  rw [judgeScope_streamScope h, if_pos (Nat.succ_le_of_lt hk)]

theorem judgeScope_badCount (hk : (rd16 p 2).toNat ≤ 4094) (hn : (rd16 p 4).toNat = 0 ∨ 32 < (rd16 p 4).toNat) :
    judgeScope p = .error .badRequest := by
  rw [judgeScope_streamScope h, if_neg (by omega), if_pos (by rw [outside_true]; omega)]

theorem judgeScope_badLast (hk : (rd16 p 2).toNat ≤ 4094) (h1 : 1 ≤ (rd16 p 4).toNat) (h2 : (rd16 p 4).toNat ≤ 32)
    (hlast : 4094 < (rd16 p 2).toNat + (rd16 p 4).toNat - 1) : judgeScope p = .error .badStream := by
  rw [judgeScope_streamScope h, if_neg (by omega), if_neg (by rw [outside_true]; omega), if_pos (by omega)]

theorem judgeScope_streams (hk : (rd16 p 2).toNat ≤ 4094) (h1 : 1 ≤ (rd16 p 4).toNat) (h2 : (rd16 p 4).toNat ≤ 32)
    (hlast : (rd16 p 2).toNat + (rd16 p 4).toNat - 1 ≤ 4094) :
    judgeScope p = .ok (.streams (rd16 p 2).toNat (rd16 p 4).toNat) := by
  rw [judgeScope_streamScope h, if_neg (by omega), if_neg (by rw [outside_true]; omega), if_neg (by omega)]

end Scope

section Counters

variable {s : State} {r : Request} {status : Status} {scope : CounterScope}

theorem exec_readCounters_refused (h : s.executes r .readCounters) (hp : judgeScope (reqParams r.bytes) = .error status) :
    exec .readCounters s = .next (s.respond r status []) := by
  show execReadCounters s = _
  unfold execReadCounters
  rw [onReady_executes h, hp]

theorem exec_readCounters_answered (h : s.executes r .readCounters) (hp : judgeScope (reqParams r.bytes) = .ok scope) :
    exec .readCounters s = .next (s.respond r .ok (s.stats.scopeData scope)) := by
  show execReadCounters s = _
  unfold execReadCounters
  rw [onReady_executes h, hp]

theorem exec_clearCounters_refused (h : s.executes r .clearCounters)
    (hp : judgeScope (reqParams r.bytes) = .error status) :
    exec .clearCounters s = .next (s.respond r status []) := by
  show execClearCounters s = _
  unfold execClearCounters
  rw [onReady_executes h, hp]

theorem exec_clearCounters_answered (h : s.executes r .clearCounters)
    (hp : judgeScope (reqParams r.bytes) = .ok scope) :
    exec .clearCounters s
      = .next ((s.report fun st => st.clearScope scope).respond r .ok (s.stats.scopeData scope)) := by
  show execClearCounters s = _
  unfold execClearCounters
  rw [onReady_executes h, hp]

end Counters

theorem mem_rangeStreams (first n k : Nat) : k ∈ rangeStreams first n ↔ first ≤ k ∧ k < first + n := by
  simp only [rangeStreams, List.mem_map, List.mem_range]
  constructor
  · rintro ⟨i, hi, rfl⟩
    omega
  · rintro ⟨hlo, hhi⟩
    exact ⟨k - first, by omega, by omega⟩

/-- Settles O53: the scope is judged as for READ_COUNTERS, and what is cleared is what is in it. -/
theorem clearsReturnWhatTheyClear : Obligations.ClearsReturnWhatTheyClear := by
  refine ⟨fun s r h => ?_, fun s r h => ?_⟩
  · intro p first n
    refine ⟨fun hg => ?_, fun hs h1 h2 hlast => ?_, fun hs1 hs2 => ?_, fun hs hk => ?_, fun hs hk hn => ?_,
      fun hs hk h1 h2 hlast => ?_⟩
    · rw [exec_clearCounters_answered h (judgeScope_global hg)]
      rfl
    · obtain ⟨hrest, hstreams⟩ := clearStreams_spec (rangeStreams first n) s.stats
      have hfirst : first ≤ 4094 := by omega
      have hend : first + n - 1 ≤ 4094 := by omega
      refine ⟨s.stats.clearScope (.streams first n),
        exec_clearCounters_answered h (judgeScope_streams hs hfirst h1 h2 hend), hrest, fun k => ?_⟩
      simp only [← mem_rangeStreams]
      exact hstreams k
    · exact exec_clearCounters_refused h (judgeScope_badScope hs1 hs2)
    · exact exec_clearCounters_refused h (judgeScope_badFirst hs hk)
    · exact exec_clearCounters_refused h (judgeScope_badCount hs hk hn)
    · have hend : 4094 < first + n - 1 := by omega
      exact exec_clearCounters_refused h (judgeScope_badLast hs hk h1 h2 hend)
  · show execClearLog s = _
    unfold execClearLog
    rw [onReady_executes h]
    rfl

/-! ## The restart operation (R142) -/

theorem erase_ne_nil_of_ne_singleton {todo : List Part} {p : Part} (hp : p ∈ todo) (hmore : todo ≠ [p]) :
    todo.erase p ≠ [] := by
  intro hnil
  have hone : todo.length = 1 := by
    have hlen := List.length_erase_of_mem hp
    have hpos := List.length_pos_of_mem hp
    rw [hnil, List.length_nil] at hlen
    omega
  obtain ⟨q, rfl⟩ := List.length_eq_one_iff.1 hone
  exact hmore (by rw [List.mem_singleton.1 hp])

/-- Settles O46: a report strikes its part off, and nothing is left after the last. -/
theorem restartTellsSevenParts : Obligations.RestartTellsSevenParts := by
  refine ⟨fun s r h => ?_, fun s r todo p hx hnodup hp => ⟨fun hlast => ?_, fun hmore => ?_⟩⟩
  · show execRestart s = _
    unfold execRestart
    rw [onReady_executes h]
    rfl
  · unfold State.partDone
    rw [hx, hlast]
    simp
  · have hleft := erase_ne_nil_of_ne_singleton hp hmore
    refine ⟨todo.erase p, ?_, hleft, hnodup.erase p, fun q => by rw [hnodup.mem_erase_iff, and_comm]⟩
    unfold State.partDone
    rw [hx]
    dsimp only
    rw [List.isEmpty_eq_false_iff.2 hleft]
    rfl

/-! ## What the reading requests answer (R137 to R139, R163, R184) -/

theorem exec_loadStatus {s : State} {r : Request} (h : s.executes r .loadStatus) :
    exec .loadStatus s = .next (s.respond r .ok s.loadStatusData) := by
  show execLoadStatus s = _
  unfold execLoadStatus
  rw [onReady_executes h]

theorem exec_readLog {s : State} {r : Request} (h : s.executes r .readLog) :
    exec .readLog s = .next
      (if 31 < (rd16 (reqParams r.bytes) 0).toNat then s.respond r .badRequest []
      else s.respond r .ok (s.stats.logData (rd16 (reqParams r.bytes) 0).toNat)) := by
  show execReadLog s = _
  unfold execReadLog
  rw [onReady_executes h]

section ReadStream

variable {s : State} {r : Request}

theorem exec_readStream (h : s.executes r .readStream) :
    exec .readStream s = .next
      (if rd8 (reqParams r.bytes) 0 ≠ 0 ∧ rd8 (reqParams r.bytes) 0 ≠ 1 then s.respond r .badRequest []
      else if 4095 ≤ (rd16 (reqParams r.bytes) 2).toNat then s.respond r .badStream []
      else s.respond r .ok
        (s.readStreamData (if rd8 (reqParams r.bytes) 0 = 0 then s.table.active else !s.table.active)
          (rd16 (reqParams r.bytes) 2).toNat)) := by
  show execReadStream s = _
  unfold execReadStream
  rw [onReady_executes h]
  rfl

theorem exec_readStream_badSelector (h : s.executes r .readStream) (hsel : 1 < (rd8 (reqParams r.bytes) 0).toNat) :
    exec .readStream s = .next (s.respond r .badRequest []) := by
  rw [exec_readStream h, if_pos ⟨fun h0 => by simp [h0] at hsel, fun h1 => by simp [h1] at hsel⟩]

theorem exec_readStream_badStream (h : s.executes r .readStream)
    (hsel : rd8 (reqParams r.bytes) 0 = 0 ∨ rd8 (reqParams r.bytes) 0 = 1)
    (hk : 4094 < (rd16 (reqParams r.bytes) 2).toNat) :
    exec .readStream s = .next (s.respond r .badStream []) := by
  rw [exec_readStream h, if_neg (not_and_or.2 (hsel.imp not_not.2 not_not.2)), if_pos (Nat.succ_le_of_lt hk)]

theorem exec_readStream_answered (h : s.executes r .readStream)
    (hsel : rd8 (reqParams r.bytes) 0 = 0 ∨ rd8 (reqParams r.bytes) 0 = 1)
    (hk : (rd16 (reqParams r.bytes) 2).toNat ≤ 4094) :
    exec .readStream s = .next
      (s.respond r .ok
        (s.readStreamData (Bool.xor (decide (rd8 (reqParams r.bytes) 0 = 1)) s.table.active)
          (rd16 (reqParams r.bytes) 2).toNat)) := by
  have hbank : (if rd8 (reqParams r.bytes) 0 = 0 then s.table.active else !s.table.active)
      = Bool.xor (decide (rd8 (reqParams r.bytes) 0 = 1)) s.table.active := by
    rcases hsel with h0 | h1
    · rw [h0]
      simp
    · rw [h1]
      simp
  rw [exec_readStream h, if_neg (not_and_or.2 (hsel.imp not_not.2 not_not.2)), if_neg (by omega), hbank]

end ReadStream

section Reading

variable {s : State} {r : Request}

theorem exec_identify_begin (h : s.executes r .identify) : exec .identify s = .next (s.identifyBegin r) := by
  show execIdentify s = _
  unfold execIdentify
  rw [onReading_executes h]

theorem exec_identify_step {x : IdReads} {plan : List IdBlock} (h0 : s.inReset = false)
    (he : s.mgmt.executor = .reading r (.identify x plan)) :
    exec .identify s = .next (s.identifyStep r x plan) := by
  show execIdentify s = _
  unfold execIdentify
  rw [onReading_reads h0 he]

theorem exec_readMergeState_begin (h : s.executes r .readMergeState) :
    exec .readMergeState s = .next
      (if 4095 ≤ mergeStateStream r then s.respond r .badStream []
      else s.holdReading r
        (.mergeState (s.mrec (mergeStateStream r)) (markOf s.merge.pendingFlush (mergeStateStream r)))) := by
  show execReadMergeState s = _
  unfold execReadMergeState
  rw [onReading_executes h]
  rfl

theorem exec_readMergeState_answer {record : MergeRec} {marked : Bool} (h0 : s.inReset = false)
    (he : s.mgmt.executor = .reading r (.mergeState record marked)) :
    exec .readMergeState s = .next (s.respond r .ok (s.mergeStateData (mergeStateStream r) record marked)) := by
  show execReadMergeState s = _
  unfold execReadMergeState
  rw [onReading_reads h0 he]

end Reading

theorem Session.isOpen_eq_false_iff (x : Session) : x.isOpen = false ↔ x.idle = none := by
  simp [Session.isOpen]

/-- The three marks are the byte's low bits. -/
theorem Table.marksByte_eq (t : Table) (k : Nat) :
    t.marksByte k = onOff (markOf t.touched k) + 2 * onOff t.queuesTouched + 4 * onOff t.globalTouched := by
  unfold Table.marksByte
  cases markOf t.touched k <;> cases t.queuesTouched <;> cases t.globalTouched <;> rfl

/-- The two alignment states are the byte's nibbles. -/
theorem Align.code_nibbles (a b : Align) : (a.code <<< 4) ||| b.code = 16 * a.code + b.code := by
  cases a <;> cases b <;> rfl

theorem MergeRec.reportedE_bytes (m : MergeRec) :
    be16n m.reportedE = m.sync.elim [0, 0] fun e => be16n e.toNat := by
  unfold MergeRec.reportedE
  cases m.sync <;> rfl

theorem Stats.scopeData_streams (st : Stats) (first n : Nat) :
    st.scopeData (.streams first n)
      = be16n first ++ be16n n
        ++ (List.range n).flatMap fun i => (st.stream (first + i)).list.flatMap be32 := by
  show be16n first ++ be16n n ++ ((List.range n).map fun i => first + i).flatMap _ = _
  rw [List.flatMap_map]

section MergeState

variable {s : State} {k : Nat} (record : MergeRec) (marked : Bool)

theorem mergeStateData_assembling {c : Ctx} (h : s.ctxOf k = some c) :
    s.mergeStateData k record marked
      = [onOff record.sync.isSome, onOff marked] ++ be16n record.reportedE
        ++ [byteOf record.staleRun, byteOf record.held.length, 1, 0] ++ be16n c.gathered ++ be16n c.declared
        ++ record.held.flatMap (fun h => be16n h.slice.seq.toNat) := by
  unfold State.mergeStateData State.asmState
  rw [h]
  rfl

theorem mergeStateData_noContext (h : s.ctxOf k = none) :
    s.mergeStateData k record marked
      = [onOff record.sync.isSome, onOff marked] ++ be16n record.reportedE
        ++ [byteOf record.staleRun, byteOf record.held.length, if markOf s.engine.discarding k then 2 else 0, 0]
        ++ be16n 0 ++ be16n 0 ++ record.held.flatMap (fun h => be16n h.slice.seq.toNat) := by
  unfold State.mergeStateData State.asmState
  rw [h]
  cases markOf s.engine.discarding k <;> rfl

end MergeState

/-- Settles O45: every reading request is one answer, whose data are the model's encodings written out. -/
theorem readingRequestsOnlyAnswer : Obligations.ReadingRequestsOnlyAnswer := by
  refine ⟨fun s r status data => ?_, fun s r => ?_⟩
  · intro value bytes
    have hbytes : responseBytes (reqCode r.bytes) (reqTag r.bytes) status s.table.generation data = bytes := by
      unfold responseBytes
      rw [Status.code_bytes]
      rfl
    unfold State.respond
    rw [hbytes]
    refine ⟨fun hb => ?_, fun hl => ?_⟩
    · rw [hb]
    · rw [hl]
  · intro p k0 k2 n on state mask policy queue reason reads hold
    refine ⟨exec_identify_begin, ?_, ?_, ?_, ?_, ?_, ?_, ?_, ?_⟩
    · rintro x plan ⟨h0, he⟩ la lb table pool held bound queues frames time
      refine ⟨fun hnil => ?_, fun b rest hcons => ?_⟩
      · subst hnil
        rw [exec_identify_step h0 he]
        rfl
      · subst hcons
        rw [exec_identify_step h0 he]
        cases b <;> rfl
    · intro h
      rw [exec_loadStatus h]
      unfold State.loadStatusData
      refine ⟨fun hx => ?_, fun x hx => ?_⟩
      · rw [hx]
        rfl
      · rw [hx]
        have hopen : (if x.isOpen = true then 1 else 2 : Byte) = if x.idle = none then 2 else 1 := by
          by_cases hi : x.idle = none
          · rw [if_pos hi, if_neg (Bool.not_eq_true _ ▸ x.isOpen_eq_false_iff.2 hi)]
          · rw [if_neg hi, if_pos (Bool.not_eq_false _ ▸ fun hc => hi (x.isOpen_eq_false_iff.1 hc))]
        dsimp only
        rw [hopen]
        rfl
    · intro h
      refine ⟨exec_readStream_badSelector h, exec_readStream_badStream h, fun hsel hk => ?_⟩
      intro shadow b e t
      have hb : s.bank (Bool.xor shadow t.active) = b := by
        show s.bank (Bool.xor shadow s.table.active) = if shadow = true then s.shadowBank else s.activeBank
        cases shadow
        · rw [Bool.false_xor]
          rfl
        · rw [Bool.true_xor]
          rfl
      have hqueue : ∀ q : QueueId, byteOf q.num = queue q := fun q => by
        cases q <;> rfl
      rw [exec_readStream_answered h hsel hk]
      show Host.Outcome.next (s.respond r .ok (s.readStreamData (Bool.xor shadow t.active) k2)) = _
      unfold State.readStreamData streamImage
      dsimp only
      rw [hb, Table.marksByte_eq, hqueue]
      rfl
    · intro h hk
      rw [exec_readMergeState_begin h]
      exact congrArg _ (if_pos (Nat.succ_le_of_lt hk))
    · intro h hk
      rw [exec_readMergeState_begin h]
      exact congrArg _ (if_neg (Nat.not_le_of_lt (Nat.lt_succ_of_le hk)))
    · rintro record marked ⟨h0, he⟩ sync answer
      have hsync : sync = be16n record.reportedE := by
        rw [record.reportedE_bytes]
        show (match record.sync with | some e => be16n e.toNat | none => [0, 0]) = _
        cases record.sync <;> rfl
      have hanswer : exec .readMergeState s = .next (s.respond r .ok (s.mergeStateData k0 record marked)) :=
        exec_readMergeState_answer h0 he
      refine ⟨fun c hc => ?_, fun hc hd => ?_, fun hc hd => ?_⟩
      · show exec .readMergeState s = _
        rw [hanswer, mergeStateData_assembling record marked hc, hsync]
        rfl
      · show exec .readMergeState s = _
        rw [hanswer, mergeStateData_noContext record marked hc, hsync, hd]
        rfl
      · show exec .readMergeState s = _
        rw [hanswer, mergeStateData_noContext record marked hc, hsync, hd]
        rfl
    · intro h lane g
      refine ⟨fun hg => ?_, fun hs1 hs2 => ?_, fun hs hk => ?_, fun hs hk hn => ?_, fun hs hk h1 h2 hlast => ?_,
        fun hs hk h1 h2 hlast => ?_⟩
      · rw [exec_readCounters_answered h (judgeScope_global hg)]
        rfl
      · exact exec_readCounters_refused h (judgeScope_badScope hs1 hs2)
      · exact exec_readCounters_refused h (judgeScope_badFirst hs hk)
      · exact exec_readCounters_refused h (judgeScope_badCount hs hk hn)
      · exact exec_readCounters_refused h (judgeScope_badLast hs hk h1 h2 hlast)
      · rw [exec_readCounters_answered h (judgeScope_streams hs hk h1 h2 hlast), Stats.scopeData_streams]
        rfl
    · intro h
      rw [exec_readLog h]
      refine ⟨fun hk => ?_, fun hk => ?_⟩
      · rw [if_pos hk]
      · rw [if_neg (Nat.not_lt.2 hk)]
        have hentry : LogEntry.bytes = fun e =>
            be32 e.time ++ be16n e.stream ++ be16n e.seq.toNat ++ be16n e.gathered
              ++ [reason e.reason, 16 * state e.laneA + state e.laneB] := by
          funext e
          unfold LogEntry.bytes
          rw [Align.code_nibbles]
          rfl
        unfold Stats.logData
        rw [hentry]
        rfl

end Sys2Proof.Machine
end

