-- ==== Sys2Proof/Proofs/LoadSessions.lean ====
section
/-! PROOF. Load sessions: how one is opened, committed, aborted and timed out (R147 to R150, R156 to R162). -/

namespace Sys2Proof.Machine

variable {s : State} {r : Request}

/-! ## Opening (R148, R149) -/

theorem openSession_of_open {x : Session} (hx : s.mgmt.session = some x) (hidle : x.idle ≠ none) :
    s.openSession = some x := by
  unfold State.openSession
  rw [hx]
  exact if_pos (Bool.not_eq_false _ ▸ isOpen_of hidle)

theorem openSession_of_not_open (h : ∀ x, s.mgmt.session = some x → x.idle = none) : s.openSession = none := by
  unfold State.openSession
  cases hx : s.mgmt.session with
  | none => rfl
  | some x => exact if_neg (by rw [x.isOpen_eq_false_iff.2 (h x hx)]; exact Bool.false_ne_true)

section Open

variable (h : s.executes r .loadOpen)
include h

theorem exec_loadOpen_badMode (h1 : rd8 (reqParams r.bytes) 0 ≠ 1) (h2 : rd8 (reqParams r.bytes) 0 ≠ 2) :
    exec .loadOpen s = .next (s.respond r .badRequest []) := by
  show execLoadOpen s = _
  unfold execLoadOpen
  rw [onReady_executes h]
  have hmode : OpenMode.ofByte? (rd8 (reqParams r.bytes) 0) = none := (if_neg h1).trans (if_neg h2)
  dsimp only
  rw [hmode]

theorem exec_loadOpen_mode {mode : OpenMode} (hm : OpenMode.ofByte? (rd8 (reqParams r.bytes) 0) = some mode) :
    exec .loadOpen s = .next
      (if outside (rd16 (reqParams r.bytes) 2).toNat 1 8192 then s.respond r .badRequest []
      else s.openSession.elim
        { s with
          mgmt :=
            { s.mgmt with
              executor :=
                .preparing r mode (rd16 (reqParams r.bytes) 2).toNat (rd32 (reqParams r.bytes) 4) } }
        fun x => s.respond r .sessionOpen ([x.owner.code, 0] ++ be16 x.number)) := by
  show execLoadOpen s = _
  unfold execLoadOpen
  rw [onReady_executes h]
  dsimp only
  rw [hm]
  cases s.openSession <;> rfl

end Open

theorem OpenMode.ofByte?_of {b : Byte} {mode : OpenMode} (h : (b = 1 ∧ mode = .clean) ∨ (b = 2 ∧ mode = .copy)) :
    OpenMode.ofByte? b = some mode := by
  rcases h with ⟨rfl, rfl⟩ | ⟨rfl, rfl⟩ <;> rfl

theorem shadow_withMarks (t : Table) (touched : StreamMarks) (queues glob : Bool) :
    ({ t with touched := touched, queuesTouched := queues, globalTouched := glob } : Table).shadow = t.shadow := rfl

theorem prepared_clean (s : State) :
    s.prepared .clean
      = { s.table.setShadow Bank.dflt with
          touched := BitVec.allOnes 4095, queuesTouched := true, globalTouched := true } := rfl

theorem prepared_copy (s : State) :
    s.prepared .copy
      = { s.table.setShadow s.activeBank with touched := 0, queuesTouched := false, globalTouched := false } := rfl

/-- The preparation writes the shadow bank and the marks alone. -/
theorem prepared_shadowOnly (s : State) (mode : OpenMode) : ShadowOnly s.table (s.prepared mode) := by
  unfold ShadowOnly State.prepared Table.setShadow
  cases mode <;> cases s.table.active <;> exact ⟨rfl, rfl, rfl, rfl⟩

theorem ShadowOnly.eq_update {t u : Table} (h : ShadowOnly t u) :
    u = { u with
          active := t.active, generation := t.generation, lastCommitted := t.lastCommitted
          bank0 := if t.active = true then u.bank0 else t.bank0
          bank1 := if t.active = true then t.bank1 else u.bank1 } := by
  obtain ⟨hactive, hgen, hlast, hbank⟩ := h
  have h0 : u.bank0 = if t.active = true then u.bank0 else t.bank0 := by
    rw [hactive] at hbank
    cases ht : t.active
    · simpa [ht] using hbank
    · rfl
  have h1 : u.bank1 = if t.active = true then t.bank1 else u.bank1 := by
    rw [hactive] at hbank
    cases ht : t.active
    · rfl
    · simpa [ht] using hbank
  rw [← h0, ← h1, ← hactive, ← hgen, ← hlast]

theorem exec_loadOpenPrepared {mode : OpenMode} {count : Nat} {check : Word32} (h0 : s.inReset = false)
    (he : s.mgmt.executor = .preparing r mode count check) :
    exec .loadOpenPrepared s = .next
      (State.respond
        { s with
          table := s.prepared mode
          mgmt :=
            { s.mgmt with
              session :=
                some
                  { number := nextNumber s.mgmt.sessionCounter, owner := r.source, mode := mode, declared := count
                    declaredCheck := check, next := 0, running := 0, idle := some s.newIdle }
              sessionCounter := nextNumber s.mgmt.sessionCounter } }
        r .ok (be16 (nextNumber s.mgmt.sessionCounter))) := by
  show execLoadOpenPrepared s = _
  unfold execLoadOpenPrepared
  rw [live_running h0, he]

/-- Settles O47: the checks in their order, and the preparation by the mode. -/
theorem loadOpenCreatesASession : Obligations.LoadOpenCreatesASession := by
  refine ⟨fun s r h => ?_, fun s r mode count check h0 he => ?_⟩
  · intro p count fits
    refine ⟨exec_loadOpen_badMode h, fun mode hmode => ?_⟩
    have hm : OpenMode.ofByte? (rd8 (reqParams r.bytes) 0) = some mode := OpenMode.ofByte?_of hmode
    have hanswer := exec_loadOpen_mode h hm
    refine ⟨fun hbad => ?_, fun x hfits hx hidle => ?_, fun hfits hx => ?_⟩
    · have hout : outside count 1 8192 = true := outside_true.2 (by show count < 1 ∨ 8192 < count; omega)
      exact hanswer.trans (congrArg _ (if_pos hout))
    · have hin : outside count 1 8192 = false := outside_false.2 hfits
      rw [openSession_of_open hx hidle] at hanswer
      refine hanswer.trans (congrArg _ ((if_neg (by rw [hin]; exact Bool.false_ne_true)).trans ?_))
      rfl
    · have hin : outside count 1 8192 = false := outside_false.2 hfits
      rw [openSession_of_not_open hx] at hanswer
      exact hanswer.trans (congrArg _ (if_neg (by rw [hin]; exact Bool.false_ne_true)))
  · intro number x
    refine ⟨s.prepared mode, exec_loadOpenPrepared h0 he, (prepared_shadowOnly s mode).eq_update, ?_, ?_⟩
    · rintro rfl
      rw [prepared_clean]
      exact ⟨(shadow_withMarks ..).trans (setShadow_shadow s.table Bank.dflt), fun k hk => markOf_allOnes hk, rfl, rfl⟩
    · rintro rfl
      rw [prepared_copy]
      exact ⟨(shadow_withMarks ..).trans (setShadow_shadow s.table s.activeBank), fun k => markOf_zero k, rfl, rfl⟩

/-! ## Committing (R156 to R158) -/

section Commit

variable (h : s.executes r .loadCommit)
include h

theorem exec_loadCommit_again
    (hagain : s.mgmt.session = none ∧ rd16 (reqParams r.bytes) 0 ≠ 0
      ∧ rd16 (reqParams r.bytes) 0 = s.table.lastCommitted) :
    exec .loadCommit s = .next (s.respond r .alreadyCommitted []) := by
  show execLoadCommit s = _
  unfold execLoadCommit
  rw [onReady_executes h]
  exact congrArg _ (if_pos hagain)

variable
  (hnot : ¬ (s.mgmt.session = none ∧ rd16 (reqParams r.bytes) 0 ≠ 0
    ∧ rd16 (reqParams r.bytes) 0 = s.table.lastCommitted))
include hnot

theorem exec_loadCommit_refused {status : Status}
    (hchecks : s.sessionChecks r.source (rd16 (reqParams r.bytes) 0) = .error status) :
    exec .loadCommit s = .next (s.respond r status []) := by
  show execLoadCommit s = _
  unfold execLoadCommit
  rw [onReady_executes h]
  dsimp only
  rw [if_neg hnot, hchecks]

theorem exec_loadCommit_checked {x : Session}
    (hchecks : s.sessionChecks r.source (rd16 (reqParams r.bytes) 0) = .ok x) :
    exec .loadCommit s = .next
      (if x.next ≠ x.declared then s.respond r .countMismatch (be16n x.next ++ be16n x.declared)
      else if x.running ≠ x.declaredCheck then (s.setSession none).respond r .checkMismatch (be32 x.running)
      else (s.commitSwap x).startSweep r (markedStreams s.table.touched)) := by
  show execLoadCommit s = _
  unfold execLoadCommit
  rw [onReady_executes h]
  dsimp only
  rw [if_neg hnot, hchecks]

end Commit

theorem markedStreams_sorted (m : StreamMarks) : (markedStreams m).Pairwise (· < ·) :=
  List.Pairwise.filter _ List.pairwise_lt_range

theorem Lane.atSwap_eq (l : Lane) (before after : Bool) :
    l.atSwap before after
      = if before = true ∧ after = false then { l with rx := [], align := .disabled, confirm := 0, failRun := 0 }
        else if before = false ∧ after = true then
          { l with rx := [], align := if l.signal = true then .hunt else .down, confirm := 0, failRun := 0 }
        else l := by
  cases before <;> cases after <;> rfl

/-- Settles O50: the refusals in their order; a sweep over no stream ends where it starts. -/
theorem loadCommitSwapsTheBanks : Obligations.LoadCommitSwapsTheBanks := by
  intro s r h number again answer
  have refused : ∀ {status}, ¬ again → s.sessionChecks r.source number = .error status → answer status [] :=
    fun hnot hchecks => exec_loadCommit_refused h hnot hchecks
  have notAgain : ∀ {x}, s.mgmt.session = some x → ¬ again := fun hx hc =>
    Option.some_ne_none _ (hx.symm.trans hc.1)
  refine ⟨exec_loadCommit_again h, fun hnot hnone => refused hnot (sessionChecks_none hnone),
    fun x hx hidle hnum => refused (notAgain hx) (sessionChecks_wrong hx hidle hnum),
    fun x hx hidle hnum howner => refused (notAgain hx) (sessionChecks_owned hx hidle hnum howner),
    fun x hopen => ?_⟩
  have hanswer := exec_loadCommit_checked h (notAgain hopen.1) (sessionChecks_open hopen)
  refine ⟨fun hcount => hanswer.trans (congrArg _ (if_pos hcount)), fun hcount hcheck => ?_, fun hcount hcheck => ?_⟩
  · exact hanswer.trans (congrArg _ ((if_neg (not_not.2 hcount)).trans (if_pos hcheck)))
  · intro list swapped t
    have hswap : s.commitSwap x = t := by
      unfold State.commitSwap
      dsimp only
      rw [Lane.atSwap_eq, Lane.atSwap_eq]
      rfl
    have hsweep : exec .loadCommit s = .next (t.startSweep r list) := by
      rw [← hswap]
      exact hanswer.trans (congrArg _ ((if_neg (not_not.2 hcount)).trans (if_neg (not_not.2 hcheck))))
    refine ⟨fun hne => ?_, fun hnil => ?_, mem_markedStreams _, markedStreams_sorted _⟩
    · rw [hsweep, startSweep_of_ne hne]
    · have hbank : onOff t.table.active = if s.table.active = true then 0 else 1 := by
        show onOff (!s.table.active) = _
        cases s.table.active <;> rfl
      rw [hsweep, hnil, startSweep_nil]
      unfold State.endSweep
      rw [hbank]
      rfl

/-! ## Ending without a commit (R160, R162) -/

theorem exec_loadAbort_refused {status : Status} (h : s.executes r .loadAbort)
    (hchecks : s.sessionChecks r.source (rd16 (reqParams r.bytes) 0) = .error status) :
    exec .loadAbort s = .next (s.respond r status []) := by
  show execLoadAbort s = _
  unfold execLoadAbort
  rw [onReady_executes h, hchecks]

theorem exec_loadIdleTimeout {x : Session} {d : Deadline} (h0 : s.inReset = false) (hx : s.mgmt.session = some x)
    (hd : x.idle = some d) :
    exec .loadIdleTimeout s = .next
      (if d.reached s.time then (s.setSession none).report (fun st => st.event .idleTimeouts) else s) := by
  show execLoadIdleTimeout s = _
  unfold execLoadIdleTimeout
  rw [live_running h0, hx]
  dsimp only
  rw [hd]

/-- Settles O51. -/
theorem sessionEndsWithoutCommit : Obligations.SessionEndsWithoutCommit := by
  refine ⟨fun s r h => ?_, fun s x d h0 hx hd => ⟨fun hdue => ?_, fun hdue => ?_⟩⟩
  · intro number answer
    have refused : ∀ {status}, s.sessionChecks r.source number = .error status → answer status :=
      fun hchecks => exec_loadAbort_refused h hchecks
    refine ⟨fun hnone => refused (sessionChecks_none hnone),
      fun x hx hidle hnum => refused (sessionChecks_wrong hx hidle hnum),
      fun x hx hidle hnum howner => refused (sessionChecks_owned hx hidle hnum howner), fun x hopen => ?_⟩
    have hchecks : s.sessionChecks r.source (rd16 (reqParams r.bytes) 0) = .ok x := sessionChecks_open hopen
    show execLoadAbort s = _
    unfold execLoadAbort
    rw [onReady_executes h, hchecks]
    rfl
  · rw [exec_loadIdleTimeout h0 hx hd, if_pos ((Deadline.reached_iff ..).2 hdue)]
    rfl
  · rw [exec_loadIdleTimeout h0 hx hd, if_neg (fun hc => Nat.not_le_of_lt hdue ((Deadline.reached_iff ..).1 hc))]

end Sys2Proof.Machine
end

