-- ==== Sys2Proof/Proofs/LoadRecords.lean ====
section
/-! PROOF. Loading records: which are refused and what a batch writes (R150 to R155, R191). -/

namespace Sys2Proof.Machine

/-! ## One record (R153, R191) -/

/-- The checks a record is judged by, after its kind: that of an unknown kind fails at offset 0. -/
def recordChecks (b : List Byte) : List (Bool × Nat) :=
  if rd8 b 0 = 1 then streamRecChecks b
  else if rd8 b 0 = 2 then queueRecChecks b
  else if rd8 b 0 = 3 then globalRecChecks b
  else [(true, 0)]

/-- What a record that passes its checks writes. -/
def recordItem (b : List Byte) : LoadRec :=
  if rd8 b 0 = 1 then .stream (recStream b) (recEntry b)
  else if rd8 b 0 = 2 then .queue ((QueueId.ofNum? (rd8 b 1).toNat).getD .dq0) (rd16 b 2).toNat
  else .glob (recGlobal b)

theorem judgeRecord_eq (b : List Byte) :
    judgeRecord b = (firstFailing (recordChecks b)).elim (.ok (recordItem b)) .error := by
  unfold judgeRecord recordChecks recordItem
  by_cases h1 : rd8 b 0 = 1
  · rw [if_pos h1, if_pos h1, if_pos h1]
    cases firstFailing (streamRecChecks b) <;> rfl
  · rw [if_neg h1, if_neg h1, if_neg h1]
    by_cases h2 : rd8 b 0 = 2
    · rw [if_pos h2, if_pos h2, if_pos h2]
      cases firstFailing (queueRecChecks b) <;> rfl
    · rw [if_neg h2, if_neg h2, if_neg h2]
      by_cases h3 : rd8 b 0 = 3
      · rw [if_pos h3, if_pos h3]
        cases firstFailing (globalRecChecks b) <;> rfl
      · rw [if_neg h3, if_neg h3]
        rfl

theorem judgeRecord_error {b : List Byte} {i off : Nat} (h : (recordChecks b)[i]? = some (true, off))
    (hbefore : ∀ j < i, ∃ o, (recordChecks b)[j]? = some (false, o)) : judgeRecord b = .error off := by
  rw [judgeRecord_eq, firstFailing_first _ i off h hbefore]
  rfl

theorem judgeRecord_ok {b : List Byte} (h : ∀ c ∈ recordChecks b, c.1 = false) : judgeRecord b = .ok (recordItem b) := by
  rw [judgeRecord_eq, firstFailing_none h]
  rfl

theorem byte_eq_one (x : Byte) : x = 1 ↔ x.toNat = 1 := byte_eq_iff x (by decide)

theorem byte_eq_two (x : Byte) : x = 2 ↔ x.toNat = 2 := byte_eq_iff x (by decide)

theorem byte_eq_three (x : Byte) : x = 3 ↔ x.toNat = 3 := byte_eq_iff x (by decide)

theorem byte_beq_one (x : Byte) : (x == 1) = decide (x.toNat = 1) := byte_beq x (by decide)

theorem LaneMask.ofByte_eq (x : Byte) :
    LaneMask.ofByte x = if x.toNat = 1 then .onlyA else if x.toNat = 2 then .onlyB else .both := by
  unfold LaneMask.ofByte
  simp only [byte_eq_one, byte_eq_two]

theorem Policy.ofByte_eq (x : Byte) : Policy.ofByte x = if x.toNat = 0 then .full else .readOnly := by
  unfold Policy.ofByte
  simp only [show x = 0 ↔ x.toNat = 0 from byte_eq_iff x (by decide)]

theorem QueueId.ofNum?_getD (n : Nat) :
    (QueueId.ofNum? n).getD .dq0 = if n = 1 then .dq1 else if n = 2 then .dq2 else if n = 3 then .dq3 else .dq0 := by
  rcases n with _ | _ | _ | _ | n <;> rfl

section Items

variable {b : List Byte}

theorem recordItem_stream (h : rd8 b 0 = 1) :
    recordItem b
      = .stream ((rd16 b 2).toNat % 4096)
        { rxEnable := decide ((rd8 b 1).toNat = 1)
          txEnable := decide ((rd8 b 4).toNat = 1)
          rxMask := if (rd8 b 5).toNat = 1 then .onlyA else if (rd8 b 5).toNat = 2 then .onlyB else .both
          txMask := if (rd8 b 6).toNat = 1 then .onlyA else if (rd8 b 6).toNat = 2 then .onlyB else .both
          window := (rd8 b 7).toNat
          holdTime := (rd16 b 8).toNat
          asmLimit := (rd8 b 10).toNat
          maxLen := (rd16 b 12).toNat
          checkEnable := decide ((rd8 b 11).toNat = 1)
          queue :=
            if (rd8 b 14).toNat = 1 then .dq1 else if (rd8 b 14).toNat = 2 then .dq2
            else if (rd8 b 14).toNat = 3 then .dq3 else .dq0 } := by
  unfold recordItem recEntry
  rw [if_pos h, recStream_eq, QueueId.ofNum?_getD]
  simp only [byte_beq_one, LaneMask.ofByte_eq]

theorem recordItem_queue (h : rd8 b 0 = 2) :
    recordItem b
      = .queue
        (if (rd8 b 1).toNat = 1 then .dq1 else if (rd8 b 1).toNat = 2 then .dq2
          else if (rd8 b 1).toNat = 3 then .dq3 else .dq0)
        (rd16 b 2).toNat := by
  unfold recordItem
  rw [if_neg (by rw [h]; decide), if_pos h, QueueId.ofNum?_getD]

theorem recordItem_glob (h : rd8 b 0 = 3) :
    recordItem b
      = .glob
        { ceiling := (rd16 b 2).toNat
          staleThreshold := (rd8 b 4).toNat
          rxEnableA := decide ((rd8 b 5).toNat = 1)
          txEnableA := decide ((rd8 b 6).toNat = 1)
          rxEnableB := decide ((rd8 b 7).toNat = 1)
          txEnableB := decide ((rd8 b 8).toNat = 1)
          idleTimeout := (rd8 b 9).toNat
          backbonePolicy := if (rd8 b 10).toNat = 0 then .full else .readOnly
          localPolicy := if (rd8 b 11).toNat = 0 then .full else .readOnly } := by
  unfold recordItem recGlobal
  rw [if_neg (by rw [h]; decide), if_neg (by rw [h]; decide)]
  simp only [byte_beq_one, Policy.ofByte_eq]

end Items

/-! ## A batch (R153) -/

section Batch

variable {b : List Byte} {bs : List (List Byte)} {i : Nat}

theorem judgeBatch_error {off : Nat} (h : judgeRecord b = .error off) : judgeBatch i (b :: bs) = .error (i, off) := by
  unfold judgeBatch
  rw [h]

theorem judgeBatch_ok {x : LoadRec} (h : judgeRecord b = .ok x) :
    judgeBatch i (b :: bs) = (judgeBatch (i + 1) bs).map (x :: ·) := by
  rw [judgeBatch, h]
  cases judgeBatch (i + 1) bs <;> rfl

end Batch

/-! ## LOAD_RECORDS (R151, R154) -/

/-- What a LOAD_RECORDS of an open session does with its batch: its place, then its records. -/
def State.loadBatch (s : State) (r : Request) (x : Session) (first count : Nat) (raw : List (List Byte)) : State :=
  if x.declared < first + count then s.respond r .badRequest []
  else if first + count ≤ x.next then
    (s.setSession (some { x with idle := some s.newIdle })).respond r .alreadyLoaded (be16n x.next)
  else if first ≠ x.next then s.respond r .outOfOrder (be16n x.next)
  else
    match judgeBatch 0 raw with
    | .error e => s.respond r .badRecord [byteOf e.1, byteOf e.2]
    | .ok recs =>
      State.respond
        { s with
          table := s.table.writeRecs recs
          mgmt :=
            { s.mgmt with
              session :=
                some
                  { x with
                    next := x.next + count, running := addChecks x.running raw, idle := some s.newIdle } } }
        r .ok (be16n (x.next + count))

section LoadBatch

variable {s : State} {r : Request} {x : Session} {first count : Nat} {raw : List (List Byte)}

theorem loadBatch_beyond (h : x.declared < first + count) :
    s.loadBatch r x first count raw = s.respond r .badRequest [] := if_pos h

variable (hwithin : first + count ≤ x.declared)
include hwithin

theorem loadBatch_already (h : first + count ≤ x.next) :
    s.loadBatch r x first count raw
      = State.respond { s with mgmt := { s.mgmt with session := some { x with idle := some s.newIdle } } } r
        .alreadyLoaded (be16n x.next) :=
  (if_neg (Nat.not_lt.2 hwithin)).trans (if_pos h)

variable (hnew : x.next < first + count)
include hnew

theorem loadBatch_outOfOrder (h : first ≠ x.next) :
    s.loadBatch r x first count raw = s.respond r .outOfOrder (be16n x.next) :=
  (if_neg (Nat.not_lt.2 hwithin)).trans ((if_neg (Nat.not_le.2 hnew)).trans (if_pos h))

variable (hplace : first = x.next)
include hplace

theorem loadBatch_badRecord {e : Nat × Nat} (h : judgeBatch 0 raw = .error e) :
    s.loadBatch r x first count raw = s.respond r .badRecord [byteOf e.1, byteOf e.2] := by
  unfold State.loadBatch
  rw [if_neg (Nat.not_lt.2 hwithin), if_neg (Nat.not_le.2 hnew), if_neg (not_not.2 hplace), h]

theorem loadBatch_written {recs : List LoadRec} (h : judgeBatch 0 raw = .ok recs) :
    s.loadBatch r x first count raw
      = State.respond
        { s with
          table := s.table.writeRecs recs
          mgmt :=
            { s.mgmt with
              session :=
                some
                  { x with
                    next := x.next + count, running := addChecks x.running raw, idle := some s.newIdle } } }
        r .ok (be16n (x.next + count)) := by
  unfold State.loadBatch
  rw [if_neg (Nat.not_lt.2 hwithin), if_neg (Nat.not_le.2 hnew), if_neg (not_not.2 hplace), h]

end LoadBatch

section LoadRecords

variable {s : State} {r : Request} (h : s.executes r .loadRecords)
include h

theorem exec_loadRecords_unfit
    (hfits : ¬ (8 ≤ (reqParams r.bytes).length ∧ 1 ≤ (rd16 (reqParams r.bytes) 4).toNat
      ∧ (rd16 (reqParams r.bytes) 4).toNat ≤ 32
      ∧ reqLength r.bytes = 8 + 16 * (rd16 (reqParams r.bytes) 4).toNat)) :
    exec .loadRecords s = .next (s.respond r .badRequest []) := by
  show execLoadRecords s = _
  unfold execLoadRecords
  rw [onReady_executes h]
  dsimp only
  simp only [outside_true]
  by_cases hshort : (reqParams r.bytes).length < 8
    ∨ (rd16 (reqParams r.bytes) 4).toNat < 1 ∨ 32 < (rd16 (reqParams r.bytes) 4).toNat
  · rw [if_pos hshort]
  · rw [if_neg hshort, if_pos (by omega)]

variable
  (hfits : 8 ≤ (reqParams r.bytes).length ∧ 1 ≤ (rd16 (reqParams r.bytes) 4).toNat
    ∧ (rd16 (reqParams r.bytes) 4).toNat ≤ 32
    ∧ reqLength r.bytes = 8 + 16 * (rd16 (reqParams r.bytes) 4).toNat)
include hfits

theorem exec_loadRecords_refused {status : Status}
    (hchecks : s.sessionChecks r.source (rd16 (reqParams r.bytes) 0) = .error status) :
    exec .loadRecords s = .next (s.respond r status []) := by
  obtain ⟨hlen, hlo, hhi, hwhole⟩ := hfits
  show execLoadRecords s = _
  unfold execLoadRecords
  rw [onReady_executes h]
  dsimp only
  simp only [outside_true]
  rw [if_neg (by omega), if_neg (not_not.2 hwhole), hchecks]

theorem exec_loadRecords_session {x : Session}
    (hchecks : s.sessionChecks r.source (rd16 (reqParams r.bytes) 0) = .ok x) :
    exec .loadRecords s = .next
      (s.loadBatch r x (rd16 (reqParams r.bytes) 2).toNat (rd16 (reqParams r.bytes) 4).toNat
        (splitRecords (rd16 (reqParams r.bytes) 4).toNat ((reqParams r.bytes).drop 8))) := by
  obtain ⟨hlen, hlo, hhi, hwhole⟩ := hfits
  show execLoadRecords s = _
  unfold execLoadRecords
  rw [onReady_executes h]
  dsimp only
  simp only [outside_true]
  rw [if_neg (by omega), if_neg (not_not.2 hwhole), hchecks]
  rfl

end LoadRecords

/-- Settles O49: a record's checks are one list and what it writes one item; a batch is refused at its first failing check
of form, session, place and records. -/
theorem loadRecordsRefusals : Obligations.LoadRecordsRefusals := by
  refine ⟨fun b => ?_, fun i => rfl, fun i b bs => ⟨fun off hb => judgeBatch_error hb, fun x hb => ⟨fun e he => ?_,
    fun xs hxs => ?_⟩⟩, fun s r h => ?_⟩
  · intro k v w flag mask range checks on lanes queue
    have hchecks : recordChecks b = checks := by
      obtain ⟨hstream, hqueue, hglobal⟩ := recordChecks_eq b
      unfold recordChecks
      rw [hstream, hqueue, hglobal]
      simp only [byte_eq_one, byte_eq_two, byte_eq_three]
      rfl
    rw [← hchecks]
    refine ⟨fun i off hi hbefore => judgeRecord_error hi hbefore, fun hall => ?_⟩
    rw [judgeRecord_ok hall]
    refine ⟨fun h1 => ?_, fun h2 => ?_, fun h3 => ?_⟩
    · rw [recordItem_stream ((byte_eq_one _).2 h1)]
    · rw [recordItem_queue ((byte_eq_two _).2 h2)]
    · rw [recordItem_glob ((byte_eq_three _).2 h3)]
  · rw [judgeBatch_ok hb, he]
    rfl
  · rw [judgeBatch_ok hb, hxs]
    rfl
  · intro p first count number answer fits
    refine ⟨exec_loadRecords_unfit h,
      fun hfits hnone => exec_loadRecords_refused h hfits (sessionChecks_none hnone),
      fun x hfits hx hidle hnum => exec_loadRecords_refused h hfits (sessionChecks_wrong hx hidle hnum),
      fun x hfits hx hidle hnum howner => exec_loadRecords_refused h hfits (sessionChecks_owned hx hidle hnum howner),
      fun x hfits hopen => ?_⟩
    have hanswer : exec .loadRecords s = .next (s.loadBatch r x first count (splitRecords count (p.drop 8))) :=
      exec_loadRecords_session h hfits (sessionChecks_open hopen)
    refine ⟨fun hbeyond => ?_, fun hwithin halready => ?_, fun hwithin hnew hplace => ?_,
      fun hwithin hplace i off hbatch => ?_⟩
    · show exec .loadRecords s = _
      rw [hanswer, loadBatch_beyond hbeyond]
    · rw [hanswer, loadBatch_already hwithin halready]
      rfl
    · show exec .loadRecords s = _
      rw [hanswer, loadBatch_outOfOrder hwithin hnew hplace]
    · obtain ⟨-, hpos, -, -⟩ := hfits
      show exec .loadRecords s = _
      rw [hanswer, loadBatch_badRecord hwithin (by omega) hplace hbatch]

/-! ## What a batch writes (R152, R154) -/

section Writes

variable (t : Table) (b : Bank)

theorem writeRecs_concat (xs : List LoadRec) (x : LoadRec) :
    t.writeRecs (xs ++ [x]) = (t.writeRecs xs).writeRec (t.writeRecs xs).shadow x := by
  unfold Table.writeRecs
  rw [List.foldl_append]
  rfl

theorem setShadow_marks :
    (t.setShadow b).touched = t.touched ∧ (t.setShadow b).queuesTouched = t.queuesTouched
      ∧ (t.setShadow b).globalTouched = t.globalTouched := by
  unfold Table.setShadow
  cases t.active <;> exact ⟨rfl, rfl, rfl⟩

theorem writeRec_stream (k : Nat) (e : Entry) :
    (t.writeRec b (.stream k e)).shadow = { b with entries := SMap.set Entry.dflt b.entries k e }
      ∧ (t.writeRec b (.stream k e)).touched = setMark t.touched k
      ∧ (t.writeRec b (.stream k e)).queuesTouched = t.queuesTouched
      ∧ (t.writeRec b (.stream k e)).globalTouched = t.globalTouched := by
  obtain ⟨-, hqueues, hglob⟩ := setShadow_marks t { b with entries := SMap.set Entry.dflt b.entries k e }
  exact ⟨(shadow_withMarks ..).trans (setShadow_shadow t _), rfl, hqueues, hglob⟩

theorem writeRec_queue (q : QueueId) (capacity : Nat) :
    (t.writeRec b (.queue q capacity)).shadow = { b with capacities := b.capacities.set q capacity }
      ∧ (t.writeRec b (.queue q capacity)).touched = t.touched
      ∧ (t.writeRec b (.queue q capacity)).queuesTouched = true
      ∧ (t.writeRec b (.queue q capacity)).globalTouched = t.globalTouched := by
  obtain ⟨htouched, -, hglob⟩ := setShadow_marks t { b with capacities := b.capacities.set q capacity }
  exact ⟨(shadow_withMarks ..).trans (setShadow_shadow t _), htouched, rfl, hglob⟩

theorem writeRec_glob (g : GlobalRec) :
    (t.writeRec b (.glob g)).shadow = { b with glob := g }
      ∧ (t.writeRec b (.glob g)).touched = t.touched
      ∧ (t.writeRec b (.glob g)).queuesTouched = t.queuesTouched
      ∧ (t.writeRec b (.glob g)).globalTouched = true := by
  obtain ⟨htouched, hqueues, -⟩ := setShadow_marks t { b with glob := g }
  exact ⟨(shadow_withMarks ..).trans (setShadow_shadow t _), htouched, hqueues, rfl⟩

end Writes

/-- Settles O48: the batch is written record by record, and each record is one write of the shadow bank and its mark. -/
theorem loadRecordsWritesTheShadow : Obligations.LoadRecordsWritesTheShadow := by
  refine ⟨fun s r x recs h => ?_, splitRecords_spec, fun t => rfl, fun t xs x => ?_⟩
  · intro p first count raw hlen hlo hhi hwhole hopen hplace hwithin hbatch
    have hanswer : exec .loadRecords s = .next (s.loadBatch r x first count raw) :=
      exec_loadRecords_session h ⟨hlen, hlo, hhi, hwhole⟩ (sessionChecks_open hopen)
    rw [hanswer, loadBatch_written hwithin (by omega) hplace hbatch, addChecks_sum, newIdle_eq]
  · intro u v
    have hv : v = u.writeRec u.shadow x := writeRecs_concat t xs x
    rw [hv]
    refine ⟨(ShadowOnly.writeRec u x).eq_update, ?_, ?_, ?_⟩
    · rintro k e rfl
      obtain ⟨hshadow, htouched, hqueues, hglob⟩ := writeRec_stream u u.shadow k e
      rw [hshadow, htouched]
      exact ⟨fun j => SMap.get_set Entry.dflt _ j k e, rfl, rfl, fun j hj => markOf_setMark _ k j hj, hqueues, hglob⟩
    · rintro q capacity rfl
      obtain ⟨hshadow, htouched, hqueues, hglob⟩ := writeRec_queue u u.shadow q capacity
      rw [hshadow]
      exact ⟨rfl, rfl, fun q' => PerQueue.get_set _ q q' capacity, htouched, hqueues, hglob⟩
    · rintro g rfl
      exact writeRec_glob u u.shadow g

end Sys2Proof.Machine
end

