-- ==== Sys2Proof/Proofs/Probes.lean ====
section
/-! PROOF. A probe starts with a clean stream 4094, and ends at its deadline (R168, R169, R173). -/

namespace Sys2Proof.Machine

/-! ## Draining a flushed stream (R169, log 9) -/

theorem asmState_engineAbandon {s : State} (hone : s.oneContextEach) (k : Nat) (reason : AbandonReason) :
    (s.engineAbandon k reason).asmState k = .idle := by
  unfold State.engineAbandon
  cases hc : s.ctxOf k with
  | some c =>
    have hidle := asmState_abandonOpen (c := c) hone reason c.lastSeq
    rwa [ctxOf_stream hc] at hidle
  | none => exact asmState_idle _ _ hc ((markOf_clearMark ..).trans (if_pos rfl))

/-- Nothing of the stream is left: its assembly is IDLE, and no item of it waits. -/
def State.drained (s : State) (k : Nat) : Prop := s.nextItem k = none ∧ s.asmState k = .idle

/-- An abandon request of the stream is the last item of all. -/
def State.endsWithAbandon (s : State) (k : Nat) : Prop :=
  ∃ before reason, s.engine.items = before ++ [.abandon k reason]

section Drain

variable {s : State} {k : Nat}

theorem nextItem_of_endsWithAbandon (h : s.endsWithAbandon k) : s.nextItem k ≠ none := by
  obtain ⟨before, reason, hitems⟩ := h
  unfold State.nextItem
  rw [hitems]
  simp [Item.stream]

/-- Taking the stream's next item leaves the abandon request last, or was the taking of it. -/
theorem endsWithAbandon_take {it : Item} (hone : s.oneContextEach) (h : s.endsWithAbandon k)
    (hnext : s.nextItem k = some it) :
    ((s.dropItem k).engineItem it).endsWithAbandon k ∨ ((s.dropItem k).engineItem it).drained k := by
  obtain ⟨before, reason, hitems⟩ := h
  have hkept : ((s.dropItem k).engineItem it).engine.items = s.engine.items.eraseP (fun it => it.stream == k) :=
    (contexts_engineItem (s.dropItem k) hone it).1
  unfold State.nextItem at hnext
  rw [hitems] at hkept hnext
  by_cases hbefore : ∃ x ∈ before, (x.stream == k) = true
  · obtain ⟨x, hx, hxk⟩ := hbefore
    exact .inl ⟨before.eraseP _, reason, hkept.trans (List.eraseP_append_left (p := fun it => it.stream == k) hxk _ hx)⟩
  · right
    have hnone : ∀ x ∈ before, ¬ (x.stream == k) = true := fun x hx hk => hbefore ⟨x, hx, hk⟩
    rw [List.eraseP_append_right _ hnone] at hkept
    rw [List.find?_append, List.find?_eq_none.2 hnone] at hnext
    obtain rfl : Item.abandon k reason = it := by simpa [Item.stream] using hnext
    refine ⟨?_, asmState_engineAbandon (s := s.dropItem k) hone k reason⟩
    unfold State.nextItem
    rw [hkept]
    simpa [Item.stream] using hnone

theorem drained_drainItems : ∀ (fuel : Nat) {s : State}, s.oneContextEach → s.engine.items.length ≤ fuel →
    s.endsWithAbandon k ∨ s.drained k → (State.drainItems k fuel s).drained k
  | 0, s, _, hlen, h => by
    rcases h with ⟨before, reason, hitems⟩ | h
    · rw [hitems] at hlen
      simp at hlen
    · exact h
  | fuel + 1, s, hone, hlen, h => by
    unfold State.drainItems
    cases hnext : s.nextItem k with
    | none => exact h.resolve_left fun hend => nextItem_of_endsWithAbandon hend hnext
    | some it =>
      obtain ⟨hitems, hone'⟩ := contexts_engineItem (s.dropItem k) hone it
      have hless := items_dropItem_length hnext
      have hend := h.resolve_right fun hd => by rw [hd.1] at hnext; exact Option.some_ne_none _ hnext.symm
      exact drained_drainItems fuel hone' (by rw [hitems]; omega) (endsWithAbandon_take hone hend hnext)

end Drain

/-! ## Starting (R168, R169) -/

theorem probeMessage_length (length : Nat) (seed : Byte) : (probeMessage length seed).length = length := by
  simp [probeMessage]

theorem probeMessage_get {length k : Nat} (seed : Byte) (h : k < length) :
    (probeMessage length seed)[k]? = some (seed + BitVec.ofNat 8 k) := by
  simp [probeMessage, h, byteOf]

/-- The state as the probe's message is built: stream 4094 flushed, and drained in the engine. -/
def State.probeCleared (s : State) : State :=
  State.drainItems 4094 (s.flush 4094 .flushed).engine.items.length (s.flush 4094 .flushed)

/-- A started probe: a flush of stream 4094, what draining it does to the engine, and the message in the outputs. -/
def State.probeStarted (s : State) (r : Request) (length : Nat) (seed : Byte) : State :=
  { s.flush 4094 .flushed with
    engine := s.probeCleared.engine
    pool := s.probeCleared.pool
    stats := s.probeCleared.stats
    slicer := { s.slicer with outputs := s.slicer.outputs ++ [.probe (probeMessage length seed)] }
    mgmt :=
      { s.mgmt with
        executor :=
          .probing r { length := length, buffer := probeMessage length seed, start := s.time, await := none } } }

section Cleared

variable {s : State}

theorem probeCleared_engineOnly (h : s.probeAwaiting = false) :
    EngineOnly (s.flush 4094 .flushed) s.probeCleared :=
  engineOnly_drainItems _ (s := s.flush 4094 .flushed) h

theorem startProbe_eq (h : s.probeAwaiting = false) (r : Request) (length : Nat) (seed : Byte) :
    s.startProbe r length seed = s.probeStarted r length seed := by
  have hcleared : s.startProbe r length seed
      = { s.probeCleared with
          slicer :=
            { s.probeCleared.slicer with
              outputs := s.probeCleared.slicer.outputs ++ [.probe (probeMessage length seed)] }
          mgmt :=
            { s.probeCleared.mgmt with
              executor :=
                .probing r
                  { length := length, buffer := probeMessage length seed, start := s.probeCleared.time
                    await := none } } } := rfl
  rw [hcleared, (probeCleared_engineOnly h).rest]
  rfl

theorem probeCleared_drained (hone : s.oneContextEach) : s.probeCleared.drained 4094 :=
  drained_drainItems _ ((contextsSame_flush s 4094 .flushed).oneContextEach hone) le_rfl
    (.inl ⟨s.engine.items, .flushed, State.flush_items ..⟩)

end Cleared

theorem exec_probe {s : State} {r : Request} (h : s.executes r .probe) :
    exec .probe s = .next
      (if (rd16 (reqParams r.bytes) 0).toNat < 1 ∨ 1024 < (rd16 (reqParams r.bytes) 0).toNat then
        s.respond r .badRequest []
      else if (s.entry 4094).rxEnable = false ∨ (s.entry 4094).txEnable = false then s.respond r .notEnabled []
      else if (s.entry 4094).maxLen < (rd16 (reqParams r.bytes) 0).toNat then s.respond r .badRequest []
      else s.startProbe r (rd16 (reqParams r.bytes) 0).toNat (rd8 (reqParams r.bytes) 2)) := by
  show execProbe s = _
  unfold execProbe
  rw [onReady_executes h]
  dsimp only
  simp only [outside_true]
  rfl

theorem exec_probeTimeout {s : State} {r : Request} {p : ProbeRec} {slices : Nat} {d : Deadline}
    (h0 : s.inReset = false) (hx : s.mgmt.executor = .probing r p) (ha : p.await = some (slices, d)) :
    exec .probeTimeout s = .next (if d.reached s.time then s.endProbe 3 13 0 0 LaneSet.empty else s) := by
  show execProbeTimeout s = _
  unfold execProbeTimeout
  rw [live_running h0, hx]
  dsimp only
  rw [ha]

/-- Settles O52: the flush leaves the abandon request last of all items, so that draining the stream ends with it. -/
theorem probeStartsAndTimesOut : Obligations.ProbeStartsAndTimesOut := by
  refine ⟨fun s r h hone => ?_, fun s r p slices d h0 hx ha => ?_⟩
  · intro p length seed e fits
    rw [exec_probe h]
    refine ⟨fun hbad => ?_, fun hfits hoff => ?_, fun hfits hrx htx hlong => ?_, fun hfits hrx htx hlen => ?_⟩
    · exact congrArg _ (if_pos (by show length < 1 ∨ 1024 < length; omega))
    · have hin : ¬ (length < 1 ∨ 1024 < length) := by omega
      exact congrArg _ ((if_neg hin).trans (if_pos hoff))
    · have hin : ¬ (length < 1 ∨ 1024 < length) := by omega
      have hon : ¬ (e.rxEnable = false ∨ e.txEnable = false) := by simp [hrx, htx]
      exact congrArg _ ((if_neg hin).trans ((if_neg hon).trans (if_pos hlong)))
    · have hin : ¬ (length < 1 ∨ 1024 < length) := by omega
      have hon : ¬ (e.rxEnable = false ∨ e.txEnable = false) := by simp [hrx, htx]
      obtain ⟨hnext, hidle⟩ := probeCleared_drained hone
      have hrec := setMrec_mrec (s.returnRx (s.mrec 4094).held.length) 4094
      refine ⟨s.probeStarted r length seed, probeMessage length seed, ?_, probeMessage_length length seed, fun k hk => probeMessage_get seed hk,
        ?_⟩
      · exact congrArg _ ((if_neg hin).trans ((if_neg hon).trans
          ((if_neg (Nat.not_lt.2 hlen)).trans (startProbe_eq (probeAwaiting_of_executes h) r length seed))))
      · exact ⟨rfl, rfl, (hrec 4094 MergeRec.fresh).trans (if_pos rfl),
          fun k hk => (hrec k MergeRec.fresh).trans (if_neg hk), (markOf_clearMark ..).trans (if_pos rfl), hidle, hnext,
          rfl, rfl, rfl, rfl, rfl, rfl⟩
  · rw [exec_probeTimeout h0 hx ha]
    refine ⟨fun hdue => ?_, fun hdue => ?_⟩
    · rw [if_pos ((Deadline.reached_iff ..).2 hdue), endProbe_of_awaiting hx ha]
      rfl
    · rw [if_neg (fun hc => Nat.not_le_of_lt hdue ((Deadline.reached_iff ..).1 hc))]

end Sys2Proof.Machine
end

