-- ==== Sys2Proof/Proofs/ResetPin.lean ====
section
/-! PROOF. The queue of commands, the reset pin, and the invariants after reset (R192, log 21). -/

namespace Sys2Proof.Machine

/-- Settles O1. -/
theorem stepRunsTheFrontCommand : Obligations.StepRunsTheFrontCommand := by
  intro c rest s h
  unfold step
  rw [h]

/-! ## While the pin is asserted -/

/-- Every command but the pin's own and the input levels' is one of the running part. -/
theorem exec_inReset {c : Instr} {s : State} (h : s.inReset = true) (hassert : c ≠ .resetAssert)
    (hhard : c ≠ .hardReset) (hpower : c ≠ .powerOn) (hhold : c ≠ .holdAssert) (hrelease : c ≠ .holdRelease)
    (hloss : ∀ l, c ≠ .signalLoss l) (hregain : ∀ l, c ≠ .signalRegain l) : exec c s = .next s := by
  cases s with
  | mk inReset =>
    obtain rfl : inReset = true := h
    cases c with
    | resetAssert => exact absurd rfl hassert
    | hardReset => exact absurd rfl hhard
    | powerOn => exact absurd rfl hpower
    | holdAssert => exact absurd rfl hhold
    | holdRelease => exact absurd rfl hrelease
    | signalLoss l => exact absurd rfl (hloss l)
    | signalRegain l => exact absurd rfl (hregain l)
    | _ => rfl

/-- Settles O3. -/
theorem resetPinStopsThePart : Obligations.ResetPinStopsThePart := by
  refine ⟨fun s => rfl, fun s h => ⟨fun c => exec_inReset h, fun l => ?_, fun l => ?_, rfl, ?_, fun hp => ?_, ?_, ?_⟩⟩
  · show execSignalLoss l s = _
    unfold execSignalLoss
    simp [h]
  · show execSignalRegain l s = _
    unfold execSignalRegain
    simp [h]
  · show execHoldRelease s = _
    unfold execHoldRelease
    simp [h]
  · rw [step_tick hp]
    unfold State.tick
    rw [if_pos h]
  · simp [State.ready, h]
  · simp [State.output, h]

/-! ## The release of the pin -/

/-- Settles O4: both releases answer the state `State.atRelease`. -/
theorem releaseLeavesHardResetValues : Obligations.ReleaseLeavesHardResetValues := by
  intro s
  have hqueues (q : QueueId) : s.atRelease.delivery.dqs.get q = [] ∧ s.atRelease.occupancy q = 0
      ∧ s.atRelease.activeBank.capacities.get q = 64 := by
    cases q <;> exact ⟨rfl, rfl, rfl⟩
  have hzero : Globals.zero.list = List.replicate 27 0 := rfl
  have hglob : ∀ c ∈ s.atRelease.stats.glob.list, c = 0 := fun c hc =>
    List.eq_of_mem_replicate (show c ∈ List.replicate 27 0 from hzero ▸ hc)
  have hidle (k : Nat) : s.atRelease.asmState k = .idle := asmState_idle _ k rfl (markOf_zero k)
  exact ⟨s.atRelease, rfl, rfl, rfl, rfl, rfl, rfl, rfl, fun _ => rfl, rfl, rfl, hidle, rfl, rfl, rfl, hqueues, rfl,
    rfl, rfl, rfl, rfl, rfl, rfl, rfl, rfl, rfl, rfl, fun _ => rfl, rfl, rfl, rfl, rfl, rfl, rfl, rfl, rfl, rfl, rfl,
    rfl, rfl, rfl, rfl, rfl, rfl, fun _ => rfl, rfl, rfl, hglob, rfl, rfl⟩

/-- Settles O55: what is empty at reset holds nothing, and both banks are at the defaults. -/
theorem invariantsHoldAtReset : Obligations.InvariantsHoldAtReset := by
  have hbuffers : State.reset.buffersAccounted :=
    (buffersAccounted_iff _).2 ⟨buffered_of_empty rfl rfl rfl rfl rfl rfl rfl, List.forall_mem_nil _, List.forall_mem_nil _⟩
  have hblocks : State.reset.blocksAccounted :=
    (blocksAccounted_iff _).2 (balanced_of_empty rfl rfl rfl rfl rfl rfl rfl rfl rfl)
  have hwindows : State.reset.windowsKept := (windowsKept_iff _).2 ⟨fun _ hx => (Option.some_ne_none _ hx.symm).elim, recordsKept_fresh rfl⟩
  have hocc (q : QueueId) : State.reset.occupancy q ≤ 256 := by
    cases q <;> exact Nat.zero_le 256
  have hlane : capLane Lane.reset := ⟨Nat.zero_le 64, Nat.zero_le 6, Nat.zero_lt_succ 3⟩
  have hcapacities : State.reset.withinCapacities := (withinCapacities_iff _ hbuffers).2
    ⟨capMerge_of_empty rfl, rfl, hocc, Nat.zero_le 64, ⟨hlane, hlane⟩, Nat.zero_le 32, ⟨Nat.zero_le 4, Nat.zero_le 4⟩,
      Nat.zero_le 32⟩
  exact ⟨hblocks, hbuffers, hcapacities, oneContextEach_of_empty rfl, portOnCourse_of_none rfl, hwindows,
    bank_dflt_inRange, bank_dflt_inRange⟩

end Sys2Proof.Machine
end
